-- ==== Sys2Proof/Word.lean ====
section
/-! DEFINITION. The word types of the JCC: bytes of LMEM, 16-bit and 32-bit registers. -/

namespace Sys2Proof

/-- One byte of LMEM (00 R9). -/
abbrev Byte := BitVec 8

/-- A 16-bit register field: a predictor, a reciprocal, the restart interval. -/
abbrev Half := BitVec 16

/-- A 32-bit control/status register, command word or block entry (10 R57, R55). -/
abbrev Word := BitVec 32

/-- A block slot number, the D and S fields of a command word (30 R205). -/
abbrev Slot := BitVec 3

/-- A block: 64 int32 entries (10 R55). -/
abbrev Block := Vector Word 64

end Sys2Proof
end

