-- ==== Sys2Proof/Syntax.lean ====
section
/-! DEFINITION. The instructions of the JCC: one constructor per row of spec/opcode_table.json. The first 26 are the
commands a host writes to CSR.CMD (30 R203); the others are the markers the parser reads from a JPEG stream (30 R241),
with a field for the bits of the code byte the row leaves free. Fields keep the widths of 30 R200. -/

namespace Sys2Proof

inductive Instr where
  -- system commands (48)
  | nop
  | predclr
  -- bit writer and bit reader (43), stream closer (44)
  | bwinit
  | bwflush
  | close
  | brinit
  | bralign
  -- DCT (42)
  | fdct (d src : Slot)
  | idct (d src : Slot)
  -- quantizer and zigzag (41)
  | quant (d src : Slot) (t : BitVec 2)
  | dequant (d src : Slot) (t : BitVec 2)
  | zigzag (d src : Slot)
  | unzigzag (d src : Slot)
  | qbuild (t : BitVec 2) (x : BitVec 4)
  | qload (t : BitVec 2)
  -- Huffman codec (43)
  | henc (src : Slot) (c t : BitVec 2)
  | hdec (d : Slot) (c t : BitVec 2)
  | hload (t : BitVec 2) (x : BitVec 4)
  -- pixel converter (40), upsampler (46)
  | cconv (t : BitVec 2) (x : BitVec 4)
  | upscc (t : BitVec 2) (x : BitVec 4)
  -- framer (44) and parser (45)
  | hdrw (t : BitVec 2)
  | parsehdr
  | rstchk
  | eoichk
  -- macro commands (47)
  | encode
  | decode
  -- markers (30 R241)
  | soi
  | eoi
  | dqt
  | dht
  | dri
  | sof0
  | sos
  | rstn (n : BitVec 3)
  | appn (n : BitVec 4)
  | com
  | sof1
  | sof2
  | sof3
  | sof5
  | sof6
  | sof7
  | jpg
  | sof9
  | sof10
  | sof11
  | dac
  | sof13
  | sof14
  | sof15
  | dnl
  | dhp
  | exp
  | tem
  | jpgnF0 (n : BitVec 3)
  | jpgnF8 (n : BitVec 2)
  | jpgnFC (n : BitVec 1)
  | res02 (n : BitVec 1)
  | res04 (n : BitVec 2)
  | res08 (n : BitVec 3)
  | res10 (n : BitVec 4)
  | res20 (n : BitVec 5)
  | res40 (n : BitVec 6)
  | res80 (n : BitVec 6)
  deriving DecidableEq, Repr

end Sys2Proof
end

