-- ==== Sys2Proof/Decode.lean ====
section
/-! DEFINITION. The decoder and the encoder. A command is the 32-bit word written to CSR.CMD (30 R200 to R204); a marker
is two bytes of a JPEG stream, FF and the code byte (30 R240, R241; 20 R155). Both decoders are total and reject by
name. The encoder is written from the same tables. -/

namespace Sys2Proof

/-- Why a command word or a pair of bytes is no instruction. -/
inductive DecodeError where
  /-- a bit of 11, 15, 31:24 is set (30 R201) -/
  | reservedBits
  /-- a field the opcode does not use is not zero (30 R201) -/
  | unusedField
  /-- OP is not in the map (30 R204) -/
  | unassignedOpcode
  /-- no marker: the first byte is not FF, or the code byte is 00 or FF (30 R240) -/
  | notAMarker
  deriving DecidableEq, Repr

/-- The words of an instruction: a command word or the two bytes of a marker, the byte FF in bits 15:8. -/
inductive Encoding where
  | command (w : Word)
  | marker (w : Half)
  deriving DecidableEq, Repr

/-! ### Command words -/

/-- OP, bits 7:0 (30 R200). -/
def fieldOp (w : Word) : Byte := w.extractLsb' 0 8

/-- D, bits 10:8 (30 R200). -/
def fieldD (w : Word) : Slot := w.extractLsb' 8 3

/-- S, bits 14:12 (30 R200). -/
def fieldS (w : Word) : Slot := w.extractLsb' 12 3

/-- T, bits 17:16 (30 R200). -/
def fieldT (w : Word) : BitVec 2 := w.extractLsb' 16 2

/-- C, bits 19:18 (30 R200). -/
def fieldC (w : Word) : BitVec 2 := w.extractLsb' 18 2

/-- X, bits 23:20 (30 R200). -/
def fieldX (w : Word) : BitVec 4 := w.extractLsb' 20 4

/-- Bits 11, 15 and 31:24 (30 R200). -/
def reservedMask : Word := 0xFF008800#32

/-! The bits outside OP that must be 0 for each "Fields" entry of 30 R203. -/

def unusedAll : Word := 0xFFFFFF00#32
def unusedDS : Word := 0xFFFF8800#32
def unusedDST : Word := 0xFFFC8800#32
def unusedT : Word := 0xFFFCFF00#32
def unusedTX : Word := 0xFF0CFF00#32
def unusedSCT : Word := 0xFFF08F00#32
def unusedDCT : Word := 0xFFF0F800#32

/-- `i`, if the bits its opcode does not use are all 0 (30 R201). -/
def accept (w unused : Word) (i : Instr) : Except DecodeError Instr :=
  if w &&& unused = 0#32 then .ok i else .error .unusedField

/-- The opcode map (30 R203, R204), for a word whose reserved bits are 0. -/
def decodeByOpcode (w : Word) : Except DecodeError Instr :=
  match fieldOp w with
  | 0x00#8 => accept w unusedAll .nop
  | 0x01#8 => accept w unusedAll .predclr
  | 0x08#8 => accept w unusedAll .bwinit
  | 0x09#8 => accept w unusedAll .bwflush
  | 0x0B#8 => accept w unusedAll .close
  | 0x0C#8 => accept w unusedAll .brinit
  | 0x0D#8 => accept w unusedAll .bralign
  | 0x10#8 => accept w unusedDS (.fdct (fieldD w) (fieldS w))
  | 0x11#8 => accept w unusedDS (.idct (fieldD w) (fieldS w))
  | 0x14#8 => accept w unusedDST (.quant (fieldD w) (fieldS w) (fieldT w))
  | 0x15#8 => accept w unusedDST (.dequant (fieldD w) (fieldS w) (fieldT w))
  | 0x16#8 => accept w unusedDS (.zigzag (fieldD w) (fieldS w))
  | 0x17#8 => accept w unusedDS (.unzigzag (fieldD w) (fieldS w))
  | 0x18#8 => accept w unusedTX (.qbuild (fieldT w) (fieldX w))
  | 0x19#8 => accept w unusedT (.qload (fieldT w))
  | 0x20#8 => accept w unusedSCT (.henc (fieldS w) (fieldC w) (fieldT w))
  | 0x21#8 => accept w unusedDCT (.hdec (fieldD w) (fieldC w) (fieldT w))
  | 0x22#8 => accept w unusedTX (.hload (fieldT w) (fieldX w))
  | 0x30#8 => accept w unusedTX (.cconv (fieldT w) (fieldX w))
  | 0x31#8 => accept w unusedTX (.upscc (fieldT w) (fieldX w))
  | 0x38#8 => accept w unusedT (.hdrw (fieldT w))
  | 0x39#8 => accept w unusedAll .parsehdr
  | 0x3A#8 => accept w unusedAll .rstchk
  | 0x3B#8 => accept w unusedAll .eoichk
  | 0x40#8 => accept w unusedAll .encode
  | 0x41#8 => accept w unusedAll .decode
  | _ => .error .unassignedOpcode

/-- Decode a command word (30 R200 to R204). C = 3 and values of T and X that a command calls illegal are decoded; the
command itself raises ERR_COMMAND for them, as its pseudocode says. -/
def decodeCommand (w : Word) : Except DecodeError Instr :=
  if w &&& reservedMask = 0#32 then decodeByOpcode w else .error .reservedBits

/-- A command word from its fields (30 R200). -/
def commandWord (op : Byte) (d src : Slot) (t c : BitVec 2) (x : BitVec 4) : Word :=
  0#8 ++ x ++ c ++ t ++ 0#1 ++ src ++ 0#1 ++ d ++ op

/-! ### Markers -/

/-- The marker of a code byte (30 R241). -/
def decodeMarkerCode (c : Byte) : Except DecodeError Instr :=
  match c with
  | 0xD8#8 => .ok .soi
  | 0xD9#8 => .ok .eoi
  | 0xDB#8 => .ok .dqt
  | 0xC4#8 => .ok .dht
  | 0xDD#8 => .ok .dri
  | 0xC0#8 => .ok .sof0
  | 0xDA#8 => .ok .sos
  | 0xFE#8 => .ok .com
  | 0xC1#8 => .ok .sof1
  | 0xC2#8 => .ok .sof2
  | 0xC3#8 => .ok .sof3
  | 0xC5#8 => .ok .sof5
  | 0xC6#8 => .ok .sof6
  | 0xC7#8 => .ok .sof7
  | 0xC8#8 => .ok .jpg
  | 0xC9#8 => .ok .sof9
  | 0xCA#8 => .ok .sof10
  | 0xCB#8 => .ok .sof11
  | 0xCC#8 => .ok .dac
  | 0xCD#8 => .ok .sof13
  | 0xCE#8 => .ok .sof14
  | 0xCF#8 => .ok .sof15
  | 0xDC#8 => .ok .dnl
  | 0xDE#8 => .ok .dhp
  | 0xDF#8 => .ok .exp
  | 0x01#8 => .ok .tem
  | _ =>
    if c.extractLsb' 3 5 = 0b11010#5 then .ok (.rstn (c.extractLsb' 0 3))
    else if c.extractLsb' 4 4 = 0b1110#4 then .ok (.appn (c.extractLsb' 0 4))
    else if c.extractLsb' 3 5 = 0b11110#5 then .ok (.jpgnF0 (c.extractLsb' 0 3))
    else if c.extractLsb' 2 6 = 0b111110#6 then .ok (.jpgnF8 (c.extractLsb' 0 2))
    else if c.extractLsb' 1 7 = 0b1111110#7 then .ok (.jpgnFC (c.extractLsb' 0 1))
    else if c.extractLsb' 1 7 = 0b0000001#7 then .ok (.res02 (c.extractLsb' 0 1))
    else if c.extractLsb' 2 6 = 0b000001#6 then .ok (.res04 (c.extractLsb' 0 2))
    else if c.extractLsb' 3 5 = 0b00001#5 then .ok (.res08 (c.extractLsb' 0 3))
    else if c.extractLsb' 4 4 = 0b0001#4 then .ok (.res10 (c.extractLsb' 0 4))
    else if c.extractLsb' 5 3 = 0b001#3 then .ok (.res20 (c.extractLsb' 0 5))
    else if c.extractLsb' 6 2 = 0b01#2 then .ok (.res40 (c.extractLsb' 0 6))
    else if c.extractLsb' 6 2 = 0b10#2 then .ok (.res80 (c.extractLsb' 0 6))
    else .error .notAMarker

/-- A marker at the front of a byte string, and the bytes after it (30 R240; 20 R155). -/
def decodeMarkerBytes : List Byte → Except DecodeError (Instr × List Byte)
  | b :: c :: rest =>
    if b = 0xFF#8 then
      match decodeMarkerCode c with
      | .ok i => .ok (i, rest)
      | .error e => .error e
    else .error .notAMarker
  | _ => .error .notAMarker

/-! ### Both -/

/-- The instruction of an encoding. -/
def decode : Encoding → Except DecodeError Instr
  | .command w => decodeCommand w
  | .marker w => (decodeMarkerBytes [w.extractLsb' 8 8, w.extractLsb' 0 8]).map Prod.fst

/-- The words of an instruction (30 R200, R203, R241). -/
def encode : Instr → Encoding
  | .nop => .command (commandWord 0x00#8 0#3 0#3 0#2 0#2 0#4)
  | .predclr => .command (commandWord 0x01#8 0#3 0#3 0#2 0#2 0#4)
  | .bwinit => .command (commandWord 0x08#8 0#3 0#3 0#2 0#2 0#4)
  | .bwflush => .command (commandWord 0x09#8 0#3 0#3 0#2 0#2 0#4)
  | .close => .command (commandWord 0x0B#8 0#3 0#3 0#2 0#2 0#4)
  | .brinit => .command (commandWord 0x0C#8 0#3 0#3 0#2 0#2 0#4)
  | .bralign => .command (commandWord 0x0D#8 0#3 0#3 0#2 0#2 0#4)
  | .fdct d src => .command (commandWord 0x10#8 d src 0#2 0#2 0#4)
  | .idct d src => .command (commandWord 0x11#8 d src 0#2 0#2 0#4)
  | .quant d src t => .command (commandWord 0x14#8 d src t 0#2 0#4)
  | .dequant d src t => .command (commandWord 0x15#8 d src t 0#2 0#4)
  | .zigzag d src => .command (commandWord 0x16#8 d src 0#2 0#2 0#4)
  | .unzigzag d src => .command (commandWord 0x17#8 d src 0#2 0#2 0#4)
  | .qbuild t x => .command (commandWord 0x18#8 0#3 0#3 t 0#2 x)
  | .qload t => .command (commandWord 0x19#8 0#3 0#3 t 0#2 0#4)
  | .henc src c t => .command (commandWord 0x20#8 0#3 src t c 0#4)
  | .hdec d c t => .command (commandWord 0x21#8 d 0#3 t c 0#4)
  | .hload t x => .command (commandWord 0x22#8 0#3 0#3 t 0#2 x)
  | .cconv t x => .command (commandWord 0x30#8 0#3 0#3 t 0#2 x)
  | .upscc t x => .command (commandWord 0x31#8 0#3 0#3 t 0#2 x)
  | .hdrw t => .command (commandWord 0x38#8 0#3 0#3 t 0#2 0#4)
  | .parsehdr => .command (commandWord 0x39#8 0#3 0#3 0#2 0#2 0#4)
  | .rstchk => .command (commandWord 0x3A#8 0#3 0#3 0#2 0#2 0#4)
  | .eoichk => .command (commandWord 0x3B#8 0#3 0#3 0#2 0#2 0#4)
  | .encode => .command (commandWord 0x40#8 0#3 0#3 0#2 0#2 0#4)
  | .decode => .command (commandWord 0x41#8 0#3 0#3 0#2 0#2 0#4)
  | .soi => .marker (0xFF#8 ++ 0xD8#8)
  | .eoi => .marker (0xFF#8 ++ 0xD9#8)
  | .dqt => .marker (0xFF#8 ++ 0xDB#8)
  | .dht => .marker (0xFF#8 ++ 0xC4#8)
  | .dri => .marker (0xFF#8 ++ 0xDD#8)
  | .sof0 => .marker (0xFF#8 ++ 0xC0#8)
  | .sos => .marker (0xFF#8 ++ 0xDA#8)
  | .rstn n => .marker (0xFF#8 ++ (0b11010#5 ++ n))
  | .appn n => .marker (0xFF#8 ++ (0b1110#4 ++ n))
  | .com => .marker (0xFF#8 ++ 0xFE#8)
  | .sof1 => .marker (0xFF#8 ++ 0xC1#8)
  | .sof2 => .marker (0xFF#8 ++ 0xC2#8)
  | .sof3 => .marker (0xFF#8 ++ 0xC3#8)
  | .sof5 => .marker (0xFF#8 ++ 0xC5#8)
  | .sof6 => .marker (0xFF#8 ++ 0xC6#8)
  | .sof7 => .marker (0xFF#8 ++ 0xC7#8)
  | .jpg => .marker (0xFF#8 ++ 0xC8#8)
  | .sof9 => .marker (0xFF#8 ++ 0xC9#8)
  | .sof10 => .marker (0xFF#8 ++ 0xCA#8)
  | .sof11 => .marker (0xFF#8 ++ 0xCB#8)
  | .dac => .marker (0xFF#8 ++ 0xCC#8)
  | .sof13 => .marker (0xFF#8 ++ 0xCD#8)
  | .sof14 => .marker (0xFF#8 ++ 0xCE#8)
  | .sof15 => .marker (0xFF#8 ++ 0xCF#8)
  | .dnl => .marker (0xFF#8 ++ 0xDC#8)
  | .dhp => .marker (0xFF#8 ++ 0xDE#8)
  | .exp => .marker (0xFF#8 ++ 0xDF#8)
  | .tem => .marker (0xFF#8 ++ 0x01#8)
  | .jpgnF0 n => .marker (0xFF#8 ++ (0b11110#5 ++ n))
  | .jpgnF8 n => .marker (0xFF#8 ++ (0b111110#6 ++ n))
  | .jpgnFC n => .marker (0xFF#8 ++ (0b1111110#7 ++ n))
  | .res02 n => .marker (0xFF#8 ++ (0b0000001#7 ++ n))
  | .res04 n => .marker (0xFF#8 ++ (0b000001#6 ++ n))
  | .res08 n => .marker (0xFF#8 ++ (0b00001#5 ++ n))
  | .res10 n => .marker (0xFF#8 ++ (0b0001#4 ++ n))
  | .res20 n => .marker (0xFF#8 ++ (0b001#3 ++ n))
  | .res40 n => .marker (0xFF#8 ++ (0b01#2 ++ n))
  | .res80 n => .marker (0xFF#8 ++ (0b10#2 ++ n))

/-- The host's question about a row of the opcode table: the instruction whose table bits are `w`. A 32-bit row is a
command word; a 16-bit row is a marker, stored as FF and then the code byte, the lower address first. -/
def decodeTableWord (nbits w : Nat) : Option Instr :=
  if nbits = 32 then (decodeCommand (BitVec.ofNat 32 w)).toOption
  else if nbits = 16 then
    (decodeMarkerBytes [BitVec.ofNat 8 (w / 256), BitVec.ofNat 8 w]).toOption.map Prod.fst
  else none

end Sys2Proof
end

