-- ==== Sys2Proof/Config.lean ====
section
/-! DEFINITION. What an implementation of the JCC fixes, and the free values of the model: constants with no body, so
that a claim holds for every value of them. -/

namespace Sys2Proof

/-- Which allowed size of LMEM the machine was built with (00 R8, MEM_BYTES is OPEN: "a claim must hold for every allowed
value"). OPEN PARAMETER, log 4. -/
opaque Config.memBytesAbove : Fin (2 ^ 31 - 2 ^ 16 + 1)

/-- MEM_BYTES, the size of LMEM in bytes: any integer from 2^16 to 2^31 (00 R8, 20 R150). -/
def Config.memBytes : Nat := Config.memBytesAbove.val + 2 ^ 16

/-- The byte that LMEM address `a` holds while nothing has written it. `epoch` 0 is power-on (70 R800: "every byte is
an independent draw"), epoch n the n-th soft reset that abandoned a command writing there (70 R802). FREE VALUE, log 3
and log 7. -/
opaque Config.lmemDraw (epoch a : Nat) : Byte

/-- The byte the n-th undefined host read of LMEM returns (20 R165: "returns any value (a draw)"). FREE VALUE, log 6. -/
opaque Config.hostByteDraw (n : Nat) : Byte

/-- The word the n-th undefined host read of a CSR returns (20 R165: "returns any value"). FREE VALUE, log 6. -/
opaque Config.hostWordDraw (n : Nat) : Word

/-- The constant of the ID register (10 R60). -/
def Config.idWord : Word := 0x4A430001#32

/-- The size of the CSR space in bytes (20 R152). -/
def Config.csrBytes : Nat := 0x4000

end Sys2Proof
end

