-- ==== Sys2Proof/Machine/Operands.lean ====
section
/-! DEFINITION. Operand forms: the packed dimension and position words, the component field, pixel formats and
subsampling codes with their geometry (30 R205 to R215), and the exact-integer primitives of 00 R11. -/

namespace Sys2Proof.Machine

/-! ### The primitives of 00 R11 -/

/-- `clamp(x, lo, hi)` (00 R11). -/
def clamp (x lo hi : Int) : Int := if x < lo then lo else if hi < x then hi else x

/-- `clip(x)`: clamp to 0..255 (00 R11). -/
def clip (x : Int) : Int := clamp x 0 255

/-- `rnd(x, n)`: divide by 2^n rounding half up, n ≥ 1 (00 R11). -/
def rnd (x : Int) (n : Nat) : Int := (x + 2 ^ (n - 1)) >>> n

/-- `wrap32(x)`, as the 32 bits stored (00 R11). -/
def wrap32 (x : Int) : Word := BitVec.ofInt 32 x

/-- `wrap16(x)`, as the 16 bits stored (00 R11). -/
def wrap16 (x : Int) : Half := BitVec.ofInt 16 x

/-- `bitlen(n)` (00 R11). -/
def bitlen (n : Nat) : Nat := if n = 0 then 0 else Nat.log2 n + 1

/-- The n low bits of v, the most significant first (00 R10, bit streams). -/
def bitsMsb (v : Nat) : Nat → List Bool
  | 0 => []
  | n + 1 => v.testBit n :: bitsMsb v n

/-- The number whose bits, most significant first, extend those of `v` by `bs` (GETBITS, 43 R466). -/
def bitsValue (v : Nat) : List Bool → Nat
  | [] => v
  | b :: bs => bitsValue (2 * v + b.toNat) bs

/-- A byte as an integer sample. -/
def byteOf (x : Int) : Byte := BitVec.ofInt 8 x

/-- The big-endian bytes of a 16-bit field (20 R155). -/
def be16Bytes (n : Nat) : List Byte := [BitVec.ofNat 8 (n / 256), BitVec.ofNat 8 n]

/-! ### Packed words (30 R206) -/

/-- Bits 15:0 of a packed word: a width or an MCU column. -/
def lowHalf (w : Word) : Nat := w.toNat % 65536

/-- Bits 31:16 of a packed word: a height or an MCU row. -/
def highHalf (w : Word) : Nat := w.toNat / 65536

/-- `lo | hi << 16`. -/
def packHalves (lo hi : Nat) : Word := BitVec.ofNat 32 (lo + 65536 * hi)

/-- The component field C: 3 is illegal (30 R200). -/
def componentOf (c : BitVec 2) : Option (Fin 3) :=
  if h : c.toNat < 3 then some ⟨c.toNat, h⟩ else none

/-! ### Subsampling codes (30 R213) -/

inductive Subsampling where
  | s444
  | s422
  | s420
  | s400
  deriving DecidableEq, Repr

/-- The layout of code SS (30 R213). -/
def subsamplingOf (t : BitVec 2) : Subsampling :=
  if t = 0#2 then .s444 else if t = 1#2 then .s422 else if t = 2#2 then .s420 else .s400

/-- Horizontal luma factor (30 R213). -/
def lumaH : Subsampling → Nat
  | .s444 => 1
  | .s422 => 2
  | .s420 => 2
  | .s400 => 1

/-- Vertical luma factor (30 R213). -/
def lumaV : Subsampling → Nat
  | .s444 => 1
  | .s422 => 1
  | .s420 => 2
  | .s400 => 1

/-- MCU width in pixels, MW = 8·H (30 R213). -/
def mcuW (ss : Subsampling) : Nat := 8 * lumaH ss

/-- MCU height in pixels, MH = 8·V (30 R213). -/
def mcuH (ss : Subsampling) : Nat := 8 * lumaV ss

/-- The (slot, component) pairs of an MCU in scan order: Y0.., then Cb in slot 4, Cr in slot 5 unless 4:0:0
(10 R56, 47 R680 BLOCKS). -/
def mcuBlocks (ss : Subsampling) : List (Slot × Fin 3) :=
  (List.range (lumaH ss * lumaV ss)).map (fun b => (BitVec.ofNat 3 b, (0 : Fin 3)))
    ++ (match ss with
        | .s400 => []
        | _ => [(4#3, (1 : Fin 3)), (5#3, (2 : Fin 3))])

/-! ### Pixel formats (30 R210, 40 R300 to R304) -/

inductive PixelFormat where
  | rgb24
  | bgr24
  | rgb565
  | rgb32
  | yuv420p
  | yuv422p
  | yuv444p
  deriving DecidableEq, Repr

/-- The format of code X; 7 to 15 are illegal (30 R210). -/
def pixelFormatOf (x : BitVec 4) : Option PixelFormat :=
  if x = 0#4 then some .rgb24 else if x = 1#4 then some .bgr24 else if x = 2#4 then some .rgb565
  else if x = 3#4 then some .rgb32 else if x = 4#4 then some .yuv420p else if x = 5#4 then some .yuv422p
  else if x = 6#4 then some .yuv444p else none

/-- The legal (format, subsampling) pairs of CCONV and ENCODE (30 R215). -/
def legalPair : PixelFormat → Subsampling → Bool
  | .yuv420p, ss => ss = .s420 || ss = .s400
  | .yuv422p, ss => ss = .s422 || ss = .s400
  | .yuv444p, ss => ss = .s444 || ss = .s400
  | _, _ => true

/-- The format of code x when (x, SS) is a legal pair (30 R215). -/
def legalFormat (x : BitVec 4) (ss : Subsampling) : Option PixelFormat :=
  match pixelFormatOf x with
  | some f => if legalPair f ss then some f else none
  | none => none

/-- Chroma plane width CW of a planar format (40 R301); for a packed format there is no plane. -/
def chromaW (f : PixelFormat) (w : Nat) : Nat :=
  match f with
  | .yuv420p => (w + 1) / 2
  | .yuv422p => (w + 1) / 2
  | .yuv444p => w
  | _ => 0

/-- Chroma plane height CH of a planar format (40 R301). -/
def chromaH (f : PixelFormat) (h : Nat) : Nat :=
  match f with
  | .yuv420p => (h + 1) / 2
  | .yuv422p => h
  | .yuv444p => h
  | _ => 0

/-- SRC_SIZE(fmt, W, H), the bytes of a source image (40 R304). -/
def srcSize (f : PixelFormat) (w h : Nat) : Nat :=
  match f with
  | .rgb24 => 3 * w * h
  | .bgr24 => 3 * w * h
  | .rgb565 => 2 * w * h
  | .rgb32 => 4 * w * h
  | _ => w * h + 2 * (chromaW f w * chromaH f h)

/-- The number of MCU columns or rows, ceil(n / m) (40 R321). -/
def ceilDiv (n m : Nat) : Nat := (n + m - 1) / m

end Sys2Proof.Machine
end

