-- ==== Sys2Proof/Machine/State.lean ====
section
/-! DEFINITION. The state of the JCC: every piece of state 10_state.md names, LMEM, the moves that come next, and the
reset state (10 R99, 70 R800). Plain data throughout. -/

namespace Sys2Proof.Machine

/-! ### Errors (60 R750) -/

/-- The error codes a command can complete with (60 R750). -/
inductive ErrCode where
  | noSoi
  | precision
  | sizeMismatch
  | dimensions
  | tooManyComponents
  | sampling
  | qtSelector
  | profile
  | scanComponent
  | notBaseline
  | unexpectedMarker
  | noEoi
  | badTable
  | entropy
  | bounds
  | command
  deriving DecidableEq, Repr

/-! ### Register groups -/

/-- STATUS, offset 0x008 (10 R62). Its reserved bits read 0 and ignore writes, so they have no storage. -/
structure Status where
  busy : Bool
  done : Bool
  err : Bool
  resized : Bool
  ovr : Bool
  errCode : Byte
  deriving DecidableEq, Repr

/-- The bit writer: BW_PTR, BW_LIM and BW_STATE's ACC and CNT (10 R69, R90). -/
structure BitWriter where
  ptr : Word
  lim : Word
  acc : Byte
  cnt : BitVec 3
  deriving DecidableEq, Repr

/-- The bit reader: BR_PTR, BR_END (here `lim`) and BR_STATE's CUR, CNT and MARK (10 R70, R91). -/
structure BitReader where
  ptr : Word
  lim : Word
  cur : Byte
  cnt : BitVec 4
  mark : Bool
  deriving DecidableEq, Repr

/-- PSTATE.STATE (10 R72); the codes 5 and 6 are never produced. -/
inductive ParserState where
  | expectSoi
  | readingTables
  | sof0Seen
  | inScan
  | terminal
  | failed
  deriving DecidableEq, Repr

/-- FRM_INFO (10 R74): SS, the quantization selectors TQ and the Huffman selectors TD and TA per component. -/
structure FrameInfo where
  ss : BitVec 2
  tq : Vector (BitVec 2) 3
  td : Vector (BitVec 1) 3
  ta : Vector (BitVec 1) 3
  deriving DecidableEq, Repr

/-- A decoder Huffman table: BITS[1..16] (entry i holds BITS[i+1]) and HUFFVAL[0..255] (10 R83). -/
structure HuffTable where
  bits : Vector Byte 16
  vals : Vector Byte 256
  deriving DecidableEq, Repr

/-! ### Memory -/

/-- The LMEM bytes that have been written: strictly rising addresses. An unlisted address has no written value: it reads
as a free value (log 3), so no entry can equal what an unlisted address reads as. -/
abbrev Memory := List Host.Cell

/-- The canonical form of a memory. -/
abbrev Memory.wf (m : Memory) : Prop := m.Pairwise (fun x y => x.1 < y.1)

/-- A range [lo, hi) of LMEM addresses. -/
structure Region where
  lo : Nat
  hi : Nat
  deriving DecidableEq, Repr

/-! ### The moves (60 R785) -/

/-- The width of a host access (20 R151). -/
inductive AccessWidth where
  | byte
  | half
  | word
  deriving DecidableEq, Repr

/-- What the host can do (60 R785). -/
inductive HostAccess where
  | readCsr (offset : Nat) (width : AccessWidth)
  | writeCsr (offset : Nat) (width : AccessWidth) (data : Word)
  | readMem (addr : Nat) (width : AccessWidth)
  | writeMem (addr : Nat) (width : AccessWidth) (data : Word)
  deriving DecidableEq, Repr

/-- Who moves next: the host, with an access, or the engine, with its one move. There is no third agent (20 R163, 60
R785). -/
inductive Move where
  | host (a : HostAccess)
  | engine
  deriving DecidableEq, Repr

/-! ### The state -/

/-- The state of one JCC (10 R50). The last five fields are the model's own (INVENTORY.md, State). -/
structure State where
  /-- CTRL.IE (10 R61) -/
  ie : Bool
  /-- STATUS (10 R62) -/
  status : Status
  /-- CMD_L, the latched command (10 R59) -/
  cmdL : Word
  /-- ARG_L[0..7], the latched arguments (10 R59) -/
  argL : Vector Word 8
  /-- ARG0..ARG7 (10 R52, R64) -/
  arg : Vector Word 8
  /-- RES0 (10 R53, R65) -/
  res0 : Word
  /-- RES1 (10 R53, R65) -/
  res1 : Word
  /-- PREV_DIM (10 R67) -/
  prevDim : Word
  /-- DRI.RI (10 R68) -/
  dri : Half
  /-- the bit writer (10 R69) -/
  bw : BitWriter
  /-- the bit reader (10 R70) -/
  br : BitReader
  /-- PRED0..PRED2 (10 R71) -/
  pred : Vector Half 3
  /-- PSTATE.STATE (10 R72) -/
  pstate : ParserState
  /-- PSTATE.RST_NEXT (10 R72) -/
  rstNext : BitVec 3
  /-- FRM_DIM (10 R73) -/
  frmDim : Word
  /-- FRM_INFO (10 R74) -/
  frmInfo : FrameInfo
  /-- TVALID.QVALID[0..3] (10 R75) -/
  qvalid : Vector Bool 4
  /-- TVALID.HVALID, entry 2·Tc + Th (10 R75) -/
  hvalid : Vector Bool 4
  /-- QT[0..3], natural order (10 R80) -/
  qt : Vector (Vector Byte 64) 4
  /-- RQ[0..3], natural order (10 R80) -/
  rq : Vector (Vector Half 64) 4
  /-- BLK[0..7] (10 R55) -/
  blk : Vector Block 8
  /-- HT[Tc][Th], entry 2·Tc + Th (10 R83) -/
  ht : Vector HuffTable 4
  /-- LMEM, the written bytes (10 R97) -/
  mem : Memory
  /-- MEM_BYTES (00 R8), fixed as the machine runs -/
  memBytes : Nat
  /-- regions whose unlisted bytes were redrawn, newest first (log 7) -/
  undef : List Region
  /-- free values taken so far by host reads while BUSY (log 6) -/
  draws : Nat
  /-- what the last host read got back (log 5) -/
  hostData : Word
  /-- the moves that come next, oldest first (log 1) -/
  agenda : List Move
  deriving DecidableEq, Repr

/-- Why a step stops: an access to an address that does not exist. -/
inductive Fault where
  /-- Raised by a host access to LMEM with a byte at or beyond MEM_BYTES (20 R150): safe, the machine has no such byte. -/
  | lmemOutside
  /-- Raised by a host access to a CSR offset at or beyond 0x4000 (20 R152): safe, the machine has no such offset. -/
  | csrOutside
  deriving DecidableEq, Repr

/-- Why the model has no meaning for a move. -/
inductive Refusal where
  /-- An instruction with no meaning yet: raised by exec's arm of that instruction only. Safe. -/
  | notModelled (mnemonic : String)
  /-- Raised by a host write to LMEM, ARGn, PREV_DIM, DRI, PRED0..2 or a BLK word while BUSY = 1 (60 R787: "no move";
  93 I4: refuse). Safe within the host duties. -/
  | hostWriteWhileBusy
  /-- Raised by a host access to LMEM at an address that is no multiple of its width (20 R159; 93 I5: refuse). Safe
  within the host duties. -/
  | misalignedLmem
  /-- Raised by a CSR access other than an aligned 32-bit word (20 R159; 93 I5: refuse). Safe within the host duties. -/
  | csrForm
  deriving DecidableEq, Repr

/-! ### Reset (10 R99, 70 R800) -/

/-- STATUS after reset: 0 (10 R62). -/
def Status.reset : Status :=
  { busy := false, done := false, err := false, resized := false, ovr := false, errCode := 0#8 }

/-- The machine right after power-on reset: every element at the value 10 R99 states, LMEM unspecified, the engine idle
(70 R800). `memBytes` is the open constant; the model's own fields start empty (logs 1, 5, 6, 7). -/
def State.reset : State where
  ie := false
  status := Status.reset
  cmdL := 0#32
  argL := Vector.replicate 8 0#32
  arg := Vector.replicate 8 0#32
  res0 := 0#32
  res1 := 0#32
  prevDim := 0#32
  dri := 0#16
  bw := { ptr := 0#32, lim := 0#32, acc := 0#8, cnt := 0#3 }
  br := { ptr := 0#32, lim := 0#32, cur := 0#8, cnt := 0#4, mark := false }
  pred := Vector.replicate 3 0#16
  pstate := .expectSoi
  rstNext := 0#3
  frmDim := 0#32
  frmInfo :=
    { ss := 0#2, tq := Vector.replicate 3 0#2, td := Vector.replicate 3 0#1, ta := Vector.replicate 3 0#1 }
  qvalid := Vector.replicate 4 false
  hvalid := Vector.replicate 4 false
  qt := Vector.replicate 4 (Vector.replicate 64 0#8)
  rq := Vector.replicate 4 (Vector.replicate 64 0#16)
  blk := Vector.replicate 8 (Vector.replicate 64 0#32)
  ht := Vector.replicate 4 { bits := Vector.replicate 16 0#8, vals := Vector.replicate 256 0#8 }
  mem := []
  memBytes := Config.memBytes
  undef := []
  draws := 0
  hostData := 0#32
  agenda := []

end Sys2Proof.Machine
end

