-- ==== Sys2Proof/Machine/Flags.lean ====
section
/-! DEFINITION. STATUS, its every computation: error codes, completion, issue, write-1-to-clear, and the interrupt level
(10 R62; 60 R750, R756, R757, R770). -/

namespace Sys2Proof.Machine

/-- The number of an error (60 R750). -/
def errNumber : ErrCode → Byte
  | .noSoi => 1#8
  | .precision => 2#8
  | .sizeMismatch => 3#8
  | .dimensions => 4#8
  | .tooManyComponents => 5#8
  | .sampling => 6#8
  | .qtSelector => 7#8
  | .profile => 8#8
  | .scanComponent => 9#8
  | .notBaseline => 10#8
  | .unexpectedMarker => 11#8
  | .noEoi => 12#8
  | .badTable => 13#8
  | .entropy => 16#8
  | .bounds => 17#8
  | .command => 18#8

/-- ERRCODE of a completion: 0 without an error (60 R750). -/
def completionCode : Option ErrCode → Byte
  | none => 0#8
  | some e => errNumber e

/-- STATUS at completion (60 R756): BUSY ← 0, DONE ← 1, ERR ← (code ≠ 0), ERRCODE ← code; RESIZED and OVR stay. -/
def statusComplete (e : Option ErrCode) (st : Status) : Status :=
  { st with busy := false, done := true, err := e.isSome, errCode := completionCode e }

/-- STATUS when a CMD write is accepted (60 R757): DONE, ERR, RESIZED and ERRCODE cleared, BUSY set; OVR stays. -/
def statusIssue (st : Status) : Status :=
  { st with busy := true, done := false, err := false, resized := false, errCode := 0#8 }

/-- STATUS when the host writes `m` to it: the W1C bits 1 to 4 (10 R62). -/
def statusClear (m : Word) (st : Status) : Status :=
  { st with
    done := st.done && !m.getLsbD 1
    err := st.err && !m.getLsbD 2
    resized := st.resized && !m.getLsbD 3
    ovr := st.ovr && !m.getLsbD 4 }

/-- STATUS as the host reads it (10 R62). -/
def statusWord (st : Status) : Word :=
  0#16 ++ st.errCode ++ 0#3 ++ BitVec.ofBool st.ovr ++ BitVec.ofBool st.resized ++ BitVec.ofBool st.err
    ++ BitVec.ofBool st.done ++ BitVec.ofBool st.busy

/-- IRQ = CTRL.IE AND STATUS.DONE (60 R770). -/
def irq (s : State) : Bool := s.ie && s.status.done

end Sys2Proof.Machine
end

