-- ==== Sys2Proof/Machine/Tables.lean ====
section
/-! DEFINITION. The constant tables of the JCC: seed tables, zigzag order, and the encoder Huffman ROM (41 R350 to R353,
43 R450), with the canonical codes of a table (43 R451, R470). -/

namespace Sys2Proof.Machine

/-! ### Quantization seeds and zigzag -/

/-- BASE_L, natural order (41 R350). -/
def baseLuma : Vector Nat 64 :=
  #v[16, 11, 10, 16, 24, 40, 51, 61,
     12, 12, 14, 19, 26, 58, 60, 55,
     14, 13, 16, 24, 40, 57, 69, 56,
     14, 17, 22, 29, 51, 87, 80, 62,
     18, 22, 37, 56, 68, 109, 103, 77,
     24, 35, 55, 64, 81, 104, 113, 92,
     49, 64, 78, 87, 103, 121, 120, 101,
     72, 92, 95, 98, 112, 100, 103, 99]

/-- BASE_C, natural order (41 R351). -/
def baseChroma : Vector Nat 64 :=
  #v[17, 18, 24, 47, 99, 99, 99, 99,
     18, 21, 26, 66, 99, 99, 99, 99,
     24, 26, 56, 99, 99, 99, 99, 99,
     47, 66, 99, 99, 99, 99, 99, 99,
     99, 99, 99, 99, 99, 99, 99, 99,
     99, 99, 99, 99, 99, 99, 99, 99,
     99, 99, 99, 99, 99, 99, 99, 99,
     99, 99, 99, 99, 99, 99, 99, 99]

/-- ZZ[k], the natural index of the k-th coefficient in zigzag order (41 R352). -/
def zz : Vector (Fin 64) 64 :=
  #v[0, 1, 8, 16, 9, 2, 3, 10,
     17, 24, 32, 25, 18, 11, 4, 5,
     12, 19, 26, 33, 40, 48, 41, 34,
     27, 20, 13, 6, 7, 14, 21, 28,
     35, 42, 49, 56, 57, 50, 43, 36,
     29, 22, 15, 23, 30, 37, 44, 51,
     58, 59, 52, 45, 38, 31, 39, 46,
     53, 60, 61, 54, 47, 55, 62, 63]

/-- IZZ[i], the zigzag position of natural index i (41 R353). -/
def izz : Vector (Fin 64) 64 :=
  #v[0, 1, 5, 6, 14, 15, 27, 28,
     2, 4, 7, 13, 16, 26, 29, 42,
     3, 8, 12, 17, 25, 30, 41, 43,
     9, 11, 18, 24, 31, 40, 44, 53,
     10, 19, 23, 32, 39, 45, 52, 54,
     20, 22, 33, 38, 46, 51, 55, 60,
     21, 34, 37, 47, 50, 56, 59, 61,
     35, 36, 48, 49, 57, 58, 62, 63]

/-! ### Huffman tables as BITS and HUFFVAL lists -/

/-- A Huffman table as its BITS list (lengths 1 to 16) and its HUFFVAL list (43 R451). -/
structure HuffSpec where
  bits : List Nat
  vals : List Byte
  deriving DecidableEq, Repr

/-- ROM table DC0, luma DC (43 R450). -/
def romDc0 : HuffSpec where
  bits := [0, 1, 5, 1, 1, 1, 1, 1, 1, 0, 0, 0, 0, 0, 0, 0]
  vals := [0x00#8, 0x01#8, 0x02#8, 0x03#8, 0x04#8, 0x05#8, 0x06#8, 0x07#8, 0x08#8, 0x09#8, 0x0A#8, 0x0B#8]

/-- ROM table DC1, chroma DC (43 R450). -/
def romDc1 : HuffSpec where
  bits := [0, 3, 1, 1, 1, 1, 1, 1, 1, 1, 1, 0, 0, 0, 0, 0]
  vals := [0x00#8, 0x01#8, 0x02#8, 0x03#8, 0x04#8, 0x05#8, 0x06#8, 0x07#8, 0x08#8, 0x09#8, 0x0A#8, 0x0B#8]

/-- ROM table AC0, luma AC (43 R450). -/
def romAc0 : HuffSpec where
  bits := [0, 2, 1, 3, 3, 2, 4, 3, 5, 5, 4, 4, 0, 0, 1, 125]
  vals := [0x01#8, 0x02#8, 0x03#8, 0x00#8, 0x04#8, 0x11#8, 0x05#8, 0x12#8, 0x21#8, 0x31#8, 0x41#8, 0x06#8, 0x13#8, 0x51#8, 0x61#8, 0x07#8]
    ++ [0x22#8, 0x71#8, 0x14#8, 0x32#8, 0x81#8, 0x91#8, 0xA1#8, 0x08#8, 0x23#8, 0x42#8, 0xB1#8, 0xC1#8, 0x15#8, 0x52#8, 0xD1#8, 0xF0#8]
    ++ [0x24#8, 0x33#8, 0x62#8, 0x72#8, 0x82#8, 0x09#8, 0x0A#8, 0x16#8, 0x17#8, 0x18#8, 0x19#8, 0x1A#8, 0x25#8, 0x26#8, 0x27#8, 0x28#8]
    ++ [0x29#8, 0x2A#8, 0x34#8, 0x35#8, 0x36#8, 0x37#8, 0x38#8, 0x39#8, 0x3A#8, 0x43#8, 0x44#8, 0x45#8, 0x46#8, 0x47#8, 0x48#8, 0x49#8]
    ++ [0x4A#8, 0x53#8, 0x54#8, 0x55#8, 0x56#8, 0x57#8, 0x58#8, 0x59#8, 0x5A#8, 0x63#8, 0x64#8, 0x65#8, 0x66#8, 0x67#8, 0x68#8, 0x69#8]
    ++ [0x6A#8, 0x73#8, 0x74#8, 0x75#8, 0x76#8, 0x77#8, 0x78#8, 0x79#8, 0x7A#8, 0x83#8, 0x84#8, 0x85#8, 0x86#8, 0x87#8, 0x88#8, 0x89#8]
    ++ [0x8A#8, 0x92#8, 0x93#8, 0x94#8, 0x95#8, 0x96#8, 0x97#8, 0x98#8, 0x99#8, 0x9A#8, 0xA2#8, 0xA3#8, 0xA4#8, 0xA5#8, 0xA6#8, 0xA7#8]
    ++ [0xA8#8, 0xA9#8, 0xAA#8, 0xB2#8, 0xB3#8, 0xB4#8, 0xB5#8, 0xB6#8, 0xB7#8, 0xB8#8, 0xB9#8, 0xBA#8, 0xC2#8, 0xC3#8, 0xC4#8, 0xC5#8]
    ++ [0xC6#8, 0xC7#8, 0xC8#8, 0xC9#8, 0xCA#8, 0xD2#8, 0xD3#8, 0xD4#8, 0xD5#8, 0xD6#8, 0xD7#8, 0xD8#8, 0xD9#8, 0xDA#8, 0xE1#8, 0xE2#8]
    ++ [0xE3#8, 0xE4#8, 0xE5#8, 0xE6#8, 0xE7#8, 0xE8#8, 0xE9#8, 0xEA#8, 0xF1#8, 0xF2#8, 0xF3#8, 0xF4#8, 0xF5#8, 0xF6#8, 0xF7#8, 0xF8#8]
    ++ [0xF9#8, 0xFA#8]

/-- ROM table AC1, chroma AC (43 R450). -/
def romAc1 : HuffSpec where
  bits := [0, 2, 1, 2, 4, 4, 3, 4, 7, 5, 4, 4, 0, 1, 2, 119]
  vals := [0x00#8, 0x01#8, 0x02#8, 0x03#8, 0x11#8, 0x04#8, 0x05#8, 0x21#8, 0x31#8, 0x06#8, 0x12#8, 0x41#8, 0x51#8, 0x07#8, 0x61#8, 0x71#8]
    ++ [0x13#8, 0x22#8, 0x32#8, 0x81#8, 0x08#8, 0x14#8, 0x42#8, 0x91#8, 0xA1#8, 0xB1#8, 0xC1#8, 0x09#8, 0x23#8, 0x33#8, 0x52#8, 0xF0#8]
    ++ [0x15#8, 0x62#8, 0x72#8, 0xD1#8, 0x0A#8, 0x16#8, 0x24#8, 0x34#8, 0xE1#8, 0x25#8, 0xF1#8, 0x17#8, 0x18#8, 0x19#8, 0x1A#8, 0x26#8]
    ++ [0x27#8, 0x28#8, 0x29#8, 0x2A#8, 0x35#8, 0x36#8, 0x37#8, 0x38#8, 0x39#8, 0x3A#8, 0x43#8, 0x44#8, 0x45#8, 0x46#8, 0x47#8, 0x48#8]
    ++ [0x49#8, 0x4A#8, 0x53#8, 0x54#8, 0x55#8, 0x56#8, 0x57#8, 0x58#8, 0x59#8, 0x5A#8, 0x63#8, 0x64#8, 0x65#8, 0x66#8, 0x67#8, 0x68#8]
    ++ [0x69#8, 0x6A#8, 0x73#8, 0x74#8, 0x75#8, 0x76#8, 0x77#8, 0x78#8, 0x79#8, 0x7A#8, 0x82#8, 0x83#8, 0x84#8, 0x85#8, 0x86#8, 0x87#8]
    ++ [0x88#8, 0x89#8, 0x8A#8, 0x92#8, 0x93#8, 0x94#8, 0x95#8, 0x96#8, 0x97#8, 0x98#8, 0x99#8, 0x9A#8, 0xA2#8, 0xA3#8, 0xA4#8, 0xA5#8]
    ++ [0xA6#8, 0xA7#8, 0xA8#8, 0xA9#8, 0xAA#8, 0xB2#8, 0xB3#8, 0xB4#8, 0xB5#8, 0xB6#8, 0xB7#8, 0xB8#8, 0xB9#8, 0xBA#8, 0xC2#8, 0xC3#8]
    ++ [0xC4#8, 0xC5#8, 0xC6#8, 0xC7#8, 0xC8#8, 0xC9#8, 0xCA#8, 0xD2#8, 0xD3#8, 0xD4#8, 0xD5#8, 0xD6#8, 0xD7#8, 0xD8#8, 0xD9#8, 0xDA#8]
    ++ [0xE2#8, 0xE3#8, 0xE4#8, 0xE5#8, 0xE6#8, 0xE7#8, 0xE8#8, 0xE9#8, 0xEA#8, 0xF2#8, 0xF3#8, 0xF4#8, 0xF5#8, 0xF6#8, 0xF7#8, 0xF8#8]
    ++ [0xF9#8, 0xFA#8]

/-- A code word: symbol, length and code (43 R451). -/
structure CodeWord where
  sym : Byte
  len : Nat
  code : Nat
  deriving DecidableEq, Repr

/-- Consecutive codes of one length for the symbols `vs`, the first one `code` (43 R451). -/
def codesOfLength (len : Nat) : Nat → List Byte → List CodeWord
  | _, [] => []
  | code, v :: vs => { sym := v, len := len, code := code } :: codesOfLength len (code + 1) vs

/-- The walk of 43 R451 from length `len` on, with the counts of that length and the longer ones. -/
def canonicalFrom (len code : Nat) : List Nat → List Byte → List CodeWord
  | [], _ => []
  | n :: ns, vs =>
    codesOfLength len code (vs.take n) ++ canonicalFrom (len + 1) (2 * (code + n)) ns (vs.drop n)

/-- Every code word of a table (43 R451). -/
def canonicalCodes (t : HuffSpec) : List CodeWord := canonicalFrom 1 0 t.bits t.vals

/-- The walk never finds code > 2^L (43 R451, R473). -/
def walkFrom (len code : Nat) : List Nat → Bool
  | [] => true
  | n :: ns => decide (code + n ≤ 2 ^ len) && walkFrom (len + 1) (2 * (code + n)) ns

/-- The validity of a BITS list (43 R473): n = ΣBITS ≤ 256 and the walk holds. -/
def bitsValid (bits : List Nat) : Bool := decide (bits.sum ≤ 256) && walkFrom 1 0 bits

/-- The bits of the code word of symbol `sym`, most significant first (CODE and LEN of 43 R451); a symbol the table does
not list has none. -/
def codeBits (t : HuffSpec) (sym : Byte) : List Bool :=
  match (canonicalCodes t).find? (fun c => c.sym = sym) with
  | some c => bitsMsb c.code c.len
  | none => []

/-- One length of a decoder table: MINCODE, MAXCODE and VALPTR (43 R470). -/
structure Level where
  minCode : Nat
  maxCode : Int
  valPtr : Nat
  deriving DecidableEq, Repr

/-- The levels from the length whose first code is `code` and whose first symbol has index `ptr` (43 R470). -/
def levelsFrom (code ptr : Nat) : List Nat → List Level
  | [] => []
  | n :: ns =>
    (if n = 0 then { minCode := 0, maxCode := -1, valPtr := 0 }
     else { minCode := code, maxCode := ((code + n - 1 : Nat) : Int), valPtr := ptr })
      :: levelsFrom (2 * (code + n)) (ptr + n) ns

/-- MINCODE, MAXCODE, VALPTR for L = 1..16 of a decoder table (43 R470; 10 R83: functions of BITS and HUFFVAL). -/
def levels (t : HuffTable) : List Level := levelsFrom 0 0 (t.bits.toList.map BitVec.toNat)

/-- The symbol a code of one level stands for, if the code is one of that level's (43 R471). -/
def levelSym (t : HuffTable) (l : Level) (code : Nat) : Option Byte :=
  if 0 ≤ l.maxCode ∧ (code : Int) ≤ l.maxCode then some (t.vals.toList.getD (l.valPtr + code - l.minCode) 0#8)
  else none

/-- Canonical decode of a bit string: the symbol of the code that starts it and the code's length, or none when no
code of the given levels is a start of it. `len` bits with value `code` have been read. -/
def decodeBitsFrom (t : HuffTable) : List Level → Nat → Nat → List Bool → Option (Byte × Nat)
  | [], _, _, _ => none
  | _ :: _, _, _, [] => none
  | l :: ls, len, code, b :: bs =>
    match levelSym t l (2 * code + b.toNat) with
    | some v => some (v, len + 1)
    | none => decodeBitsFrom t ls (len + 1) (2 * code + b.toNat) bs

/-- LUT[p], the dense lookup of the next 10 bits (43 R472): (symbol, length), or none for "need more bits". -/
def lut (t : HuffTable) (p : Fin 1024) : Option (Byte × Nat) :=
  decodeBitsFrom t ((levels t).take 10) 0 0 (bitsMsb p.val 10)

/-- A decoder table from its BITS and HUFFVAL lists; entries n..255 are 0 (43 R474). -/
def huffTableOf (bits vals : List Byte) : HuffTable where
  bits := Vector.ofFn fun i : Fin 16 => bits.getD i.val 0#8
  vals := Vector.ofFn fun i : Fin 256 => vals.getD i.val 0#8

/-- A ROM table as the decoder table its DHT segment installs (43 R491). -/
def HuffSpec.toTable (t : HuffSpec) : HuffTable := huffTableOf (t.bits.map (BitVec.ofNat 8)) t.vals

end Sys2Proof.Machine
end

