-- ==== Sys2Proof/Machine/Ops.lean ====
section
/-! DEFINITION. The named operations over LMEM and the registers, and THE ONE way a command ends: raising an error (60
R755) and completing (60 R756). -/

namespace Sys2Proof.Machine

/-! ### LMEM (20 R150 to R156) -/

/-- The written value of address `a`, if there is one. -/
def memGet : Memory → Nat → Option Byte
  | [], _ => none
  | c :: m, a => if c.1 = a then some c.2 else memGet m a

/-- Write one byte, keeping the addresses strictly rising. -/
def memSet : Memory → Nat → Byte → Memory
  | [], a, b => [(a, b)]
  | c :: m, a, b =>
    if a < c.1 then (a, b) :: c :: m
    else if a = c.1 then (a, b) :: m
    else c :: memSet m a b

/-- Forget the written bytes of a region (70 R802). -/
def memForget (m : Memory) (r : Region) : Memory :=
  m.filter fun c => !(decide (r.lo ≤ c.1) && decide (c.1 < r.hi))

/-- How often address `a` has been redrawn: 0 since power-on, else the number of the newest region that holds it. -/
def undefEpoch : List Region → Nat → Nat
  | [], _ => 0
  | r :: rs, a => if r.lo ≤ a ∧ a < r.hi then rs.length + 1 else undefEpoch rs a

/-- The byte of LMEM at `a`: what was written, else a free value (70 R800, log 3). -/
def readByte (s : State) (a : Nat) : Byte :=
  match memGet s.mem a with
  | some b => b
  | none => Config.lmemDraw (undefEpoch s.undef a) a

/-- The state with byte `b` at address `a` of LMEM. -/
def writeByte (a : Nat) (b : Byte) (s : State) : State := { s with mem := memSet s.mem a b }

/-- The bytes at `a`, `a + 1`, … of LMEM. -/
def readBytes (s : State) (a : Nat) : Nat → List Byte
  | 0 => []
  | n + 1 => readByte s a :: readBytes s (a + 1) n

/-- The bytes `bs` written at `a`, `a + 1`, …. -/
def writeBytes (a : Nat) : List Byte → State → State
  | [], s => s
  | b :: bs, s => writeBytes (a + 1) bs (writeByte a b s)

/-! ### Block slots and predictors (10 R55, R71) -/

/-- BLK[d]. -/
def getBlk (s : State) (d : Slot) : Block := s.blk[d.toNat]'d.isLt

/-- BLK[d] ← b. -/
def setBlk (d : Slot) (b : Block) (s : State) : State := { s with blk := s.blk.set d.toNat b d.isLt }

/-- PRED[c], an int16. -/
def getPred (s : State) (c : Fin 3) : Int := s.pred[c].toInt

/-- PRED[c] ← v. -/
def setPred (c : Fin 3) (v : Half) (s : State) : State := { s with pred := s.pred.set c.val v c.isLt }

/-- PRED0..2 ← 0 (48 R721). -/
def clearPreds (s : State) : State := { s with pred := Vector.replicate 3 0#16 }

/-- RES0 ← v. -/
def setRes0 (v : Word) (s : State) : State := { s with res0 := v }

/-- RES1 ← v. -/
def setRes1 (v : Word) (s : State) : State := { s with res1 := v }

/-- PSTATE.STATE ← p. -/
def setPstate (p : ParserState) (s : State) : State := { s with pstate := p }

/-! ### Tables (41 R358, 43 R474) -/

/-- QVALID[t]. -/
def qtValid (s : State) (t : BitVec 2) : Bool := s.qvalid[t.toNat]'t.isLt

/-- QT[t]. -/
def getQt (s : State) (t : BitVec 2) : Vector Byte 64 := s.qt[t.toNat]'t.isLt

/-- RQ[t]. -/
def getRq (s : State) (t : BitVec 2) : Vector Half 64 := s.rq[t.toNat]'t.isLt

/-- The reciprocal of an entry, 32768 div q (41 R357). -/
def reciprocal (q : Byte) : Half := BitVec.ofNat 16 (32768 / q.toNat)

/-- Install quantization table t (41 R358), one update. -/
def installQt (t : BitVec 2) (e : Vector Byte 64) (s : State) : State :=
  { s with
    qt := s.qt.set t.toNat e t.isLt
    rq := s.rq.set t.toNat (Vector.ofFn fun i : Fin 64 => reciprocal e[i]) t.isLt
    qvalid := s.qvalid.set t.toNat true t.isLt }

/-- The slot of decoder table (Tc, Th): 2·Tc + Th (10 R76). -/
def htIndex (tc th : BitVec 1) : Fin 4 := ⟨2 * tc.toNat + th.toNat, by have := tc.isLt; have := th.isLt; omega⟩

/-- HVALID of (Tc, Th). -/
def htValid (s : State) (tc th : BitVec 1) : Bool := s.hvalid[htIndex tc th]

/-- HT[Tc][Th]. -/
def getHt (s : State) (tc th : BitVec 1) : HuffTable := s.ht[htIndex tc th]

/-- Install decoder table (Tc, Th) (43 R474), one update. -/
def installHt (tc th : BitVec 1) (t : HuffTable) (s : State) : State :=
  { s with
    ht := s.ht.set (htIndex tc th).val t (htIndex tc th).isLt
    hvalid := s.hvalid.set (htIndex tc th).val true (htIndex tc th).isLt }

/-! ### Running a command (60 R755, R756) -/

/-- A piece of a command: it ends with a value and the state so far, or it raises an error, the changes made before the
raise staying in the state (60 R755). -/
abbrev Eng (α : Type) := EStateM ErrCode State α

/-- `raise E` (60 R755). -/
def raise {α : Type} (e : ErrCode) : Eng α := fun s => .error e s

/-- Change the state. -/
def update (f : State → State) : Eng Unit := fun s => .ok () (f s)

/-- `raise E` unless the check holds. -/
def check (ok : Bool) (e : ErrCode) : Eng Unit := fun s => if ok then .ok () s else .error e s

/-- The check of a condition on the state. -/
def checkState (p : State → Bool) (e : ErrCode) : Eng Unit := fun s => if p s then .ok () s else .error e s

/-- Run `f` for each element, in order (00 R13). -/
def forEach {α : Type} : List α → (α → Eng Unit) → Eng Unit
  | [], _ => pure ()
  | x :: xs, f => do
    f x
    forEach xs f

/-- On an error of `x`, apply `f` to the state and go on raising it. -/
def onError {α : Type} (f : State → State) (x : Eng α) : Eng α := fun s =>
  match x s with
  | .ok a t => .ok a t
  | .error e t => .error e (f t)

/-- `x` with every error it raises replaced by `e` (45 R615). -/
def replaceError {α : Type} (e : ErrCode) (x : Eng α) : Eng α := fun s =>
  match x s with
  | .ok a t => .ok a t
  | .error _ t => .error e t

/-- MemRead(a, 1): ERR_BOUNDS at or beyond MEM_BYTES (00 R12, 20 R153). -/
def memRead (a : Nat) : Eng Byte := fun s =>
  if a < s.memBytes then .ok (readByte s a) s else .error .bounds s

/-- MemWrite(a, 1, v): ERR_BOUNDS at or beyond MEM_BYTES (00 R12, 20 R153). -/
def memWrite (a : Nat) (v : Byte) : Eng Unit := fun s =>
  if a < s.memBytes then .ok () (writeByte a v s) else .error .bounds s

/-- MemRead of the n bytes from a on, in order. -/
def memReads (a : Nat) : Nat → Eng (List Byte)
  | 0 => pure []
  | n + 1 => do
    let b ← memRead a
    let bs ← memReads (a + 1) n
    pure (b :: bs)

/-- `be16(a)` (00 R11). -/
def memRead16 (a : Nat) : Eng Nat := do
  let hi ← memRead a
  let lo ← memRead (a + 1)
  pure (hi.toNat * 256 + lo.toNat)

/-- The whole extent [a, a + n) lies in LMEM, in exact integers (20 R153). -/
def checkExtent (a n : Nat) : Eng Unit := checkState (fun s => decide (a + n ≤ s.memBytes)) .bounds

/-- Completion (60 R756). -/
def complete (e : Option ErrCode) (s : State) : State := { s with status := statusComplete e s.status }

/-- The end of every command: completion with the error it raised, if it raised one (60 R755, R756). -/
def finish : EStateM.Result ErrCode State Unit → State
  | .ok _ s => complete none s
  | .error e s => complete (some e) s

/-- One command as one engine step: its effect and its completion (20 R163, 60 R756). -/
def runCommand (x : Eng Unit) (s : State) : Host.Outcome State Fault Refusal := .next (finish (x s))

end Sys2Proof.Machine
end

