-- ==== Sys2Proof/Machine/Stream.lean ====
section
/-! DEFINITION. The bit writer, the bit reader and the parser's byte primitives (43 R460 to R466, R471; 45 R580 to
R582). -/

namespace Sys2Proof.Machine

/-! ### Bit writer (43 R460, R463, R464) -/

/-- EMIT: one byte to the output (43 R460). -/
def emit (v : Byte) : Eng Unit := do
  checkState (fun s => decide (s.bw.ptr.toNat < s.bw.lim.toNat)) .bounds
  let s ← get
  memWrite s.bw.ptr.toNat v
  update fun s => { s with bw.ptr := s.bw.ptr + 1#32 }

/-- ACC ← acc, CNT ← cnt. -/
def setPending (acc : Byte) (cnt : BitVec 3) (s : State) : State := { s with bw.acc := acc, bw.cnt := cnt }

/-- PUTBIT: append one bit; a completed byte is emitted, and followed by a stuffed 00 if it is FF (43 R460, R465). -/
def putBit (b : Bool) : Eng Unit := do
  let s ← get
  let acc := (s.bw.acc <<< 1) ||| (BitVec.ofBool b).setWidth 8
  if s.bw.cnt = 7#3 then
    update (setPending 0#8 0#3)
    emit acc
    if acc = 0xFF#8 then emit 0x00#8
  else
    update (setPending acc (s.bw.cnt + 1#3))

/-- PUTBITS of a bit string (43 R460). -/
def putBits (bs : List Bool) : Eng Unit := forEach bs putBit

/-- FLUSH: pad the pending bits with 1-bits to a byte (43 R463). -/
def flush : Eng Unit := do
  let s ← get
  if s.bw.cnt = 0#3 then pure ()
  else putBits (bitsMsb (2 ^ (8 - s.bw.cnt.toNat) - 1) (8 - s.bw.cnt.toNat))

/-- RAWBYTE: a byte that is not stuffed, at a byte boundary (43 R464). -/
def rawByte (v : Byte) : Eng Unit := do
  checkState (fun s => decide (s.bw.cnt = 0#3)) .command
  emit v

/-! ### Bit reader (43 R466) -/

/-- CUR ← cur, CNT ← 8, BR_PTR ← BR_PTR + n. -/
def loadCurrent (cur : Byte) (n : Word) (s : State) : State :=
  { s with br.cur := cur, br.cnt := 8#4, br.ptr := s.br.ptr + n }

/-- MARK ← 1. -/
def setMark (s : State) : State := { s with br.mark := true }

/-- FILL: take the next byte of the input, collapsing FF 00 and stopping at a marker (43 R466). -/
def fill : Eng Unit := do
  checkState (fun s => !s.br.mark) .unexpectedMarker
  checkState (fun s => decide (s.br.ptr.toNat < s.br.lim.toNat)) .noEoi
  let s ← get
  let b ← memRead s.br.ptr.toNat
  if b ≠ 0xFF#8 then
    update (loadCurrent b 1#32)
  else
    check (decide (s.br.ptr.toNat + 1 < s.br.lim.toNat)) .noEoi
    let b2 ← memRead (s.br.ptr.toNat + 1)
    if b2 = 0x00#8 then
      update (loadCurrent 0xFF#8 2#32)
    else
      update setMark
      raise .unexpectedMarker

/-- CNT ← cnt. -/
def setCount (cnt : BitVec 4) (s : State) : State := { s with br.cnt := cnt }

/-- Take the next bit of CUR. -/
def takeBit : Eng Bool := fun s =>
  .ok (s.br.cur.getLsbD (s.br.cnt - 1#4).toNat) (setCount (s.br.cnt - 1#4) s)

/-- GETBIT (43 R466). -/
def getBit : Eng Bool := do
  let s ← get
  if s.br.cnt = 0#4 then fill
  takeBit

/-- The next n bits, first bit first. -/
def getBitList : Nat → Eng (List Bool)
  | 0 => pure []
  | n + 1 => do
    let b ← getBit
    let bs ← getBitList n
    pure (b :: bs)

/-- GETBITS(n), first bit most significant (43 R466). -/
def getBits (n : Nat) : Eng Nat := do
  let bs ← getBitList n
  pure (bitsValue 0 bs)

/-- The walk of DECODE_SYM over the levels that are left, `code` having been read (43 R471). -/
def decodeSymFrom (t : HuffTable) : List Level → Nat → Eng Byte
  | [], _ => raise .entropy
  | l :: ls, code => do
    let b ← getBit
    match levelSym t l (2 * code + b.toNat) with
    | some v => pure v
    | none => decodeSymFrom t ls (2 * code + b.toNat)

/-- DECODE_SYM (43 R471). -/
def decodeSym (t : HuffTable) : Eng Byte := decodeSymFrom t (levels t) 0

/-! ### Parser bytes (45 R580 to R582) -/

/-- BR_PTR ← BR_PTR + n. -/
def advanceReader (n : Nat) (s : State) : State := { s with br.ptr := s.br.ptr + BitVec.ofNat 32 n }

/-- NEXTBYTE(e) (45 R580). -/
def nextByte (e : ErrCode) : Eng Byte := do
  checkState (fun s => decide (s.br.ptr.toNat < s.br.lim.toNat)) e
  let s ← get
  let v ← memRead s.br.ptr.toNat
  update (advanceReader 1)
  pure v

/-- The code byte of NEXTMARKER after fill bytes FF; `fuel` bytes may still be read (45 R581). Each round takes a byte,
so with fuel for the whole input the end of the input is met first, with the same error. -/
def codeAfterFill : Nat → Eng Byte
  | 0 => raise .noEoi
  | fuel + 1 => do
    let c ← nextByte .noEoi
    if c = 0xFF#8 then codeAfterFill fuel else pure c

/-- The bytes of the input the reader has not taken. -/
def bytesLeft (s : State) : Nat := s.br.lim.toNat - s.br.ptr.toNat

/-- NEXTMARKER (45 R581). -/
def nextMarker : Eng Byte := do
  let b ← nextByte .noEoi
  check (decide (b = 0xFF#8)) .unexpectedMarker
  let s ← get
  codeAfterFill (bytesLeft s)

/-- SEGLEN (45 R582). -/
def segLen : Eng Nat := do
  checkState (fun s => decide (s.br.ptr.toNat + 2 ≤ s.br.lim.toNat)) .badTable
  let s ← get
  let len ← memRead16 s.br.ptr.toNat
  check (decide (2 ≤ len) && decide (s.br.ptr.toNat + len ≤ s.br.lim.toNat)) .badTable
  pure len

/-- CNT ← 0 and MARK ← 0: forget the padding bits of the last byte (45 R610). -/
def dropPadding (s : State) : State := { s with br.cnt := 0#4, br.mark := false }

end Sys2Proof.Machine
end

