-- ==== Sys2Proof/Machine/Huffman.lean ====
section
/-! DEFINITION. The Huffman codec and the bit writer and reader commands (43). -/

namespace Sys2Proof.Machine

/-! ### Bit writer and bit reader commands -/

/-- BWINIT with its arguments given (43 R461). -/
def doBwinit (a n : Word) : Eng Unit := do
  checkExtent a.toNat n.toNat
  update fun s => { s with bw := { ptr := a, lim := a + n, acc := 0#8, cnt := 0#3 } }

/-- BRINIT with its arguments given (43 R467). -/
def doBrinit (a n : Word) : Eng Unit := do
  checkExtent a.toNat n.toNat
  update fun s => { s with br := { ptr := a, lim := a + n, cur := 0#8, cnt := 0#4, mark := false } }

/-- BWINIT (43 R461). -/
def execBwinit (s : State) : Host.Outcome State Fault Refusal := runCommand (doBwinit s.argL[0] s.argL[1]) s

/-- BWFLUSH (43 R462). -/
def execBwflush (s : State) : Host.Outcome State Fault Refusal := runCommand flush s

/-- BRINIT (43 R467). -/
def execBrinit (s : State) : Host.Outcome State Fault Refusal := runCommand (doBrinit s.argL[0] s.argL[1]) s

/-- BRALIGN: CNT ← 0 (43 R468). -/
def execBralign (s : State) : Host.Outcome State Fault Refusal := runCommand (update (setCount 0#4)) s

/-! ### Decoder tables (43 R473 to R475) -/

/-- The sum of the counts of a BITS image. -/
def bitsSum (bits : List Byte) : Nat := (bits.map BitVec.toNat).sum

/-- The validity check at install (43 R473). -/
def checkTable (bits : List Byte) : Eng Unit := check (bitsValid (bits.map BitVec.toNat)) .badTable

/-- HLOAD with its fields and argument given (43 R475). -/
def doHload (t : BitVec 2) (x : BitVec 4) (a : Word) : Eng Unit := do
  check (decide (x.toNat < 2) && decide (t.toNat < 2)) .command
  checkExtent a.toNat 16
  let bits ← memReads a.toNat 16
  check (decide (bitsSum bits ≤ 256)) .badTable
  checkExtent a.toNat (16 + bitsSum bits)
  let vals ← memReads (a.toNat + 16) (bitsSum bits)
  checkTable bits
  update (installHt (x.setWidth 1) (t.setWidth 1) (huffTableOf bits vals))
  update (setRes0 (BitVec.ofNat 32 (16 + bitsSum bits)))

/-- HLOAD (43 R475). -/
def execHload (t : BitVec 2) (x : BitVec 4) (s : State) : Host.Outcome State Fault Refusal :=
  runCommand (doHload t x s.argL[0]) s

/-! ### Encoding a block (43 R480) -/

/-- The category of v (43 R455). -/
def category (v : Int) : Nat := bitlen v.natAbs

/-- The magnitude bits of v with category n: v when v > 0, v + 2^n − 1 when v < 0 (30 R223). -/
def magnitudeBits (v : Int) (n : Nat) : List Bool :=
  bitsMsb (if 0 < v then v else v + 2 ^ n - 1).toNat n

/-- EXTEND(b, n) (43 R456). -/
def extend (b n : Nat) : Int := if n = 0 then 0 else if b < 2 ^ (n - 1) then (b : Int) - 2 ^ n + 1 else (b : Int)

/-- RS = (R << 4) | S (30 R222). -/
def rsByte (r sz : Nat) : Byte := BitVec.ofNat 8 (16 * r + sz)

/-- The DC table of encoder set T: 0 luma, 1 chroma (10 R82). -/
def dcTable (chroma : Bool) : HuffSpec := if chroma then romDc1 else romDc0

/-- The AC table of encoder set T (10 R82). -/
def acTable (chroma : Bool) : HuffSpec := if chroma then romAc1 else romAc0

/-- The bits of a DC difference (43 R480). -/
def dcBits (chroma : Bool) (diff : Int) : List Bool :=
  codeBits (dcTable chroma) (BitVec.ofNat 8 (category diff)) ++ magnitudeBits diff (category diff)

/-- n ZRL codes (43 R480). -/
def zrlBits (chroma : Bool) : Nat → List Bool
  | 0 => []
  | n + 1 => codeBits (acTable chroma) 0xF0#8 ++ zrlBits chroma n

/-- The bits of one non-zero AC coefficient after a run of zeros: a ZRL for each 16 of the run, then the code of RS and
the magnitude (43 R480). -/
def acItemBits (chroma : Bool) (run : Nat) (v : Int) : List Bool :=
  zrlBits chroma (run / 16)
    ++ (codeBits (acTable chroma) (rsByte (run % 16) (category v)) ++ magnitudeBits v (category v))

/-- The bits of the AC coefficients that are left, after a run of `run` zeros (43 R480). -/
def acBits (chroma : Bool) : Nat → List Int → List Bool
  | run, [] => if 0 < run then codeBits (acTable chroma) 0x00#8 else []
  | run, v :: vs =>
    if clamp v (-1023) 1023 = 0 then acBits chroma (run + 1) vs
    else acItemBits chroma run (clamp v (-1023) 1023) ++ acBits chroma 0 vs

/-- The AC coefficients of a zigzag-ordered block: entries 1 to 63. -/
def acCoefficients (b : Block) : List Int := (b.toList.drop 1).map BitVec.toInt

/-- All the bits HENC appends for a block, with predictor `p` (43 R480). -/
def blockBits (chroma : Bool) (p : Int) (b : Block) : List Bool :=
  dcBits chroma (clamp (b[0].toInt - p) (-2047) 2047) ++ acBits chroma 0 (acCoefficients b)

/-- HENC of component c with set T given as luma or chroma (43 R480). -/
def encodeBlock (src : Slot) (c : Fin 3) (chroma : Bool) : Eng Unit := do
  let s ← get
  putBits (blockBits chroma (getPred s c) (getBlk s src))
  update (setPred c (wrap16 (getBlk s src)[0].toInt))

/-- HENC with its fields given (43 R480). -/
def doHenc (src : Slot) (c t : BitVec 2) : Eng Unit :=
  match componentOf c with
  | none => raise .command
  | some k => do
    check (decide (t.toNat < 2)) .command
    encodeBlock src k (t.getLsbD 0)

/-- HENC (43 R480). -/
def execHenc (src : Slot) (c t : BitVec 2) (s : State) : Host.Outcome State Fault Refusal :=
  runCommand (doHenc src c t) s

/-! ### Decoding a block (43 R490) -/

/-- The AC coefficients from index k on, into the zigzag-ordered block z (43 R490). Each round moves k up, so 64 rounds
are more than enough. -/
def decodeAc (t : HuffTable) : Nat → Nat → Block → Eng Block
  | 0, _, z => pure z
  | fuel + 1, k, z =>
    if 63 < k then pure z
    else do
      let rs ← decodeSym t
      let r := rs.toNat / 16
      let sz := rs.toNat % 16
      if sz = 0 then
        if r = 15 then do
          check (decide (k + 16 ≤ 64)) .entropy
          decodeAc t fuel (k + 16) z
        else if r = 0 then pure z
        else raise .entropy
      else do
        check (decide (k + r ≤ 63)) .entropy
        check (decide (sz ≤ 10)) .entropy
        let b ← getBits sz
        decodeAc t fuel (k + r + 1) (z.setIfInBounds (k + r) (wrap32 (extend b sz)))

/-- The DC coefficient: the predictor plus the decoded difference, an int16 (43 R490). -/
def decodeDc (t : HuffTable) (c : Fin 3) : Eng Half := do
  let n ← decodeSym t
  check (decide (n.toNat ≤ 11)) .entropy
  let b ← getBits n.toNat
  let s ← get
  pure (wrap16 (getPred s c + extend b n.toNat))

/-- HDEC of component c with tables Td and Ta (43 R490). -/
def decodeBlock (d : Slot) (c : Fin 3) (td ta : BitVec 1) : Eng Unit := do
  checkState (fun s => htValid s 0#1 td && htValid s 1#1 ta) .command
  let s ← get
  let p ← decodeDc (getHt s 0#1 td) c
  let z ← decodeAc (getHt s 1#1 ta) 64 1 ((Vector.replicate 64 0#32).set 0 (wrap32 p.toInt))
  update (setBlk d z)
  update (setPred c p)

/-- HDEC with its fields given: T[0] is Td, T[1] is Ta (43 R490). -/
def doHdec (d : Slot) (c t : BitVec 2) : Eng Unit :=
  match componentOf c with
  | none => raise .command
  | some k => decodeBlock d k (t.extractLsb' 0 1) (t.extractLsb' 1 1)

/-- HDEC (43 R490). -/
def execHdec (d : Slot) (c t : BitVec 2) (s : State) : Host.Outcome State Fault Refusal :=
  runCommand (doHdec d c t) s

end Sys2Proof.Machine
end

