-- ==== Sys2Proof/Machine/Quant.lean ====
section
/-! DEFINITION. The quantization table builder, the quantizer and the zigzag scanner (41). -/

namespace Sys2Proof.Machine

/-- QSCALE(q), units of 1/1024 (41 R355). -/
def qScale (q : Int) : Nat :=
  let c := (clamp q 1 100).toNat
  let s := if c < 50 then 5000 / c else 200 - 2 * c
  (s * 1024 + 50) / 100

/-- QENTRY(base, scale) (41 R356). -/
def qEntry (base scale : Nat) : Byte := byteOf (clamp ((((base * scale + 0x200) >>> 10 : Nat)) : Int) 1 255)

/-- The seed table of QBUILD's X[0] (41 R360). -/
def seedTable (seed : Bool) : Vector Nat 64 := if seed then baseChroma else baseLuma

/-- The table built from a seed and a scale (41 R356, R360). -/
def builtTable (seed : Bool) (scale : Nat) : Vector Byte 64 :=
  Vector.ofFn fun i : Fin 64 => qEntry (seedTable seed)[i] scale

/-- The scale QBUILD uses: X[1] chooses quality (read as int32) or the raw scale (41 R360). -/
def buildScale (mode : Bool) (a : Word) : Nat := if mode then qScale a.toInt else a.toNat

/-- QBUILD with its fields and argument given (41 R360). -/
def doQbuild (t : BitVec 2) (x : BitVec 4) (a : Word) : Eng Unit := do
  check (decide (x.toNat < 4)) .command
  update (installQt t (builtTable (x.getLsbD 0) (buildScale (x.getLsbD 1) a)))
  update (setRes0 (BitVec.ofNat 32 (buildScale (x.getLsbD 1) a)))

/-- The natural-order table of 64 bytes in zigzag order: e[ZZ[k]] is byte k, so e[i] is byte IZZ[i] (41 R361, R353). -/
def naturalTable (bs : List Byte) : Vector Byte 64 :=
  Vector.ofFn fun i : Fin 64 => bs.getD izz[i].val 0#8

/-- A table entry may not be 0 (41 R361, 45 R583). -/
def checkEntries (bs : List Byte) : Eng Unit := check (bs.all fun b => decide (b ≠ 0#8)) .badTable

/-- QLOAD with its field and argument given (41 R361). -/
def doQload (t : BitVec 2) (a : Word) : Eng Unit := do
  checkExtent a.toNat 64
  let bs ← memReads a.toNat 64
  checkEntries bs
  update (installQt t (naturalTable bs))

/-- One quantized entry: wrap32((v·RQ + 0x4000) >> 15) (41 R362). -/
def quantEntry (v : Word) (r : Half) : Word := wrap32 ((v.toInt * (r.toNat : Int) + 0x4000) >>> 15)

/-- One dequantized entry: wrap32(v·QT) (41 R363). -/
def dequantEntry (v : Word) (q : Byte) : Word := wrap32 (v.toInt * (q.toNat : Int))

/-- A quantized block (41 R362). -/
def quantBlock (r : Vector Half 64) (b : Block) : Block := Vector.ofFn fun i : Fin 64 => quantEntry b[i] r[i]

/-- A dequantized block (41 R363). -/
def dequantBlock (q : Vector Byte 64) (b : Block) : Block := Vector.ofFn fun i : Fin 64 => dequantEntry b[i] q[i]

/-- QUANT with its fields given (41 R362). -/
def doQuant (d src : Slot) (t : BitVec 2) : Eng Unit := do
  checkState (fun s => qtValid s t) .command
  update fun s => setBlk d (quantBlock (getRq s t) (getBlk s src)) s

/-- DEQUANT with its fields given (41 R363). -/
def doDequant (d src : Slot) (t : BitVec 2) : Eng Unit := do
  checkState (fun s => qtValid s t) .command
  update fun s => setBlk d (dequantBlock (getQt s t) (getBlk s src)) s

/-- Natural to zigzag order: entry k is v[ZZ[k]] (41 R364). -/
def zigzagBlock (b : Block) : Block := Vector.ofFn fun k : Fin 64 => b[zz[k]]

/-- Zigzag to natural order: entry ZZ[k] is v[k], so entry i is v[IZZ[i]] (41 R365, R353). -/
def unzigzagBlock (b : Block) : Block := Vector.ofFn fun i : Fin 64 => b[izz[i]]

/-- ZIGZAG with its fields given (41 R364). -/
def doZigzag (d src : Slot) : Eng Unit := update fun s => setBlk d (zigzagBlock (getBlk s src)) s

/-- UNZIGZAG with its fields given (41 R365). -/
def doUnzigzag (d src : Slot) : Eng Unit := update fun s => setBlk d (unzigzagBlock (getBlk s src)) s

/-- QBUILD (41 R360). -/
def execQbuild (t : BitVec 2) (x : BitVec 4) (s : State) : Host.Outcome State Fault Refusal :=
  runCommand (doQbuild t x s.argL[0]) s

/-- QLOAD (41 R361). -/
def execQload (t : BitVec 2) (s : State) : Host.Outcome State Fault Refusal := runCommand (doQload t s.argL[0]) s

/-- QUANT (41 R362). -/
def execQuant (d src : Slot) (t : BitVec 2) (s : State) : Host.Outcome State Fault Refusal :=
  runCommand (doQuant d src t) s

/-- DEQUANT (41 R363). -/
def execDequant (d src : Slot) (t : BitVec 2) (s : State) : Host.Outcome State Fault Refusal :=
  runCommand (doDequant d src t) s

/-- ZIGZAG (41 R364). -/
def execZigzag (d src : Slot) (s : State) : Host.Outcome State Fault Refusal := runCommand (doZigzag d src) s

/-- UNZIGZAG (41 R365). -/
def execUnzigzag (d src : Slot) (s : State) : Host.Outcome State Fault Refusal := runCommand (doUnzigzag d src) s

end Sys2Proof.Machine
end

