-- ==== Sys2Proof/Machine/Parser.lean ====
section
/-! DEFINITION. The marker parser: the segments, PARSEHDR, RSTCHK and EOICHK (45). -/

namespace Sys2Proof.Machine

/-! ### Segments (45 R583 to R595) -/

/-- The tables of a DQT segment whose content is [p, stop) (45 R583). Each round takes 65 bytes. -/
def dqtTables (stop : Nat) : Nat → Nat → Eng Unit
  | 0, _ => pure ()
  | fuel + 1, p =>
    if stop ≤ p then pure ()
    else do
      let pt ← memRead p
      check (decide (pt.toNat / 16 = 0) && decide (pt.toNat % 16 ≤ 3)) .badTable
      check (decide (65 ≤ stop - p)) .badTable
      let bs ← memReads (p + 1) 64
      checkEntries bs
      update (installQt (pt.setWidth 2) (naturalTable bs))
      dqtTables stop fuel (p + 65)

/-- DQT (45 R583). -/
def parseDqt : Eng Unit := do
  let len ← segLen
  let s ← get
  dqtTables (s.br.ptr.toNat + len) len (s.br.ptr.toNat + 2)
  update (advanceReader len)

/-- The tables of a DHT segment whose content is [p, stop) (45 R584). Each round takes at least 17 bytes. -/
def dhtTables (stop : Nat) : Nat → Nat → Eng Unit
  | 0, _ => pure ()
  | fuel + 1, p =>
    if stop ≤ p then pure ()
    else do
      let tt ← memRead p
      check (decide (tt.toNat / 16 ≤ 1) && decide (tt.toNat % 16 ≤ 1)) .badTable
      check (decide (17 ≤ stop - p)) .badTable
      let bits ← memReads (p + 1) 16
      check (decide (bitsSum bits ≤ 256) && decide (17 + bitsSum bits ≤ stop - p)) .badTable
      let vals ← memReads (p + 17) (bitsSum bits)
      checkTable bits
      update (installHt (tt.extractLsb' 4 1) (tt.extractLsb' 0 1) (huffTableOf bits vals))
      dhtTables stop fuel (p + 17 + bitsSum bits)

/-- DHT (45 R584). -/
def parseDht : Eng Unit := do
  let len ← segLen
  let s ← get
  dhtTables (s.br.ptr.toNat + len) len (s.br.ptr.toNat + 2)
  update (advanceReader len)

/-- APPn and COM: skipped by length (45 R585). -/
def skipSegment : Eng Unit := do
  let len ← segLen
  update (advanceReader len)

/-- DRI (45 R586). -/
def parseDri : Eng Unit := do
  let len ← segLen
  check (decide (len = 4)) .badTable
  let s ← get
  let ri ← memRead16 (s.br.ptr.toNat + 2)
  update fun s => advanceReader 4 { s with dri := BitVec.ofNat 16 ri }

/-- The frame SOF0 accepts: FRM_DIM, FRM_INFO.SS and TQ, RES1 (45 R590). -/
def acceptFrame (w h : Nat) (ss : BitVec 2) (tq : Vector (BitVec 2) 3) (s : State) : State :=
  { s with
    frmDim := packHalves w h
    frmInfo.ss := ss
    frmInfo.tq := tq
    res1 := packHalves w h }

/-- SOF0, its checks in the order of 45 R590. -/
def parseSof0 : Eng Unit := do
  let len ← segLen
  check (decide (8 ≤ len)) .badTable
  let s ← get
  let a := s.br.ptr.toNat + 2
  let p ← memRead a
  let h ← memRead16 (a + 1)
  let w ← memRead16 (a + 3)
  let nf ← memRead (a + 5)
  check (decide (p = 8#8)) .precision
  check (decide (w ≠ 0) && decide (h ≠ 0)) .dimensions
  check (decide (nf.toNat ≤ 3)) .tooManyComponents
  check (decide (3 ≤ nf.toNat)) .profile
  check (decide (len = 8 + 3 * nf.toNat)) .badTable
  let cs ← memReads (a + 6) 9
  let c := fun i : Nat => cs.getD i 0#8
  check (decide (c 0 = 1#8) && decide (c 3 = 2#8) && decide (c 6 = 3#8)) .profile
  check (decide (c 4 = 0x11#8) && decide (c 7 = 0x11#8) && (decide (c 1 = 0x22#8) || decide (c 1 = 0x21#8))) .sampling
  check (decide ((c 2).toNat ≤ 3) && decide ((c 5).toNat ≤ 3) && decide ((c 8).toNat ≤ 3)) .qtSelector
  let ss : BitVec 2 := if c 1 = 0x22#8 then 2#2 else 1#2
  check (decide (w % 16 = 0) && decide (h % mcuH (subsamplingOf ss) = 0)) .dimensions
  update (acceptFrame w h ss #v[(c 2).setWidth 2, (c 5).setWidth 2, (c 8).setWidth 2])
  update (advanceReader len)

/-- Scan component i of an SOS whose content starts at `a`: its Td and Ta (45 R595). -/
def scanComponent (a i : Nat) : Eng (BitVec 1 × BitVec 1) := do
  let cs ← memRead (a + 1 + 2 * i)
  let t ← memRead (a + 2 + 2 * i)
  check (decide (cs.toNat = i + 1)) .scanComponent
  check (decide (t.toNat / 16 ≤ 1) && decide (t.toNat % 16 ≤ 1)) .badTable
  let td : BitVec 1 := t.extractLsb' 4 1
  let ta : BitVec 1 := t.extractLsb' 0 1
  checkState (fun s => htValid s 0#1 td && htValid s 1#1 ta) .badTable
  pure (td, ta)

/-- QVALID of every component's table (45 R595). -/
def frameTablesValid (s : State) : Bool :=
  qtValid s s.frmInfo.tq[0] && qtValid s s.frmInfo.tq[1] && qtValid s s.frmInfo.tq[2]

/-- The scan SOS accepts: FRM_INFO's TD and TA; CNT, MARK and RST_NEXT cleared (45 R595). -/
def acceptScan (td ta : Vector (BitVec 1) 3) (s : State) : State :=
  { s with frmInfo.td := td, frmInfo.ta := ta, br.cnt := 0#4, br.mark := false, rstNext := 0#3 }

/-- SOS, its checks in the order of 45 R595. -/
def parseSos : Eng Unit := do
  let len ← segLen
  check (decide (3 ≤ len)) .badTable
  let s ← get
  let a := s.br.ptr.toNat + 2
  let ns ← memRead a
  check (decide (ns = 3#8)) .scanComponent
  check (decide (len = 6 + 2 * ns.toNat)) .badTable
  let c0 ← scanComponent a 0
  let c1 ← scanComponent a 1
  let c2 ← scanComponent a 2
  let tail ← memReads (a + 7) 3
  check (decide (tail.getD 0 0#8 = 0#8) && decide (tail.getD 1 0#8 = 63#8) && decide (tail.getD 2 0#8 = 0#8)) .notBaseline
  checkState frameTablesValid .qtSelector
  update (acceptScan #v[c0.1, c1.1, c2.1] #v[c0.2, c1.2, c2.2])
  update (advanceReader len)

/-! ### PARSEHDR (45 R600) -/

/-- The start of PARSEHDR (45 R600). -/
def parseStart (s : State) : State :=
  { s with pstate := .expectSoi, rstNext := 0#3, dri := 0#16, br.cnt := 0#4, br.mark := false, res0 := 0#32, res1 := 0#32 }

/-- SOI at the start of the input, else ERR_NO_SOI with nothing read (45 R600). -/
def expectSoiMarker : Eng Unit := do
  checkState (fun s => decide (s.br.ptr.toNat + 2 ≤ s.br.lim.toNat)) .noSoi
  let s ← get
  let b0 ← memRead s.br.ptr.toNat
  check (decide (b0 = 0xFF#8)) .noSoi
  let b1 ← memRead (s.br.ptr.toNat + 1)
  check (decide (b1 = 0xD8#8)) .noSoi
  update fun s => setPstate .readingTables (advanceReader 2 s)

/-- APP0..APP15 and COM (30 R241). -/
def isSkipped (c : Byte) : Bool := decide (0xE0 ≤ c.toNat ∧ c.toNat ≤ 0xEF) || decide (c = 0xFE#8)

/-- The non-baseline codes: SOF1..SOF15, JPG, DAC, DHP, EXP (30 R241, 45 R600). -/
def isNonBaseline (c : Byte) : Bool :=
  decide (0xC1 ≤ c.toNat ∧ c.toNat ≤ 0xC3) || decide (0xC5 ≤ c.toNat ∧ c.toNat ≤ 0xCF) || decide (c = 0xDE#8)
    || decide (c = 0xDF#8)

/-- What PARSEHDR does with marker code c while it reads tables; true when the scan is reached (45 R600). "sof" is
PSTATE.STATE = SOF0_SEEN (log 9). -/
def headerCase (c : Byte) : Eng Bool :=
  if isSkipped c then do
    skipSegment
    pure false
  else if c = 0xDB#8 then do
    parseDqt
    pure false
  else if c = 0xC4#8 then do
    parseDht
    pure false
  else if c = 0xDD#8 then do
    parseDri
    pure false
  else if c = 0xC0#8 then do
    checkState (fun s => decide (s.pstate ≠ .sof0Seen)) .unexpectedMarker
    parseSof0
    update (setPstate .sof0Seen)
    pure false
  else if isNonBaseline c then raise .notBaseline
  else if c = 0xDA#8 then do
    checkState (fun s => decide (s.pstate = .sof0Seen)) .unexpectedMarker
    parseSos
    update fun s => setRes0 s.br.ptr (setPstate .inScan s)
    pure true
  else raise .unexpectedMarker

/-- The loop of PARSEHDR (45 R600). Each round takes at least two bytes, so with fuel for the whole input the end of the
input is met first, with the same error. -/
def headerLoop : Nat → Eng Unit
  | 0 => raise .noEoi
  | fuel + 1 => do
    let c ← nextMarker
    let reached ← headerCase c
    if reached then pure () else headerLoop fuel

/-- PARSEHDR without its completion (45 R600, R570). -/
def doParsehdr : Eng Unit :=
  onError (setPstate .failed) do
    update parseStart
    expectSoiMarker
    let s ← get
    headerLoop (bytesLeft s + 1)

/-- PARSEHDR (45 R600). -/
def execParsehdr (s : State) : Host.Outcome State Fault Refusal := runCommand doParsehdr s

/-! ### RSTCHK and EOICHK (45 R610, R615) -/

/-- What a restart check does with marker code c (45 R610). -/
def restartCase (c : Byte) : Eng Unit := do
  checkState (fun s => decide (c.toNat = 0xD0 + s.rstNext.toNat)) .unexpectedMarker
  update fun s => clearPreds { s with rstNext := s.rstNext + 1#3 }

/-- What the end-of-image check does with marker code c (45 R615). -/
def endCase (c : Byte) : Eng Unit := do
  check (decide (c = 0xD9#8)) .noEoi
  update (setPstate .terminal)

/-- STATE = IN_SCAN, else ERR_COMMAND (45 R610, R615). -/
def checkInScan : Eng Unit := checkState (fun s => decide (s.pstate = .inScan)) .command

/-- RSTCHK without its completion (45 R610). -/
def doRstchk : Eng Unit := do
  checkInScan
  onError (setPstate .failed) do
    update dropPadding
    let c ← nextMarker
    restartCase c

/-- EOICHK without its completion (45 R615). -/
def doEoichk : Eng Unit := do
  checkInScan
  onError (setPstate .failed) do
    update dropPadding
    let c ← replaceError .noEoi nextMarker
    endCase c

/-- RSTCHK (45 R610). -/
def execRstchk (s : State) : Host.Outcome State Fault Refusal := runCommand doRstchk s

/-- EOICHK (45 R615). -/
def execEoichk (s : State) : Host.Outcome State Fault Refusal := runCommand doEoichk s

end Sys2Proof.Machine
end

