-- ==== Sys2Proof/Machine/Marker.lean ====
section
/-! DEFINITION. The MARKER rows of the opcode table: what the parse of the running command does with one marker, the reader
standing just behind it (30 R241, 45 R570 to R615). A marker is no move of its own: the engine runs PARSEHDR, RSTCHK and
EOICHK whole, in one step (20 R163), and these meanings are the parts that step is made of, of the same definitions (log
2). -/

namespace Sys2Proof.Machine

/-- Which command reads the marker (45 R600, R610, R615). -/
inductive MarkerReader where
  | header
  | restart
  | imageEnd
  deriving DecidableEq, Repr

/-- The reader, from the latched command: PARSEHDR, RSTCHK or EOICHK. Under any other word nothing reads a single marker:
DECODE does the bodies of those three (47 R690), and a command that does not parse meets no marker. -/
def markerReader (s : State) : Option MarkerReader :=
  match decodeCommand s.cmdL with
  | .ok .parsehdr => some .header
  | .ok .rstchk => some .restart
  | .ok .eoichk => some .imageEnd
  | _ => none

/-- A marker of the header parse (45 R570, R600). In a state in which no header parse is under way every marker is an
unexpected one (30 R241; log 10). -/
def headerEvent (c : Byte) : Eng Bool := fun s =>
  match s.pstate with
  | .expectSoi => if c = 0xD8#8 then .ok false (setPstate .readingTables s) else .error .noSoi s
  | .readingTables => headerCase c s
  | .sof0Seen => headerCase c s
  | .inScan => .error .unexpectedMarker s
  | .terminal => .error .unexpectedMarker s
  | .failed => .error .unexpectedMarker s

/-- A marker at a restart check (45 R610). -/
def restartEvent (c : Byte) : Eng Bool := do
  checkInScan
  restartCase c
  pure true

/-- A marker at the end-of-image check (45 R615). -/
def endEvent (c : Byte) : Eng Bool := do
  checkInScan
  endCase c
  pure true

/-- What the command that reads it does with marker code c; true when the command is over. -/
def markerEvent (r : MarkerReader) (c : Byte) : Eng Bool :=
  match r with
  | .header => headerEvent c
  | .restart => restartEvent c
  | .imageEnd => endEvent c

/-- After a marker: the command goes on, or completes; an error other than ERR_COMMAND sets STATE ← FAILED (45 R570,
R600, R610, R615) and completes it (60 R755, R756). -/
def endMarker : EStateM.Result ErrCode State Bool → State
  | .ok true s => complete none s
  | .ok false s => s
  | .error .command s => complete (some .command) s
  | .error e s => complete (some e) (setPstate .failed s)

/-- One marker event; nothing where no command reads markers. -/
def runMarker (c : Byte) (s : State) : Host.Outcome State Fault Refusal :=
  .next
    (match markerReader s with
    | some r => endMarker (markerEvent r c s)
    | none => s)

/-- The next marker code of the input, for the command that reads it: SOI at the start of a header parse (45 R600), else
NEXTMARKER (45 R581), the padding bits dropped first at a checkpoint (45 R610, R615). -/
def fetchMarker (r : MarkerReader) : Eng Byte := fun s =>
  match r with
  | .header =>
    if s.pstate = .expectSoi then
      match expectSoiMarker s with
      | .ok _ t => .ok 0xD8#8 (setPstate .expectSoi t)
      | .error e t => .error e t
    else nextMarker s
  | .restart => (do
      checkInScan
      update dropPadding
      nextMarker) s
  | .imageEnd => (do
      checkInScan
      update dropPadding
      replaceError .noEoi nextMarker) s

/-- SOI: required first, else ERR_NO_SOI; later an unexpected marker (30 R241). -/
def execSoi (s : State) : Host.Outcome State Fault Refusal := runMarker 0xD8#8 s

/-- EOI: required after the last MCU (45 R615); before, an unexpected marker (30 R241). -/
def execEoi (s : State) : Host.Outcome State Fault Refusal := runMarker 0xD9#8 s

/-- DQT: accepted while reading tables (45 R583) (30 R241). -/
def execDqt (s : State) : Host.Outcome State Fault Refusal := runMarker 0xDB#8 s

/-- DHT: accepted while reading tables (45 R584) (30 R241). -/
def execDht (s : State) : Host.Outcome State Fault Refusal := runMarker 0xC4#8 s

/-- DRI: accepted while reading tables (45 R586) (30 R241). -/
def execDri (s : State) : Host.Outcome State Fault Refusal := runMarker 0xDD#8 s

/-- SOF0: accepted once (45 R590) (30 R241). -/
def execSof0 (s : State) : Host.Outcome State Fault Refusal := runMarker 0xC0#8 s

/-- SOS: accepted after SOF0, starts the scan (45 R595) (30 R241). -/
def execSos (s : State) : Host.Outcome State Fault Refusal := runMarker 0xDA#8 s

/-- RSTn: required at restart points in cycle order (45 R610); elsewhere an unexpected marker (30 R241). -/
def execRstn (n : BitVec 3) (s : State) : Host.Outcome State Fault Refusal :=
  runMarker (0b11010#5 ++ n) s

/-- APPn: skipped by length (45 R585) (30 R241). -/
def execAppn (n : BitVec 4) (s : State) : Host.Outcome State Fault Refusal :=
  runMarker (0b1110#4 ++ n) s

/-- COM: skipped by length (45 R585) (30 R241). -/
def execCom (s : State) : Host.Outcome State Fault Refusal := runMarker 0xFE#8 s

/-- SOF1: not baseline (30 R241). -/
def execSof1 (s : State) : Host.Outcome State Fault Refusal := runMarker 0xC1#8 s

/-- SOF2: not baseline (30 R241). -/
def execSof2 (s : State) : Host.Outcome State Fault Refusal := runMarker 0xC2#8 s

/-- SOF3: not baseline (30 R241). -/
def execSof3 (s : State) : Host.Outcome State Fault Refusal := runMarker 0xC3#8 s

/-- SOF5: not baseline (30 R241). -/
def execSof5 (s : State) : Host.Outcome State Fault Refusal := runMarker 0xC5#8 s

/-- SOF6: not baseline (30 R241). -/
def execSof6 (s : State) : Host.Outcome State Fault Refusal := runMarker 0xC6#8 s

/-- SOF7: not baseline (30 R241). -/
def execSof7 (s : State) : Host.Outcome State Fault Refusal := runMarker 0xC7#8 s

/-- JPG (reserved): not baseline (30 R241). -/
def execJpg (s : State) : Host.Outcome State Fault Refusal := runMarker 0xC8#8 s

/-- SOF9: not baseline (30 R241). -/
def execSof9 (s : State) : Host.Outcome State Fault Refusal := runMarker 0xC9#8 s

/-- SOF10: not baseline (30 R241). -/
def execSof10 (s : State) : Host.Outcome State Fault Refusal := runMarker 0xCA#8 s

/-- SOF11: not baseline (30 R241). -/
def execSof11 (s : State) : Host.Outcome State Fault Refusal := runMarker 0xCB#8 s

/-- DAC: not baseline (30 R241). -/
def execDac (s : State) : Host.Outcome State Fault Refusal := runMarker 0xCC#8 s

/-- SOF13: not baseline (30 R241). -/
def execSof13 (s : State) : Host.Outcome State Fault Refusal := runMarker 0xCD#8 s

/-- SOF14: not baseline (30 R241). -/
def execSof14 (s : State) : Host.Outcome State Fault Refusal := runMarker 0xCE#8 s

/-- SOF15: not baseline (30 R241). -/
def execSof15 (s : State) : Host.Outcome State Fault Refusal := runMarker 0xCF#8 s

/-- DNL: an unexpected marker (30 R241). -/
def execDnl (s : State) : Host.Outcome State Fault Refusal := runMarker 0xDC#8 s

/-- DHP: not baseline (30 R241). -/
def execDhp (s : State) : Host.Outcome State Fault Refusal := runMarker 0xDE#8 s

/-- EXP: not baseline (30 R241). -/
def execExp (s : State) : Host.Outcome State Fault Refusal := runMarker 0xDF#8 s

/-- TEM: an unexpected marker (30 R241). -/
def execTem (s : State) : Host.Outcome State Fault Refusal := runMarker 0x01#8 s

/-- JPGn: an unexpected marker (30 R241). -/
def execJpgnF0 (n : BitVec 3) (s : State) : Host.Outcome State Fault Refusal :=
  runMarker (0b11110#5 ++ n) s

/-- JPGn: an unexpected marker (30 R241). -/
def execJpgnF8 (n : BitVec 2) (s : State) : Host.Outcome State Fault Refusal :=
  runMarker (0b111110#6 ++ n) s

/-- JPGn: an unexpected marker (30 R241). -/
def execJpgnFC (n : BitVec 1) (s : State) : Host.Outcome State Fault Refusal :=
  runMarker (0b1111110#7 ++ n) s

/-- a reserved code: an unexpected marker (30 R241). -/
def execRes02 (n : BitVec 1) (s : State) : Host.Outcome State Fault Refusal :=
  runMarker (0b0000001#7 ++ n) s

/-- a reserved code: an unexpected marker (30 R241). -/
def execRes04 (n : BitVec 2) (s : State) : Host.Outcome State Fault Refusal :=
  runMarker (0b000001#6 ++ n) s

/-- a reserved code: an unexpected marker (30 R241). -/
def execRes08 (n : BitVec 3) (s : State) : Host.Outcome State Fault Refusal :=
  runMarker (0b00001#5 ++ n) s

/-- a reserved code: an unexpected marker (30 R241). -/
def execRes10 (n : BitVec 4) (s : State) : Host.Outcome State Fault Refusal :=
  runMarker (0b0001#4 ++ n) s

/-- a reserved code: an unexpected marker (30 R241). -/
def execRes20 (n : BitVec 5) (s : State) : Host.Outcome State Fault Refusal :=
  runMarker (0b001#3 ++ n) s

/-- a reserved code: an unexpected marker (30 R241). -/
def execRes40 (n : BitVec 6) (s : State) : Host.Outcome State Fault Refusal :=
  runMarker (0b01#2 ++ n) s

/-- a reserved code: an unexpected marker (30 R241). -/
def execRes80 (n : BitVec 6) (s : State) : Host.Outcome State Fault Refusal :=
  runMarker (0b10#2 ++ n) s

end Sys2Proof.Machine
end

