-- ==== Sys2Proof/Machine/Dct.lean ====
section
/-! DEFINITION. FDCT and IDCT, the JCC-1 graphs (42), the default of the open parameters FDCT_FN and IDCT_FN (00 R8,
log 11). -/

namespace Sys2Proof.Machine

/-! ### The constants (42 R400) -/

def c1 : Int := 1420
def c2 : Int := 1338
def c3 : Int := 1204
def c5 : Int := 805
def c6 : Int := 554
def c7 : Int := 283

/-- E(v) of the forward kernel: no shift when se = 0 (42 R401). -/
def evenShift (v : Int) (se : Nat) : Int := if se = 0 then v else rnd v se

/-- The forward kernel F1(x, se, so) (42 R401). -/
def forward1 (x : Vector Int 8) (se so : Nat) : Vector Int 8 :=
  let s07 := x[0] + x[7]
  let d0 := x[0] - x[7]
  let s16 := x[1] + x[6]
  let d1 := x[1] - x[6]
  let s25 := x[2] + x[5]
  let d2 := x[2] - x[5]
  let s34 := x[3] + x[4]
  let d3 := x[3] - x[4]
  let p := s07 + s34
  let q := s07 - s34
  let r := s16 + s25
  let t := s16 - s25
  #v[evenShift (p + r) se,
     rnd (d0 * c1 + d1 * c3 + d2 * c5 + d3 * c7) so,
     rnd (q * c2 + t * c6) so,
     rnd (d0 * c3 - d1 * c7 - d2 * c1 - d3 * c5) so,
     evenShift (p - r) se,
     rnd (d0 * c5 - d1 * c1 + d2 * c7 + d3 * c3) so,
     rnd (q * c6 - t * c2) so,
     rnd (d0 * c7 - d1 * c5 + d2 * c3 - d3 * c1) so]

/-- The inverse kernel I1 (42 R402). -/
def inverse1 (x : Vector Int 8) : Vector Int 8 :=
  let e0 := x[0] + x[4]
  let e1 := x[0] - x[4]
  let a := rnd (x[2] * c2 + x[6] * c6) 10
  let b := rnd (x[2] * c6 - x[6] * c2) 10
  let p := e0 + a
  let s := e0 - a
  let q := e1 + b
  let r := e1 - b
  let o0 := rnd (x[1] * c1 + x[3] * c3 + x[5] * c5 + x[7] * c7) 10
  let o1 := rnd (x[1] * c3 - x[3] * c7 - x[5] * c1 - x[7] * c5) 10
  let o2 := rnd (x[1] * c5 - x[3] * c1 + x[5] * c7 + x[7] * c3) 10
  let o3 := rnd (x[1] * c7 - x[3] * c5 + x[5] * c3 - x[7] * c1) 10
  #v[p + o0, q + o1, r + o2, s + o3, s - o3, r - o2, q - o1, p - o0]

/-- Row `r` of a block, as integers. -/
def blockRow (b : Block) (r : Fin 8) : Vector Int 8 :=
  Vector.ofFn fun c : Fin 8 => (b[8 * r.val + c.val]'(by have := r.isLt; have := c.isLt; omega)).toInt

/-- Column `c` of eight rows. -/
def column (rows : Vector (Vector Int 8) 8) (c : Fin 8) : Vector Int 8 := Vector.ofFn fun r : Fin 8 => rows[r][c]

/-- The row pass and the column pass with the kernels `f` and `g`: entry c of the result is column c (42 R410, R420). -/
def twoPasses (f g : Vector Int 8 → Vector Int 8) (b : Block) : Vector (Vector Int 8) 8 :=
  let rows := Vector.ofFn fun r : Fin 8 => f (blockRow b r)
  Vector.ofFn fun c : Fin 8 => g (column rows c)

/-- The block with entry 8·r + c made by `h` from entry r of column c. -/
def blockOfColumns (h : Int → Word) (cols : Vector (Vector Int 8) 8) : Block :=
  Vector.ofFn fun i : Fin 64 =>
    h ((cols[i.val % 8]'(by omega))[i.val / 8]'(by have := i.isLt; omega))

/-- The forward DCT of a block (42 R410). -/
def fdctBlock (b : Block) : Block :=
  blockOfColumns wrap32 (twoPasses (fun x => forward1 x 0 10) (fun x => forward1 x 3 13) b)

/-- The inverse DCT of a block, with level shift and clamp (42 R420). -/
def idctBlock (b : Block) : Block :=
  blockOfColumns (fun y => wrap32 (clip (rnd y 3 + 128))) (twoPasses inverse1 inverse1 b)

/-- FDCT with its fields given (42 R410). -/
def doFdct (d src : Slot) : Eng Unit := update fun s => setBlk d (fdctBlock (getBlk s src)) s

/-- IDCT with its fields given (42 R420). -/
def doIdct (d src : Slot) : Eng Unit := update fun s => setBlk d (idctBlock (getBlk s src)) s

/-- FDCT (42 R410). -/
def execFdct (d src : Slot) (s : State) : Host.Outcome State Fault Refusal := runCommand (doFdct d src) s

/-- IDCT (42 R420). -/
def execIdct (d src : Slot) (s : State) : Host.Outcome State Fault Refusal := runCommand (doIdct d src) s

end Sys2Proof.Machine
end

