-- ==== Sys2Proof/Machine/Framer.lean ====
section
/-! DEFINITION. The marker framer: the header of a frame, HDRW and CLOSE (44). -/

namespace Sys2Proof.Machine

/-- A table of 64 entries in zigzag order (44 R531). -/
def zigzagBytes (e : Vector Byte 64) : List Byte := (Vector.ofFn fun k : Fin 64 => e[zz[k]]).toList

/-- The DQT segment (44 R531). -/
def dqtBytes (q0 q1 : Vector Byte 64) : List Byte :=
  [0xFF#8, 0xDB#8] ++ be16Bytes 132 ++ ([0x00#8] ++ zigzagBytes q0) ++ ([0x01#8] ++ zigzagBytes q1)

/-- The TcTh, BITS and HUFFVAL bytes of one table (44 R532). -/
def dhtTable (tcth : Byte) (t : HuffSpec) : List Byte := [tcth] ++ t.bits.map (BitVec.ofNat 8) ++ t.vals

/-- The DHT segment (44 R532). -/
def dhtBytes : List Byte :=
  [0xFF#8, 0xC4#8] ++ be16Bytes 418 ++ dhtTable 0x00#8 romDc0 ++ dhtTable 0x10#8 romAc0 ++ dhtTable 0x01#8 romDc1
    ++ dhtTable 0x11#8 romAc1

/-- The sampling byte HV of the Y component (30 R213). -/
def lumaFactorByte : Subsampling → Byte
  | .s444 => 0x11#8
  | .s422 => 0x21#8
  | .s420 => 0x22#8
  | .s400 => 0x11#8

/-- The number of components: 1 for 4:0:0, else 3 (44 R533). -/
def componentCount : Subsampling → Nat
  | .s400 => 1
  | _ => 3

/-- The component entries of SOF0 (44 R533). -/
def sofComponents : Subsampling → List Byte
  | .s400 => [0x01#8, 0x11#8, 0x00#8]
  | ss => [0x01#8, lumaFactorByte ss, 0x00#8] ++ [0x02#8, 0x11#8, 0x01#8] ++ [0x03#8, 0x11#8, 0x01#8]

/-- The SOF0 segment (44 R533). -/
def sofBytes (ss : Subsampling) (w h : Nat) : List Byte :=
  [0xFF#8, 0xC0#8] ++ be16Bytes (8 + 3 * componentCount ss) ++ [0x08#8] ++ be16Bytes h ++ be16Bytes w
    ++ [BitVec.ofNat 8 (componentCount ss)] ++ sofComponents ss

/-- The component entries of SOS (44 R534). -/
def sosComponents : Subsampling → List Byte
  | .s400 => [0x01#8, 0x00#8]
  | _ => [0x01#8, 0x00#8, 0x02#8, 0x11#8, 0x03#8, 0x11#8]

/-- The SOS segment (44 R534). -/
def sosBytes (ss : Subsampling) : List Byte :=
  [0xFF#8, 0xDA#8] ++ be16Bytes (6 + 2 * componentCount ss) ++ [BitVec.ofNat 8 (componentCount ss)]
    ++ sosComponents ss ++ [0x00#8, 0x3F#8, 0x00#8]

/-- The header HDR(SS, W, H) (44 R530). -/
def headerBytes (ss : Subsampling) (w h : Nat) (q0 q1 : Vector Byte 64) : List Byte :=
  [0xFF#8, 0xD8#8] ++ dqtBytes q0 q1 ++ dhtBytes ++ sofBytes ss w h ++ sosBytes ss

/-- The length of the header: 579 bytes for 4:0:0, else 589 (44 R530). -/
def headerLength : Subsampling → Nat
  | .s400 => 579
  | _ => 589

/-- HDRW with its field and argument given (44 R540). -/
def doHdrw (t : BitVec 2) (dims : Word) : Eng Unit := do
  checkState (fun s => decide (s.bw.cnt = 0#3)) .command
  checkState (fun s => qtValid s 0#2 && qtValid s 1#2) .command
  check (decide (lowHalf dims ≠ 0) && decide (highHalf dims ≠ 0)) .dimensions
  let s ← get
  forEach (headerBytes (subsamplingOf t) (lowHalf dims) (highHalf dims) (getQt s 0#2) (getQt s 1#2)) rawByte
  update (setRes0 (BitVec.ofNat 32 (headerLength (subsamplingOf t))))

/-- CLOSE without its completion (44 R545). -/
def doClose : Eng Unit := do
  flush
  rawByte 0xFF#8
  rawByte 0xD9#8

/-- HDRW (44 R540). -/
def execHdrw (t : BitVec 2) (s : State) : Host.Outcome State Fault Refusal := runCommand (doHdrw t s.argL[0]) s

/-- CLOSE (44 R545). -/
def execClose (s : State) : Host.Outcome State Fault Refusal := runCommand doClose s

end Sys2Proof.Machine
end

