-- ==== Sys2Proof/Machine/Color.lean ====
section
/-! DEFINITION. CCONV, the pixel format converter and block extraction (40). -/

namespace Sys2Proof.Machine

/-- The channels of a pixel, or the components of a sample (0..255). -/
structure Triple where
  x : Int
  y : Int
  z : Int
  deriving DecidableEq, Repr

/-- LMEM's byte at `a` as 0..255. -/
def sampleAt (s : State) (a : Nat) : Int := ((readByte s a).toNat : Int)

/-- R, G, B of an RGB565 word (40 R302). -/
def widen565 (w : Nat) : Triple where
  x := ((w / 2048 * 8 ||| w / 2048 / 4 : Nat) : Int)
  y := ((w / 32 % 64 * 4 ||| w / 32 % 64 / 16 : Nat) : Int)
  z := ((w % 32 * 8 ||| w % 32 / 4 : Nat) : Int)

/-- R, G, B of pixel number `i` of a packed image (40 R300, R302, R303); planar formats hold no packed pixels. -/
def packedPixel (s : State) (f : PixelFormat) (base i : Nat) : Triple :=
  match f with
  | .rgb24 => { x := sampleAt s (base + 3 * i), y := sampleAt s (base + 3 * i + 1), z := sampleAt s (base + 3 * i + 2) }
  | .bgr24 => { x := sampleAt s (base + 3 * i + 2), y := sampleAt s (base + 3 * i + 1), z := sampleAt s (base + 3 * i) }
  | .rgb565 => widen565 ((readByte s (base + 2 * i)).toNat + 256 * (readByte s (base + 2 * i + 1)).toNat)
  | .rgb32 => { x := sampleAt s (base + 4 * i + 2), y := sampleAt s (base + 4 * i + 1), z := sampleAt s (base + 4 * i) }
  | _ => { x := 0, y := 0, z := 0 }

/-- Whether a format is one of the packed codes 0 to 3 (30 R210). -/
def isPacked : PixelFormat → Bool
  | .rgb24 => true
  | .bgr24 => true
  | .rgb565 => true
  | .rgb32 => true
  | _ => false

/-- YCC(R, G, B) (40 R305). -/
def ycc (p : Triple) : Triple where
  x := clip ((77 * p.x + 150 * p.y + 29 * p.z) >>> 8)
  y := clip (((-43 * p.x - 85 * p.y + 128 * p.z) >>> 8) + 128)
  z := clip (((128 * p.x - 107 * p.y - 21 * p.z) >>> 8) + 128)

/-- The packed pixel at (x, y), replicated at the edges (40 R306). -/
def pixelAt (s : State) (f : PixelFormat) (base w h x y : Nat) : Triple :=
  packedPixel s f base (min y (h - 1) * w + min x (w - 1))

/-- The Y sample of pixel (x, y) (40 R320). -/
def lumaSample (s : State) (f : PixelFormat) (base w h x y : Nat) : Int :=
  if isPacked f then (ycc (pixelAt s f base w h x y)).x
  else sampleAt s (base + min y (h - 1) * w + min x (w - 1))

/-- Luma block `b` of MCU (mx, my), level-shifted (40 R320, R308). -/
def lumaBlock (s : State) (f : PixelFormat) (ss : Subsampling) (base w h mx my b : Nat) : Block :=
  Vector.ofFn fun i : Fin 64 =>
    wrap32 (lumaSample s f base w h (mcuW ss * mx + 8 * (b % lumaH ss) + i.val % 8)
      (mcuH ss * my + 8 * (b / lumaH ss) + i.val / 8) - 128)

/-- Channel-wise sum of pixels. -/
def sumPixels : List Triple → Triple
  | [] => { x := 0, y := 0, z := 0 }
  | p :: ps => { x := p.x + (sumPixels ps).x, y := p.y + (sumPixels ps).y, z := p.z + (sumPixels ps).z }

/-- The rounded average of `2^k` pixels (40 R307). -/
def averagePixels (k : Nat) (ps : List Triple) : Triple :=
  { x := ((sumPixels ps).x + ((2 ^ k / 2 : Nat) : Int)) >>> k
    y := ((sumPixels ps).y + ((2 ^ k / 2 : Nat) : Int)) >>> k
    z := ((sumPixels ps).z + ((2 ^ k / 2 : Nat) : Int)) >>> k }

/-- The pixels of the cluster whose top left pixel is (x, y) (40 R307): hs × vs = lumaH × lumaV of them. -/
def clusterPixels (s : State) (f : PixelFormat) (ss : Subsampling) (base w h x y : Nat) : List Triple :=
  (List.range (lumaV ss)).flatMap fun dy =>
    (List.range (lumaH ss)).map fun dx => pixelAt s f base w h (x + dx) (y + dy)

/-- log2 of the number of pixels in a cluster (40 R307). -/
def clusterLog (ss : Subsampling) : Nat := Nat.log2 (lumaH ss * lumaV ss)

/-- Cb and Cr (fields y and z) of chroma sample (i, j) of MCU (mx, my) (40 R307, R320). -/
def chromaSample (s : State) (f : PixelFormat) (ss : Subsampling) (base w h mx my i j : Nat) : Triple :=
  if isPacked f then
    ycc (averagePixels (clusterLog ss)
      (clusterPixels s f ss base w h (mcuW ss * mx + lumaH ss * i) (mcuH ss * my + lumaV ss * j)))
  else
    let cw := chromaW f w
    let ch := chromaH f h
    let at0 := base + w * h + min (8 * my + j) (ch - 1) * cw + min (8 * mx + i) (cw - 1)
    { x := 0, y := sampleAt s at0, z := sampleAt s (at0 + cw * ch) }

/-- The Cb block of an MCU, level-shifted (40 R320). -/
def cbBlock (s : State) (f : PixelFormat) (ss : Subsampling) (base w h mx my : Nat) : Block :=
  Vector.ofFn fun i : Fin 64 => wrap32 ((chromaSample s f ss base w h mx my (i.val % 8) (i.val / 8)).y - 128)

/-- The Cr block of an MCU, level-shifted (40 R320). -/
def crBlock (s : State) (f : PixelFormat) (ss : Subsampling) (base w h mx my : Nat) : Block :=
  Vector.ofFn fun i : Fin 64 => wrap32 ((chromaSample s f ss base w h mx my (i.val % 8) (i.val / 8)).z - 128)

/-- The block CCONV writes to the slot of a (slot, component) pair of the MCU (40 R320). -/
def mcuBlock (s : State) (f : PixelFormat) (ss : Subsampling) (base w h mx my : Nat) (p : Slot × Fin 3) : Block :=
  if p.2 = 0 then lumaBlock s f ss base w h mx my p.1.toNat
  else if p.2 = 1 then cbBlock s f ss base w h mx my
  else crBlock s f ss base w h mx my

/-- Write the blocks of the given pairs, all of them read from the state `s0`. CCONV writes slots only, so reading LMEM
from `s0` is reading it as it is (40 R320). -/
def writeMcu (s0 : State) (f : PixelFormat) (ss : Subsampling) (base w h mx my : Nat) :
    List (Slot × Fin 3) → State → State
  | [], s => s
  | p :: ps, s => writeMcu s0 f ss base w h mx my ps (setBlk p.1 (mcuBlock s0 f ss base w h mx my p) s)

/-- The checks of an MCU position (40 R320, 46 R650; order of 60 R760). -/
def checkMcu (ss : Subsampling) (w h mx my : Nat) : Eng Unit := do
  check (decide (w ≠ 0) && decide (h ≠ 0)) .dimensions
  check (decide (mx * mcuW ss < w) && decide (my * mcuH ss < h)) .command

/-- CCONV with its fields and arguments given (40 R320). -/
def doCconv (t : BitVec 2) (x : BitVec 4) (base dims pos : Word) : Eng Unit :=
  match legalFormat x (subsamplingOf t) with
  | none => raise .command
  | some f => do
    checkMcu (subsamplingOf t) (lowHalf dims) (highHalf dims) (lowHalf pos) (highHalf pos)
    checkExtent base.toNat (srcSize f (lowHalf dims) (highHalf dims))
    update fun s =>
      writeMcu s f (subsamplingOf t) base.toNat (lowHalf dims) (highHalf dims) (lowHalf pos) (highHalf pos)
        (mcuBlocks (subsamplingOf t)) s

/-- CCONV (40 R320). -/
def execCconv (t : BitVec 2) (x : BitVec 4) (s : State) : Host.Outcome State Fault Refusal :=
  runCommand (doCconv t x s.argL[0] s.argL[1] s.argL[2]) s

end Sys2Proof.Machine
end

