-- ==== Sys2Proof/Machine/Upsample.lean ====
section
/-! DEFINITION. UPSCC, the chroma upsampler and colour packer (46). -/

namespace Sys2Proof.Machine

/-- YCC2RGB(Y, Cb, Cr) (46 R641): the fields of the argument are Y, Cb, Cr, of the result R, G, B. -/
def ycc2rgb (p : Triple) : Triple where
  x := clip (p.x + ((91881 * (p.z - 128) + 32768) >>> 16))
  y := clip (p.x + ((-22544 * (p.y - 128) - 46793 * (p.z - 128) + 32768) >>> 16))
  z := clip (p.x + ((116130 * (p.y - 128) + 32768) >>> 16))

/-- Entry i of slot d, clamped to 0..255 (46 R650). -/
def slotSample (s : State) (d : Slot) (i : Nat) : Int := clamp ((getBlk s d).toList.getD i 0#32).toInt 0 255

/-- The index of the chroma sample of MCU pixel (px, py) (46 R645). -/
def chromaIndex (ss : Subsampling) (px py : Nat) : Nat := py / lumaV ss * 8 + px / 2

/-- R, G, B of MCU pixel (px, py), from the slots (46 R650). -/
def mcuPixel (s : State) (ss : Subsampling) (px py : Nat) : Triple :=
  ycc2rgb
    { x := slotSample s (BitVec.ofNat 3 (py / 8 * lumaH ss + px / 8)) (py % 8 * 8 + px % 8)
      y := slotSample s 4#3 (chromaIndex ss px py)
      z := slotSample s 5#3 (chromaIndex ss px py) }

/-- The bytes of a pixel in channel order: RGB, or BGR (46 R640). -/
def pixelBytes (bgr : Bool) (p : Triple) : List Byte :=
  if bgr then [byteOf p.z, byteOf p.y, byteOf p.x] else [byteOf p.x, byteOf p.y, byteOf p.z]

/-- Write MCU pixel (px, py), unless it is padding (46 R650, R655). -/
def writePixel (s0 : State) (ss : Subsampling) (bgr : Bool) (out w h mx my px py : Nat) (s : State) : State :=
  if mcuW ss * mx + px < w ∧ mcuH ss * my + py < h then
    writeBytes (out + 3 * ((mcuH ss * my + py) * w + (mcuW ss * mx + px))) (pixelBytes bgr (mcuPixel s0 ss px py)) s
  else s

/-- Write the given pixels of an MCU, all of them read from the slots of `s0`: UPSCC writes LMEM only (46 R650). -/
def writePixels (s0 : State) (ss : Subsampling) (bgr : Bool) (out w h mx my : Nat) : List (Nat × Nat) → State → State
  | [], s => s
  | p :: ps, s =>
    writePixels s0 ss bgr out w h mx my ps (writePixel s0 ss bgr out w h mx my p.1 p.2 s)

/-- The pixels (px, py) of an MCU. -/
def mcuPixels (ss : Subsampling) : List (Nat × Nat) :=
  (List.range (mcuH ss)).flatMap fun py => (List.range (mcuW ss)).map fun px => (px, py)

/-- UPSCC with its fields and arguments given (46 R650). -/
def doUpscc (t : BitVec 2) (x : BitVec 4) (out dims pos : Word) : Eng Unit := do
  check (decide (x.toNat < 2)) .command
  check (decide (t = 1#2) || decide (t = 2#2)) .command
  checkMcu (subsamplingOf t) (lowHalf dims) (highHalf dims) (lowHalf pos) (highHalf pos)
  checkExtent out.toNat (3 * lowHalf dims * highHalf dims)
  update fun s =>
    writePixels s (subsamplingOf t) (x.getLsbD 0) out.toNat (lowHalf dims) (highHalf dims) (lowHalf pos) (highHalf pos)
      (mcuPixels (subsamplingOf t)) s

/-- UPSCC (46 R650). -/
def execUpscc (t : BitVec 2) (x : BitVec 4) (s : State) : Host.Outcome State Fault Refusal :=
  runCommand (doUpscc t x s.argL[0] s.argL[1] s.argL[2]) s

end Sys2Proof.Machine
end

