-- ==== Sys2Proof/Machine/Pipeline.lean ====
section
/-! DEFINITION. The macro commands ENCODE and DECODE, sequences of the unit commands' bodies (47). -/

namespace Sys2Proof.Machine

/-- The MCU positions (mx, my) of a grid of nx columns and ny rows, in raster order (47 R680). -/
def mcuGrid (nx ny : Nat) : List (Nat × Nat) :=
  (List.range ny).flatMap fun my => (List.range nx).map fun mx => (mx, my)

/-! ### ENCODE (47 R680) -/

/-- The table of a component: 0 for Y, 1 for Cb and Cr (47 R680). -/
def componentTable (c : Fin 3) : BitVec 2 := if c = 0 then 0#2 else 1#2

/-- FDCT, QUANT, ZIGZAG and HENC of one slot (47 R680). -/
def encodeSlot (p : Slot × Fin 3) : Eng Unit := do
  doFdct p.1 p.1
  doQuant p.1 p.1 (componentTable p.2)
  doZigzag p.1 p.1
  doHenc p.1 (BitVec.ofNat 2 p.2.val) (componentTable p.2)

/-- One MCU of ENCODE (47 R680). -/
def encodeMcu (ss : BitVec 2) (fmt : BitVec 4) (src dims : Word) (p : Nat × Nat) : Eng Unit := do
  doCconv ss fmt src dims (packHalves p.1 p.2)
  forEach (mcuBlocks (subsamplingOf ss)) encodeSlot

/-- ENCODE from the header on, the part in which an error sets RES0 (47 R680 "started"). -/
def encodeFrame (ss : BitVec 2) (fmt : BitVec 4) (src dims : Word) : Eng Unit := do
  doHdrw ss dims
  update clearPreds
  forEach (mcuGrid (ceilDiv (lowHalf dims) (mcuW (subsamplingOf ss))) (ceilDiv (highHalf dims) (mcuH (subsamplingOf ss))))
    (encodeMcu ss fmt src dims)
  doClose

/-- RES0 ← BW_PTR − dst (47 R680). -/
def countBytes (dst : Word) (s : State) : State := setRes0 (s.bw.ptr - dst) s

/-- The scale ENCODE uses (47 R680). -/
def encodeScale (opts raw : Word) : Nat :=
  if opts.getLsbD 16 then raw.toNat else qScale ((opts.extractLsb' 8 8).toNat : Int)

/-- ENCODE's tables, RES1 and bit writer: QBUILD twice, then BWINIT (47 R680). -/
def encodeSetup (dst cap : Word) (scale : Nat) : Eng Unit := do
  doQbuild 0#2 0b0000#4 (BitVec.ofNat 32 scale)
  doQbuild 1#2 0b0001#4 (BitVec.ofNat 32 scale)
  update (setRes1 (BitVec.ofNat 32 scale))
  doBwinit dst cap

/-- ENCODE with its arguments given (47 R680): src, dst, cap, W|H, options, raw scale. -/
def doEncode (src dst cap dims opts raw : Word) : Eng Unit := do
  update (setRes0 0#32)
  match legalFormat (opts.extractLsb' 0 4) (subsamplingOf (opts.extractLsb' 4 2)) with
  | none => raise .command
  | some f => do
    check (decide (lowHalf dims ≠ 0) && decide (highHalf dims ≠ 0)) .dimensions
    checkExtent src.toNat (srcSize f (lowHalf dims) (highHalf dims))
    checkExtent dst.toNat cap.toNat
    encodeSetup dst cap (encodeScale opts raw)
    onError (countBytes dst) (encodeFrame (opts.extractLsb' 4 2) (opts.extractLsb' 0 4) src dims)
    update (countBytes dst)

/-- ENCODE (47 R680). -/
def execEncode (s : State) : Host.Outcome State Fault Refusal :=
  runCommand (doEncode s.argL[0] s.argL[1] s.argL[2] s.argL[3] s.argL[4] s.argL[5]) s

/-! ### DECODE (47 R690) -/

/-- HDEC, UNZIGZAG, DEQUANT and IDCT of one slot, with FRM_INFO's tables (47 R690). -/
def decodeSlot (p : Slot × Fin 3) : Eng Unit := do
  let s ← get
  doHdec p.1 (BitVec.ofNat 2 p.2.val) (s.frmInfo.ta[p.2] ++ s.frmInfo.td[p.2])
  doUnzigzag p.1 p.1
  doDequant p.1 p.1 s.frmInfo.tq[p.2]
  doIdct p.1 p.1

/-- Whether a restart checkpoint stands before MCU number n (45 R605). -/
def restartDue (dri : Half) (n : Nat) : Bool := decide (0 < dri.toNat ∧ 0 < n ∧ n % dri.toNat = 0)

/-- One MCU of DECODE: the restart check when it is due, the blocks, the pixels (47 R690). `nx` MCUs make a row. -/
def decodeMcu (ss : BitVec 2) (bgr : Bool) (dst dims : Word) (nx : Nat) (p : Nat × Nat) : Eng Unit := do
  let s ← get
  if restartDue s.dri (p.2 * nx + p.1) then doRstchk
  forEach (mcuBlocks (subsamplingOf ss)) decodeSlot
  doUpscc ss (if bgr then 1#4 else 0#4) dst dims (packHalves p.1 p.2)

/-- TVALID ← 0 (47 R690). -/
def clearTables (s : State) : State :=
  { s with qvalid := Vector.replicate 4 false, hvalid := Vector.replicate 4 false }

/-- STATUS.RESIZED ← 1 when the frame size is not PREV_DIM (47 R694). -/
def noteResized (s : State) : State := if s.frmDim = s.prevDim then s else { s with status.resized := true }

/-- RES0 and RES1 ← 0, the start of DECODE (47 R690). -/
def decodeStart (s : State) : State := setRes1 0#32 (setRes0 0#32 s)

/-- The end of a DECODE without error: PREV_DIM ← FRM_DIM, RES0 ← 3·W·H (47 R690, R699). -/
def decodeDone (s : State) : State :=
  { s with prevDim := s.frmDim, res0 := BitVec.ofNat 32 (3 * lowHalf s.frmDim * highHalf s.frmDim) }

/-- The header part of DECODE: tables cleared, BRINIT, PARSEHDR, and the checks on the size (47 R690, R694, R695). -/
def decodeHeader (src len cap : Word) (expect : Bool) : Eng Unit := do
  update clearTables
  doBrinit src len
  doParsehdr
  update (setRes0 0#32)
  checkState (fun s => !expect || decide (s.frmDim = s.prevDim)) .sizeMismatch
  update noteResized
  checkState (fun s => decide (3 * lowHalf s.frmDim * highHalf s.frmDim ≤ cap.toNat)) .bounds

/-- The scan part of DECODE: every MCU in raster order (47 R690). The frame is MCU-aligned (45 R590). -/
def decodeScan (bgr : Bool) (dst : Word) : Eng Unit := do
  update clearPreds
  let s ← get
  let ss := subsamplingOf s.frmInfo.ss
  let nx := lowHalf s.frmDim / mcuW ss
  forEach (mcuGrid nx (highHalf s.frmDim / mcuH ss)) (decodeMcu s.frmInfo.ss bgr dst s.frmDim nx)

/-- DECODE with its arguments given (47 R690): src, len, dst, cap, flags. Every error sets STATE ← FAILED. -/
def doDecode (src len dst cap flags : Word) : Eng Unit :=
  onError (setPstate .failed) do
    update decodeStart
    checkExtent src.toNat len.toNat
    checkExtent dst.toNat cap.toNat
    decodeHeader src len cap (flags.getLsbD 0)
    decodeScan (flags.getLsbD 1) dst
    doEoichk
    update decodeDone

/-- DECODE (47 R690). -/
def execDecode (s : State) : Host.Outcome State Fault Refusal :=
  runCommand (doDecode s.argL[0] s.argL[1] s.argL[2] s.argL[3] s.argL[4]) s

end Sys2Proof.Machine
end

