-- ==== Sys2Proof/Machine/System.lean ====
section
/-! DEFINITION. The system commands NOP and PREDCLR (48 R720, R721). -/

namespace Sys2Proof.Machine

/-- NOP: nothing but the completion (48 R720). -/
def execNop (s : State) : Host.Outcome State Fault Refusal := runCommand (pure ()) s

/-- PREDCLR: PRED0..2 ← 0 (48 R721). -/
def execPredclr (s : State) : Host.Outcome State Fault Refusal := runCommand (update clearPreds) s

end Sys2Proof.Machine
end

