-- ==== Sys2Proof/Machine/Dispatch.lean ====
section
/-! DEFINITION. The dispatch: one arm per instruction, each one call of its meaning. -/

namespace Sys2Proof.Machine

def exec (i : Instr) (s : State) : Host.Outcome State Fault Refusal :=
  match i with
  | .nop => Sys2Proof.Machine.execNop s
  | .predclr => Sys2Proof.Machine.execPredclr s
  | .bwinit => Sys2Proof.Machine.execBwinit s
  | .bwflush => Sys2Proof.Machine.execBwflush s
  | .close => Sys2Proof.Machine.execClose s
  | .brinit => Sys2Proof.Machine.execBrinit s
  | .bralign => Sys2Proof.Machine.execBralign s
  | .fdct d src => Sys2Proof.Machine.execFdct d src s
  | .idct d src => Sys2Proof.Machine.execIdct d src s
  | .quant d src t => Sys2Proof.Machine.execQuant d src t s
  | .dequant d src t => Sys2Proof.Machine.execDequant d src t s
  | .zigzag d src => Sys2Proof.Machine.execZigzag d src s
  | .unzigzag d src => Sys2Proof.Machine.execUnzigzag d src s
  | .qbuild t x => Sys2Proof.Machine.execQbuild t x s
  | .qload t => Sys2Proof.Machine.execQload t s
  | .henc src c t => Sys2Proof.Machine.execHenc src c t s
  | .hdec d c t => Sys2Proof.Machine.execHdec d c t s
  | .hload t x => Sys2Proof.Machine.execHload t x s
  | .cconv t x => Sys2Proof.Machine.execCconv t x s
  | .upscc t x => Sys2Proof.Machine.execUpscc t x s
  | .hdrw t => Sys2Proof.Machine.execHdrw t s
  | .parsehdr => Sys2Proof.Machine.execParsehdr s
  | .rstchk => Sys2Proof.Machine.execRstchk s
  | .eoichk => Sys2Proof.Machine.execEoichk s
  | .encode => Sys2Proof.Machine.execEncode s
  | .decode => Sys2Proof.Machine.execDecode s
  | .soi => Sys2Proof.Machine.execSoi s
  | .eoi => Sys2Proof.Machine.execEoi s
  | .dqt => Sys2Proof.Machine.execDqt s
  | .dht => Sys2Proof.Machine.execDht s
  | .dri => Sys2Proof.Machine.execDri s
  | .sof0 => Sys2Proof.Machine.execSof0 s
  | .sos => Sys2Proof.Machine.execSos s
  | .rstn n => Sys2Proof.Machine.execRstn n s
  | .appn n => Sys2Proof.Machine.execAppn n s
  | .com => Sys2Proof.Machine.execCom s
  | .sof1 => Sys2Proof.Machine.execSof1 s
  | .sof2 => Sys2Proof.Machine.execSof2 s
  | .sof3 => Sys2Proof.Machine.execSof3 s
  | .sof5 => Sys2Proof.Machine.execSof5 s
  | .sof6 => Sys2Proof.Machine.execSof6 s
  | .sof7 => Sys2Proof.Machine.execSof7 s
  | .jpg => Sys2Proof.Machine.execJpg s
  | .sof9 => Sys2Proof.Machine.execSof9 s
  | .sof10 => Sys2Proof.Machine.execSof10 s
  | .sof11 => Sys2Proof.Machine.execSof11 s
  | .dac => Sys2Proof.Machine.execDac s
  | .sof13 => Sys2Proof.Machine.execSof13 s
  | .sof14 => Sys2Proof.Machine.execSof14 s
  | .sof15 => Sys2Proof.Machine.execSof15 s
  | .dnl => Sys2Proof.Machine.execDnl s
  | .dhp => Sys2Proof.Machine.execDhp s
  | .exp => Sys2Proof.Machine.execExp s
  | .tem => Sys2Proof.Machine.execTem s
  | .jpgnF0 n => Sys2Proof.Machine.execJpgnF0 n s
  | .jpgnF8 n => Sys2Proof.Machine.execJpgnF8 n s
  | .jpgnFC n => Sys2Proof.Machine.execJpgnFC n s
  | .res02 n => Sys2Proof.Machine.execRes02 n s
  | .res04 n => Sys2Proof.Machine.execRes04 n s
  | .res08 n => Sys2Proof.Machine.execRes08 n s
  | .res10 n => Sys2Proof.Machine.execRes10 n s
  | .res20 n => Sys2Proof.Machine.execRes20 n s
  | .res40 n => Sys2Proof.Machine.execRes40 n s
  | .res80 n => Sys2Proof.Machine.execRes80 n s

end Sys2Proof.Machine
end

