-- ==== Sys2Proof/Machine/Host.lean ====
section
/-! DEFINITION. The host's moves: CSR and LMEM accesses, issue, soft reset (10 R57 to R76, 20 R151 to R165, 60 R757,
R785, 70 R802). -/

namespace Sys2Proof.Machine

/-! ### CSRs as words (10 R60 to R76) -/

/-- The code of PSTATE.STATE (10 R72). -/
def parserCode : ParserState → BitVec 3
  | .expectSoi => 0#3
  | .readingTables => 1#3
  | .sof0Seen => 2#3
  | .inScan => 3#3
  | .terminal => 4#3
  | .failed => 7#3

/-- PSTATE (10 R72). -/
def pstateWord (s : State) : Word := 0#25 ++ s.rstNext ++ 0#1 ++ parserCode s.pstate

/-- BW_STATE (10 R69). -/
def bwStateWord (s : State) : Word := 0#21 ++ s.bw.cnt ++ s.bw.acc

/-- BR_STATE (10 R70). -/
def brStateWord (s : State) : Word := 0#19 ++ BitVec.ofBool s.br.mark ++ s.br.cnt ++ s.br.cur

/-- FRM_INFO (10 R74). -/
def frmInfoWord (f : FrameInfo) : Word :=
  0#14 ++ f.ta[2] ++ f.td[2] ++ f.ta[1] ++ f.td[1] ++ f.ta[0] ++ f.td[0] ++ 0#2 ++ f.tq[2] ++ f.tq[1] ++ f.tq[0] ++ 0#2
    ++ f.ss

/-- TVALID (10 R75). -/
def tvalidWord (s : State) : Word :=
  0#24 ++ BitVec.ofBool s.hvalid[3] ++ BitVec.ofBool s.hvalid[2] ++ BitVec.ofBool s.hvalid[1] ++ BitVec.ofBool s.hvalid[0]
    ++ BitVec.ofBool s.qvalid[3] ++ BitVec.ofBool s.qvalid[2] ++ BitVec.ofBool s.qvalid[1] ++ BitVec.ofBool s.qvalid[0]

/-! ### Windows (10 R76, 20 R161) -/

/-- Byte n of the QT window. -/
def qtWindowByte (s : State) (n : Nat) : Byte := (getQt s (BitVec.ofNat 2 (n / 64))).toList.getD (n % 64) 0#8

/-- Byte n of the RQ window, each entry little-endian. -/
def rqWindowByte (s : State) (n : Nat) : Byte :=
  ((getRq s (BitVec.ofNat 2 (n / 128))).toList.getD (n % 128 / 2) 0#16).extractLsb' (8 * (n % 2)) 8

/-- Byte n of the Huffman window: BITS, HUFFVAL, then zeros (10 R76). -/
def htWindowByte (s : State) (n : Nat) : Byte :=
  let t := s.ht.toList.getD (n / 512) { bits := Vector.replicate 16 0#8, vals := Vector.replicate 256 0#8 }
  if n % 512 < 16 then t.bits.toList.getD (n % 512) 0#8
  else if n % 512 < 272 then t.vals.toList.getD (n % 512 - 16) 0#8
  else 0#8

/-- The word of a byte window at byte n (20 R161). -/
def windowWord (f : Nat → Byte) (n : Nat) : Word := f (n + 3) ++ f (n + 2) ++ f (n + 1) ++ f n

/-- The slot and the entry of BLK window byte n. -/
def blkSlot (n : Nat) : Slot := BitVec.ofNat 3 (n / 256)

/-- The value of the CSR at an aligned offset; unlisted offsets read 0 (10 R57, R60 to R76). -/
def csrValue (s : State) (o : Nat) : Word :=
  if o = 0x000 then Config.idWord
  else if o = 0x004 then 0#31 ++ BitVec.ofBool s.ie
  else if o = 0x008 then statusWord s.status
  else if 0x010 ≤ o ∧ o < 0x030 then s.arg.toList.getD ((o - 0x010) / 4) 0#32
  else if o = 0x030 then s.res0
  else if o = 0x034 then s.res1
  else if o = 0x038 then s.prevDim
  else if o = 0x03C then 0#16 ++ s.dri
  else if o = 0x040 then s.bw.ptr
  else if o = 0x044 then s.bw.lim
  else if o = 0x048 then bwStateWord s
  else if o = 0x050 then s.br.ptr
  else if o = 0x054 then s.br.lim
  else if o = 0x058 then brStateWord s
  else if o = 0x060 then s.pred[0].signExtend 32
  else if o = 0x064 then s.pred[1].signExtend 32
  else if o = 0x068 then s.pred[2].signExtend 32
  else if o = 0x070 then pstateWord s
  else if o = 0x074 then s.frmDim
  else if o = 0x078 then frmInfoWord s.frmInfo
  else if o = 0x07C then tvalidWord s
  else if 0x400 ≤ o ∧ o < 0x500 then windowWord (qtWindowByte s) (o - 0x400)
  else if 0x800 ≤ o ∧ o < 0xA00 then windowWord (rqWindowByte s) (o - 0x800)
  else if 0x1000 ≤ o ∧ o < 0x1800 then
    (getBlk s (blkSlot (o - 0x1000))).toList.getD ((o - 0x1000) % 256 / 4) 0#32
  else if 0x2000 ≤ o ∧ o < 0x2800 then windowWord (htWindowByte s) (o - 0x2000)
  else 0#32

/-! ### Issue (60 R757) -/

/-- A write of w to CMD: dropped with OVR while BUSY, else the command is latched (60 R757, R786; 10 R59). -/
def issue (w : Word) (s : State) : State :=
  if s.status.busy then { s with status.ovr := true }
  else { s with cmdL := w, argL := s.arg, status := statusIssue s.status }

/-! ### Write footprints and soft reset (20 R165, 70 R802) -/

/-- [BW_PTR, BW_LIM). -/
def writerFootprint (s : State) : Region := { lo := s.bw.ptr.toNat, hi := s.bw.lim.toNat }

/-- The LMEM write footprint of an instruction, with the registers at issue (20 R165). A marker is an event of a parse,
which writes no LMEM. -/
def footprintOf (s : State) : Instr → Option Region
  | .henc _ _ _ => some (writerFootprint s)
  | .bwflush => some (writerFootprint s)
  | .close => some (writerFootprint s)
  | .hdrw _ => some (writerFootprint s)
  | .upscc _ _ =>
    some { lo := s.argL[0].toNat, hi := s.argL[0].toNat + 3 * lowHalf s.argL[1] * highHalf s.argL[1] }
  | .encode => some { lo := s.argL[1].toNat, hi := s.argL[1].toNat + s.argL[2].toNat }
  | .decode => some { lo := s.argL[2].toNat, hi := s.argL[2].toNat + s.argL[3].toNat }
  | .nop => none
  | .predclr => none
  | .bwinit => none
  | .brinit => none
  | .bralign => none
  | .fdct _ _ => none
  | .idct _ _ => none
  | .quant _ _ _ => none
  | .dequant _ _ _ => none
  | .zigzag _ _ => none
  | .unzigzag _ _ => none
  | .qbuild _ _ => none
  | .qload _ => none
  | .hdec _ _ _ => none
  | .hload _ _ => none
  | .cconv _ _ => none
  | .parsehdr => none
  | .rstchk => none
  | .eoichk => none
  | .soi => none
  | .eoi => none
  | .dqt => none
  | .dht => none
  | .dri => none
  | .sof0 => none
  | .sos => none
  | .rstn _ => none
  | .appn _ => none
  | .com => none
  | .sof1 => none
  | .sof2 => none
  | .sof3 => none
  | .sof5 => none
  | .sof6 => none
  | .sof7 => none
  | .jpg => none
  | .sof9 => none
  | .sof10 => none
  | .sof11 => none
  | .dac => none
  | .sof13 => none
  | .sof14 => none
  | .sof15 => none
  | .dnl => none
  | .dhp => none
  | .exp => none
  | .tem => none
  | .jpgnF0 _ => none
  | .jpgnF8 _ => none
  | .jpgnFC _ => none
  | .res02 _ => none
  | .res04 _ => none
  | .res08 _ => none
  | .res10 _ => none
  | .res20 _ => none
  | .res40 _ => none
  | .res80 _ => none

/-- The write footprint of the running command, if one runs. DESIGN CHOICE (log 7), safe: a word that the decoder gives a
command has that command's footprint even where the command then raises ERR_COMMAND and writes nothing, among them HENC with
C = 3, which 30 R201 makes an illegal word and 20 R165 does not set apart. A word that decodes to no command has none (30
R201, R204). -/
def footprint (s : State) : Option Region :=
  if s.status.busy then
    match decodeCommand s.cmdL with
    | .ok i => footprintOf s i
    | .error _ => none
  else none

/-- Every byte of the region takes any value: its written bytes are forgotten and its free values redrawn (70 R802). -/
def scramble (r : Region) (s : State) : State := { s with mem := memForget s.mem r, undef := r :: s.undef }

/-- The reset values of 10 R99, LMEM and the model's own fields kept (70 R802). -/
def resetRegisters (s : State) : State :=
  { State.reset with
    mem := s.mem
    memBytes := s.memBytes
    undef := s.undef
    draws := s.draws
    hostData := s.hostData
    agenda := s.agenda }

/-- The soft reset (70 R802). -/
def softReset (s : State) : State :=
  match footprint s with
  | some r => resetRegisters (scramble r s)
  | none => resetRegisters s

/-! ### CSR writes -/

/-- A write to CTRL: SRST, else IE (10 R61, 70 R802). -/
def writeCtrl (m : Word) (s : State) : State :=
  if m.getLsbD 1 then softReset s else { s with ie := m.getLsbD 0 }

/-- Whether the host may write the CSR at offset o only while BUSY = 0: ARGn, PREV_DIM, DRI, PRED0..2, a BLK word (60
R785, R787). -/
def isLiveCsr (o : Nat) : Bool :=
  decide (0x010 ≤ o ∧ o < 0x030) || decide (o = 0x038) || decide (o = 0x03C) || decide (o = 0x060) || decide (o = 0x064)
    || decide (o = 0x068) || decide (0x1000 ≤ o ∧ o < 0x1800)

/-- A write of w to one of those (10 R64, R67, R68, R71, 20 R161). -/
def writeLiveCsr (o : Nat) (w : Word) (s : State) : State :=
  if o = 0x038 then { s with prevDim := w }
  else if o = 0x03C then { s with dri := w.setWidth 16 }
  else if o = 0x060 then setPred 0 (w.setWidth 16) s
  else if o = 0x064 then setPred 1 (w.setWidth 16) s
  else if o = 0x068 then setPred 2 (w.setWidth 16) s
  else if o < 0x030 then { s with arg := s.arg.setIfInBounds ((o - 0x010) / 4) w }
  else
    setBlk (blkSlot (o - 0x1000)) ((getBlk s (blkSlot (o - 0x1000))).setIfInBounds ((o - 0x1000) % 256 / 4) w) s

/-- A host write of w to the CSR at aligned offset o < 0x4000 (60 R785); RO registers and unlisted offsets ignore it
(10 R57). -/
def hostWriteCsr (o : Nat) (w : Word) (s : State) : Host.Outcome State Fault Refusal :=
  if o = 0x004 then .next (writeCtrl w s)
  else if o = 0x008 then .next { s with status := statusClear w s.status }
  else if o = 0x00C then .next (issue w s)
  else if isLiveCsr o then
    if s.status.busy then .refused .hostWriteWhileBusy else .next (writeLiveCsr o w s)
  else .next s

/-! ### CSR reads -/

/-- The bits of the CSR at aligned offset o that are not reserved; none at an unlisted offset and at the unlisted bytes of a
Huffman window (10 R57, R60 to R76). PRED is read sign-extended, so all its bits carry its value (10 R71). -/
def csrBits (o : Nat) : Word :=
  if o = 0x000 then 0xFFFFFFFF#32
  else if o = 0x004 then 0x00000001#32
  else if o = 0x008 then 0x0000FF1F#32
  else if 0x00C ≤ o ∧ o < 0x03C then 0xFFFFFFFF#32
  else if o = 0x03C then 0x0000FFFF#32
  else if o = 0x040 then 0xFFFFFFFF#32
  else if o = 0x044 then 0xFFFFFFFF#32
  else if o = 0x048 then 0x000007FF#32
  else if o = 0x050 then 0xFFFFFFFF#32
  else if o = 0x054 then 0xFFFFFFFF#32
  else if o = 0x058 then 0x00001FFF#32
  else if 0x060 ≤ o ∧ o < 0x06C then 0xFFFFFFFF#32
  else if o = 0x070 then 0x00000077#32
  else if o = 0x074 then 0xFFFFFFFF#32
  else if o = 0x078 then 0x0003F3F3#32
  else if o = 0x07C then 0x000000FF#32
  else if 0x400 ≤ o ∧ o < 0x500 then 0xFFFFFFFF#32
  else if 0x800 ≤ o ∧ o < 0xA00 then 0xFFFFFFFF#32
  else if 0x1000 ≤ o ∧ o < 0x1800 then 0xFFFFFFFF#32
  else if 0x2000 ≤ o ∧ o < 0x2800 ∧ (o - 0x2000) % 512 < 272 then 0xFFFFFFFF#32
  else 0x00000000#32

/-- Whether a host read of the CSR at offset o gives its value: always while idle; while BUSY for ID, CTRL and STATUS (20
R165), and at unlisted offsets, which read 0 (10 R57; 20 R152; 93 I19: not a draw). -/
def csrDefined (s : State) (o : Nat) : Bool := !s.status.busy || decide (o ≤ 0x008) || decide (csrBits o = 0#32)

/-- A host read of the CSR at aligned offset o < 0x4000: its value where that is defined, else any value, the reserved bits 0
(10 R57; 20 R165; log 6). -/
def hostReadCsr (o : Nat) (s : State) : State :=
  if csrDefined s o then { s with hostData := csrValue s o }
  else { s with hostData := Config.hostWordDraw s.draws &&& csrBits o, draws := s.draws + 1 }

/-! ### LMEM (20 R151, R156, R157, R165) -/

/-- The bytes of an access. -/
def widthBytes : AccessWidth → Nat
  | .byte => 1
  | .half => 2
  | .word => 4

/-- Whether address a lies in the running command's write footprint. -/
def inFootprint (s : State) (a : Nat) : Bool :=
  match footprint s with
  | some r => decide (r.lo ≤ a ∧ a < r.hi)
  | none => false

/-- One byte of a host read: a fresh draw inside the running command's footprint (20 R165). -/
def hostByte (a : Nat) (s : State) : Byte × State :=
  if inFootprint s a then (Config.hostByteDraw s.draws, { s with draws := s.draws + 1 }) else (readByte s a, s)

/-- The n bytes of a host read from a on, as a little-endian number (20 R156). -/
def hostBytes (a : Nat) : Nat → State → Nat × State
  | 0, s => (0, s)
  | n + 1, s =>
    let b := hostByte a s
    let r := hostBytes (a + 1) n b.2
    (b.1.toNat + 256 * r.1, r.2)

/-- The n little-endian bytes of w (20 R156). -/
def littleBytes (w : Nat) : Nat → List Byte
  | 0 => []
  | n + 1 => BitVec.ofNat 8 w :: littleBytes (w / 256) n

/-- A host read of LMEM. -/
def hostReadMem (a : Nat) (n : Nat) (s : State) : State :=
  let r := hostBytes a n s
  { r.2 with hostData := BitVec.ofNat 32 r.1 }

/-! ### All moves (60 R785) -/

/-- An access to LMEM outside the interface (20 R159) or outside LMEM, else `k`. -/
def lmemAccess (s : State) (a n : Nat) (k : Host.Outcome State Fault Refusal) : Host.Outcome State Fault Refusal :=
  if a % n ≠ 0 then .refused .misalignedLmem
  else if s.memBytes < a + n then .fault .lmemOutside
  else k

/-- An access to the CSR space outside the interface (20 R159) or outside the space (20 R152), else `k`. -/
def csrAccess (o : Nat) (w : AccessWidth) (k : Host.Outcome State Fault Refusal) : Host.Outcome State Fault Refusal :=
  if w ≠ .word ∨ o % 4 ≠ 0 then .refused .csrForm
  else if Config.csrBytes ≤ o then .fault .csrOutside
  else k

/-- A host move (60 R785, R787). -/
def hostMove (a : HostAccess) (s : State) : Host.Outcome State Fault Refusal :=
  match a with
  | .readCsr o w => csrAccess o w (.next (hostReadCsr o s))
  | .writeCsr o w d => csrAccess o w (hostWriteCsr o d s)
  | .readMem a w => lmemAccess s a (widthBytes w) (.next (hostReadMem a (widthBytes w) s))
  | .writeMem a w d =>
    lmemAccess s a (widthBytes w)
      (if s.status.busy then .refused .hostWriteWhileBusy
       else .next (writeBytes a (littleBytes d.toNat (widthBytes w)) s))

end Sys2Proof.Machine
end

