-- ==== Sys2Proof/Machine/Engine.lean ====
section
/-! DEFINITION. The engine's move, and how a table word is placed where the machine takes its next instruction (20 R163, 60
R785). -/

namespace Sys2Proof.Machine

/-- The engine's one move, "perform the latched command" (60 R785): nothing while idle (60 R784); an illegal word
completes with ERR_COMMAND and changes nothing else (30 R201, R204). -/
def engineMove (s : State) : Host.Outcome State Fault Refusal :=
  if s.status.busy then
    match decodeCommand s.cmdL with
    | .ok i => exec i s
    | .error _ => .next (complete (some .command) s)
  else .next s

/-- The command word of the command that reads marker code c: RSTCHK, EOICHK or PARSEHDR. -/
def readerCommand (c : Byte) : Word :=
  if c.extractLsb' 3 5 = 0b11010#5 then 0x0000003A#32 else if c = 0xD9#8 then 0x0000003B#32 else 0x00000039#32

/-- A command word as the next instruction: issued, the engine moving next (60 R757; log 8). -/
def placeCommand (w : Word) (s : State) : State :=
  let t := issue w { s with status.busy := false }
  { t with agenda := .engine :: t.agenda }

/-- The bytes that stand before marker code c in the input: SOI, for a marker of a header parse other than SOI (45 R600). -/
def beforeMarker (c : Byte) : List Byte :=
  if readerCommand c = 0x00000039#32 ∧ c ≠ 0xD8#8 then [0xFF#8, 0xD8#8] else []

/-- A marker as the next instruction: its two bytes and a length field 0 in the input at BR_PTR, behind the SOI that a header
parse needs, the input reaching at least behind them; the command that reads it is issued, in a scan if it is a checkpoint,
and the engine moves next (log 8). -/
def placeMarker (w : Half) (s : State) : State :=
  let c : Byte := w.extractLsb' 0 8
  let bytes := beforeMarker c ++ [w.extractLsb' 8 8, c, 0x00#8, 0x00#8]
  let t := writeBytes s.br.ptr.toNat bytes (placeCommand (readerCommand c) s)
  { t with
    pstate := if readerCommand c = 0x00000039#32 then s.pstate else .inScan
    br.lim :=
      if s.br.ptr.toNat + bytes.length ≤ s.br.lim.toNat then s.br.lim else s.br.ptr + BitVec.ofNat 32 bytes.length }

end Sys2Proof.Machine
end

