-- ==== Sys2Proof/Machine/Step.lean ====
section
/-! DEFINITION. One step of the machine: the next move of the agenda, or the engine when none is listed. -/

namespace Sys2Proof.Machine

/-- One step: the move at the head of the agenda, taken off it; with an empty agenda the engine moves (20 R163, 60 R785,
R788; log 1). -/
def step (s : State) : Host.Outcome State Fault Refusal :=
  match s.agenda with
  | [] => engineMove s
  | .engine :: rest => engineMove { s with agenda := rest }
  | .host a :: rest => hostMove a { s with agenda := rest }

/-- The state with a table word placed where `step` takes its next instruction: a 32-bit row as the latched command, a
16-bit row as the marker that the next command, a parse, runs (log 8). -/
def State.withFetchWord (s : State) (nbits w : Nat) : State :=
  if nbits = 16 then placeMarker (BitVec.ofNat 16 w) s else placeCommand (BitVec.ofNat 32 w) s

end Sys2Proof.Machine
end

