-- ==== Sys2Proof/Safety.lean ====
section
/-! DEFINITION. The terms the claims are stated in: a safe run, the invariants of the machine, the parts of the state an
instruction may change, and the bit strings that the bit writer and the bit reader stand for. No definition of the machine
uses this file. -/

namespace Sys2Proof.Machine

/-! ### Safe runs (60 R787) -/

/-- A host access within the interface and the host duties (20 R150, R152, R159; 60 R785, R787). -/
def dutiful (s : State) : HostAccess → Prop
  | .readCsr o w => w = .word ∧ o % 4 = 0 ∧ o < Config.csrBytes
  | .writeCsr o w _ => w = .word ∧ o % 4 = 0 ∧ o < Config.csrBytes ∧ (isLiveCsr o = true → s.status.busy = false)
  | .readMem a w => a % widthBytes w = 0 ∧ a + widthBytes w ≤ s.memBytes
  | .writeMem a w _ => a % widthBytes w = 0 ∧ a + widthBytes w ≤ s.memBytes ∧ s.status.busy = false

/-- The next move is one the machine has a meaning for: any but a host access outside the duties. -/
def safeMove (s : State) : Prop :=
  match s.agenda with
  | .host a :: _ => dutiful s a
  | _ => True

/-- What the host can know of a command without error (60 R756). -/
def succeeded (s : State) : Prop := s.status.err = false ∧ s.status.errCode = 0#8

/-! ### Invariants -/

/-- MEM_BYTES is one of the allowed sizes (00 R8). -/
def ParamOk (s : State) : Prop := 2 ^ 16 ≤ s.memBytes ∧ s.memBytes ≤ 2 ^ 31

/-- The written bytes of LMEM: strictly rising addresses, all of them inside LMEM (20 R150). -/
def MemOk (s : State) : Prop := s.mem.wf ∧ ∀ c ∈ s.mem, c.1 < s.memBytes

/-- The bit writer: BW_PTR ≤ BW_LIM ≤ MEM_BYTES, and ACC[7:CNT] = 0 (10 R69, 43 R461). -/
def WriterOk (s : State) : Prop :=
  s.bw.ptr.toNat ≤ s.bw.lim.toNat ∧ s.bw.lim.toNat ≤ s.memBytes ∧ s.bw.acc.toNat < 2 ^ s.bw.cnt.toNat

/-- The bit reader: BR_PTR ≤ BR_END ≤ MEM_BYTES, and CNT is 0 to 8 (10 R70, 43 R467). -/
def ReaderOk (s : State) : Prop :=
  s.br.ptr.toNat ≤ s.br.lim.toNat ∧ s.br.lim.toNat ≤ s.memBytes ∧ s.br.cnt.toNat ≤ 8

/-- An installed quantization table has no entry 0, and RQ is the reciprocal of QT (10 R80, 41 R357, R358). -/
def QuantOk (s : State) : Prop :=
  ∀ t : Fin 4, s.qvalid[t] = true →
    ∀ i : Fin 64, s.qt[t][i] ≠ 0#8 ∧ s.rq[t][i].toNat = 32768 / s.qt[t][i].toNat

/-- An installed decoder table passed the validity check (43 R473). -/
def HuffOk (s : State) : Prop :=
  ∀ h : Fin 4, s.hvalid[h] = true → bitsValid (s.ht[h].bits.toList.map BitVec.toNat) = true

/-- A frame the parser can accept: 4:2:2 or 4:2:0, not empty, whole MCUs (45 R590). -/
def frameAligned (s : State) : Prop :=
  (s.frmInfo.ss = 1#2 ∨ s.frmInfo.ss = 2#2) ∧ lowHalf s.frmDim ≠ 0 ∧ highHalf s.frmDim ≠ 0
    ∧ lowHalf s.frmDim % mcuW (subsamplingOf s.frmInfo.ss) = 0
    ∧ highHalf s.frmDim % mcuH (subsamplingOf s.frmInfo.ss) = 0

/-- The tables the scan names are installed (45 R595). -/
def scanTablesInstalled (s : State) : Prop :=
  ∀ c : Fin 3, qtValid s s.frmInfo.tq[c] = true ∧ htValid s 0#1 s.frmInfo.td[c] = true
    ∧ htValid s 1#1 s.frmInfo.ta[c] = true

/-- After SOF0 the frame is one the parser accepts; in a scan its tables are installed (45 R590, R595). -/
def ScanOk (s : State) : Prop :=
  (s.pstate = .sof0Seen ∨ s.pstate = .inScan ∨ s.pstate = .terminal → frameAligned s)
    ∧ (s.pstate = .inScan → scanTablesInstalled s)

/-! ### Frames -/

/-- The parts of the state a command or a marker may change. The completion fields of STATUS are no part: 60 R756 says what
happens to them. `control` is what no command changes: CTRL, OVR, CMD_L, ARG_L, ARG0..7 and the model's own fields. -/
inductive Part where
  | control
  | resized
  | res0
  | res1
  | prevDim
  | dri
  | writer
  | reader
  | pred (c : Fin 3)
  | pstate
  | rstNext
  | frmDim
  | frmInfo
  | quantTable (t : Fin 4)
  | huffTable (h : Fin 4)
  | blk (d : Fin 8)
  | lmem
  deriving DecidableEq, Repr

/-- The part is the same in both states. For LMEM: every byte reads the same. -/
def Part.same (s t : State) : Part → Prop
  | .control =>
    t.ie = s.ie ∧ t.status.ovr = s.status.ovr ∧ t.cmdL = s.cmdL ∧ t.argL = s.argL ∧ t.arg = s.arg
      ∧ t.memBytes = s.memBytes ∧ t.undef = s.undef ∧ t.draws = s.draws ∧ t.hostData = s.hostData
      ∧ t.agenda = s.agenda
  | .resized => t.status.resized = s.status.resized
  | .res0 => t.res0 = s.res0
  | .res1 => t.res1 = s.res1
  | .prevDim => t.prevDim = s.prevDim
  | .dri => t.dri = s.dri
  | .writer => t.bw = s.bw
  | .reader => t.br = s.br
  | .pred c => t.pred[c] = s.pred[c]
  | .pstate => t.pstate = s.pstate
  | .rstNext => t.rstNext = s.rstNext
  | .frmDim => t.frmDim = s.frmDim
  | .frmInfo => t.frmInfo = s.frmInfo
  | .quantTable i => t.qt[i] = s.qt[i] ∧ t.rq[i] = s.rq[i] ∧ t.qvalid[i] = s.qvalid[i]
  | .huffTable i => t.ht[i] = s.ht[i] ∧ t.hvalid[i] = s.hvalid[i]
  | .blk i => t.blk[i] = s.blk[i]
  | .lmem => ∀ a, readByte t a = readByte s a

/-- The part is entry c of the predictors. -/
def Part.isPred (c : Nat) : Part → Bool
  | .pred i => decide (i.val = c)
  | _ => false

/-- The part is one of the predictors. -/
def Part.isAnyPred : Part → Bool
  | .pred _ => true
  | _ => false

/-- The part is quantization table t. -/
def Part.isQuantTable (t : Nat) : Part → Bool
  | .quantTable i => decide (i.val = t)
  | _ => false

/-- The part is decoder table h. -/
def Part.isHuffTable (h : Nat) : Part → Bool
  | .huffTable i => decide (i.val = h)
  | _ => false

/-- The part is slot d. -/
def Part.isSlot (d : Nat) : Part → Bool
  | .blk i => decide (i.val = d)
  | _ => false

/-- The part is a slot of an MCU of layout ss (10 R56). -/
def Part.isMcuSlot (ss : Subsampling) (p : Part) : Bool := (mcuBlocks ss).any fun q => p.isSlot q.1.toNat

/-- The part is the bit writer or LMEM: what EMIT changes (43 R460). -/
def Part.isOutput : Part → Bool
  | .writer => true
  | .lmem => true
  | _ => false

/-- The part is one that the segments of a header may change: the tables, DRI, the reader, the parser state, the results (45
R583 to R600). -/
def Part.isHeader : Part → Bool
  | .res0 => true
  | .res1 => true
  | .dri => true
  | .reader => true
  | .pstate => true
  | .rstNext => true
  | .frmDim => true
  | .frmInfo => true
  | .quantTable _ => true
  | .huffTable _ => true
  | _ => false

/-- The parts an instruction may change, with or without error: the "Flags written" item of its rule (40 to 48), and for a
marker the segment rule it runs (45 R570, R583 to R615); a marker that is rejected changes STATE only. Control appears
nowhere. -/
def mayChange (s : State) (i : Instr) (p : Part) : Bool :=
  match i with
  | .nop => false
  | .predclr => p.isAnyPred
  | .bwinit => p = .writer
  | .bwflush => p.isOutput
  | .close => p.isOutput
  | .brinit => p = .reader
  | .bralign => p = .reader
  | .fdct d _ => p.isSlot d.toNat
  | .idct d _ => p.isSlot d.toNat
  | .quant d _ _ => p.isSlot d.toNat
  | .dequant d _ _ => p.isSlot d.toNat
  | .zigzag d _ => p.isSlot d.toNat
  | .unzigzag d _ => p.isSlot d.toNat
  | .qbuild t _ => p.isQuantTable t.toNat || p = .res0
  | .qload t => p.isQuantTable t.toNat
  | .henc _ c _ => p.isOutput || p.isPred c.toNat
  | .hdec d c _ => p = .reader || p.isSlot d.toNat || p.isPred c.toNat
  | .hload t x => p.isHuffTable (2 * x.toNat + t.toNat) || p = .res0
  | .cconv t _ => p.isMcuSlot (subsamplingOf t)
  | .upscc _ _ => p = .lmem
  | .hdrw _ => p.isOutput || p = .res0
  | .parsehdr => p.isHeader
  | .rstchk => p = .reader || p = .pstate || p = .rstNext || p.isAnyPred
  | .eoichk => p = .reader || p = .pstate
  | .encode =>
    p.isOutput || p = .res0 || p = .res1 || p.isQuantTable 0 || p.isQuantTable 1 || p.isAnyPred
      || p.isMcuSlot (subsamplingOf (s.argL[4].extractLsb' 4 2))
  | .decode => p.isHeader || p = .resized || p = .prevDim || p.isAnyPred || p.isMcuSlot .s420 || p = .lmem
  | .dqt => p = .reader || p = .pstate || p.isQuantTable 0 || p.isQuantTable 1 || p.isQuantTable 2 || p.isQuantTable 3
  | .dht => p = .reader || p = .pstate || p.isHuffTable 0 || p.isHuffTable 1 || p.isHuffTable 2 || p.isHuffTable 3
  | .dri => p = .reader || p = .pstate || p = .dri
  | .sof0 => p = .reader || p = .pstate || p = .frmDim || p = .frmInfo || p = .res1
  | .sos => p = .reader || p = .pstate || p = .frmInfo || p = .rstNext || p = .res0
  | .rstn _ => p = .pstate || p = .rstNext || p.isAnyPred
  | .appn _ => p = .reader || p = .pstate
  | .com => p = .reader || p = .pstate
  | .soi => p = .pstate
  | .eoi => p = .pstate
  | .sof1 => p = .pstate
  | .sof2 => p = .pstate
  | .sof3 => p = .pstate
  | .sof5 => p = .pstate
  | .sof6 => p = .pstate
  | .sof7 => p = .pstate
  | .jpg => p = .pstate
  | .sof9 => p = .pstate
  | .sof10 => p = .pstate
  | .sof11 => p = .pstate
  | .dac => p = .pstate
  | .sof13 => p = .pstate
  | .sof14 => p = .pstate
  | .sof15 => p = .pstate
  | .dnl => p = .pstate
  | .dhp => p = .pstate
  | .exp => p = .pstate
  | .tem => p = .pstate
  | .jpgnF0 _ => p = .pstate
  | .jpgnF8 _ => p = .pstate
  | .jpgnFC _ => p = .pstate
  | .res02 _ => p = .pstate
  | .res04 _ => p = .pstate
  | .res08 _ => p = .pstate
  | .res10 _ => p = .pstate
  | .res20 _ => p = .pstate
  | .res40 _ => p = .pstate
  | .res80 _ => p = .pstate

/-! ### The bit writer's output as a bit string (43 R460 to R465) -/

/-- The pending bits, the oldest first (10 R69). -/
def pendingBits (w : BitWriter) : List Bool := bitsMsb w.acc.toNat w.cnt.toNat

/-- The whole bytes of a bit string, the first bit most significant (00 R10). -/
def wholeBytes : List Bool → List Byte
  | b7 :: b6 :: b5 :: b4 :: b3 :: b2 :: b1 :: b0 :: bs =>
    BitVec.ofNat 8 (bitsValue 0 [b7, b6, b5, b4, b3, b2, b1, b0]) :: wholeBytes bs
  | _ => []

/-- The bits after the whole bytes. -/
def leftBits : List Bool → List Bool
  | _ :: _ :: _ :: _ :: _ :: _ :: _ :: _ :: bs => leftBits bs
  | bs => bs

/-- Byte stuffing: 00 after every FF (43 R465). -/
def stuffed : List Byte → List Byte
  | [] => []
  | b :: bs => if b = 0xFF#8 then b :: 0x00#8 :: stuffed bs else b :: stuffed bs

/-- The bytes the bit writer emits when the bits `bs` are appended (43 R460). -/
def emittedBytes (w : BitWriter) (bs : List Bool) : List Byte := stuffed (wholeBytes (pendingBits w ++ bs))

/-- The 1-bits FLUSH pads the pending bits with (43 R463). -/
def padBits (w : BitWriter) : List Bool := List.replicate ((8 - w.cnt.toNat) % 8) true

/-- There is room for n bytes at BW_PTR (43 R460). -/
def hasRoom (s : State) (n : Nat) : Prop := s.bw.ptr.toNat + n ≤ s.bw.lim.toNat ∧ s.bw.lim.toNat ≤ s.memBytes

/-- The state after the bytes `out` were emitted, the bits `left` pending. -/
def emitted (out : List Byte) (left : List Bool) (s : State) : State :=
  { s with
    mem := (writeBytes s.bw.ptr.toNat out s).mem
    bw :=
      { ptr := s.bw.ptr + BitVec.ofNat 32 out.length
        lim := s.bw.lim
        acc := BitVec.ofNat 8 (bitsValue 0 left)
        cnt := BitVec.ofNat 3 left.length } }

/-- The state after the bits `bs` were appended (43 R460). -/
def appended (bs : List Bool) (s : State) : State :=
  emitted (emittedBytes s.bw bs) (leftBits (pendingBits s.bw ++ bs)) s

/-- The state after as many of the bytes `out` were emitted as fit, the next one lost (43 R460). -/
def overflowed (out : List Byte) (s : State) : State :=
  { s with
    mem := (writeBytes s.bw.ptr.toNat (out.take (s.bw.lim.toNat - s.bw.ptr.toNat)) s).mem
    bw := { ptr := s.bw.lim, lim := s.bw.lim, acc := 0#8, cnt := 0#3 } }

/-- The state after the bytes `out` were written raw (43 R464). -/
def rawWritten (out : List Byte) (s : State) : State :=
  { s with mem := (writeBytes s.bw.ptr.toNat out s).mem, bw.ptr := s.bw.ptr + BitVec.ofNat 32 out.length }

/-! ### The bit reader's input as a bit string (43 R466) -/

/-- The bits of entropy-coded bytes up to a marker or the end: FF 00 gives the byte FF, FF before anything else, or as the
last byte, ends them. -/
def unstuffedBits : List Byte → List Bool
  | [] => []
  | [b] => if b = 0xFF#8 then [] else bitsMsb b.toNat 8
  | b :: c :: bs =>
    if b = 0xFF#8 then
      if c = 0x00#8 then bitsMsb 0xFF 8 ++ unstuffedBits bs else []
    else bitsMsb b.toNat 8 ++ unstuffedBits (c :: bs)

/-- The input bytes the reader has not taken. -/
def inputBytes (s : State) : List Byte := readBytes s s.br.ptr.toNat (s.br.lim.toNat - s.br.ptr.toNat)

/-- The bits GETBIT can still give: the unread bits of CUR, then those of the input, unless a marker was met. -/
def readerBits (s : State) : List Bool :=
  bitsMsb s.br.cur.toNat s.br.cnt.toNat ++ (if s.br.mark then [] else unstuffedBits (inputBytes s))

/-! ### Entropy-coded frames -/

/-- The table set of a component: chroma for Cb and Cr (47 R680). -/
def isChroma (c : Fin 3) : Bool := decide (c ≠ 0)

/-- A block whose coding is exact: the DC is an int16 within ±2047 of the predictor, the AC values are within ±1023 (43
R491). -/
def codable (p : Int) (b : Block) : Prop :=
  (-2047 ≤ b[0].toInt - p ∧ b[0].toInt - p ≤ 2047) ∧ (-32768 ≤ b[0].toInt ∧ b[0].toInt ≤ 32767)
    ∧ ∀ v ∈ acCoefficients b, -1023 ≤ v ∧ v ≤ 1023

/-- The bits of the blocks of a scan, in coding order, each with its component; `p` holds the predictors (43 R480, 47
R680). -/
def scanBits : (Fin 3 → Int) → List (Fin 3 × Block) → List Bool
  | _, [] => []
  | p, x :: xs =>
    blockBits (isChroma x.1) (p x.1) x.2
      ++ scanBits (fun c => if c = x.1 then (wrap16 x.2[0].toInt).toInt else p c) xs

/-- A bit string as entropy-coded bytes: padded with 1-bits to a byte, and stuffed (43 R463, R465). -/
def entropyBytes (bs : List Bool) : List Byte :=
  stuffed (wholeBytes (bs ++ List.replicate ((8 - bs.length % 8) % 8) true))

/-- The components of the blocks of n MCUs, in coding order (10 R56, 47 R680). -/
def scanComponents (ss : Subsampling) (n : Nat) : List (Fin 3) :=
  (List.replicate n ((mcuBlocks ss).map Prod.snd)).flatten

/-- A complete frame: the header, the entropy-coded data, EOI (44 R546). -/
def frameBytes (ss : Subsampling) (w h : Nat) (q0 q1 : Vector Byte 64) (xs : List (Fin 3 × Block)) : List Byte :=
  headerBytes ss w h q0 q1 ++ entropyBytes (scanBits (fun _ => 0) xs) ++ [0xFF#8, 0xD9#8]

/-- The blocks ENCODE codes, in coding order, from an image that stands in LMEM of `s`: for every MCU in raster order, for
every block of it, the samples CCONV takes, transformed, quantized with the reciprocals `r` of its table and in zigzag order
(47 R680). -/
def sourceBlocks (s : State) (f : PixelFormat) (ss : Subsampling) (src w h : Nat) (r : BitVec 2 → Vector Half 64) :
    List (Fin 3 × Block) :=
  (mcuGrid (ceilDiv w (mcuW ss)) (ceilDiv h (mcuH ss))).flatMap fun p =>
    (mcuBlocks ss).map fun q =>
      (q.2, zigzagBlock (quantBlock (r (componentTable q.2)) (fdctBlock (mcuBlock s f ss src w h p.1 p.2 q))))

/-- The bytes of a scan in restart intervals: the blocks of each coded with predictors 0 and padded to a byte, and between two
of them the marker RSTm, m counting from `m` modulo 8 (45 R605, R610). -/
def intervalBytes : Nat → List (List (Fin 3 × Block)) → List Byte
  | _, [] => []
  | _, [xs] => entropyBytes (scanBits (fun _ => 0) xs)
  | m, xs :: ys :: rest =>
    entropyBytes (scanBits (fun _ => 0) xs) ++ [0xFF#8, BitVec.ofNat 8 (0xD0 + m % 8)] ++ intervalBytes (m + 1) (ys :: rest)

/-- The restart schedule: without a restart interval one interval holds all, else every interval but the last has `ri` MCUs and
the last 1 to `ri`; an MCU has b blocks (45 R605). -/
def scheduled (ri b : Nat) : List (List (Fin 3 × Block)) → Prop
  | [] => False
  | [xs] => ri = 0 ∨ (0 < xs.length ∧ xs.length ≤ ri * b)
  | xs :: ys :: rest => 0 < ri ∧ xs.length = ri * b ∧ scheduled ri b (ys :: rest)

/-- A complete frame whose scan stands in restart intervals: the header with a DRI segment behind SOI, unless `ri` is 0 (30
R242; 45 R586, R605). -/
def restartFrameBytes (ss : Subsampling) (w h : Nat) (q0 q1 : Vector Byte 64) (ri : Nat)
    (xss : List (List (Fin 3 × Block))) : List Byte :=
  [0xFF#8, 0xD8#8] ++ (if ri = 0 then [] else [0xFF#8, 0xDD#8] ++ be16Bytes 4 ++ be16Bytes ri)
    ++ (headerBytes ss w h q0 q1).drop 2 ++ intervalBytes 0 xss ++ [0xFF#8, 0xD9#8]

/-- A block as DECODE reconstructs it: out of zigzag order, dequantized with the table of its component, transformed back (47
R690). -/
def decodedBlock (q0 q1 : Vector Byte 64) (x : Fin 3 × Block) : Block :=
  idctBlock (dequantBlock (if x.1 = 0 then q0 else q1) (unzigzagBlock x.2))

/-- The state with the reconstructed blocks of one MCU in their slots (10 R56). -/
def withMcu (ss : Subsampling) (q0 q1 : Vector Byte 64) (xs : List (Fin 3 × Block)) (s : State) : State :=
  ((mcuBlocks ss).zip xs).foldl (fun u p => setBlk p.1.1 (decodedBlock q0 q1 p.2) u) s

/-! ### Illegal command words (30 R201, R203, R204) -/

/-- A row of the opcode map: the opcode and which of the fields D, S, T, C, X it uses. -/
structure OpcodeRow where
  op : Byte
  d : Bool
  s : Bool
  t : Bool
  c : Bool
  x : Bool
  deriving DecidableEq, Repr

/-- The opcode map (30 R203). -/
def opcodeMap : List OpcodeRow :=
  [⟨0x00#8, false, false, false, false, false⟩, ⟨0x01#8, false, false, false, false, false⟩,
   ⟨0x08#8, false, false, false, false, false⟩, ⟨0x09#8, false, false, false, false, false⟩,
   ⟨0x0B#8, false, false, false, false, false⟩, ⟨0x0C#8, false, false, false, false, false⟩,
   ⟨0x0D#8, false, false, false, false, false⟩, ⟨0x10#8, true, true, false, false, false⟩,
   ⟨0x11#8, true, true, false, false, false⟩, ⟨0x14#8, true, true, true, false, false⟩,
   ⟨0x15#8, true, true, true, false, false⟩, ⟨0x16#8, true, true, false, false, false⟩,
   ⟨0x17#8, true, true, false, false, false⟩, ⟨0x18#8, false, false, true, false, true⟩,
   ⟨0x19#8, false, false, true, false, false⟩, ⟨0x20#8, false, true, true, true, false⟩,
   ⟨0x21#8, true, false, true, true, false⟩, ⟨0x22#8, false, false, true, false, true⟩,
   ⟨0x30#8, false, false, true, false, true⟩, ⟨0x31#8, false, false, true, false, true⟩,
   ⟨0x38#8, false, false, true, false, false⟩, ⟨0x39#8, false, false, false, false, false⟩,
   ⟨0x3A#8, false, false, false, false, false⟩, ⟨0x3B#8, false, false, false, false, false⟩,
   ⟨0x40#8, false, false, false, false, false⟩, ⟨0x41#8, false, false, false, false, false⟩]

/-- Why a command word is illegal (30 R201, R204): a reserved bit is set, the opcode is not assigned, a field the opcode
does not use is not 0, or C = 3 where C is used. -/
def illegalWord (w : Word) : Prop :=
  w.getLsbD 11 = true ∨ w.getLsbD 15 = true ∨ w.extractLsb' 24 8 ≠ 0#8
    ∨ (∀ r ∈ opcodeMap, r.op ≠ w.extractLsb' 0 8)
    ∨ ∃ r ∈ opcodeMap, r.op = w.extractLsb' 0 8
        ∧ ((r.d = false ∧ w.extractLsb' 8 3 ≠ 0#3) ∨ (r.s = false ∧ w.extractLsb' 12 3 ≠ 0#3)
          ∨ (r.t = false ∧ w.extractLsb' 16 2 ≠ 0#2) ∨ (r.c = false ∧ w.extractLsb' 18 2 ≠ 0#2)
          ∨ (r.x = false ∧ w.extractLsb' 20 4 ≠ 0#4) ∨ (r.c = true ∧ w.extractLsb' 18 2 = 3#2))

/-- The state an outcome leads to, `s` where it is a stop. -/
def stateOf (o : Host.Outcome State Fault Refusal) (s : State) : State :=
  match o with
  | .next t => t
  | _ => s

/-! ### Segments and markers of the input (45 R581, R582, R590) -/

/-- The length field at BR_PTR. -/
def segmentLength (s : State) : Nat := (readByte s s.br.ptr.toNat).toNat * 256 + (readByte s (s.br.ptr.toNat + 1)).toNat

/-- A segment whose length field is `len` stands whole in the input (45 R582). -/
def segmentAt (s : State) (len : Nat) : Prop :=
  s.br.ptr.toNat + 2 ≤ s.br.lim.toNat ∧ segmentLength s = len ∧ 2 ≤ len ∧ s.br.ptr.toNat + len ≤ s.br.lim.toNat

/-- The content of that segment: the bytes after its length field. -/
def segmentContent (s : State) (len : Nat) : List Byte := readBytes s (s.br.ptr.toNat + 2) (len - 2)

/-- A parse is reading tables, before SOF0 or after it (45 R570, R571). -/
def readingHeader (s : State) : Prop := markerReader s = some .header ∧ (s.pstate = .readingTables ∨ s.pstate = .sof0Seen)

/-- The next marker of the parse that runs, read and given its meaning: the marker's own exec. A code byte 00 is no marker and
falls under the same cases (45 R581). A view of the parse that the engine makes in one step, no step of the machine (log 2). -/
def nextMarkerRun (s : State) : State :=
  match markerReader s with
  | none => s
  | some r =>
    match fetchMarker r s with
    | .error e t => endMarker (.error e t)
    | .ok c t =>
      match decodeMarkerCode c with
      | .ok i => stateOf (exec i t) t
      | .error _ => endMarker (markerEvent r c t)

/-- The next n markers of the parse, until its command completes. -/
def markersRun : Nat → State → State
  | 0, s => s
  | n + 1, s => if s.status.busy then markersRun n (nextMarkerRun s) else s

/-- A marker with `fill` extra fill bytes (30 R240, 45 R581). -/
def markerBytes (fill : Nat) (c : Byte) : List Byte := List.replicate (fill + 1) 0xFF#8 ++ [c]

/-- What SOF0 finds in a segment of length `len` with content `c`: the error of the first failing check, or W, H, SS and
TQ (45 R590). -/
def sof0Verdict (len : Nat) (c : List Byte) : Except ErrCode (Nat × Nat × BitVec 2 × Vector (BitVec 2) 3) :=
  let b := fun i : Nat => c.getD i 0#8
  let h := (b 1).toNat * 256 + (b 2).toNat
  let w := (b 3).toNat * 256 + (b 4).toNat
  let nf := (b 5).toNat
  if len < 8 then .error .badTable
  else if b 0 ≠ 8#8 then .error .precision
  else if w = 0 ∨ h = 0 then .error .dimensions
  else if 3 < nf then .error .tooManyComponents
  else if nf < 3 then .error .profile
  else if len ≠ 8 + 3 * nf then .error .badTable
  else if b 6 ≠ 1#8 ∨ b 9 ≠ 2#8 ∨ b 12 ≠ 3#8 then .error .profile
  else if b 10 ≠ 0x11#8 ∨ b 13 ≠ 0x11#8 ∨ (b 7 ≠ 0x22#8 ∧ b 7 ≠ 0x21#8) then .error .sampling
  else if 3 < (b 8).toNat ∨ 3 < (b 11).toNat ∨ 3 < (b 14).toNat then .error .qtSelector
  else if w % 16 ≠ 0 ∨ h % (if b 7 = 0x22#8 then 16 else 8) ≠ 0 then .error .dimensions
  else .ok (w, h, if b 7 = 0x22#8 then 2#2 else 1#2, #v[(b 8).setWidth 2, (b 11).setWidth 2, (b 14).setWidth 2])

/-- What SOS finds wrong with scan component i, whose bytes are Cs and TdTa (45 R595). -/
def scanEntryError (s : State) (i : Nat) (cs t : Byte) : Option ErrCode :=
  if cs.toNat ≠ i + 1 then some .scanComponent
  else if 1 < t.toNat / 16 ∨ 1 < t.toNat % 16 then some .badTable
  else if htValid s 0#1 (t.extractLsb' 4 1) = false ∨ htValid s 1#1 (t.extractLsb' 0 1) = false then some .badTable
  else none

/-- What SOS finds wrong with a segment of length `len` with content `c`: the error of the first failing check (45 R595). -/
def sosError (s : State) (len : Nat) (c : List Byte) : Option ErrCode :=
  let b := fun i : Nat => c.getD i 0#8
  if len < 3 then some .badTable
  else if b 0 ≠ 3#8 then some .scanComponent
  else if len ≠ 12 then some .badTable
  else match scanEntryError s 0 (b 1) (b 2) with
    | some e => some e
    | none =>
      match scanEntryError s 1 (b 3) (b 4) with
      | some e => some e
      | none =>
        match scanEntryError s 2 (b 5) (b 6) with
        | some e => some e
        | none =>
          if b 7 ≠ 0#8 ∨ b 8 ≠ 63#8 ∨ b 9 ≠ 0#8 then some .notBaseline
          else if qtValid s s.frmInfo.tq[0] = false ∨ qtValid s s.frmInfo.tq[1] = false
              ∨ qtValid s s.frmInfo.tq[2] = false then some .qtSelector
          else none

/-- The content of a DQT segment with the given tables: their ids and their 64 bytes in zigzag order (30 R242). -/
def dqtImage (ts : List (BitVec 2 × List Byte)) : List Byte := (ts.map fun t => t.1.setWidth 8 :: t.2).flatten

/-- Tables a DQT segment may hold: 64 entries, none of them 0 (45 R583). -/
def dqtImageOk (ts : List (BitVec 2 × List Byte)) : Prop := ∀ t ∈ ts, t.2.length = 64 ∧ 0#8 ∉ t.2

/-- Bytes in the place of a DQT table that are none: a PqTq byte that is no table id, too few bytes, or an entry 0 (45
R583). -/
def badDqtTable (bs : List Byte) : Prop :=
  ∃ pt rest, bs = pt :: rest ∧ (3 < pt.toNat ∨ rest.length < 64 ∨ 0#8 ∈ rest.take 64)

/-- The tables installed one after another (41 R358). -/
def installQts (ts : List (BitVec 2 × List Byte)) (s : State) : State :=
  ts.foldl (fun u t => installQt t.1 (naturalTable t.2) u) s

/-- A table of a DHT segment: Tc, Th, BITS and HUFFVAL (30 R242). -/
structure DhtEntry where
  tc : BitVec 1
  th : BitVec 1
  bits : List Byte
  vals : List Byte
  deriving DecidableEq, Repr

/-- The content of a DHT segment with the given tables (30 R242). -/
def dhtImage (ts : List DhtEntry) : List Byte :=
  (ts.map fun t => (0#3 ++ t.tc ++ 0#3 ++ t.th) :: (t.bits ++ t.vals)).flatten

/-- Tables a DHT segment may hold: valid BITS, as many symbols as they count (43 R473, 45 R584). -/
def dhtImageOk (ts : List DhtEntry) : Prop :=
  ∀ t ∈ ts, t.bits.length = 16 ∧ bitsValid (t.bits.map BitVec.toNat) = true ∧ t.vals.length = bitsSum t.bits

/-- Bytes in the place of a DHT table that are none: a TcTh byte that is no table id, too few bytes, or BITS that are not
valid (43 R473, 45 R584). -/
def badDhtTable (bs : List Byte) : Prop :=
  ∃ tt rest, bs = tt :: rest
    ∧ (1 < tt.toNat / 16 ∨ 1 < tt.toNat % 16 ∨ rest.length < 16 ∨ rest.length < 16 + bitsSum (rest.take 16)
      ∨ bitsValid ((rest.take 16).map BitVec.toNat) = false)

/-- The tables installed one after another (43 R474). -/
def installHts (ts : List DhtEntry) (s : State) : State :=
  ts.foldl (fun u t => installHt t.tc t.th (huffTableOf t.bits t.vals) u) s

/-! ### Arguments and host reads -/

/-- The arguments ENCODE's head checks (47 R680): the format and layout are a legal pair, the size is not 0, both buffers are
in LMEM. -/
def encodeArgsOk (s : State) : Prop :=
  ∃ f, legalFormat (s.argL[4].extractLsb' 0 4) (subsamplingOf (s.argL[4].extractLsb' 4 2)) = some f
    ∧ lowHalf s.argL[3] ≠ 0 ∧ highHalf s.argL[3] ≠ 0
    ∧ s.argL[0].toNat + srcSize f (lowHalf s.argL[3]) (highHalf s.argL[3]) ≤ s.memBytes
    ∧ s.argL[1].toNat + s.argL[2].toNat ≤ s.memBytes

/-- What a host read returns after the host wrote w to the aligned CSR at offset o while idle: RW registers hold what was
written, W1C bits are cleared, RO registers, WO registers, reserved bits and unlisted offsets ignore it (10 R57). -/
def readBack (s : State) (o : Nat) (w : Word) : Word :=
  if o = 0x004 then w &&& 1#32
  else if o = 0x008 then csrValue s 0x008 &&& ~~~(w &&& 0x1E#32)
  else if (0x010 ≤ o ∧ o < 0x030) ∨ o = 0x038 ∨ (0x1000 ≤ o ∧ o < 0x1800) then w
  else if o = 0x03C then w &&& 0xFFFF#32
  else if o = 0x060 ∨ o = 0x064 ∨ o = 0x068 then (w.extractLsb' 0 16).signExtend 32
  else csrValue s o

end Sys2Proof.Machine
end

