-- ==== Sys2Proof/WellFormed.lean ====
section
/-! DEFINITION. Well-formed instructions: every field holds a value the spec calls legal for its command (30 R201,
R205, R210, R213, R215). A command word that fails a check here completes with ERR_COMMAND. -/

namespace Sys2Proof

open Sys2Proof.Machine

/-- The field checks of 30 R201 and R205. -/
def Instr.wf : Instr → Bool
  | .nop => true
  | .predclr => true
  | .bwinit => true
  | .bwflush => true
  | .close => true
  | .brinit => true
  | .bralign => true
  | .fdct _ _ => true
  | .idct _ _ => true
  | .quant _ _ _ => true
  | .dequant _ _ _ => true
  | .zigzag _ _ => true
  | .unzigzag _ _ => true
  | .qbuild _ x => x.toNat < 4
  | .qload _ => true
  | .henc _ c t => c ≠ 3#2 && t.toNat < 2
  | .hdec _ c _ => c ≠ 3#2
  | .hload t x => t.toNat < 2 && x.toNat < 2
  | .cconv t x => (legalFormat x (subsamplingOf t)).isSome
  | .upscc t x => (t = 1#2 || t = 2#2) && x.toNat < 2
  | .hdrw _ => true
  | .parsehdr => true
  | .rstchk => true
  | .eoichk => true
  | .encode => true
  | .decode => true
  | .soi => true
  | .eoi => true
  | .dqt => true
  | .dht => true
  | .dri => true
  | .sof0 => true
  | .sos => true
  | .rstn _ => true
  | .appn _ => true
  | .com => true
  | .sof1 => true
  | .sof2 => true
  | .sof3 => true
  | .sof5 => true
  | .sof6 => true
  | .sof7 => true
  | .jpg => true
  | .sof9 => true
  | .sof10 => true
  | .sof11 => true
  | .dac => true
  | .sof13 => true
  | .sof14 => true
  | .sof15 => true
  | .dnl => true
  | .dhp => true
  | .exp => true
  | .tem => true
  | .jpgnF0 _ => true
  | .jpgnF8 _ => true
  | .jpgnFC _ => true
  | .res02 _ => true
  | .res04 _ => true
  | .res08 _ => true
  | .res10 _ => true
  | .res20 _ => true
  | .res40 _ => true
  | .res80 _ => true

end Sys2Proof
end

