-- ==== Sys2Proof/Certificates/Slice0/Obligations.lean ====
section
/-! DEFINITION. The statements for the provers. Each formalises rules of spec/; its docstring names them. -/

open Sys2Proof Sys2Proof.Machine

/-! ### Encodings (30) -/

/-- No bit of an encoding is dropped: an instruction is read back from its words, whatever its fields (30 R200, R203,
R241). -/
def Obligations.DecodeOfEncodeIsIdentity : Prop := ∀ i : Instr, decode (encode i) = .ok i

/-- Each word has one meaning: words that decode are the words of the instruction they decode to (30 R200, R203, R241). -/
def Obligations.EncodeOfDecodeIsIdentity : Prop := ∀ (e : Encoding) (i : Instr), decode e = .ok i → encode i = e

/-- The encoding examples of 30 R252. -/
def Obligations.SampleWordsDecode : Prop :=
  decodeCommand 0x00000110#32 = .ok (.fdct 1#3 0#3) ∧ decodeCommand 0x00001114#32 = .ok (.quant 1#3 1#3 0#2)
    ∧ decodeCommand 0x00001216#32 = .ok (.zigzag 2#3 1#3) ∧ decodeCommand 0x00002020#32 = .ok (.henc 2#3 0#2 0#2)
    ∧ decodeCommand 0x00054020#32 = .ok (.henc 4#3 1#2 1#2) ∧ decodeCommand 0x000B0321#32 = .ok (.hdec 3#3 2#2 3#2)
    ∧ decodeCommand 0x00310018#32 = .ok (.qbuild 1#2 3#4) ∧ decodeCommand 0x00020030#32 = .ok (.cconv 2#2 0#4)
    ∧ decodeCommand 0x00110031#32 = .ok (.upscc 1#2 1#4) ∧ decodeCommand 0x00030038#32 = .ok (.hdrw 3#2)
    ∧ decodeCommand 0x00110022#32 = .ok (.hload 1#2 1#4) ∧ decodeCommand 0x00000040#32 = .ok .encode

/-- An illegal command word completes at once with ERR_COMMAND and changes nothing else (30 R201, R204). -/
def Obligations.IllegalWordsRaiseErrCommand : Prop :=
  ∀ s : State, s.agenda = [] → s.status.busy = true → illegalWord s.cmdL →
    step s = .next { s with status := { s.status with busy := false, done := true, err := true, errCode := 18#8 } }

/-- A field value its command calls illegal: ERR_COMMAND and nothing else (30 R201, R205, R210, R215; 46 R646). -/
def Obligations.IllegalFieldsRaiseErrCommand : Prop :=
  ∀ (i : Instr) (s : State), i.wf = false →
    exec i s = .next { s with status := { s.status with busy := false, done := true, err := true, errCode := 18#8 } }

/-! ### Steps, issue and completion (20, 60) -/

/-- The engine's step performs the latched command: with no move listed or the engine's at the head, step is exec of the
decoded word; while idle nothing happens (20 R163; 60 R784, R785; log 1). -/
def Obligations.StepRunsTheLatchedCommand : Prop :=
  ∀ (s : State) (rest : List Move),
    (∀ i, s.status.busy = true → decodeCommand s.cmdL = .ok i →
      step { s with agenda := [] } = exec i { s with agenda := [] }
        ∧ step { s with agenda := .engine :: rest } = exec i { s with agenda := rest })
    ∧ (s.status.busy = false →
      step { s with agenda := [] } = .next { s with agenda := [] }
        ∧ step { s with agenda := .engine :: rest } = .next { s with agenda := rest })

/-- A parse is its markers, each given its own meaning: the engine's one step of PARSEHDR is the start of the parse and then
the exec of one marker after another until the command completes, that of RSTCHK and EOICHK the exec of one marker; and a marker
that stands at BR_PTR is run with the reader moved behind it, at a checkpoint with the padding bits dropped (20 R163; 45 R581,
R600, R610, R615; the view by single markers is log 2). -/
def Obligations.StepRunsTheMarkersOfAParse : Prop :=
  ∀ (s : State) (rest : List Move), s.status.busy = true → ReaderOk s →
    (decodeCommand s.cmdL = .ok .parsehdr →
      ∃ n, (markersRun n (parseStart { s with agenda := rest })).status.busy = false
        ∧ step { s with agenda := .engine :: rest } = .next (markersRun n (parseStart { s with agenda := rest })))
    ∧ (decodeCommand s.cmdL = .ok .rstchk ∨ decodeCommand s.cmdL = .ok .eoichk →
      step { s with agenda := .engine :: rest } = .next (nextMarkerRun { s with agenda := rest }))
    ∧ ∀ (c : Byte) (i : Instr), s.br.ptr.toNat + 2 ≤ s.br.lim.toNat →
      readByte s s.br.ptr.toNat = 0xFF#8 → readByte s (s.br.ptr.toNat + 1) = c → decodeMarkerCode c = .ok i →
      (readingHeader s ∨ (markerReader s = some .header ∧ s.pstate = .expectSoi ∧ c = 0xD8#8) →
        exec i { s with br.ptr := s.br.ptr + 2#32 } = .next (nextMarkerRun s))
      ∧ ((markerReader s = some .restart ∨ markerReader s = some .imageEnd) ∧ s.pstate = .inScan →
        exec i { s with br.ptr := s.br.ptr + 2#32, br.cnt := 0#4, br.mark := false } = .next (nextMarkerRun s))

/-- A write to CMD: while BUSY it is dropped and only OVR is set; else it latches the word and the arguments and clears the
completion bits (60 R757, R786; 10 R59). -/
def Obligations.CmdWriteIssuesOrSetsOvr : Prop :=
  ∀ (s : State) (rest : List Move) (w : Word),
    (s.status.busy = true →
      step { s with agenda := .host (.writeCsr 0x00C .word w) :: rest }
        = .next { s with agenda := rest, status.ovr := true })
    ∧ (s.status.busy = false →
      step { s with agenda := .host (.writeCsr 0x00C .word w) :: rest }
        = .next { s with
            agenda := rest, cmdL := w, argL := s.arg
            status := { busy := true, done := false, err := false, resized := false, ovr := s.status.ovr, errCode := 0#8 } })

/-- Every command completes, with or without error: BUSY 0, DONE 1, ERR exactly when the code is not 0, the code one that 60
R750 lists; RESIZED is written only by DECODE, and IRQ is then CTRL.IE (60 R750, R756, R770). -/
def Obligations.EveryCommandCompletes : Prop :=
  ∀ (w : Word) (i : Instr) (s : State), decodeCommand w = .ok i →
    ∃ t, exec i s = .next t ∧ t.status.busy = false ∧ t.status.done = true
      ∧ (t.status.err = true ↔ t.status.errCode ≠ 0#8)
      ∧ t.status.errCode.toNat ∈ [0, 1, 2, 3, 4, 5, 6, 7, 8, 9, 10, 11, 12, 13, 16, 17, 18]
      ∧ (i ≠ .decode → t.status.resized = s.status.resized) ∧ irq t = t.ie

/-- IRQ is the level IE and DONE: a write of 1 to STATUS.DONE, an accepted CMD write or clearing IE ends it, a completion
raises it when IE is set, and it is 0 after reset (60 R770). -/
def Obligations.IrqIsIeAndDone : Prop :=
  (∀ s : State, irq s = true ↔ s.ie = true ∧ s.status.done = true) ∧ irq State.reset = false
    ∧ (∀ (s t : State) (rest : List Move) (w : Word), w.getLsbD 1 = true →
      step { s with agenda := .host (.writeCsr 0x008 .word w) :: rest } = .next t → irq t = false)
    ∧ (∀ (s t : State) (rest : List Move) (w : Word), s.status.busy = false →
      step { s with agenda := .host (.writeCsr 0x00C .word w) :: rest } = .next t → irq t = false)
    ∧ (∀ (s t : State) (rest : List Move) (w : Word), w.getLsbD 0 = false →
      step { s with agenda := .host (.writeCsr 0x004 .word w) :: rest } = .next t → irq t = false)
    ∧ (∀ (s t : State), s.agenda = [] → s.status.busy = true → s.ie = true → step s = .next t → irq t = true)

/-! ### The host interface (10, 20, 70) -/

/-- A CSR write other than a command or a soft reset, of any register while idle and of those the host may write while BUSY
(STATUS, CTRL) or that ignore it at any time, changes the addressed register as its access kind says and no other (10 R57, R60
to R76; 20 R161; 60 R785). The read that follows gives its value, while BUSY for ID, CTRL, STATUS and the unlisted offsets; any
read changes no state of the machine and gives 0 in reserved bits and at unlisted offsets, even while BUSY (10 R57; 20 R152,
R160, R165). That a read while BUSY of another CSR gives 0 in the reserved bits is the model's reading of 93 I19, log 6. -/
def Obligations.CsrWritesReadBack : Prop :=
  (∀ (s : State) (rest : List Move) (o : Nat) (w : Word),
    s.status.busy = false ∨ isLiveCsr o = false → o % 4 = 0 → o < 0x4000 → o ≠ 0x00C →
    (o = 0x004 → w.getLsbD 1 = false) →
    ∃ t, step { s with agenda := .host (.writeCsr o .word w) :: rest } = .next t
      ∧ t.status.busy = s.status.busy
      ∧ csrValue t o = readBack s o w
      ∧ (∀ o', o' % 4 = 0 → o' < 0x4000 → o' ≠ o → csrValue t o' = csrValue s o')
      ∧ (∀ a, readByte t a = readByte s a)
      ∧ (∀ o', o' % 4 = 0 → o' < 0x4000 → s.status.busy = false ∨ o' ≤ 0x008 ∨ csrBits o' = 0#32 →
        step { t with agenda := .host (.readCsr o' .word) :: rest }
          = .next { t with agenda := rest, hostData := csrValue t o' }))
  ∧ ∀ (s : State) (rest : List Move) (o : Nat), o % 4 = 0 → o < 0x4000 →
    ∃ v d, step { s with agenda := .host (.readCsr o .word) :: rest }
        = .next { s with agenda := rest, hostData := v, draws := d }
      ∧ v &&& ~~~csrBits o = 0#32

/-- Power-on reset: every CSR reads 0 but ID, the latched command and arguments and every slot and table are 0, the engine is
idle, nothing of LMEM has been written (10 R99, 70 R800). -/
def Obligations.ResetStateIsAsSpecified : Prop :=
  (∀ o, o % 4 = 0 → o < 0x4000 → csrValue State.reset o = if o = 0 then 0x4A430001#32 else 0#32)
    ∧ State.reset.cmdL = 0#32 ∧ (∀ n : Fin 8, State.reset.argL[n] = 0#32) ∧ State.reset.status.busy = false
    ∧ State.reset.pstate = .expectSoi ∧ State.reset.mem = []
    ∧ (∀ h : Fin 4, (∀ n : Fin 16, State.reset.ht[h].bits[n] = 0#8) ∧ ∀ n : Fin 256, State.reset.ht[h].vals[n] = 0#8)

/-- A write with SRST set, at any time: every register and table takes its reset value, no completion happens, LMEM outside
the abandoned command's footprint (log 7) keeps its bytes; while idle all of LMEM does (70 R802, 10 R99). -/
def Obligations.SoftResetRestoresResetValues : Prop :=
  ∀ (s : State) (rest : List Move) (w : Word), w.getLsbD 1 = true →
    ∃ t, step { s with agenda := .host (.writeCsr 0x004 .word w) :: rest } = .next t
      ∧ (∀ o, o % 4 = 0 → o < 0x4000 → csrValue t o = csrValue State.reset o)
      ∧ t.cmdL = 0#32 ∧ (∀ n : Fin 8, t.argL[n] = 0#32) ∧ t.ht = State.reset.ht ∧ t.status = Status.reset
      ∧ t.memBytes = s.memBytes ∧ t.agenda = rest ∧ irq t = false
      ∧ (∀ a, inFootprint s a = false → readByte t a = readByte s a)
      ∧ (s.status.busy = false → ∀ a, readByte t a = readByte s a)

/-- The host's LMEM port: an aligned write while idle stores the little-endian bytes and no other, and the read that follows
gives them back (20 R151, R156, R157, R162). A read at any time changes no state of the machine, and while a command runs every
byte outside its write footprint (log 7) reads as it is (20 R165). -/
def Obligations.HostLmemIsLittleEndian : Prop :=
  (∀ (s : State) (rest : List Move) (a : Nat) (v : AccessWidth) (w : Word),
    s.status.busy = false → a % widthBytes v = 0 → a + widthBytes v ≤ s.memBytes →
    ∃ t, step { s with agenda := .host (.writeMem a v w) :: rest } = .next t
      ∧ (∀ k, k < widthBytes v → readByte t (a + k) = w.extractLsb' (8 * k) 8)
      ∧ (∀ b, b < a ∨ a + widthBytes v ≤ b → readByte t b = readByte s b)
      ∧ (∀ o, csrValue t o = csrValue s o)
      ∧ step { t with agenda := .host (.readMem a v) :: rest }
        = .next { t with agenda := rest, hostData := BitVec.ofNat 32 (w.toNat % 2 ^ (8 * widthBytes v)) })
  ∧ ∀ (s : State) (rest : List Move) (a : Nat) (v : AccessWidth),
    a % widthBytes v = 0 → a + widthBytes v ≤ s.memBytes →
    ∃ x d, step { s with agenda := .host (.readMem a v) :: rest }
        = .next { s with agenda := rest, hostData := x, draws := d }
      ∧ x.toNat < 2 ^ (8 * widthBytes v)
      ∧ ∀ k, k < widthBytes v → inFootprint s (a + k) = false → x.extractLsb' (8 * k) 8 = readByte s (a + k)

/-- A step answers a next state exactly when its move is within the interface and the host duties (20 R159; 60 R785, R787).
What the model does with another host access is its own choice, log 14 (DESIGN CHOICE): the spec gives it no move, and the model
stops under one of three refusals, or with a fault where the LMEM address or the CSR offset does not exist. -/
def Obligations.StepStopsOnlyOutsideInterface : Prop :=
  ∀ s : State,
    (safeMove s ↔ ∃ t, step s = .next t)
    ∧ (∀ r, step s = .refused r → r = .hostWriteWhileBusy ∨ r = .misalignedLmem ∨ r = .csrForm)
    ∧ (∀ f, step s = .fault f → ∃ a rest, s.agenda = .host a :: rest)

/-! ### Invariants of every step -/

/-- LMEM stays in its canonical form, inside LMEM (20 R150, R153). -/
def Obligations.StepKeepsMemoryCanonical : Prop := ∀ s t : State, MemOk s → step s = .next t → MemOk t

/-- The bit writer stays inside its buffer and LMEM, its pending bits in ACC[CNT-1:0]; MEM_BYTES stays (10 R69; 43 R460,
R461). -/
def Obligations.StepKeepsBitWriterInRange : Prop :=
  ∀ s t : State, ParamOk s → WriterOk s → step s = .next t → ParamOk t ∧ WriterOk t

/-- The bit reader stays inside its input and LMEM (10 R70; 43 R466, R467). -/
def Obligations.StepKeepsBitReaderInRange : Prop :=
  ∀ s t : State, ParamOk s → ReaderOk s → step s = .next t → ReaderOk t

/-- An installed quantization table has every entry at least 1 and the reciprocals of its entries, and an installed Huffman
table has passed the validity check (10 R80; 41 R357, R358; 43 R473, R474). -/
def Obligations.StepKeepsInstalledTablesValid : Prop :=
  ∀ s t : State, QuantOk s → HuffOk s → step s = .next t → QuantOk t ∧ HuffOk t

/-- From SOF0 on the frame is one the parser accepts (4:2:2 or 4:2:0, not empty, whole MCUs), and in a scan the tables it
names are installed (45 R570, R590, R595). -/
def Obligations.StepKeepsAcceptedFrame : Prop := ∀ s t : State, ScanOk s → step s = .next t → ScanOk t

/-- The reset state meets every invariant. -/
def Obligations.ResetMeetsInvariants : Prop :=
  ParamOk State.reset ∧ MemOk State.reset ∧ WriterOk State.reset ∧ ReaderOk State.reset ∧ QuantOk State.reset
    ∧ HuffOk State.reset ∧ ScanOk State.reset

/-- FAILED is left only by a new PARSEHDR or DECODE, or by a soft reset (45 R570, 60 R776). -/
def Obligations.FailedIsLeftOnlyByNewParse : Prop :=
  ∀ s t : State, s.pstate = .failed → step s = .next t → t.pstate ≠ .failed →
    (s.status.busy = true ∧ (s.agenda = [] ∨ ∃ rest, s.agenda = .engine :: rest)
        ∧ (decodeCommand s.cmdL = .ok .parsehdr ∨ decodeCommand s.cmdL = .ok .decode))
      ∨ ∃ w rest, s.agenda = .host (.writeCsr 0x004 .word w) :: rest ∧ w.getLsbD 1 = true

/-! ### Frames -/

/-- A command changes, with or without error, only what its rule's "Flags written" item lists (Safety, mayChange): for each
part of the state not listed, nothing of it changes, and for one that stores nothing every byte of LMEM reads as before.
CTRL, OVR, CMD_L, ARG_L and ARG0..7 are never written (10 R52, 48 R727; 40 to 48). -/
def Obligations.CommandsChangeOnlyListedParts : Prop :=
  ∀ (w : Word) (i : Instr) (s t : State) (p : Part), decodeCommand w = .ok i → exec i s = .next t →
    mayChange s i p = false → p.same s t

/-- A marker changes only what the segment rule it runs writes (45 R570, R583 to R615); no marker writes LMEM or a slot. -/
def Obligations.MarkersChangeOnlyListedParts : Prop :=
  ∀ (c : Byte) (i : Instr) (s t : State) (p : Part), decodeMarkerCode c = .ok i → exec i s = .next t →
    mayChange s i p = false → p.same s t

/-- Every byte an instruction stores lies in the write footprint of 20 R165 at its issue; the other bytes of LMEM read as
before (20 R165; 43 R460; 46 R650; 47 R680, R690). -/
def Obligations.StoresStayInTheFootprint : Prop :=
  ∀ (i : Instr) (s t : State) (a : Nat), exec i s = .next t →
    (∀ r, footprintOf s i = some r → a < r.lo ∨ r.hi ≤ a) → readByte t a = readByte s a

/-- The writer's commands store only the bytes BW_PTR moves over: BW_LIM stays, BW_PTR moves forward within it, and every
byte outside [BW_PTR before, BW_PTR after) reads as before (43 R460; 44 R540, R545). ENCODE stores only [dst, BW_PTR after)
(47 R680: "nothing is written at or beyond dst + RES0"). -/
def Obligations.WriterStoresOnlyEmittedBytes : Prop :=
  (∀ (i : Instr) (s t : State),
    ((∃ src c tt, i = .henc src c tt) ∨ i = .bwflush ∨ i = .close ∨ ∃ tt, i = .hdrw tt) →
    s.bw.ptr.toNat ≤ s.bw.lim.toNat → exec i s = .next t →
    t.bw.lim = s.bw.lim ∧ s.bw.ptr.toNat ≤ t.bw.ptr.toNat ∧ t.bw.ptr.toNat ≤ s.bw.lim.toNat
      ∧ ∀ a, a < s.bw.ptr.toNat ∨ t.bw.ptr.toNat ≤ a → readByte t a = readByte s a)
  ∧ ∀ s t : State, ParamOk s → exec .encode s = .next t →
      ∀ a, a < s.argL[1].toNat ∨ s.argL[1].toNat + t.res0.toNat ≤ a → readByte t a = readByte s a

/-! ### System commands and streams (48, 43) -/

/-- NOP only completes; PREDCLR sets the three predictors to 0 (48 R720, R721). -/
def Obligations.NopAndPredclrComplete : Prop :=
  ∀ s : State, exec .nop s = .next (complete none s)
    ∧ exec .predclr s = .next (complete none { s with pred := #v[0#16, 0#16, 0#16] })

/-- BWINIT and BRINIT set up a buffer inside LMEM, else ERR_BOUNDS with nothing changed; BRALIGN drops the unread bits of
CUR and nothing else (43 R461, R467, R468). -/
def Obligations.StreamBuffersAreSetUp : Prop :=
  ∀ s : State,
    (s.argL[0].toNat + s.argL[1].toNat ≤ s.memBytes →
      exec .bwinit s
          = .next (complete none
              { s with bw := { ptr := s.argL[0], lim := s.argL[0] + s.argL[1], acc := 0#8, cnt := 0#3 } })
        ∧ exec .brinit s
          = .next (complete none
              { s with
                br := { ptr := s.argL[0], lim := s.argL[0] + s.argL[1], cur := 0#8, cnt := 0#4, mark := false } })
        ∧ (ParamOk s → (s.argL[0] + s.argL[1]).toNat = s.argL[0].toNat + s.argL[1].toNat))
    ∧ (s.memBytes < s.argL[0].toNat + s.argL[1].toNat →
      exec .bwinit s = .next (complete (some .bounds) s) ∧ exec .brinit s = .next (complete (some .bounds) s))
    ∧ exec .bralign s = .next (complete none { s with br.cnt := 0#4 })

/-! ### DCT (42) -/

/-- FDCT and IDCT are the row pass and the column pass of the JCC-1 graphs: entry 8u+v of FDCT is the even or odd output u of
the forward kernel on column v of the row pass, entry 8r+c of IDCT the clamped output r of the inverse kernel on column c (42
R410, R420; the default of FDCT_FN and IDCT_FN, log 11). -/
def Obligations.DctCommandsFollowTheGraph : Prop :=
  ∀ (d src : Slot) (s : State),
    (∃ b : Block, exec (.fdct d src) s = .next (complete none (setBlk d b s))
      ∧ ∀ u v : Fin 8, b[8 * u.val + v.val]'(by omega)
        = wrap32 ((forward1 (Vector.ofFn fun r : Fin 8 =>
            (forward1 (Vector.ofFn fun c : Fin 8 => ((getBlk s src)[8 * r.val + c.val]'(by omega)).toInt) 0 10)[v])
            3 13)[u]))
    ∧ ∃ b : Block, exec (.idct d src) s = .next (complete none (setBlk d b s))
      ∧ ∀ r c : Fin 8, b[8 * r.val + c.val]'(by omega)
        = wrap32 (clip (rnd ((inverse1 (Vector.ofFn fun i : Fin 8 =>
            (inverse1 (Vector.ofFn fun j : Fin 8 => ((getBlk s src)[8 * i.val + j.val]'(by omega)).toInt))[c]))[r]) 3 + 128))

/-- The DC output of FDCT is exactly the sum of the 64 inputs over 8, rounded half up; a constant block of value x gives DC
8x and all AC 0 (42 R410). -/
def Obligations.FdctDcIsTheRoundedSum : Prop :=
  ∀ (d src : Slot) (s t : State), exec (.fdct d src) s = .next t →
    (getBlk t d)[0] = wrap32 (rnd ((getBlk s src).toList.map BitVec.toInt).sum 3)
      ∧ ∀ x : Word, (∀ i : Fin 64, (getBlk s src)[i] = x) →
        (getBlk t d)[0] = wrap32 (8 * x.toInt) ∧ ∀ i : Fin 64, i ≠ 0 → (getBlk t d)[i] = 0#32

/-- IDCT of a DC-only block is flat: every sample is the single clamped DC value; of any block every sample is in 0..255 (42
R421, R420). -/
def Obligations.IdctOfDcOnlyIsFlat : Prop :=
  ∀ (d src : Slot) (s t : State), exec (.idct d src) s = .next t →
    ((∀ i : Fin 64, i ≠ 0 → (getBlk s src)[i] = 0#32) →
      ∀ i : Fin 64, (getBlk t d)[i] = wrap32 (clip ((((getBlk s src)[0].toInt + 4) >>> 3) + 128)))
    ∧ ∀ i : Fin 64, 0 ≤ (getBlk t d)[i].toInt ∧ (getBlk t d)[i].toInt ≤ 255

/-! ### Quantizer and zigzag (41) -/

/-- QUANT multiplies each entry by the reciprocal, rounding half up at bit 15, DEQUANT by the entry; both need the table,
else ERR_COMMAND with nothing changed (41 R362, R363). -/
def Obligations.QuantAndDequantResults : Prop :=
  ∀ (d src : Slot) (tt : BitVec 2) (s : State),
    (qtValid s tt = true →
      (∃ b : Block, exec (.quant d src tt) s = .next (complete none (setBlk d b s))
        ∧ ∀ i : Fin 64, b[i] = wrap32 (((getBlk s src)[i].toInt * ((getRq s tt)[i].toNat : Int) + 0x4000) >>> 15))
      ∧ ∃ b : Block, exec (.dequant d src tt) s = .next (complete none (setBlk d b s))
        ∧ ∀ i : Fin 64, b[i] = wrap32 ((getBlk s src)[i].toInt * ((getQt s tt)[i].toNat : Int)))
    ∧ (qtValid s tt = false →
      exec (.quant d src tt) s = .next (complete (some .command) s)
        ∧ exec (.dequant d src tt) s = .next (complete (some .command) s))

/-- ZIGZAG and UNZIGZAG permute by ZZ; ZZ and IZZ are inverse; UNZIGZAG after ZIGZAG restores every entry (41 R352, R353,
R364, R365). -/
def Obligations.UnzigzagUndoesZigzag : Prop :=
  (∀ (d src : Slot) (s : State),
    (∃ b : Block, exec (.zigzag d src) s = .next (complete none (setBlk d b s))
      ∧ ∀ k : Fin 64, b[k] = (getBlk s src)[zz[k]])
    ∧ ∃ b : Block, exec (.unzigzag d src) s = .next (complete none (setBlk d b s))
      ∧ ∀ k : Fin 64, b[zz[k]] = (getBlk s src)[k])
  ∧ (∀ k : Fin 64, izz[zz[k]] = k ∧ zz[izz[k]] = k)
  ∧ ∀ (d e src : Slot) (s t u : State), exec (.zigzag d src) s = .next t → exec (.unzigzag e d) t = .next u →
      getBlk u e = getBlk s src

/-- QBUILD: the scale is the argument or QSCALE of it, each entry the scaled and clamped seed entry, RQ its reciprocal, the
table is installed and RES0 is the scale (41 R355 to R360). -/
def Obligations.QbuildInstallsTheScaledTable : Prop :=
  ∀ (tt : BitVec 2) (x : BitVec 4) (s : State), x.toNat < 4 →
    let q := (max (1 : Int) (min 100 s.argL[0].toInt)).toNat
    let scale := if x.getLsbD 1 then ((if q < 50 then 5000 / q else 200 - 2 * q) * 1024 + 50) / 100 else s.argL[0].toNat
    let base := if x.getLsbD 0 then baseChroma else baseLuma
    ∃ t, exec (.qbuild tt x) s = .next t ∧ succeeded t ∧ t.res0 = BitVec.ofNat 32 scale ∧ qtValid t tt = true
      ∧ ∀ i : Fin 64,
        (getQt t tt)[i].toNat = max 1 (min 255 ((base[i] * scale + 0x200) / 1024))
          ∧ (getRq t tt)[i].toNat = 32768 / (getQt t tt)[i].toNat

/-- QLOAD installs the table of 64 bytes in zigzag order; outside LMEM ERR_BOUNDS, with an entry 0 ERR_BAD_TABLE, nothing
changed (41 R361, R357, R358). -/
def Obligations.QloadInstallsTheWireTable : Prop :=
  ∀ (tt : BitVec 2) (s : State),
    (s.argL[0].toNat + 64 ≤ s.memBytes ∧ 0#8 ∉ readBytes s s.argL[0].toNat 64 →
      ∃ t, exec (.qload tt) s = .next t ∧ succeeded t ∧ qtValid t tt = true
        ∧ (∀ k : Fin 64, (getQt t tt)[zz[k]] = readByte s (s.argL[0].toNat + k.val))
        ∧ ∀ i : Fin 64, (getRq t tt)[i].toNat = 32768 / (getQt t tt)[i].toNat)
    ∧ (s.memBytes < s.argL[0].toNat + 64 → exec (.qload tt) s = .next (complete (some .bounds) s))
    ∧ (s.argL[0].toNat + 64 ≤ s.memBytes ∧ 0#8 ∈ readBytes s s.argL[0].toNat 64 →
      exec (.qload tt) s = .next (complete (some .badTable) s))

/-! ### Huffman codec (43) -/

/-- HLOAD installs the image of 16 BITS bytes and their symbols, the other symbols 0, RES0 the image's length; each check
fails with its error and nothing changed (43 R473, R474, R475). -/
def Obligations.HloadInstallsTheImage : Prop :=
  ∀ (tt : BitVec 2) (x : BitVec 4) (s : State), tt.toNat < 2 → x.toNat < 2 →
    let a := s.argL[0].toNat
    let bits := readBytes s a 16
    let n := bitsSum bits
    (s.memBytes < a + 16 → exec (.hload tt x) s = .next (complete (some .bounds) s))
    ∧ (a + 16 ≤ s.memBytes ∧ 256 < n → exec (.hload tt x) s = .next (complete (some .badTable) s))
    ∧ (a + 16 ≤ s.memBytes ∧ n ≤ 256 ∧ s.memBytes < a + 16 + n →
      exec (.hload tt x) s = .next (complete (some .bounds) s))
    ∧ (a + 16 + n ≤ s.memBytes ∧ n ≤ 256 ∧ bitsValid (bits.map BitVec.toNat) = false →
      exec (.hload tt x) s = .next (complete (some .badTable) s))
    ∧ (a + 16 + n ≤ s.memBytes ∧ bitsValid (bits.map BitVec.toNat) = true →
      ∃ t, exec (.hload tt x) s = .next t ∧ succeeded t ∧ t.res0 = BitVec.ofNat 32 (16 + n)
        ∧ htValid t (x.setWidth 1) (tt.setWidth 1) = true
        ∧ (∀ i : Fin 16, (getHt t (x.setWidth 1) (tt.setWidth 1)).bits[i] = readByte s (a + i.val))
        ∧ ∀ k : Fin 256, (getHt t (x.setWidth 1) (tt.setWidth 1)).vals[k]
            = if k.val < n then readByte s (a + 16 + k.val) else 0#8)

/-- HENC appends the bits of the block, stuffed, and saves the DC as the predictor; without room for them it is ERR_BOUNDS:
the bytes that fit stay, BW_PTR is BW_LIM, the predictor is as before (43 R460, R465, R480). -/
def Obligations.HencAppendsTheBlockBits : Prop :=
  ∀ (src : Slot) (c tt : BitVec 2) (k : Fin 3) (s : State),
    componentOf c = some k → tt.toNat < 2 → WriterOk s →
    let bits := blockBits (tt.getLsbD 0) (getPred s k) (getBlk s src)
    let out := emittedBytes s.bw bits
    (s.bw.ptr.toNat + out.length ≤ s.bw.lim.toNat →
      exec (.henc src c tt) s
        = .next (complete none (setPred k (wrap16 (getBlk s src)[0].toInt) (appended bits s))))
    ∧ (s.bw.lim.toNat < s.bw.ptr.toNat + out.length →
      exec (.henc src c tt) s = .next (complete (some .bounds) (overflowed out s)))

/-- BWFLUSH pads the pending bits with 1-bits to a byte, stuffed; CLOSE does that and appends the bytes FF D9. Without room for
all of it each is ERR_BOUNDS: the bytes that fit stay and BW_PTR is BW_LIM (43 R460, R462, R463, R464; 44 R545). -/
def Obligations.FlushAndCloseEndTheStream : Prop :=
  ∀ s : State, WriterOk s →
    let out := emittedBytes s.bw (padBits s.bw)
    (s.bw.ptr.toNat + out.length ≤ s.bw.lim.toNat →
      exec .bwflush s = .next (complete none (appended (padBits s.bw) s)) ∧ (appended (padBits s.bw) s).bw.cnt = 0#3)
    ∧ (s.bw.lim.toNat < s.bw.ptr.toNat + out.length →
      exec .bwflush s = .next (complete (some .bounds) (overflowed out s)))
    ∧ (s.bw.ptr.toNat + out.length + 2 ≤ s.bw.lim.toNat →
      exec .close s = .next (complete none (rawWritten [0xFF#8, 0xD9#8] (appended (padBits s.bw) s))))
    ∧ (s.bw.lim.toNat < s.bw.ptr.toNat + out.length + 2 →
      exec .close s = .next (complete (some .bounds) (overflowed (out ++ [0xFF#8, 0xD9#8]) s)))

/-- HDEC with the ROM tables recovers the block HENC coded, and the same predictor, and leaves the bits after it (43 R491; the
DC an int16, see log 15). -/
def Obligations.HdecRecoversTheCodedBlock : Prop :=
  ∀ (d : Slot) (c tt : BitVec 2) (k : Fin 3) (chroma : Bool) (b : Block) (rest : List Bool) (s : State),
    componentOf c = some k → ReaderOk s →
    htValid s 0#1 (tt.extractLsb' 0 1) = true → htValid s 1#1 (tt.extractLsb' 1 1) = true →
    getHt s 0#1 (tt.extractLsb' 0 1) = (dcTable chroma).toTable →
    getHt s 1#1 (tt.extractLsb' 1 1) = (acTable chroma).toTable →
    codable (getPred s k) b → readerBits s = blockBits chroma (getPred s k) b ++ rest →
    ∃ t, exec (.hdec d c tt) s = .next t ∧ succeeded t ∧ getBlk t d = b ∧ getPred t k = b[0].toInt
      ∧ readerBits t = rest

/-- On any error of HDEC every slot and every predictor is as before; with a table that is not installed it is ERR_COMMAND
and nothing is read (43 R490, 70 R803). -/
def Obligations.HdecErrorKeepsSlotsAndPredictors : Prop :=
  ∀ (d : Slot) (c tt : BitVec 2) (s : State),
    (∀ t, exec (.hdec d c tt) s = .next t → t.status.err = true → t.blk = s.blk ∧ t.pred = s.pred)
    ∧ (htValid s 0#1 (tt.extractLsb' 0 1) = false ∨ htValid s 1#1 (tt.extractLsb' 1 1) = false →
      exec (.hdec d c tt) s = .next (complete (some .command) s))

/-- No code of a valid table is a bit-prefix of another (43 R451, R452, R473; 30 R221). -/
def Obligations.ValidTablesArePrefixFree : Prop :=
  ∀ t : HuffSpec, bitsValid t.bits = true → t.bits.length = 16 →
    ∀ i j : Fin (canonicalCodes t).length, i ≠ j →
      ¬ bitsMsb (canonicalCodes t)[i].code (canonicalCodes t)[i].len
          <+: bitsMsb (canonicalCodes t)[j].code (canonicalCodes t)[j].len

/-- The dense lookup agrees with DECODE_SYM and with the canonical codes. Where the next ten bits of the input are p, an entry
(v, n) of LUT means that DECODE_SYM gives v and takes n bits, and "need more bits" that DECODE_SYM takes more than ten bits
where it gives a symbol (43 R471). For a valid table an entry is the one code of at most ten bits that starts p (43 R472). -/
def Obligations.LutAgreesWithCanonicalDecode : Prop :=
  (∀ (t : HuffTable) (p : Fin 1024) (rest : List Bool) (s : State),
    ReaderOk s → readerBits s = bitsMsb p.val 10 ++ rest →
    (∀ v n, lut t p = some (v, n) →
      n ≤ 10 ∧ ∃ u, decodeSym t s = .ok v u ∧ readerBits u = (bitsMsb p.val 10 ++ rest).drop n)
    ∧ (lut t p = none → ∀ v u, decodeSym t s = .ok v u → (readerBits u).length + 10 < (readerBits s).length))
  ∧ ∀ (t : HuffSpec) (p : Fin 1024),
    t.bits.length = 16 → (∀ n ∈ t.bits, n < 256) → bitsValid t.bits = true → t.vals.length = t.bits.sum →
    ∀ v n, lut t.toTable p = some (v, n) ↔
      ∃ c ∈ canonicalCodes t, c.sym = v ∧ c.len = n ∧ bitsMsb c.code c.len <+: bitsMsb p.val 10

/-! ### Pixels (40, 46) -/

/-- CCONV: its checks in their order, each leaving every slot as it was; then the luma blocks in raster order and, unless SS is
4:0:0, Cb in slot 4 and Cr in slot 5, every sample minus 128 (40 R306, R307, R308, R320; 60 R760). -/
def Obligations.CconvExtractsTheMcu : Prop :=
  ∀ (tt : BitVec 2) (x : BitVec 4) (s : State),
    let ss := subsamplingOf tt
    let base := s.argL[0].toNat
    let w := lowHalf s.argL[1]
    let h := highHalf s.argL[1]
    let mx := lowHalf s.argL[2]
    let my := highHalf s.argL[2]
    (legalFormat x ss = none → exec (.cconv tt x) s = .next (complete (some .command) s))
    ∧ ∀ f, legalFormat x ss = some f →
      (w = 0 ∨ h = 0 → exec (.cconv tt x) s = .next (complete (some .dimensions) s))
      ∧ (w ≠ 0 ∧ h ≠ 0 ∧ (w ≤ mx * mcuW ss ∨ h ≤ my * mcuH ss) →
        exec (.cconv tt x) s = .next (complete (some .command) s))
      ∧ (mx * mcuW ss < w ∧ my * mcuH ss < h ∧ s.memBytes < base + srcSize f w h →
        exec (.cconv tt x) s = .next (complete (some .bounds) s))
      ∧ (mx * mcuW ss < w ∧ my * mcuH ss < h ∧ base + srcSize f w h ≤ s.memBytes →
        ∃ t, exec (.cconv tt x) s = .next t ∧ succeeded t
          ∧ (∀ (b : Nat) (i j : Fin 8), b < lumaH ss * lumaV ss →
            (getBlk t (BitVec.ofNat 3 b))[8 * j.val + i.val]'(by omega)
              = wrap32 (lumaSample s f base w h (mcuW ss * mx + 8 * (b % lumaH ss) + i.val)
                  (mcuH ss * my + 8 * (b / lumaH ss) + j.val) - 128))
          ∧ (ss ≠ .s400 → ∀ i j : Fin 8,
            (getBlk t 4#3)[8 * j.val + i.val]'(by omega)
                = wrap32 ((chromaSample s f ss base w h mx my i.val j.val).y - 128)
              ∧ (getBlk t 5#3)[8 * j.val + i.val]'(by omega)
                = wrap32 ((chromaSample s f ss base w h mx my i.val j.val).z - 128)))

/-- UPSCC: its checks in their order, each writing nothing; then the three bytes of every pixel of the MCU inside the image,
and no other byte (46 R640, R645, R646, R650, R655; 60 R760). -/
def Obligations.UpsccWritesTheMcuPixels : Prop :=
  ∀ (tt : BitVec 2) (x : BitVec 4) (s : State),
    let ss := subsamplingOf tt
    let out := s.argL[0].toNat
    let w := lowHalf s.argL[1]
    let h := highHalf s.argL[1]
    let mx := lowHalf s.argL[2]
    let my := highHalf s.argL[2]
    let pixel := fun px py : Nat => out + 3 * ((mcuH ss * my + py) * w + (mcuW ss * mx + px))
    (2 ≤ x.toNat ∨ tt = 0#2 ∨ tt = 3#2 → exec (.upscc tt x) s = .next (complete (some .command) s))
    ∧ (x.toNat < 2 → tt = 1#2 ∨ tt = 2#2 →
      (w = 0 ∨ h = 0 → exec (.upscc tt x) s = .next (complete (some .dimensions) s))
      ∧ (w ≠ 0 ∧ h ≠ 0 ∧ (w ≤ mx * mcuW ss ∨ h ≤ my * mcuH ss) →
        exec (.upscc tt x) s = .next (complete (some .command) s))
      ∧ (mx * mcuW ss < w ∧ my * mcuH ss < h ∧ s.memBytes < out + 3 * w * h →
        exec (.upscc tt x) s = .next (complete (some .bounds) s))
      ∧ (mx * mcuW ss < w ∧ my * mcuH ss < h ∧ out + 3 * w * h ≤ s.memBytes →
        ∃ t, exec (.upscc tt x) s = .next t ∧ succeeded t
          ∧ (∀ px py, px < mcuW ss → py < mcuH ss → mcuW ss * mx + px < w → mcuH ss * my + py < h →
            readBytes t (pixel px py) 3 = pixelBytes (x.getLsbD 0) (mcuPixel s ss px py))
          ∧ ∀ a, (∀ px py, px < mcuW ss → py < mcuH ss → mcuW ss * mx + px < w → mcuH ss * my + py < h →
              a < pixel px py ∨ pixel px py + 3 ≤ a) → readByte t a = readByte s a))

/-! ### Framer (44) -/

/-- HDRW writes the header at BW_PTR, unstuffed, and its length to RES0; a pending bit, a table that is missing and a size 0
are reported in that order, nothing written; without room it is ERR_BOUNDS, the bytes that fit stay, BW_PTR is BW_LIM and RES0
is as before (43 R460; 44 R530 to R534, R540; 60 R760; 70 R803). -/
def Obligations.HdrwWritesTheHeader : Prop :=
  ∀ (tt : BitVec 2) (s : State),
    let ss := subsamplingOf tt
    let w := lowHalf s.argL[0]
    let h := highHalf s.argL[0]
    let header := headerBytes ss w h (getQt s 0#2) (getQt s 1#2)
    (s.bw.cnt ≠ 0#3 → exec (.hdrw tt) s = .next (complete (some .command) s))
    ∧ (s.bw.cnt = 0#3 ∧ (qtValid s 0#2 = false ∨ qtValid s 1#2 = false) →
      exec (.hdrw tt) s = .next (complete (some .command) s))
    ∧ (s.bw.cnt = 0#3 ∧ qtValid s 0#2 = true ∧ qtValid s 1#2 = true →
      (w = 0 ∨ h = 0 → exec (.hdrw tt) s = .next (complete (some .dimensions) s))
      ∧ (w ≠ 0 ∧ h ≠ 0 ∧ hasRoom s (headerLength ss) →
        exec (.hdrw tt) s
          = .next (complete none (setRes0 (BitVec.ofNat 32 (headerLength ss)) (rawWritten header s))))
      ∧ (w ≠ 0 ∧ h ≠ 0 ∧ WriterOk s ∧ s.bw.lim.toNat < s.bw.ptr.toNat + headerLength ss →
        exec (.hdrw tt) s = .next (complete (some .bounds) (overflowed header s))))
    ∧ header.length = headerLength ss

/-! ### Parser (45) -/

/-- PARSEHDR accepts the header HDRW writes for a whole-MCU 4:2:2 or 4:2:0 frame: the scan is entered behind it, with the
size, the layout, the selectors and all six tables the header gives (45 R570, R583 to R600; 44 R530). -/
def Obligations.ParsehdrAcceptsTheWrittenHeader : Prop :=
  ∀ (ss : BitVec 2) (w h : Nat) (q0 q1 : Vector Byte 64) (s : State),
    ReaderOk s → ss = 1#2 ∨ ss = 2#2 → 0 < w → w < 65536 → w % 16 = 0 → 0 < h → h < 65536 →
    h % mcuH (subsamplingOf ss) = 0 → (∀ i : Fin 64, q0[i] ≠ 0#8 ∧ q1[i] ≠ 0#8) →
    s.br.ptr.toNat + 589 ≤ s.br.lim.toNat →
    readBytes s s.br.ptr.toNat 589 = headerBytes (subsamplingOf ss) w h q0 q1 →
    ∃ t, exec .parsehdr s = .next t ∧ succeeded t ∧ t.pstate = .inScan ∧ t.rstNext = 0#3 ∧ t.dri = 0#16
      ∧ t.res0 = s.br.ptr + 589#32 ∧ t.res1 = packHalves w h ∧ t.frmDim = packHalves w h
      ∧ t.frmInfo = { ss := ss, tq := #v[0#2, 1#2, 1#2], td := #v[0#1, 1#1, 1#1], ta := #v[0#1, 1#1, 1#1] }
      ∧ t.br.ptr = s.br.ptr + 589#32 ∧ t.br.lim = s.br.lim ∧ t.br.cnt = 0#4 ∧ t.br.mark = false
      ∧ getQt t 0#2 = q0 ∧ getQt t 1#2 = q1 ∧ qtValid t 0#2 = true ∧ qtValid t 1#2 = true
      ∧ getHt t 0#1 0#1 = romDc0.toTable ∧ getHt t 1#1 0#1 = romAc0.toTable
      ∧ getHt t 0#1 1#1 = romDc1.toTable ∧ getHt t 1#1 1#1 = romAc1.toTable
      ∧ ∀ h' : Fin 4, t.hvalid[h'] = true

/-- An input that does not start with FF D8: PARSEHDR completes with ERR_NO_SOI, FAILED, the reader where it was (45 R570,
R600). -/
def Obligations.ParsehdrNeedsSoi : Prop :=
  ∀ s : State, ReaderOk s →
    (s.br.lim.toNat < s.br.ptr.toNat + 2 ∨ readBytes s s.br.ptr.toNat 2 ≠ [0xFF#8, 0xD8#8]) →
    exec .parsehdr s
      = .next (complete (some .noSoi)
          { s with
            pstate := .failed, rstNext := 0#3, dri := 0#16, res0 := 0#32, res1 := 0#32, br.cnt := 0#4, br.mark := false })

/-- RSTCHK and EOICHK: outside a scan ERR_COMMAND with nothing changed; in a scan the expected marker, behind any number of
fill bytes, is taken; another marker, a byte that is no marker and an input that ends before a code byte (nothing is left, or
fill bytes only) fail, RSTCHK with ERR_UNEXPECTED_MARKER or ERR_NO_EOI, EOICHK with ERR_NO_EOI, both FAILED (45 R581, R610,
R615). -/
def Obligations.RestartAndEndChecks : Prop :=
  ∀ s : State,
    (s.pstate ≠ .inScan →
      exec .rstchk s = .next (complete (some .command) s) ∧ exec .eoichk s = .next (complete (some .command) s))
    ∧ (s.pstate = .inScan → ReaderOk s →
      (∀ fill : Nat, s.br.ptr.toNat + fill + 2 ≤ s.br.lim.toNat →
        (readBytes s s.br.ptr.toNat (fill + 2) = markerBytes fill (0xD0#8 + s.rstNext.setWidth 8) →
          exec .rstchk s
            = .next (complete none
                { s with
                  br.ptr := s.br.ptr + BitVec.ofNat 32 (fill + 2), br.cnt := 0#4, br.mark := false
                  rstNext := s.rstNext + 1#3, pred := #v[0#16, 0#16, 0#16] }))
        ∧ (readBytes s s.br.ptr.toNat (fill + 2) = markerBytes fill 0xD9#8 →
          exec .eoichk s
            = .next (complete none
                { s with
                  br.ptr := s.br.ptr + BitVec.ofNat 32 (fill + 2), br.cnt := 0#4, br.mark := false
                  pstate := .terminal }))
        ∧ ∀ c : Byte, c ≠ 0xFF#8 → readBytes s s.br.ptr.toNat (fill + 2) = markerBytes fill c →
          (c ≠ 0xD0#8 + s.rstNext.setWidth 8 →
            ∃ t, exec .rstchk s = .next t ∧ t.status.errCode = 11#8 ∧ t.pstate = .failed ∧ t.pred = s.pred)
          ∧ (c ≠ 0xD9#8 → ∃ t, exec .eoichk s = .next t ∧ t.status.errCode = 12#8 ∧ t.pstate = .failed))
      ∧ (s.br.ptr.toNat < s.br.lim.toNat → readByte s s.br.ptr.toNat ≠ 0xFF#8 →
        (∃ t, exec .rstchk s = .next t ∧ t.status.errCode = 11#8 ∧ t.pstate = .failed ∧ t.pred = s.pred)
          ∧ ∃ t, exec .eoichk s = .next t ∧ t.status.errCode = 12#8 ∧ t.pstate = .failed)
      ∧ (readBytes s s.br.ptr.toNat (bytesLeft s) = List.replicate (bytesLeft s) 0xFF#8 →
        (∃ t, exec .rstchk s = .next t ∧ t.status.errCode = 12#8 ∧ t.pstate = .failed ∧ t.pred = s.pred)
          ∧ ∃ t, exec .eoichk s = .next t ∧ t.status.errCode = 12#8 ∧ t.pstate = .failed))

/-! ### Markers (30 R241, 45) -/

/-- SOI at the start of a parse begins the tables; the expected RSTn at a restart check and EOI at the end check end that
check, an RSTn out of cycle order fails it (30 R241; 45 R570, R600, R610, R615). -/
def Obligations.SoiRstnAndEoiWhereExpected : Prop :=
  ∀ s : State,
    (markerReader s = some .header → s.pstate = .expectSoi → exec .soi s = .next { s with pstate := .readingTables })
    ∧ (markerReader s = some .restart → s.pstate = .inScan →
      ∀ n : BitVec 3,
        exec (.rstn n) s
          = .next (if n = s.rstNext then
              complete none { s with rstNext := s.rstNext + 1#3, pred := #v[0#16, 0#16, 0#16] }
            else complete (some .unexpectedMarker) { s with pstate := .failed }))
    ∧ (markerReader s = some .imageEnd → s.pstate = .inScan →
      exec .eoi s = .next (complete none { s with pstate := .terminal }))

/-- DQT installs the tables of its segment in order and moves behind it; at a table that is none it completes with
ERR_BAD_TABLE, FAILED, the tables before it installed (45 R583; 41 R358). -/
def Obligations.DqtInstallsItsTables : Prop :=
  ∀ (ts : List (BitVec 2 × List Byte)) (bad : List Byte) (s : State),
    readingHeader s → ReaderOk s → dqtImageOk ts →
    segmentAt s (2 + (dqtImage ts ++ bad).length) →
    segmentContent s (2 + (dqtImage ts ++ bad).length) = dqtImage ts ++ bad →
    (bad = [] →
      exec .dqt s
        = .next { installQts ts s with br.ptr := s.br.ptr + BitVec.ofNat 32 (2 + (dqtImage ts ++ bad).length) })
    ∧ (badDqtTable bad →
      exec .dqt s = .next (complete (some .badTable) { installQts ts s with pstate := .failed }))

/-- DHT installs the tables of its segment in order and moves behind it; at a table that is none it completes with
ERR_BAD_TABLE, FAILED, the tables before it installed (45 R584; 43 R473, R474). -/
def Obligations.DhtInstallsItsTables : Prop :=
  ∀ (ts : List DhtEntry) (bad : List Byte) (s : State),
    readingHeader s → ReaderOk s → dhtImageOk ts →
    segmentAt s (2 + (dhtImage ts ++ bad).length) →
    segmentContent s (2 + (dhtImage ts ++ bad).length) = dhtImage ts ++ bad →
    (bad = [] →
      exec .dht s
        = .next { installHts ts s with br.ptr := s.br.ptr + BitVec.ofNat 32 (2 + (dhtImage ts ++ bad).length) })
    ∧ (badDhtTable bad →
      exec .dht s = .next (complete (some .badTable) { installHts ts s with pstate := .failed }))

/-- APPn and COM are skipped by length; DRI of length 4 sets the restart interval, any other length is ERR_BAD_TABLE (45
R585, R586). -/
def Obligations.AppnComAndDriSegments : Prop :=
  ∀ (s : State) (len : Nat), readingHeader s → ReaderOk s → segmentAt s len →
    (∀ n, exec (.appn n) s = .next { s with br.ptr := s.br.ptr + BitVec.ofNat 32 len })
    ∧ exec .com s = .next { s with br.ptr := s.br.ptr + BitVec.ofNat 32 len }
    ∧ (len = 4 →
      exec .dri s
        = .next { s with
            br.ptr := s.br.ptr + 4#32
            dri := readByte s (s.br.ptr.toNat + 2) ++ readByte s (s.br.ptr.toNat + 3) })
    ∧ (len ≠ 4 → exec .dri s = .next (complete (some .badTable) { s with pstate := .failed }))

/-- A segment whose length field or whose content does not stand whole in the input is malformed: ERR_BAD_TABLE and FAILED,
for every segment (45 R582). -/
def Obligations.TruncatedSegmentsAreMalformed : Prop :=
  ∀ s : State, readingHeader s → ReaderOk s → (∀ len, ¬ segmentAt s len) →
    ∀ i : Instr,
      (i = .dqt ∨ i = .dht ∨ i = .dri ∨ i = .com ∨ (∃ n, i = .appn n) ∨ (i = .sof0 ∧ s.pstate = .readingTables)
        ∨ (i = .sos ∧ s.pstate = .sof0Seen)) →
      exec i s = .next (complete (some .badTable) { s with pstate := .failed })

/-- SOF0 before any SOF0: its checks in the order of 45 R590, the first failing one deciding and nothing written; else the
frame is accepted: size, layout, selectors, RES1 (45 R570, R590; 60 R760). -/
def Obligations.Sof0ChecksInOrder : Prop :=
  ∀ (s : State) (len : Nat), markerReader s = some .header → s.pstate = .readingTables → ReaderOk s → segmentAt s len →
    exec .sof0 s = .next (match sof0Verdict len (segmentContent s len) with
      | .error e => complete (some e) { s with pstate := .failed }
      | .ok (w, h, ss, tq) =>
        { s with
          pstate := .sof0Seen, frmDim := packHalves w h, res1 := packHalves w h
          frmInfo := { s.frmInfo with ss := ss, tq := tq }
          br.ptr := s.br.ptr + BitVec.ofNat 32 len })

/-- SOS after SOF0: its checks in the order of 45 R595, the first failing one deciding; else the scan starts behind it, with
the components' Huffman selectors, and the header parse completes (45 R570, R595, R600; 60 R760). -/
def Obligations.SosChecksInOrder : Prop :=
  ∀ (s : State) (len : Nat), markerReader s = some .header → s.pstate = .sof0Seen → ReaderOk s → segmentAt s len →
    exec .sos s = .next (match sosError s len (segmentContent s len) with
      | some e => complete (some e) { s with pstate := .failed }
      | none =>
        let b := fun i : Nat => (segmentContent s len).getD i 0#8
        complete none
          { s with
            pstate := .inScan, rstNext := 0#3, res0 := s.br.ptr + BitVec.ofNat 32 len
            frmInfo :=
              { s.frmInfo with
                td := #v[(b 2).extractLsb' 4 1, (b 4).extractLsb' 4 1, (b 6).extractLsb' 4 1]
                ta := #v[(b 2).extractLsb' 0 1, (b 4).extractLsb' 0 1, (b 6).extractLsb' 0 1] }
            br.ptr := s.br.ptr + BitVec.ofNat 32 len, br.cnt := 0#4, br.mark := false })

/-- A marker that the header parse does not accept ends it, FAILED: the non-baseline markers with ERR_NOT_BASELINE, every
other with ERR_UNEXPECTED_MARKER, among them a second SOF0, SOS before SOF0, SOI, EOI and RSTn (30 R241; 45 R570, R600). -/
def Obligations.HeaderParseRejectsOtherMarkers : Prop :=
  ∀ s : State, readingHeader s →
    (∀ i ∈ ([.sof1, .sof2, .sof3, .sof5, .sof6, .sof7, .jpg, .sof9, .sof10, .sof11, .dac, .sof13, .sof14, .sof15, .dhp,
        .exp] : List Instr),
      exec i s = .next (complete (some .notBaseline) { s with pstate := .failed }))
    ∧ ∀ i : Instr,
      (i = .soi ∨ i = .eoi ∨ i = .dnl ∨ i = .tem ∨ (∃ n, i = .rstn n) ∨ (∃ n, i = .jpgnF0 n) ∨ (∃ n, i = .jpgnF8 n)
        ∨ (∃ n, i = .jpgnFC n) ∨ (∃ n, i = .res02 n) ∨ (∃ n, i = .res04 n) ∨ (∃ n, i = .res08 n) ∨ (∃ n, i = .res10 n)
        ∨ (∃ n, i = .res20 n) ∨ (∃ n, i = .res40 n) ∨ (∃ n, i = .res80 n) ∨ (i = .sof0 ∧ s.pstate = .sof0Seen)
        ∨ (i = .sos ∧ s.pstate = .readingTables)) →
      exec i s = .next (complete (some .unexpectedMarker) { s with pstate := .failed })

/-! ### The macro commands (47) -/

/-- ENCODE's preconditions are exactly the three checks at its head: a failing one is reported, in their order, with RES0 = 0
and nothing else changed; behind them the only error is ERR_BOUNDS, the partial output reported in RES0, and RES1 is the scale
used, quality clamped (47 R680, R682). -/
def Obligations.EncodePreconditionsAreItsHeadChecks : Prop :=
  ∀ s : State, ParamOk s →
    let pair := legalFormat (s.argL[4].extractLsb' 0 4) (subsamplingOf (s.argL[4].extractLsb' 4 2))
    let w := lowHalf s.argL[3]
    let h := highHalf s.argL[3]
    let q := max 1 (min 100 (s.argL[4].extractLsb' 8 8).toNat)
    let scale := if s.argL[4].getLsbD 16 then s.argL[5].toNat
      else ((if q < 50 then 5000 / q else 200 - 2 * q) * 1024 + 50) / 100
    (pair = none → exec .encode s = .next (complete (some .command) { s with res0 := 0#32 }))
    ∧ (∀ f, pair = some f →
      (w = 0 ∨ h = 0 → exec .encode s = .next (complete (some .dimensions) { s with res0 := 0#32 }))
      ∧ (w ≠ 0 ∧ h ≠ 0
          ∧ (s.memBytes < s.argL[0].toNat + srcSize f w h ∨ s.memBytes < s.argL[1].toNat + s.argL[2].toNat) →
        exec .encode s = .next (complete (some .bounds) { s with res0 := 0#32 })))
    ∧ (encodeArgsOk s →
      ∃ t, exec .encode s = .next t ∧ (t.status.errCode = 0#8 ∨ t.status.errCode = 17#8)
        ∧ t.res1 = BitVec.ofNat 32 scale ∧ t.res0 = t.bw.ptr - s.argL[1] ∧ t.res0.toNat ≤ s.argL[2].toNat
        ∧ (t.status.errCode = 17#8 → t.res0 = s.argL[2]))

/-- With room for the longest possible output ENCODE succeeds, and [dst, dst + RES0) holds a complete frame: the header with
the tables it built, the entropy-coded data of the blocks of every MCU in raster order, FF D9 (44 R546; 47 R680). Where the
source and the output buffer do not overlap, those blocks are the source's: each block of samples CCONV takes, transformed,
quantized and in zigzag order; where they overlap, only their number and order are stated. -/
def Obligations.EncodeWritesACompleteFrame : Prop :=
  ∀ s : State, ParamOk s → encodeArgsOk s →
    let ss := subsamplingOf (s.argL[4].extractLsb' 4 2)
    let src := s.argL[0].toNat
    let dst := s.argL[1].toNat
    let w := lowHalf s.argL[3]
    let h := highHalf s.argL[3]
    let n := ceilDiv w (mcuW ss) * ceilDiv h (mcuH ss)
    600 + 2500 * n ≤ s.argL[2].toNat →
    ∃ t, exec .encode s = .next t ∧ succeeded t
      ∧ ∃ xs : List (Fin 3 × Block), xs.map Prod.fst = scanComponents ss n
        ∧ t.res0.toNat = (frameBytes ss w h (getQt t 0#2) (getQt t 1#2) xs).length
        ∧ readBytes t dst t.res0.toNat = frameBytes ss w h (getQt t 0#2) (getQt t 1#2) xs
        ∧ ∀ f, legalFormat (s.argL[4].extractLsb' 0 4) ss = some f →
          src + srcSize f w h ≤ dst ∨ dst + s.argL[2].toNat ≤ src → xs = sourceBlocks s f ss src w h (getRq t)

/-- DECODE's results: on any error RES0 = 0, STATE = FAILED and PREV_DIM is as before; without error STATE = TERMINAL,
PREV_DIM is the frame's size, not 0, RES0 = 3·W·H, which fits the capacity, and RESIZED is set if the size is new. With EXPECT
only a frame of size PREV_DIM succeeds; ERR_SIZE_MISMATCH is that failure, with no pixel written and RESIZED as before. An
error of the header parse is DECODE's, RESIZED as before; behind an accepted header RESIZED is set if the size is new even
though DECODE fails later, RES1 and FRM_DIM hold the size, and a capacity below 3·W·H is ERR_BOUNDS (47 R690, R694, R695,
R699). -/
def Obligations.DecodeReportsItsOutcome : Prop :=
  ∀ s t : State, exec .decode s = .next t →
    (t.status.err = true → t.res0 = 0#32 ∧ t.pstate = .failed ∧ t.prevDim = s.prevDim)
    ∧ (t.status.err = false →
      t.pstate = .terminal ∧ t.prevDim = t.frmDim ∧ t.frmDim ≠ 0#32
        ∧ t.res0 = BitVec.ofNat 32 (3 * lowHalf t.frmDim * highHalf t.frmDim)
        ∧ 3 * lowHalf t.frmDim * highHalf t.frmDim ≤ s.argL[3].toNat
        ∧ (t.status.resized = true ↔ s.status.resized = true ∨ t.frmDim ≠ s.prevDim)
        ∧ (s.argL[4].getLsbD 0 = true → t.frmDim = s.prevDim))
    ∧ (t.status.errCode = 3#8 →
      s.argL[4].getLsbD 0 = true ∧ t.frmDim ≠ s.prevDim ∧ t.status.resized = s.status.resized
        ∧ ∀ a, readByte t a = readByte s a)
    ∧ (s.memBytes < s.argL[0].toNat + s.argL[1].toNat ∨ s.memBytes < s.argL[2].toNat + s.argL[3].toNat →
      t = complete (some .bounds) { s with res0 := 0#32, res1 := 0#32, pstate := .failed })
    ∧ (s.argL[0].toNat + s.argL[1].toNat ≤ s.memBytes → s.argL[2].toNat + s.argL[3].toNat ≤ s.memBytes →
      ∀ u, exec .parsehdr
          { clearTables (decodeStart s) with
            br := { ptr := s.argL[0], lim := s.argL[0] + s.argL[1], cur := 0#8, cnt := 0#4, mark := false } } = .next u →
        (u.status.err = true →
          t.status.errCode = u.status.errCode ∧ t.res1 = u.res1 ∧ t.status.resized = s.status.resized)
        ∧ (u.status.err = false → t.frmDim = u.frmDim ∧ t.res1 = u.frmDim
          ∧ (s.argL[4].getLsbD 0 = true ∧ u.frmDim ≠ s.prevDim → t.status.errCode = 3#8)
          ∧ (s.argL[4].getLsbD 0 = false ∨ u.frmDim = s.prevDim →
            (t.status.resized = true ↔ s.status.resized = true ∨ u.frmDim ≠ s.prevDim)
            ∧ (s.argL[3].toNat < 3 * lowHalf u.frmDim * highHalf u.frmDim → t.status.errCode = 17#8))))

/-- DECODE of a complete whole-MCU 4:2:2 or 4:2:0 frame whose coefficients are within ±1023, with or without a restart interval,
the RSTn markers standing exactly where the schedule puts them, in a buffer apart from the output's: it succeeds, ends behind
EOI, and every pixel of the output is the one UPSCC makes of the reconstructed blocks of its MCU (44 R546; 45 R605, R610; 46
R650; 47 R690, R700). -/
def Obligations.DecodeAcceptsACompleteFrame : Prop :=
  ∀ (tt : BitVec 2) (w h ri : Nat) (q0 q1 : Vector Byte 64) (xss : List (List (Fin 3 × Block))) (s : State),
    ParamOk s → tt = 1#2 ∨ tt = 2#2 → 0 < w → w < 65536 → w % 16 = 0 → 0 < h → h < 65536 →
    let ss := subsamplingOf tt
    let b := (mcuBlocks ss).length
    let out := s.argL[2].toNat
    h % mcuH ss = 0 → (∀ i : Fin 64, q0[i] ≠ 0#8 ∧ q1[i] ≠ 0#8) → ri < 65536 → scheduled ri b xss →
    xss.flatten.map Prod.fst = scanComponents ss (w / 16 * (h / mcuH ss)) →
    (∀ x ∈ xss.flatten, ∀ v ∈ x.2.toList, -1023 ≤ v.toInt ∧ v.toInt ≤ 1023) →
    let frame := restartFrameBytes ss w h q0 q1 ri xss
    frame.length ≤ s.argL[1].toNat → readBytes s s.argL[0].toNat frame.length = frame →
    s.argL[0].toNat + s.argL[1].toNat ≤ s.memBytes → out + s.argL[3].toNat ≤ s.memBytes →
    3 * w * h ≤ s.argL[3].toNat →
    s.argL[0].toNat + s.argL[1].toNat ≤ out ∨ out + s.argL[3].toNat ≤ s.argL[0].toNat →
    (s.argL[4].getLsbD 0 = true → s.prevDim = packHalves w h) →
    ∃ t, exec .decode s = .next t ∧ succeeded t ∧ t.res0 = BitVec.ofNat 32 (3 * w * h) ∧ t.res1 = packHalves w h
      ∧ t.pstate = .terminal ∧ t.prevDim = packHalves w h ∧ t.dri = BitVec.ofNat 16 ri
      ∧ t.br.ptr = s.argL[0] + BitVec.ofNat 32 frame.length
      ∧ ∀ mx my px py, mx < w / 16 → my < h / mcuH ss → px < 16 → py < mcuH ss →
        readBytes t (out + 3 * ((mcuH ss * my + py) * w + (16 * mx + px))) 3
          = pixelBytes (s.argL[4].getLsbD 1)
              (mcuPixel (withMcu ss q0 q1 ((xss.flatten.drop (b * (my * (w / 16) + mx))).take b) s) ss px py)
end

