-- ==== Sys2Proof/Laws/Bits.lean ====
section
/-! SUPPORT. Bit strings: most-significant-first expansion and its inverse, whole bytes, byte stuffing. -/

namespace Sys2Proof.Machine

/-! ### bitsMsb and bitsValue -/

@[simp] theorem bitsMsb_zero (v : Nat) : bitsMsb v 0 = [] := rfl

@[simp] theorem bitsMsb_length (v n : Nat) : (bitsMsb v n).length = n := by
  induction n with
  | zero => rfl
  | succ n ih => simp [bitsMsb, ih]

/-- One more low bit is one more bit at the end. -/
theorem bitsMsb_double (v n : Nat) (b : Bool) : bitsMsb (2 * v + b.toNat) (n + 1) = bitsMsb v n ++ [b] := by
  induction n with
  | zero => cases b <;> simp [bitsMsb, Nat.testBit_zero]
  | succ n ih =>
    rw [bitsMsb, ih]
    have : (2 * v + b.toNat).testBit (n + 1) = v.testBit n := by
      rw [Nat.testBit_succ]
      congr 1
      cases b <;> simp; omega
    rw [this]
    rfl

theorem bitsMsb_mod (v n : Nat) : bitsMsb (v % 2 ^ n) n = bitsMsb v n := by
  suffices h : ∀ k, k ≤ n → bitsMsb (v % 2 ^ n) k = bitsMsb v k from h n (Nat.le_refl n)
  intro k hk
  induction k with
  | zero => rfl
  | succ k ih =>
    rw [bitsMsb, bitsMsb, ih (by omega), Nat.testBit_mod_two_pow]
    simp [show k < n by omega]

theorem bitsValue_append (v : Nat) (bs cs : List Bool) : bitsValue v (bs ++ cs) = bitsValue (bitsValue v bs) cs := by
  induction bs generalizing v with
  | nil => rfl
  | cons b bs ih => exact ih _

theorem bitsValue_eq (v : Nat) (bs : List Bool) : bitsValue v bs = v * 2 ^ bs.length + bitsValue 0 bs := by
  induction bs generalizing v with
  | nil => simp [bitsValue]
  | cons b bs ih =>
    rw [bitsValue, ih, bitsValue, ih (2 * 0 + b.toNat), List.length_cons, Nat.pow_succ]
    ring

/-- A bit string's number is below the power of two of its length. -/
theorem bitsValue_lt (bs : List Bool) : bitsValue 0 bs < 2 ^ bs.length := by
  induction bs with
  | nil => simp [bitsValue]
  | cons b bs ih =>
    rw [bitsValue, bitsValue_eq, List.length_cons, Nat.pow_succ]
    cases b <;> simp only [Bool.toNat_false, Bool.toNat_true] <;> omega

/-- Expanding a number's n low bits and reading them gives the number back. -/
theorem bitsValue_bitsMsb (v n : Nat) : bitsValue 0 (bitsMsb v n) = v % 2 ^ n := by
  induction n with
  | zero => simp [bitsValue, Nat.mod_one]
  | succ n ih =>
    rw [bitsMsb, bitsValue, bitsValue_eq, ih, bitsMsb_length, Nat.mod_pow_succ, Nat.toNat_testBit]
    ring

theorem bitsMsb_bitsValue (bs : List Bool) : bitsMsb (bitsValue 0 bs) bs.length = bs := by
  induction bs using List.reverseRecOn with
  | nil => rfl
  | append_singleton bs b ih =>
    rw [bitsValue_append, bitsValue, bitsValue, List.length_append, List.length_singleton, bitsMsb_double, ih]

/-! ### Whole bytes -/

theorem wholeBytes_short {bs : List Bool} (h : bs.length < 8) : wholeBytes bs = [] := by
  rcases bs with _ | ⟨_, _ | ⟨_, _ | ⟨_, _ | ⟨_, _ | ⟨_, _ | ⟨_, _ | ⟨_, _ | ⟨_, bs⟩⟩⟩⟩⟩⟩⟩⟩
  all_goals first | rfl | (simp at h; omega)

theorem leftBits_short {bs : List Bool} (h : bs.length < 8) : leftBits bs = bs := by
  rcases bs with _ | ⟨_, _ | ⟨_, _ | ⟨_, _ | ⟨_, _ | ⟨_, _ | ⟨_, _ | ⟨_, _ | ⟨_, bs⟩⟩⟩⟩⟩⟩⟩⟩
  all_goals first | rfl | (simp at h; omega)

theorem wholeBytes_eight {bs cs : List Bool} (h : bs.length = 8) :
    wholeBytes (bs ++ cs) = BitVec.ofNat 8 (bitsValue 0 bs) :: wholeBytes cs := by
  rcases bs with _ | ⟨_, _ | ⟨_, _ | ⟨_, _ | ⟨_, _ | ⟨_, _ | ⟨_, _ | ⟨_, _ | ⟨_, bs⟩⟩⟩⟩⟩⟩⟩⟩ <;> simp at h
  subst h
  rfl

theorem leftBits_eight {bs cs : List Bool} (h : bs.length = 8) : leftBits (bs ++ cs) = leftBits cs := by
  rcases bs with _ | ⟨_, _ | ⟨_, _ | ⟨_, _ | ⟨_, _ | ⟨_, _ | ⟨_, _ | ⟨_, _ | ⟨_, bs⟩⟩⟩⟩⟩⟩⟩⟩ <;> simp at h
  subst h
  rfl

/-- A bit string is shorter than a byte, or eight bits and a rest. -/
theorem eight_or_short (bs : List Bool) : bs.length < 8 ∨ ∃ cs ds, bs = cs ++ ds ∧ cs.length = 8 := by
  by_cases h : bs.length < 8
  · exact .inl h
  · exact .inr ⟨bs.take 8, bs.drop 8, (List.take_append_drop 8 bs).symm, by simp; omega⟩

theorem leftBits_length (bs : List Bool) : (leftBits bs).length = bs.length % 8 := by
  induction h : bs.length using Nat.strong_induction_on generalizing bs with
  | _ n ih =>
    rcases eight_or_short bs with hs | ⟨cs, ds, rfl, hc⟩
    · rw [leftBits_short hs, h, Nat.mod_eq_of_lt (h ▸ hs)]
    · rw [leftBits_eight hc, ih ds.length (by simp at h; omega) ds rfl]
      simp at h
      omega

/-- The bits of the whole bytes and the bits left over make the bit string. -/
theorem wholeBytes_leftBits (bs : List Bool) :
    (wholeBytes bs).flatMap (fun b => bitsMsb b.toNat 8) ++ leftBits bs = bs := by
  induction h : bs.length using Nat.strong_induction_on generalizing bs with
  | _ n ih =>
    rcases eight_or_short bs with hs | ⟨cs, ds, rfl, hc⟩
    · rw [wholeBytes_short hs, leftBits_short hs]
      rfl
    · rw [wholeBytes_eight hc, leftBits_eight hc, List.flatMap_cons, List.append_assoc,
        ih ds.length (by simp at h; omega) ds rfl]
      congr 1
      have hlt := bitsValue_lt cs
      rw [hc] at hlt
      rw [BitVec.toNat_ofNat, Nat.mod_eq_of_lt hlt, ← hc, bitsMsb_bitsValue]

theorem wholeBytes_append (bs cs : List Bool) : wholeBytes (bs ++ cs) = wholeBytes bs ++ wholeBytes (leftBits bs ++ cs) := by
  induction h : bs.length using Nat.strong_induction_on generalizing bs with
  | _ n ih =>
    rcases eight_or_short bs with hs | ⟨ds, es, rfl, hc⟩
    · rw [wholeBytes_short hs, leftBits_short hs]
      rfl
    · rw [List.append_assoc, wholeBytes_eight hc, wholeBytes_eight hc, leftBits_eight hc,
        ih es.length (by simp at h; omega) es rfl]
      rfl

theorem leftBits_append (bs cs : List Bool) : leftBits (bs ++ cs) = leftBits (leftBits bs ++ cs) := by
  induction h : bs.length using Nat.strong_induction_on generalizing bs with
  | _ n ih =>
    rcases eight_or_short bs with hs | ⟨ds, es, rfl, hc⟩
    · rw [leftBits_short hs]
    · rw [List.append_assoc, leftBits_eight hc, leftBits_eight hc, ih es.length (by simp at h; omega) es rfl]

/-! ### Stuffing -/

@[simp] theorem stuffed_nil : stuffed [] = [] := rfl

theorem stuffed_append (bs cs : List Byte) : stuffed (bs ++ cs) = stuffed bs ++ stuffed cs := by
  induction bs with
  | nil => rfl
  | cons b bs ih =>
    rw [List.cons_append, stuffed, stuffed, ih]
    split <;> simp

theorem stuffed_length_le (bs : List Byte) : (stuffed bs).length ≤ 2 * bs.length := by
  induction bs with
  | nil => simp
  | cons b bs ih =>
    rw [stuffed]
    split <;> simp only [List.length_cons] <;> omega

theorem unstuffedBits_cons {b : Byte} (h : b ≠ 0xFF#8) (bs : List Byte) :
    unstuffedBits (b :: bs) = bitsMsb b.toNat 8 ++ unstuffedBits bs := by
  cases bs <;> simp [unstuffedBits, h]

theorem unstuffedBits_stuffed_ff (bs : List Byte) :
    unstuffedBits (0xFF#8 :: 0x00#8 :: bs) = bitsMsb 0xFF 8 ++ unstuffedBits bs := by
  simp [unstuffedBits]

/-- Unstuffing undoes stuffing (10 R70, 43 R465, R466). -/
theorem unstuffedBits_stuffed (bs cs : List Byte) :
    unstuffedBits (stuffed bs ++ cs) = bs.flatMap (fun b => bitsMsb b.toNat 8) ++ unstuffedBits cs := by
  induction bs with
  | nil => rfl
  | cons b bs ih =>
    rw [stuffed]
    split
    · next h =>
      subst h
      rw [List.cons_append, List.cons_append, unstuffedBits_stuffed_ff, ih, List.flatMap_cons, List.append_assoc]
      rfl
    · next h => rw [List.cons_append, unstuffedBits_cons h, ih, List.flatMap_cons, List.append_assoc]

/-- A marker ends the bits. -/
theorem unstuffedBits_marker {c : Byte} (h : c ≠ 0x00#8) (bs : List Byte) : unstuffedBits (0xFF#8 :: c :: bs) = [] := by
  simp [unstuffedBits, h]

end Sys2Proof.Machine
end

