-- ==== Sys2Proof/Laws/State.lean ====
section
/-! SUPPORT. One lemma per field per named update of the state, all true by unfolding, so that no later proof opens a
record update. -/

namespace Sys2Proof.Machine

/-! ### complete -/

@[simp] theorem complete_ie (e : Option ErrCode) (s : State) : (complete e s).ie = s.ie := rfl
@[simp] theorem complete_status (e : Option ErrCode) (s : State) : (complete e s).status = statusComplete e s.status := rfl
@[simp] theorem complete_cmdL (e : Option ErrCode) (s : State) : (complete e s).cmdL = s.cmdL := rfl
@[simp] theorem complete_argL (e : Option ErrCode) (s : State) : (complete e s).argL = s.argL := rfl
@[simp] theorem complete_arg (e : Option ErrCode) (s : State) : (complete e s).arg = s.arg := rfl
@[simp] theorem complete_res0 (e : Option ErrCode) (s : State) : (complete e s).res0 = s.res0 := rfl
@[simp] theorem complete_res1 (e : Option ErrCode) (s : State) : (complete e s).res1 = s.res1 := rfl
@[simp] theorem complete_prevDim (e : Option ErrCode) (s : State) : (complete e s).prevDim = s.prevDim := rfl
@[simp] theorem complete_dri (e : Option ErrCode) (s : State) : (complete e s).dri = s.dri := rfl
@[simp] theorem complete_bw (e : Option ErrCode) (s : State) : (complete e s).bw = s.bw := rfl
@[simp] theorem complete_br (e : Option ErrCode) (s : State) : (complete e s).br = s.br := rfl
@[simp] theorem complete_pred (e : Option ErrCode) (s : State) : (complete e s).pred = s.pred := rfl
@[simp] theorem complete_pstate (e : Option ErrCode) (s : State) : (complete e s).pstate = s.pstate := rfl
@[simp] theorem complete_rstNext (e : Option ErrCode) (s : State) : (complete e s).rstNext = s.rstNext := rfl
@[simp] theorem complete_frmDim (e : Option ErrCode) (s : State) : (complete e s).frmDim = s.frmDim := rfl
@[simp] theorem complete_frmInfo (e : Option ErrCode) (s : State) : (complete e s).frmInfo = s.frmInfo := rfl
@[simp] theorem complete_qvalid (e : Option ErrCode) (s : State) : (complete e s).qvalid = s.qvalid := rfl
@[simp] theorem complete_hvalid (e : Option ErrCode) (s : State) : (complete e s).hvalid = s.hvalid := rfl
@[simp] theorem complete_qt (e : Option ErrCode) (s : State) : (complete e s).qt = s.qt := rfl
@[simp] theorem complete_rq (e : Option ErrCode) (s : State) : (complete e s).rq = s.rq := rfl
@[simp] theorem complete_blk (e : Option ErrCode) (s : State) : (complete e s).blk = s.blk := rfl
@[simp] theorem complete_ht (e : Option ErrCode) (s : State) : (complete e s).ht = s.ht := rfl
@[simp] theorem complete_mem (e : Option ErrCode) (s : State) : (complete e s).mem = s.mem := rfl
@[simp] theorem complete_memBytes (e : Option ErrCode) (s : State) : (complete e s).memBytes = s.memBytes := rfl
@[simp] theorem complete_undef (e : Option ErrCode) (s : State) : (complete e s).undef = s.undef := rfl
@[simp] theorem complete_draws (e : Option ErrCode) (s : State) : (complete e s).draws = s.draws := rfl
@[simp] theorem complete_hostData (e : Option ErrCode) (s : State) : (complete e s).hostData = s.hostData := rfl
@[simp] theorem complete_agenda (e : Option ErrCode) (s : State) : (complete e s).agenda = s.agenda := rfl

/-! ### setBlk -/

@[simp] theorem setBlk_ie (d : Slot) (b : Block) (s : State) : (setBlk d b s).ie = s.ie := rfl
@[simp] theorem setBlk_status (d : Slot) (b : Block) (s : State) : (setBlk d b s).status = s.status := rfl
@[simp] theorem setBlk_cmdL (d : Slot) (b : Block) (s : State) : (setBlk d b s).cmdL = s.cmdL := rfl
@[simp] theorem setBlk_argL (d : Slot) (b : Block) (s : State) : (setBlk d b s).argL = s.argL := rfl
@[simp] theorem setBlk_arg (d : Slot) (b : Block) (s : State) : (setBlk d b s).arg = s.arg := rfl
@[simp] theorem setBlk_res0 (d : Slot) (b : Block) (s : State) : (setBlk d b s).res0 = s.res0 := rfl
@[simp] theorem setBlk_res1 (d : Slot) (b : Block) (s : State) : (setBlk d b s).res1 = s.res1 := rfl
@[simp] theorem setBlk_prevDim (d : Slot) (b : Block) (s : State) : (setBlk d b s).prevDim = s.prevDim := rfl
@[simp] theorem setBlk_dri (d : Slot) (b : Block) (s : State) : (setBlk d b s).dri = s.dri := rfl
@[simp] theorem setBlk_bw (d : Slot) (b : Block) (s : State) : (setBlk d b s).bw = s.bw := rfl
@[simp] theorem setBlk_br (d : Slot) (b : Block) (s : State) : (setBlk d b s).br = s.br := rfl
@[simp] theorem setBlk_pred (d : Slot) (b : Block) (s : State) : (setBlk d b s).pred = s.pred := rfl
@[simp] theorem setBlk_pstate (d : Slot) (b : Block) (s : State) : (setBlk d b s).pstate = s.pstate := rfl
@[simp] theorem setBlk_rstNext (d : Slot) (b : Block) (s : State) : (setBlk d b s).rstNext = s.rstNext := rfl
@[simp] theorem setBlk_frmDim (d : Slot) (b : Block) (s : State) : (setBlk d b s).frmDim = s.frmDim := rfl
@[simp] theorem setBlk_frmInfo (d : Slot) (b : Block) (s : State) : (setBlk d b s).frmInfo = s.frmInfo := rfl
@[simp] theorem setBlk_qvalid (d : Slot) (b : Block) (s : State) : (setBlk d b s).qvalid = s.qvalid := rfl
@[simp] theorem setBlk_hvalid (d : Slot) (b : Block) (s : State) : (setBlk d b s).hvalid = s.hvalid := rfl
@[simp] theorem setBlk_qt (d : Slot) (b : Block) (s : State) : (setBlk d b s).qt = s.qt := rfl
@[simp] theorem setBlk_rq (d : Slot) (b : Block) (s : State) : (setBlk d b s).rq = s.rq := rfl
@[simp] theorem setBlk_blk (d : Slot) (b : Block) (s : State) : (setBlk d b s).blk = s.blk.set d.toNat b d.isLt := rfl
@[simp] theorem setBlk_ht (d : Slot) (b : Block) (s : State) : (setBlk d b s).ht = s.ht := rfl
@[simp] theorem setBlk_mem (d : Slot) (b : Block) (s : State) : (setBlk d b s).mem = s.mem := rfl
@[simp] theorem setBlk_memBytes (d : Slot) (b : Block) (s : State) : (setBlk d b s).memBytes = s.memBytes := rfl
@[simp] theorem setBlk_undef (d : Slot) (b : Block) (s : State) : (setBlk d b s).undef = s.undef := rfl
@[simp] theorem setBlk_draws (d : Slot) (b : Block) (s : State) : (setBlk d b s).draws = s.draws := rfl
@[simp] theorem setBlk_hostData (d : Slot) (b : Block) (s : State) : (setBlk d b s).hostData = s.hostData := rfl
@[simp] theorem setBlk_agenda (d : Slot) (b : Block) (s : State) : (setBlk d b s).agenda = s.agenda := rfl

/-! ### setPred -/

@[simp] theorem setPred_ie (c : Fin 3) (v : Half) (s : State) : (setPred c v s).ie = s.ie := rfl
@[simp] theorem setPred_status (c : Fin 3) (v : Half) (s : State) : (setPred c v s).status = s.status := rfl
@[simp] theorem setPred_cmdL (c : Fin 3) (v : Half) (s : State) : (setPred c v s).cmdL = s.cmdL := rfl
@[simp] theorem setPred_argL (c : Fin 3) (v : Half) (s : State) : (setPred c v s).argL = s.argL := rfl
@[simp] theorem setPred_arg (c : Fin 3) (v : Half) (s : State) : (setPred c v s).arg = s.arg := rfl
@[simp] theorem setPred_res0 (c : Fin 3) (v : Half) (s : State) : (setPred c v s).res0 = s.res0 := rfl
@[simp] theorem setPred_res1 (c : Fin 3) (v : Half) (s : State) : (setPred c v s).res1 = s.res1 := rfl
@[simp] theorem setPred_prevDim (c : Fin 3) (v : Half) (s : State) : (setPred c v s).prevDim = s.prevDim := rfl
@[simp] theorem setPred_dri (c : Fin 3) (v : Half) (s : State) : (setPred c v s).dri = s.dri := rfl
@[simp] theorem setPred_bw (c : Fin 3) (v : Half) (s : State) : (setPred c v s).bw = s.bw := rfl
@[simp] theorem setPred_br (c : Fin 3) (v : Half) (s : State) : (setPred c v s).br = s.br := rfl
@[simp] theorem setPred_pred (c : Fin 3) (v : Half) (s : State) : (setPred c v s).pred = s.pred.set c.val v c.isLt := rfl
@[simp] theorem setPred_pstate (c : Fin 3) (v : Half) (s : State) : (setPred c v s).pstate = s.pstate := rfl
@[simp] theorem setPred_rstNext (c : Fin 3) (v : Half) (s : State) : (setPred c v s).rstNext = s.rstNext := rfl
@[simp] theorem setPred_frmDim (c : Fin 3) (v : Half) (s : State) : (setPred c v s).frmDim = s.frmDim := rfl
@[simp] theorem setPred_frmInfo (c : Fin 3) (v : Half) (s : State) : (setPred c v s).frmInfo = s.frmInfo := rfl
@[simp] theorem setPred_qvalid (c : Fin 3) (v : Half) (s : State) : (setPred c v s).qvalid = s.qvalid := rfl
@[simp] theorem setPred_hvalid (c : Fin 3) (v : Half) (s : State) : (setPred c v s).hvalid = s.hvalid := rfl
@[simp] theorem setPred_qt (c : Fin 3) (v : Half) (s : State) : (setPred c v s).qt = s.qt := rfl
@[simp] theorem setPred_rq (c : Fin 3) (v : Half) (s : State) : (setPred c v s).rq = s.rq := rfl
@[simp] theorem setPred_blk (c : Fin 3) (v : Half) (s : State) : (setPred c v s).blk = s.blk := rfl
@[simp] theorem setPred_ht (c : Fin 3) (v : Half) (s : State) : (setPred c v s).ht = s.ht := rfl
@[simp] theorem setPred_mem (c : Fin 3) (v : Half) (s : State) : (setPred c v s).mem = s.mem := rfl
@[simp] theorem setPred_memBytes (c : Fin 3) (v : Half) (s : State) : (setPred c v s).memBytes = s.memBytes := rfl
@[simp] theorem setPred_undef (c : Fin 3) (v : Half) (s : State) : (setPred c v s).undef = s.undef := rfl
@[simp] theorem setPred_draws (c : Fin 3) (v : Half) (s : State) : (setPred c v s).draws = s.draws := rfl
@[simp] theorem setPred_hostData (c : Fin 3) (v : Half) (s : State) : (setPred c v s).hostData = s.hostData := rfl
@[simp] theorem setPred_agenda (c : Fin 3) (v : Half) (s : State) : (setPred c v s).agenda = s.agenda := rfl

/-! ### clearPreds -/

@[simp] theorem clearPreds_ie (s : State) : (clearPreds s).ie = s.ie := rfl
@[simp] theorem clearPreds_status (s : State) : (clearPreds s).status = s.status := rfl
@[simp] theorem clearPreds_cmdL (s : State) : (clearPreds s).cmdL = s.cmdL := rfl
@[simp] theorem clearPreds_argL (s : State) : (clearPreds s).argL = s.argL := rfl
@[simp] theorem clearPreds_arg (s : State) : (clearPreds s).arg = s.arg := rfl
@[simp] theorem clearPreds_res0 (s : State) : (clearPreds s).res0 = s.res0 := rfl
@[simp] theorem clearPreds_res1 (s : State) : (clearPreds s).res1 = s.res1 := rfl
@[simp] theorem clearPreds_prevDim (s : State) : (clearPreds s).prevDim = s.prevDim := rfl
@[simp] theorem clearPreds_dri (s : State) : (clearPreds s).dri = s.dri := rfl
@[simp] theorem clearPreds_bw (s : State) : (clearPreds s).bw = s.bw := rfl
@[simp] theorem clearPreds_br (s : State) : (clearPreds s).br = s.br := rfl
@[simp] theorem clearPreds_pred (s : State) : (clearPreds s).pred = Vector.replicate 3 0#16 := rfl
@[simp] theorem clearPreds_pstate (s : State) : (clearPreds s).pstate = s.pstate := rfl
@[simp] theorem clearPreds_rstNext (s : State) : (clearPreds s).rstNext = s.rstNext := rfl
@[simp] theorem clearPreds_frmDim (s : State) : (clearPreds s).frmDim = s.frmDim := rfl
@[simp] theorem clearPreds_frmInfo (s : State) : (clearPreds s).frmInfo = s.frmInfo := rfl
@[simp] theorem clearPreds_qvalid (s : State) : (clearPreds s).qvalid = s.qvalid := rfl
@[simp] theorem clearPreds_hvalid (s : State) : (clearPreds s).hvalid = s.hvalid := rfl
@[simp] theorem clearPreds_qt (s : State) : (clearPreds s).qt = s.qt := rfl
@[simp] theorem clearPreds_rq (s : State) : (clearPreds s).rq = s.rq := rfl
@[simp] theorem clearPreds_blk (s : State) : (clearPreds s).blk = s.blk := rfl
@[simp] theorem clearPreds_ht (s : State) : (clearPreds s).ht = s.ht := rfl
@[simp] theorem clearPreds_mem (s : State) : (clearPreds s).mem = s.mem := rfl
@[simp] theorem clearPreds_memBytes (s : State) : (clearPreds s).memBytes = s.memBytes := rfl
@[simp] theorem clearPreds_undef (s : State) : (clearPreds s).undef = s.undef := rfl
@[simp] theorem clearPreds_draws (s : State) : (clearPreds s).draws = s.draws := rfl
@[simp] theorem clearPreds_hostData (s : State) : (clearPreds s).hostData = s.hostData := rfl
@[simp] theorem clearPreds_agenda (s : State) : (clearPreds s).agenda = s.agenda := rfl

/-! ### setRes0 -/

@[simp] theorem setRes0_ie (v : Word) (s : State) : (setRes0 v s).ie = s.ie := rfl
@[simp] theorem setRes0_status (v : Word) (s : State) : (setRes0 v s).status = s.status := rfl
@[simp] theorem setRes0_cmdL (v : Word) (s : State) : (setRes0 v s).cmdL = s.cmdL := rfl
@[simp] theorem setRes0_argL (v : Word) (s : State) : (setRes0 v s).argL = s.argL := rfl
@[simp] theorem setRes0_arg (v : Word) (s : State) : (setRes0 v s).arg = s.arg := rfl
@[simp] theorem setRes0_res0 (v : Word) (s : State) : (setRes0 v s).res0 = v := rfl
@[simp] theorem setRes0_res1 (v : Word) (s : State) : (setRes0 v s).res1 = s.res1 := rfl
@[simp] theorem setRes0_prevDim (v : Word) (s : State) : (setRes0 v s).prevDim = s.prevDim := rfl
@[simp] theorem setRes0_dri (v : Word) (s : State) : (setRes0 v s).dri = s.dri := rfl
@[simp] theorem setRes0_bw (v : Word) (s : State) : (setRes0 v s).bw = s.bw := rfl
@[simp] theorem setRes0_br (v : Word) (s : State) : (setRes0 v s).br = s.br := rfl
@[simp] theorem setRes0_pred (v : Word) (s : State) : (setRes0 v s).pred = s.pred := rfl
@[simp] theorem setRes0_pstate (v : Word) (s : State) : (setRes0 v s).pstate = s.pstate := rfl
@[simp] theorem setRes0_rstNext (v : Word) (s : State) : (setRes0 v s).rstNext = s.rstNext := rfl
@[simp] theorem setRes0_frmDim (v : Word) (s : State) : (setRes0 v s).frmDim = s.frmDim := rfl
@[simp] theorem setRes0_frmInfo (v : Word) (s : State) : (setRes0 v s).frmInfo = s.frmInfo := rfl
@[simp] theorem setRes0_qvalid (v : Word) (s : State) : (setRes0 v s).qvalid = s.qvalid := rfl
@[simp] theorem setRes0_hvalid (v : Word) (s : State) : (setRes0 v s).hvalid = s.hvalid := rfl
@[simp] theorem setRes0_qt (v : Word) (s : State) : (setRes0 v s).qt = s.qt := rfl
@[simp] theorem setRes0_rq (v : Word) (s : State) : (setRes0 v s).rq = s.rq := rfl
@[simp] theorem setRes0_blk (v : Word) (s : State) : (setRes0 v s).blk = s.blk := rfl
@[simp] theorem setRes0_ht (v : Word) (s : State) : (setRes0 v s).ht = s.ht := rfl
@[simp] theorem setRes0_mem (v : Word) (s : State) : (setRes0 v s).mem = s.mem := rfl
@[simp] theorem setRes0_memBytes (v : Word) (s : State) : (setRes0 v s).memBytes = s.memBytes := rfl
@[simp] theorem setRes0_undef (v : Word) (s : State) : (setRes0 v s).undef = s.undef := rfl
@[simp] theorem setRes0_draws (v : Word) (s : State) : (setRes0 v s).draws = s.draws := rfl
@[simp] theorem setRes0_hostData (v : Word) (s : State) : (setRes0 v s).hostData = s.hostData := rfl
@[simp] theorem setRes0_agenda (v : Word) (s : State) : (setRes0 v s).agenda = s.agenda := rfl

/-! ### setRes1 -/

@[simp] theorem setRes1_ie (v : Word) (s : State) : (setRes1 v s).ie = s.ie := rfl
@[simp] theorem setRes1_status (v : Word) (s : State) : (setRes1 v s).status = s.status := rfl
@[simp] theorem setRes1_cmdL (v : Word) (s : State) : (setRes1 v s).cmdL = s.cmdL := rfl
@[simp] theorem setRes1_argL (v : Word) (s : State) : (setRes1 v s).argL = s.argL := rfl
@[simp] theorem setRes1_arg (v : Word) (s : State) : (setRes1 v s).arg = s.arg := rfl
@[simp] theorem setRes1_res0 (v : Word) (s : State) : (setRes1 v s).res0 = s.res0 := rfl
@[simp] theorem setRes1_res1 (v : Word) (s : State) : (setRes1 v s).res1 = v := rfl
@[simp] theorem setRes1_prevDim (v : Word) (s : State) : (setRes1 v s).prevDim = s.prevDim := rfl
@[simp] theorem setRes1_dri (v : Word) (s : State) : (setRes1 v s).dri = s.dri := rfl
@[simp] theorem setRes1_bw (v : Word) (s : State) : (setRes1 v s).bw = s.bw := rfl
@[simp] theorem setRes1_br (v : Word) (s : State) : (setRes1 v s).br = s.br := rfl
@[simp] theorem setRes1_pred (v : Word) (s : State) : (setRes1 v s).pred = s.pred := rfl
@[simp] theorem setRes1_pstate (v : Word) (s : State) : (setRes1 v s).pstate = s.pstate := rfl
@[simp] theorem setRes1_rstNext (v : Word) (s : State) : (setRes1 v s).rstNext = s.rstNext := rfl
@[simp] theorem setRes1_frmDim (v : Word) (s : State) : (setRes1 v s).frmDim = s.frmDim := rfl
@[simp] theorem setRes1_frmInfo (v : Word) (s : State) : (setRes1 v s).frmInfo = s.frmInfo := rfl
@[simp] theorem setRes1_qvalid (v : Word) (s : State) : (setRes1 v s).qvalid = s.qvalid := rfl
@[simp] theorem setRes1_hvalid (v : Word) (s : State) : (setRes1 v s).hvalid = s.hvalid := rfl
@[simp] theorem setRes1_qt (v : Word) (s : State) : (setRes1 v s).qt = s.qt := rfl
@[simp] theorem setRes1_rq (v : Word) (s : State) : (setRes1 v s).rq = s.rq := rfl
@[simp] theorem setRes1_blk (v : Word) (s : State) : (setRes1 v s).blk = s.blk := rfl
@[simp] theorem setRes1_ht (v : Word) (s : State) : (setRes1 v s).ht = s.ht := rfl
@[simp] theorem setRes1_mem (v : Word) (s : State) : (setRes1 v s).mem = s.mem := rfl
@[simp] theorem setRes1_memBytes (v : Word) (s : State) : (setRes1 v s).memBytes = s.memBytes := rfl
@[simp] theorem setRes1_undef (v : Word) (s : State) : (setRes1 v s).undef = s.undef := rfl
@[simp] theorem setRes1_draws (v : Word) (s : State) : (setRes1 v s).draws = s.draws := rfl
@[simp] theorem setRes1_hostData (v : Word) (s : State) : (setRes1 v s).hostData = s.hostData := rfl
@[simp] theorem setRes1_agenda (v : Word) (s : State) : (setRes1 v s).agenda = s.agenda := rfl

/-! ### setPstate -/

@[simp] theorem setPstate_ie (p : ParserState) (s : State) : (setPstate p s).ie = s.ie := rfl
@[simp] theorem setPstate_status (p : ParserState) (s : State) : (setPstate p s).status = s.status := rfl
@[simp] theorem setPstate_cmdL (p : ParserState) (s : State) : (setPstate p s).cmdL = s.cmdL := rfl
@[simp] theorem setPstate_argL (p : ParserState) (s : State) : (setPstate p s).argL = s.argL := rfl
@[simp] theorem setPstate_arg (p : ParserState) (s : State) : (setPstate p s).arg = s.arg := rfl
@[simp] theorem setPstate_res0 (p : ParserState) (s : State) : (setPstate p s).res0 = s.res0 := rfl
@[simp] theorem setPstate_res1 (p : ParserState) (s : State) : (setPstate p s).res1 = s.res1 := rfl
@[simp] theorem setPstate_prevDim (p : ParserState) (s : State) : (setPstate p s).prevDim = s.prevDim := rfl
@[simp] theorem setPstate_dri (p : ParserState) (s : State) : (setPstate p s).dri = s.dri := rfl
@[simp] theorem setPstate_bw (p : ParserState) (s : State) : (setPstate p s).bw = s.bw := rfl
@[simp] theorem setPstate_br (p : ParserState) (s : State) : (setPstate p s).br = s.br := rfl
@[simp] theorem setPstate_pred (p : ParserState) (s : State) : (setPstate p s).pred = s.pred := rfl
@[simp] theorem setPstate_pstate (p : ParserState) (s : State) : (setPstate p s).pstate = p := rfl
@[simp] theorem setPstate_rstNext (p : ParserState) (s : State) : (setPstate p s).rstNext = s.rstNext := rfl
@[simp] theorem setPstate_frmDim (p : ParserState) (s : State) : (setPstate p s).frmDim = s.frmDim := rfl
@[simp] theorem setPstate_frmInfo (p : ParserState) (s : State) : (setPstate p s).frmInfo = s.frmInfo := rfl
@[simp] theorem setPstate_qvalid (p : ParserState) (s : State) : (setPstate p s).qvalid = s.qvalid := rfl
@[simp] theorem setPstate_hvalid (p : ParserState) (s : State) : (setPstate p s).hvalid = s.hvalid := rfl
@[simp] theorem setPstate_qt (p : ParserState) (s : State) : (setPstate p s).qt = s.qt := rfl
@[simp] theorem setPstate_rq (p : ParserState) (s : State) : (setPstate p s).rq = s.rq := rfl
@[simp] theorem setPstate_blk (p : ParserState) (s : State) : (setPstate p s).blk = s.blk := rfl
@[simp] theorem setPstate_ht (p : ParserState) (s : State) : (setPstate p s).ht = s.ht := rfl
@[simp] theorem setPstate_mem (p : ParserState) (s : State) : (setPstate p s).mem = s.mem := rfl
@[simp] theorem setPstate_memBytes (p : ParserState) (s : State) : (setPstate p s).memBytes = s.memBytes := rfl
@[simp] theorem setPstate_undef (p : ParserState) (s : State) : (setPstate p s).undef = s.undef := rfl
@[simp] theorem setPstate_draws (p : ParserState) (s : State) : (setPstate p s).draws = s.draws := rfl
@[simp] theorem setPstate_hostData (p : ParserState) (s : State) : (setPstate p s).hostData = s.hostData := rfl
@[simp] theorem setPstate_agenda (p : ParserState) (s : State) : (setPstate p s).agenda = s.agenda := rfl

/-! ### writeByte -/

@[simp] theorem writeByte_ie (a : Nat) (b : Byte) (s : State) : (writeByte a b s).ie = s.ie := rfl
@[simp] theorem writeByte_status (a : Nat) (b : Byte) (s : State) : (writeByte a b s).status = s.status := rfl
@[simp] theorem writeByte_cmdL (a : Nat) (b : Byte) (s : State) : (writeByte a b s).cmdL = s.cmdL := rfl
@[simp] theorem writeByte_argL (a : Nat) (b : Byte) (s : State) : (writeByte a b s).argL = s.argL := rfl
@[simp] theorem writeByte_arg (a : Nat) (b : Byte) (s : State) : (writeByte a b s).arg = s.arg := rfl
@[simp] theorem writeByte_res0 (a : Nat) (b : Byte) (s : State) : (writeByte a b s).res0 = s.res0 := rfl
@[simp] theorem writeByte_res1 (a : Nat) (b : Byte) (s : State) : (writeByte a b s).res1 = s.res1 := rfl
@[simp] theorem writeByte_prevDim (a : Nat) (b : Byte) (s : State) : (writeByte a b s).prevDim = s.prevDim := rfl
@[simp] theorem writeByte_dri (a : Nat) (b : Byte) (s : State) : (writeByte a b s).dri = s.dri := rfl
@[simp] theorem writeByte_bw (a : Nat) (b : Byte) (s : State) : (writeByte a b s).bw = s.bw := rfl
@[simp] theorem writeByte_br (a : Nat) (b : Byte) (s : State) : (writeByte a b s).br = s.br := rfl
@[simp] theorem writeByte_pred (a : Nat) (b : Byte) (s : State) : (writeByte a b s).pred = s.pred := rfl
@[simp] theorem writeByte_pstate (a : Nat) (b : Byte) (s : State) : (writeByte a b s).pstate = s.pstate := rfl
@[simp] theorem writeByte_rstNext (a : Nat) (b : Byte) (s : State) : (writeByte a b s).rstNext = s.rstNext := rfl
@[simp] theorem writeByte_frmDim (a : Nat) (b : Byte) (s : State) : (writeByte a b s).frmDim = s.frmDim := rfl
@[simp] theorem writeByte_frmInfo (a : Nat) (b : Byte) (s : State) : (writeByte a b s).frmInfo = s.frmInfo := rfl
@[simp] theorem writeByte_qvalid (a : Nat) (b : Byte) (s : State) : (writeByte a b s).qvalid = s.qvalid := rfl
@[simp] theorem writeByte_hvalid (a : Nat) (b : Byte) (s : State) : (writeByte a b s).hvalid = s.hvalid := rfl
@[simp] theorem writeByte_qt (a : Nat) (b : Byte) (s : State) : (writeByte a b s).qt = s.qt := rfl
@[simp] theorem writeByte_rq (a : Nat) (b : Byte) (s : State) : (writeByte a b s).rq = s.rq := rfl
@[simp] theorem writeByte_blk (a : Nat) (b : Byte) (s : State) : (writeByte a b s).blk = s.blk := rfl
@[simp] theorem writeByte_ht (a : Nat) (b : Byte) (s : State) : (writeByte a b s).ht = s.ht := rfl
@[simp] theorem writeByte_mem (a : Nat) (b : Byte) (s : State) : (writeByte a b s).mem = memSet s.mem a b := rfl
@[simp] theorem writeByte_memBytes (a : Nat) (b : Byte) (s : State) : (writeByte a b s).memBytes = s.memBytes := rfl
@[simp] theorem writeByte_undef (a : Nat) (b : Byte) (s : State) : (writeByte a b s).undef = s.undef := rfl
@[simp] theorem writeByte_draws (a : Nat) (b : Byte) (s : State) : (writeByte a b s).draws = s.draws := rfl
@[simp] theorem writeByte_hostData (a : Nat) (b : Byte) (s : State) : (writeByte a b s).hostData = s.hostData := rfl
@[simp] theorem writeByte_agenda (a : Nat) (b : Byte) (s : State) : (writeByte a b s).agenda = s.agenda := rfl

/-! ### installQt -/

@[simp] theorem installQt_ie (t : BitVec 2) (e : Vector Byte 64) (s : State) : (installQt t e s).ie = s.ie := rfl
@[simp] theorem installQt_status (t : BitVec 2) (e : Vector Byte 64) (s : State) : (installQt t e s).status = s.status := rfl
@[simp] theorem installQt_cmdL (t : BitVec 2) (e : Vector Byte 64) (s : State) : (installQt t e s).cmdL = s.cmdL := rfl
@[simp] theorem installQt_argL (t : BitVec 2) (e : Vector Byte 64) (s : State) : (installQt t e s).argL = s.argL := rfl
@[simp] theorem installQt_arg (t : BitVec 2) (e : Vector Byte 64) (s : State) : (installQt t e s).arg = s.arg := rfl
@[simp] theorem installQt_res0 (t : BitVec 2) (e : Vector Byte 64) (s : State) : (installQt t e s).res0 = s.res0 := rfl
@[simp] theorem installQt_res1 (t : BitVec 2) (e : Vector Byte 64) (s : State) : (installQt t e s).res1 = s.res1 := rfl
@[simp] theorem installQt_prevDim (t : BitVec 2) (e : Vector Byte 64) (s : State) : (installQt t e s).prevDim = s.prevDim := rfl
@[simp] theorem installQt_dri (t : BitVec 2) (e : Vector Byte 64) (s : State) : (installQt t e s).dri = s.dri := rfl
@[simp] theorem installQt_bw (t : BitVec 2) (e : Vector Byte 64) (s : State) : (installQt t e s).bw = s.bw := rfl
@[simp] theorem installQt_br (t : BitVec 2) (e : Vector Byte 64) (s : State) : (installQt t e s).br = s.br := rfl
@[simp] theorem installQt_pred (t : BitVec 2) (e : Vector Byte 64) (s : State) : (installQt t e s).pred = s.pred := rfl
@[simp] theorem installQt_pstate (t : BitVec 2) (e : Vector Byte 64) (s : State) : (installQt t e s).pstate = s.pstate := rfl
@[simp] theorem installQt_rstNext (t : BitVec 2) (e : Vector Byte 64) (s : State) : (installQt t e s).rstNext = s.rstNext := rfl
@[simp] theorem installQt_frmDim (t : BitVec 2) (e : Vector Byte 64) (s : State) : (installQt t e s).frmDim = s.frmDim := rfl
@[simp] theorem installQt_frmInfo (t : BitVec 2) (e : Vector Byte 64) (s : State) : (installQt t e s).frmInfo = s.frmInfo := rfl
@[simp] theorem installQt_qvalid (t : BitVec 2) (e : Vector Byte 64) (s : State) : (installQt t e s).qvalid = s.qvalid.set t.toNat true t.isLt := rfl
@[simp] theorem installQt_hvalid (t : BitVec 2) (e : Vector Byte 64) (s : State) : (installQt t e s).hvalid = s.hvalid := rfl
@[simp] theorem installQt_qt (t : BitVec 2) (e : Vector Byte 64) (s : State) : (installQt t e s).qt = s.qt.set t.toNat e t.isLt := rfl
@[simp] theorem installQt_rq (t : BitVec 2) (e : Vector Byte 64) (s : State) : (installQt t e s).rq = s.rq.set t.toNat (Vector.ofFn fun i : Fin 64 => reciprocal e[i]) t.isLt := rfl
@[simp] theorem installQt_blk (t : BitVec 2) (e : Vector Byte 64) (s : State) : (installQt t e s).blk = s.blk := rfl
@[simp] theorem installQt_ht (t : BitVec 2) (e : Vector Byte 64) (s : State) : (installQt t e s).ht = s.ht := rfl
@[simp] theorem installQt_mem (t : BitVec 2) (e : Vector Byte 64) (s : State) : (installQt t e s).mem = s.mem := rfl
@[simp] theorem installQt_memBytes (t : BitVec 2) (e : Vector Byte 64) (s : State) : (installQt t e s).memBytes = s.memBytes := rfl
@[simp] theorem installQt_undef (t : BitVec 2) (e : Vector Byte 64) (s : State) : (installQt t e s).undef = s.undef := rfl
@[simp] theorem installQt_draws (t : BitVec 2) (e : Vector Byte 64) (s : State) : (installQt t e s).draws = s.draws := rfl
@[simp] theorem installQt_hostData (t : BitVec 2) (e : Vector Byte 64) (s : State) : (installQt t e s).hostData = s.hostData := rfl
@[simp] theorem installQt_agenda (t : BitVec 2) (e : Vector Byte 64) (s : State) : (installQt t e s).agenda = s.agenda := rfl

/-! ### installHt -/

@[simp] theorem installHt_ie (tc th : BitVec 1) (t : HuffTable) (s : State) : (installHt tc th t s).ie = s.ie := rfl
@[simp] theorem installHt_status (tc th : BitVec 1) (t : HuffTable) (s : State) : (installHt tc th t s).status = s.status := rfl
@[simp] theorem installHt_cmdL (tc th : BitVec 1) (t : HuffTable) (s : State) : (installHt tc th t s).cmdL = s.cmdL := rfl
@[simp] theorem installHt_argL (tc th : BitVec 1) (t : HuffTable) (s : State) : (installHt tc th t s).argL = s.argL := rfl
@[simp] theorem installHt_arg (tc th : BitVec 1) (t : HuffTable) (s : State) : (installHt tc th t s).arg = s.arg := rfl
@[simp] theorem installHt_res0 (tc th : BitVec 1) (t : HuffTable) (s : State) : (installHt tc th t s).res0 = s.res0 := rfl
@[simp] theorem installHt_res1 (tc th : BitVec 1) (t : HuffTable) (s : State) : (installHt tc th t s).res1 = s.res1 := rfl
@[simp] theorem installHt_prevDim (tc th : BitVec 1) (t : HuffTable) (s : State) : (installHt tc th t s).prevDim = s.prevDim := rfl
@[simp] theorem installHt_dri (tc th : BitVec 1) (t : HuffTable) (s : State) : (installHt tc th t s).dri = s.dri := rfl
@[simp] theorem installHt_bw (tc th : BitVec 1) (t : HuffTable) (s : State) : (installHt tc th t s).bw = s.bw := rfl
@[simp] theorem installHt_br (tc th : BitVec 1) (t : HuffTable) (s : State) : (installHt tc th t s).br = s.br := rfl
@[simp] theorem installHt_pred (tc th : BitVec 1) (t : HuffTable) (s : State) : (installHt tc th t s).pred = s.pred := rfl
@[simp] theorem installHt_pstate (tc th : BitVec 1) (t : HuffTable) (s : State) : (installHt tc th t s).pstate = s.pstate := rfl
@[simp] theorem installHt_rstNext (tc th : BitVec 1) (t : HuffTable) (s : State) : (installHt tc th t s).rstNext = s.rstNext := rfl
@[simp] theorem installHt_frmDim (tc th : BitVec 1) (t : HuffTable) (s : State) : (installHt tc th t s).frmDim = s.frmDim := rfl
@[simp] theorem installHt_frmInfo (tc th : BitVec 1) (t : HuffTable) (s : State) : (installHt tc th t s).frmInfo = s.frmInfo := rfl
@[simp] theorem installHt_qvalid (tc th : BitVec 1) (t : HuffTable) (s : State) : (installHt tc th t s).qvalid = s.qvalid := rfl
@[simp] theorem installHt_hvalid (tc th : BitVec 1) (t : HuffTable) (s : State) : (installHt tc th t s).hvalid = s.hvalid.set (htIndex tc th).val true (htIndex tc th).isLt := rfl
@[simp] theorem installHt_qt (tc th : BitVec 1) (t : HuffTable) (s : State) : (installHt tc th t s).qt = s.qt := rfl
@[simp] theorem installHt_rq (tc th : BitVec 1) (t : HuffTable) (s : State) : (installHt tc th t s).rq = s.rq := rfl
@[simp] theorem installHt_blk (tc th : BitVec 1) (t : HuffTable) (s : State) : (installHt tc th t s).blk = s.blk := rfl
@[simp] theorem installHt_ht (tc th : BitVec 1) (t : HuffTable) (s : State) : (installHt tc th t s).ht = s.ht.set (htIndex tc th).val t (htIndex tc th).isLt := rfl
@[simp] theorem installHt_mem (tc th : BitVec 1) (t : HuffTable) (s : State) : (installHt tc th t s).mem = s.mem := rfl
@[simp] theorem installHt_memBytes (tc th : BitVec 1) (t : HuffTable) (s : State) : (installHt tc th t s).memBytes = s.memBytes := rfl
@[simp] theorem installHt_undef (tc th : BitVec 1) (t : HuffTable) (s : State) : (installHt tc th t s).undef = s.undef := rfl
@[simp] theorem installHt_draws (tc th : BitVec 1) (t : HuffTable) (s : State) : (installHt tc th t s).draws = s.draws := rfl
@[simp] theorem installHt_hostData (tc th : BitVec 1) (t : HuffTable) (s : State) : (installHt tc th t s).hostData = s.hostData := rfl
@[simp] theorem installHt_agenda (tc th : BitVec 1) (t : HuffTable) (s : State) : (installHt tc th t s).agenda = s.agenda := rfl

/-! ### setPending -/

@[simp] theorem setPending_ie (acc : Byte) (cnt : BitVec 3) (s : State) : (setPending acc cnt s).ie = s.ie := rfl
@[simp] theorem setPending_status (acc : Byte) (cnt : BitVec 3) (s : State) : (setPending acc cnt s).status = s.status := rfl
@[simp] theorem setPending_cmdL (acc : Byte) (cnt : BitVec 3) (s : State) : (setPending acc cnt s).cmdL = s.cmdL := rfl
@[simp] theorem setPending_argL (acc : Byte) (cnt : BitVec 3) (s : State) : (setPending acc cnt s).argL = s.argL := rfl
@[simp] theorem setPending_arg (acc : Byte) (cnt : BitVec 3) (s : State) : (setPending acc cnt s).arg = s.arg := rfl
@[simp] theorem setPending_res0 (acc : Byte) (cnt : BitVec 3) (s : State) : (setPending acc cnt s).res0 = s.res0 := rfl
@[simp] theorem setPending_res1 (acc : Byte) (cnt : BitVec 3) (s : State) : (setPending acc cnt s).res1 = s.res1 := rfl
@[simp] theorem setPending_prevDim (acc : Byte) (cnt : BitVec 3) (s : State) : (setPending acc cnt s).prevDim = s.prevDim := rfl
@[simp] theorem setPending_dri (acc : Byte) (cnt : BitVec 3) (s : State) : (setPending acc cnt s).dri = s.dri := rfl
@[simp] theorem setPending_bw (acc : Byte) (cnt : BitVec 3) (s : State) : (setPending acc cnt s).bw = { s.bw with acc := acc, cnt := cnt } := rfl
@[simp] theorem setPending_br (acc : Byte) (cnt : BitVec 3) (s : State) : (setPending acc cnt s).br = s.br := rfl
@[simp] theorem setPending_pred (acc : Byte) (cnt : BitVec 3) (s : State) : (setPending acc cnt s).pred = s.pred := rfl
@[simp] theorem setPending_pstate (acc : Byte) (cnt : BitVec 3) (s : State) : (setPending acc cnt s).pstate = s.pstate := rfl
@[simp] theorem setPending_rstNext (acc : Byte) (cnt : BitVec 3) (s : State) : (setPending acc cnt s).rstNext = s.rstNext := rfl
@[simp] theorem setPending_frmDim (acc : Byte) (cnt : BitVec 3) (s : State) : (setPending acc cnt s).frmDim = s.frmDim := rfl
@[simp] theorem setPending_frmInfo (acc : Byte) (cnt : BitVec 3) (s : State) : (setPending acc cnt s).frmInfo = s.frmInfo := rfl
@[simp] theorem setPending_qvalid (acc : Byte) (cnt : BitVec 3) (s : State) : (setPending acc cnt s).qvalid = s.qvalid := rfl
@[simp] theorem setPending_hvalid (acc : Byte) (cnt : BitVec 3) (s : State) : (setPending acc cnt s).hvalid = s.hvalid := rfl
@[simp] theorem setPending_qt (acc : Byte) (cnt : BitVec 3) (s : State) : (setPending acc cnt s).qt = s.qt := rfl
@[simp] theorem setPending_rq (acc : Byte) (cnt : BitVec 3) (s : State) : (setPending acc cnt s).rq = s.rq := rfl
@[simp] theorem setPending_blk (acc : Byte) (cnt : BitVec 3) (s : State) : (setPending acc cnt s).blk = s.blk := rfl
@[simp] theorem setPending_ht (acc : Byte) (cnt : BitVec 3) (s : State) : (setPending acc cnt s).ht = s.ht := rfl
@[simp] theorem setPending_mem (acc : Byte) (cnt : BitVec 3) (s : State) : (setPending acc cnt s).mem = s.mem := rfl
@[simp] theorem setPending_memBytes (acc : Byte) (cnt : BitVec 3) (s : State) : (setPending acc cnt s).memBytes = s.memBytes := rfl
@[simp] theorem setPending_undef (acc : Byte) (cnt : BitVec 3) (s : State) : (setPending acc cnt s).undef = s.undef := rfl
@[simp] theorem setPending_draws (acc : Byte) (cnt : BitVec 3) (s : State) : (setPending acc cnt s).draws = s.draws := rfl
@[simp] theorem setPending_hostData (acc : Byte) (cnt : BitVec 3) (s : State) : (setPending acc cnt s).hostData = s.hostData := rfl
@[simp] theorem setPending_agenda (acc : Byte) (cnt : BitVec 3) (s : State) : (setPending acc cnt s).agenda = s.agenda := rfl

/-! ### loadCurrent -/

@[simp] theorem loadCurrent_ie (c : Byte) (n : Word) (s : State) : (loadCurrent c n s).ie = s.ie := rfl
@[simp] theorem loadCurrent_status (c : Byte) (n : Word) (s : State) : (loadCurrent c n s).status = s.status := rfl
@[simp] theorem loadCurrent_cmdL (c : Byte) (n : Word) (s : State) : (loadCurrent c n s).cmdL = s.cmdL := rfl
@[simp] theorem loadCurrent_argL (c : Byte) (n : Word) (s : State) : (loadCurrent c n s).argL = s.argL := rfl
@[simp] theorem loadCurrent_arg (c : Byte) (n : Word) (s : State) : (loadCurrent c n s).arg = s.arg := rfl
@[simp] theorem loadCurrent_res0 (c : Byte) (n : Word) (s : State) : (loadCurrent c n s).res0 = s.res0 := rfl
@[simp] theorem loadCurrent_res1 (c : Byte) (n : Word) (s : State) : (loadCurrent c n s).res1 = s.res1 := rfl
@[simp] theorem loadCurrent_prevDim (c : Byte) (n : Word) (s : State) : (loadCurrent c n s).prevDim = s.prevDim := rfl
@[simp] theorem loadCurrent_dri (c : Byte) (n : Word) (s : State) : (loadCurrent c n s).dri = s.dri := rfl
@[simp] theorem loadCurrent_bw (c : Byte) (n : Word) (s : State) : (loadCurrent c n s).bw = s.bw := rfl
@[simp] theorem loadCurrent_br (c : Byte) (n : Word) (s : State) : (loadCurrent c n s).br = { s.br with cur := c, cnt := 8#4, ptr := s.br.ptr + n } := rfl
@[simp] theorem loadCurrent_pred (c : Byte) (n : Word) (s : State) : (loadCurrent c n s).pred = s.pred := rfl
@[simp] theorem loadCurrent_pstate (c : Byte) (n : Word) (s : State) : (loadCurrent c n s).pstate = s.pstate := rfl
@[simp] theorem loadCurrent_rstNext (c : Byte) (n : Word) (s : State) : (loadCurrent c n s).rstNext = s.rstNext := rfl
@[simp] theorem loadCurrent_frmDim (c : Byte) (n : Word) (s : State) : (loadCurrent c n s).frmDim = s.frmDim := rfl
@[simp] theorem loadCurrent_frmInfo (c : Byte) (n : Word) (s : State) : (loadCurrent c n s).frmInfo = s.frmInfo := rfl
@[simp] theorem loadCurrent_qvalid (c : Byte) (n : Word) (s : State) : (loadCurrent c n s).qvalid = s.qvalid := rfl
@[simp] theorem loadCurrent_hvalid (c : Byte) (n : Word) (s : State) : (loadCurrent c n s).hvalid = s.hvalid := rfl
@[simp] theorem loadCurrent_qt (c : Byte) (n : Word) (s : State) : (loadCurrent c n s).qt = s.qt := rfl
@[simp] theorem loadCurrent_rq (c : Byte) (n : Word) (s : State) : (loadCurrent c n s).rq = s.rq := rfl
@[simp] theorem loadCurrent_blk (c : Byte) (n : Word) (s : State) : (loadCurrent c n s).blk = s.blk := rfl
@[simp] theorem loadCurrent_ht (c : Byte) (n : Word) (s : State) : (loadCurrent c n s).ht = s.ht := rfl
@[simp] theorem loadCurrent_mem (c : Byte) (n : Word) (s : State) : (loadCurrent c n s).mem = s.mem := rfl
@[simp] theorem loadCurrent_memBytes (c : Byte) (n : Word) (s : State) : (loadCurrent c n s).memBytes = s.memBytes := rfl
@[simp] theorem loadCurrent_undef (c : Byte) (n : Word) (s : State) : (loadCurrent c n s).undef = s.undef := rfl
@[simp] theorem loadCurrent_draws (c : Byte) (n : Word) (s : State) : (loadCurrent c n s).draws = s.draws := rfl
@[simp] theorem loadCurrent_hostData (c : Byte) (n : Word) (s : State) : (loadCurrent c n s).hostData = s.hostData := rfl
@[simp] theorem loadCurrent_agenda (c : Byte) (n : Word) (s : State) : (loadCurrent c n s).agenda = s.agenda := rfl

/-! ### setMark -/

@[simp] theorem setMark_ie (s : State) : (setMark s).ie = s.ie := rfl
@[simp] theorem setMark_status (s : State) : (setMark s).status = s.status := rfl
@[simp] theorem setMark_cmdL (s : State) : (setMark s).cmdL = s.cmdL := rfl
@[simp] theorem setMark_argL (s : State) : (setMark s).argL = s.argL := rfl
@[simp] theorem setMark_arg (s : State) : (setMark s).arg = s.arg := rfl
@[simp] theorem setMark_res0 (s : State) : (setMark s).res0 = s.res0 := rfl
@[simp] theorem setMark_res1 (s : State) : (setMark s).res1 = s.res1 := rfl
@[simp] theorem setMark_prevDim (s : State) : (setMark s).prevDim = s.prevDim := rfl
@[simp] theorem setMark_dri (s : State) : (setMark s).dri = s.dri := rfl
@[simp] theorem setMark_bw (s : State) : (setMark s).bw = s.bw := rfl
@[simp] theorem setMark_br (s : State) : (setMark s).br = { s.br with mark := true } := rfl
@[simp] theorem setMark_pred (s : State) : (setMark s).pred = s.pred := rfl
@[simp] theorem setMark_pstate (s : State) : (setMark s).pstate = s.pstate := rfl
@[simp] theorem setMark_rstNext (s : State) : (setMark s).rstNext = s.rstNext := rfl
@[simp] theorem setMark_frmDim (s : State) : (setMark s).frmDim = s.frmDim := rfl
@[simp] theorem setMark_frmInfo (s : State) : (setMark s).frmInfo = s.frmInfo := rfl
@[simp] theorem setMark_qvalid (s : State) : (setMark s).qvalid = s.qvalid := rfl
@[simp] theorem setMark_hvalid (s : State) : (setMark s).hvalid = s.hvalid := rfl
@[simp] theorem setMark_qt (s : State) : (setMark s).qt = s.qt := rfl
@[simp] theorem setMark_rq (s : State) : (setMark s).rq = s.rq := rfl
@[simp] theorem setMark_blk (s : State) : (setMark s).blk = s.blk := rfl
@[simp] theorem setMark_ht (s : State) : (setMark s).ht = s.ht := rfl
@[simp] theorem setMark_mem (s : State) : (setMark s).mem = s.mem := rfl
@[simp] theorem setMark_memBytes (s : State) : (setMark s).memBytes = s.memBytes := rfl
@[simp] theorem setMark_undef (s : State) : (setMark s).undef = s.undef := rfl
@[simp] theorem setMark_draws (s : State) : (setMark s).draws = s.draws := rfl
@[simp] theorem setMark_hostData (s : State) : (setMark s).hostData = s.hostData := rfl
@[simp] theorem setMark_agenda (s : State) : (setMark s).agenda = s.agenda := rfl

/-! ### setCount -/

@[simp] theorem setCount_ie (c : BitVec 4) (s : State) : (setCount c s).ie = s.ie := rfl
@[simp] theorem setCount_status (c : BitVec 4) (s : State) : (setCount c s).status = s.status := rfl
@[simp] theorem setCount_cmdL (c : BitVec 4) (s : State) : (setCount c s).cmdL = s.cmdL := rfl
@[simp] theorem setCount_argL (c : BitVec 4) (s : State) : (setCount c s).argL = s.argL := rfl
@[simp] theorem setCount_arg (c : BitVec 4) (s : State) : (setCount c s).arg = s.arg := rfl
@[simp] theorem setCount_res0 (c : BitVec 4) (s : State) : (setCount c s).res0 = s.res0 := rfl
@[simp] theorem setCount_res1 (c : BitVec 4) (s : State) : (setCount c s).res1 = s.res1 := rfl
@[simp] theorem setCount_prevDim (c : BitVec 4) (s : State) : (setCount c s).prevDim = s.prevDim := rfl
@[simp] theorem setCount_dri (c : BitVec 4) (s : State) : (setCount c s).dri = s.dri := rfl
@[simp] theorem setCount_bw (c : BitVec 4) (s : State) : (setCount c s).bw = s.bw := rfl
@[simp] theorem setCount_br (c : BitVec 4) (s : State) : (setCount c s).br = { s.br with cnt := c } := rfl
@[simp] theorem setCount_pred (c : BitVec 4) (s : State) : (setCount c s).pred = s.pred := rfl
@[simp] theorem setCount_pstate (c : BitVec 4) (s : State) : (setCount c s).pstate = s.pstate := rfl
@[simp] theorem setCount_rstNext (c : BitVec 4) (s : State) : (setCount c s).rstNext = s.rstNext := rfl
@[simp] theorem setCount_frmDim (c : BitVec 4) (s : State) : (setCount c s).frmDim = s.frmDim := rfl
@[simp] theorem setCount_frmInfo (c : BitVec 4) (s : State) : (setCount c s).frmInfo = s.frmInfo := rfl
@[simp] theorem setCount_qvalid (c : BitVec 4) (s : State) : (setCount c s).qvalid = s.qvalid := rfl
@[simp] theorem setCount_hvalid (c : BitVec 4) (s : State) : (setCount c s).hvalid = s.hvalid := rfl
@[simp] theorem setCount_qt (c : BitVec 4) (s : State) : (setCount c s).qt = s.qt := rfl
@[simp] theorem setCount_rq (c : BitVec 4) (s : State) : (setCount c s).rq = s.rq := rfl
@[simp] theorem setCount_blk (c : BitVec 4) (s : State) : (setCount c s).blk = s.blk := rfl
@[simp] theorem setCount_ht (c : BitVec 4) (s : State) : (setCount c s).ht = s.ht := rfl
@[simp] theorem setCount_mem (c : BitVec 4) (s : State) : (setCount c s).mem = s.mem := rfl
@[simp] theorem setCount_memBytes (c : BitVec 4) (s : State) : (setCount c s).memBytes = s.memBytes := rfl
@[simp] theorem setCount_undef (c : BitVec 4) (s : State) : (setCount c s).undef = s.undef := rfl
@[simp] theorem setCount_draws (c : BitVec 4) (s : State) : (setCount c s).draws = s.draws := rfl
@[simp] theorem setCount_hostData (c : BitVec 4) (s : State) : (setCount c s).hostData = s.hostData := rfl
@[simp] theorem setCount_agenda (c : BitVec 4) (s : State) : (setCount c s).agenda = s.agenda := rfl

/-! ### advanceReader -/

@[simp] theorem advanceReader_ie (n : Nat) (s : State) : (advanceReader n s).ie = s.ie := rfl
@[simp] theorem advanceReader_status (n : Nat) (s : State) : (advanceReader n s).status = s.status := rfl
@[simp] theorem advanceReader_cmdL (n : Nat) (s : State) : (advanceReader n s).cmdL = s.cmdL := rfl
@[simp] theorem advanceReader_argL (n : Nat) (s : State) : (advanceReader n s).argL = s.argL := rfl
@[simp] theorem advanceReader_arg (n : Nat) (s : State) : (advanceReader n s).arg = s.arg := rfl
@[simp] theorem advanceReader_res0 (n : Nat) (s : State) : (advanceReader n s).res0 = s.res0 := rfl
@[simp] theorem advanceReader_res1 (n : Nat) (s : State) : (advanceReader n s).res1 = s.res1 := rfl
@[simp] theorem advanceReader_prevDim (n : Nat) (s : State) : (advanceReader n s).prevDim = s.prevDim := rfl
@[simp] theorem advanceReader_dri (n : Nat) (s : State) : (advanceReader n s).dri = s.dri := rfl
@[simp] theorem advanceReader_bw (n : Nat) (s : State) : (advanceReader n s).bw = s.bw := rfl
@[simp] theorem advanceReader_br (n : Nat) (s : State) : (advanceReader n s).br = { s.br with ptr := s.br.ptr + BitVec.ofNat 32 n } := rfl
@[simp] theorem advanceReader_pred (n : Nat) (s : State) : (advanceReader n s).pred = s.pred := rfl
@[simp] theorem advanceReader_pstate (n : Nat) (s : State) : (advanceReader n s).pstate = s.pstate := rfl
@[simp] theorem advanceReader_rstNext (n : Nat) (s : State) : (advanceReader n s).rstNext = s.rstNext := rfl
@[simp] theorem advanceReader_frmDim (n : Nat) (s : State) : (advanceReader n s).frmDim = s.frmDim := rfl
@[simp] theorem advanceReader_frmInfo (n : Nat) (s : State) : (advanceReader n s).frmInfo = s.frmInfo := rfl
@[simp] theorem advanceReader_qvalid (n : Nat) (s : State) : (advanceReader n s).qvalid = s.qvalid := rfl
@[simp] theorem advanceReader_hvalid (n : Nat) (s : State) : (advanceReader n s).hvalid = s.hvalid := rfl
@[simp] theorem advanceReader_qt (n : Nat) (s : State) : (advanceReader n s).qt = s.qt := rfl
@[simp] theorem advanceReader_rq (n : Nat) (s : State) : (advanceReader n s).rq = s.rq := rfl
@[simp] theorem advanceReader_blk (n : Nat) (s : State) : (advanceReader n s).blk = s.blk := rfl
@[simp] theorem advanceReader_ht (n : Nat) (s : State) : (advanceReader n s).ht = s.ht := rfl
@[simp] theorem advanceReader_mem (n : Nat) (s : State) : (advanceReader n s).mem = s.mem := rfl
@[simp] theorem advanceReader_memBytes (n : Nat) (s : State) : (advanceReader n s).memBytes = s.memBytes := rfl
@[simp] theorem advanceReader_undef (n : Nat) (s : State) : (advanceReader n s).undef = s.undef := rfl
@[simp] theorem advanceReader_draws (n : Nat) (s : State) : (advanceReader n s).draws = s.draws := rfl
@[simp] theorem advanceReader_hostData (n : Nat) (s : State) : (advanceReader n s).hostData = s.hostData := rfl
@[simp] theorem advanceReader_agenda (n : Nat) (s : State) : (advanceReader n s).agenda = s.agenda := rfl

/-! ### dropPadding -/

@[simp] theorem dropPadding_ie (s : State) : (dropPadding s).ie = s.ie := rfl
@[simp] theorem dropPadding_status (s : State) : (dropPadding s).status = s.status := rfl
@[simp] theorem dropPadding_cmdL (s : State) : (dropPadding s).cmdL = s.cmdL := rfl
@[simp] theorem dropPadding_argL (s : State) : (dropPadding s).argL = s.argL := rfl
@[simp] theorem dropPadding_arg (s : State) : (dropPadding s).arg = s.arg := rfl
@[simp] theorem dropPadding_res0 (s : State) : (dropPadding s).res0 = s.res0 := rfl
@[simp] theorem dropPadding_res1 (s : State) : (dropPadding s).res1 = s.res1 := rfl
@[simp] theorem dropPadding_prevDim (s : State) : (dropPadding s).prevDim = s.prevDim := rfl
@[simp] theorem dropPadding_dri (s : State) : (dropPadding s).dri = s.dri := rfl
@[simp] theorem dropPadding_bw (s : State) : (dropPadding s).bw = s.bw := rfl
@[simp] theorem dropPadding_br (s : State) : (dropPadding s).br = { s.br with cnt := 0#4, mark := false } := rfl
@[simp] theorem dropPadding_pred (s : State) : (dropPadding s).pred = s.pred := rfl
@[simp] theorem dropPadding_pstate (s : State) : (dropPadding s).pstate = s.pstate := rfl
@[simp] theorem dropPadding_rstNext (s : State) : (dropPadding s).rstNext = s.rstNext := rfl
@[simp] theorem dropPadding_frmDim (s : State) : (dropPadding s).frmDim = s.frmDim := rfl
@[simp] theorem dropPadding_frmInfo (s : State) : (dropPadding s).frmInfo = s.frmInfo := rfl
@[simp] theorem dropPadding_qvalid (s : State) : (dropPadding s).qvalid = s.qvalid := rfl
@[simp] theorem dropPadding_hvalid (s : State) : (dropPadding s).hvalid = s.hvalid := rfl
@[simp] theorem dropPadding_qt (s : State) : (dropPadding s).qt = s.qt := rfl
@[simp] theorem dropPadding_rq (s : State) : (dropPadding s).rq = s.rq := rfl
@[simp] theorem dropPadding_blk (s : State) : (dropPadding s).blk = s.blk := rfl
@[simp] theorem dropPadding_ht (s : State) : (dropPadding s).ht = s.ht := rfl
@[simp] theorem dropPadding_mem (s : State) : (dropPadding s).mem = s.mem := rfl
@[simp] theorem dropPadding_memBytes (s : State) : (dropPadding s).memBytes = s.memBytes := rfl
@[simp] theorem dropPadding_undef (s : State) : (dropPadding s).undef = s.undef := rfl
@[simp] theorem dropPadding_draws (s : State) : (dropPadding s).draws = s.draws := rfl
@[simp] theorem dropPadding_hostData (s : State) : (dropPadding s).hostData = s.hostData := rfl
@[simp] theorem dropPadding_agenda (s : State) : (dropPadding s).agenda = s.agenda := rfl

/-! ### clearTables -/

@[simp] theorem clearTables_ie (s : State) : (clearTables s).ie = s.ie := rfl
@[simp] theorem clearTables_status (s : State) : (clearTables s).status = s.status := rfl
@[simp] theorem clearTables_cmdL (s : State) : (clearTables s).cmdL = s.cmdL := rfl
@[simp] theorem clearTables_argL (s : State) : (clearTables s).argL = s.argL := rfl
@[simp] theorem clearTables_arg (s : State) : (clearTables s).arg = s.arg := rfl
@[simp] theorem clearTables_res0 (s : State) : (clearTables s).res0 = s.res0 := rfl
@[simp] theorem clearTables_res1 (s : State) : (clearTables s).res1 = s.res1 := rfl
@[simp] theorem clearTables_prevDim (s : State) : (clearTables s).prevDim = s.prevDim := rfl
@[simp] theorem clearTables_dri (s : State) : (clearTables s).dri = s.dri := rfl
@[simp] theorem clearTables_bw (s : State) : (clearTables s).bw = s.bw := rfl
@[simp] theorem clearTables_br (s : State) : (clearTables s).br = s.br := rfl
@[simp] theorem clearTables_pred (s : State) : (clearTables s).pred = s.pred := rfl
@[simp] theorem clearTables_pstate (s : State) : (clearTables s).pstate = s.pstate := rfl
@[simp] theorem clearTables_rstNext (s : State) : (clearTables s).rstNext = s.rstNext := rfl
@[simp] theorem clearTables_frmDim (s : State) : (clearTables s).frmDim = s.frmDim := rfl
@[simp] theorem clearTables_frmInfo (s : State) : (clearTables s).frmInfo = s.frmInfo := rfl
@[simp] theorem clearTables_qvalid (s : State) : (clearTables s).qvalid = Vector.replicate 4 false := rfl
@[simp] theorem clearTables_hvalid (s : State) : (clearTables s).hvalid = Vector.replicate 4 false := rfl
@[simp] theorem clearTables_qt (s : State) : (clearTables s).qt = s.qt := rfl
@[simp] theorem clearTables_rq (s : State) : (clearTables s).rq = s.rq := rfl
@[simp] theorem clearTables_blk (s : State) : (clearTables s).blk = s.blk := rfl
@[simp] theorem clearTables_ht (s : State) : (clearTables s).ht = s.ht := rfl
@[simp] theorem clearTables_mem (s : State) : (clearTables s).mem = s.mem := rfl
@[simp] theorem clearTables_memBytes (s : State) : (clearTables s).memBytes = s.memBytes := rfl
@[simp] theorem clearTables_undef (s : State) : (clearTables s).undef = s.undef := rfl
@[simp] theorem clearTables_draws (s : State) : (clearTables s).draws = s.draws := rfl
@[simp] theorem clearTables_hostData (s : State) : (clearTables s).hostData = s.hostData := rfl
@[simp] theorem clearTables_agenda (s : State) : (clearTables s).agenda = s.agenda := rfl

/-! ### acceptScan -/

@[simp] theorem acceptScan_ie (td ta : Vector (BitVec 1) 3) (s : State) : (acceptScan td ta s).ie = s.ie := rfl
@[simp] theorem acceptScan_status (td ta : Vector (BitVec 1) 3) (s : State) : (acceptScan td ta s).status = s.status := rfl
@[simp] theorem acceptScan_cmdL (td ta : Vector (BitVec 1) 3) (s : State) : (acceptScan td ta s).cmdL = s.cmdL := rfl
@[simp] theorem acceptScan_argL (td ta : Vector (BitVec 1) 3) (s : State) : (acceptScan td ta s).argL = s.argL := rfl
@[simp] theorem acceptScan_arg (td ta : Vector (BitVec 1) 3) (s : State) : (acceptScan td ta s).arg = s.arg := rfl
@[simp] theorem acceptScan_res0 (td ta : Vector (BitVec 1) 3) (s : State) : (acceptScan td ta s).res0 = s.res0 := rfl
@[simp] theorem acceptScan_res1 (td ta : Vector (BitVec 1) 3) (s : State) : (acceptScan td ta s).res1 = s.res1 := rfl
@[simp] theorem acceptScan_prevDim (td ta : Vector (BitVec 1) 3) (s : State) : (acceptScan td ta s).prevDim = s.prevDim := rfl
@[simp] theorem acceptScan_dri (td ta : Vector (BitVec 1) 3) (s : State) : (acceptScan td ta s).dri = s.dri := rfl
@[simp] theorem acceptScan_bw (td ta : Vector (BitVec 1) 3) (s : State) : (acceptScan td ta s).bw = s.bw := rfl
@[simp] theorem acceptScan_br (td ta : Vector (BitVec 1) 3) (s : State) : (acceptScan td ta s).br = { s.br with cnt := 0#4, mark := false } := rfl
@[simp] theorem acceptScan_pred (td ta : Vector (BitVec 1) 3) (s : State) : (acceptScan td ta s).pred = s.pred := rfl
@[simp] theorem acceptScan_pstate (td ta : Vector (BitVec 1) 3) (s : State) : (acceptScan td ta s).pstate = s.pstate := rfl
@[simp] theorem acceptScan_rstNext (td ta : Vector (BitVec 1) 3) (s : State) : (acceptScan td ta s).rstNext = 0#3 := rfl
@[simp] theorem acceptScan_frmDim (td ta : Vector (BitVec 1) 3) (s : State) : (acceptScan td ta s).frmDim = s.frmDim := rfl
@[simp] theorem acceptScan_frmInfo (td ta : Vector (BitVec 1) 3) (s : State) : (acceptScan td ta s).frmInfo = { s.frmInfo with td := td, ta := ta } := rfl
@[simp] theorem acceptScan_qvalid (td ta : Vector (BitVec 1) 3) (s : State) : (acceptScan td ta s).qvalid = s.qvalid := rfl
@[simp] theorem acceptScan_hvalid (td ta : Vector (BitVec 1) 3) (s : State) : (acceptScan td ta s).hvalid = s.hvalid := rfl
@[simp] theorem acceptScan_qt (td ta : Vector (BitVec 1) 3) (s : State) : (acceptScan td ta s).qt = s.qt := rfl
@[simp] theorem acceptScan_rq (td ta : Vector (BitVec 1) 3) (s : State) : (acceptScan td ta s).rq = s.rq := rfl
@[simp] theorem acceptScan_blk (td ta : Vector (BitVec 1) 3) (s : State) : (acceptScan td ta s).blk = s.blk := rfl
@[simp] theorem acceptScan_ht (td ta : Vector (BitVec 1) 3) (s : State) : (acceptScan td ta s).ht = s.ht := rfl
@[simp] theorem acceptScan_mem (td ta : Vector (BitVec 1) 3) (s : State) : (acceptScan td ta s).mem = s.mem := rfl
@[simp] theorem acceptScan_memBytes (td ta : Vector (BitVec 1) 3) (s : State) : (acceptScan td ta s).memBytes = s.memBytes := rfl
@[simp] theorem acceptScan_undef (td ta : Vector (BitVec 1) 3) (s : State) : (acceptScan td ta s).undef = s.undef := rfl
@[simp] theorem acceptScan_draws (td ta : Vector (BitVec 1) 3) (s : State) : (acceptScan td ta s).draws = s.draws := rfl
@[simp] theorem acceptScan_hostData (td ta : Vector (BitVec 1) 3) (s : State) : (acceptScan td ta s).hostData = s.hostData := rfl
@[simp] theorem acceptScan_agenda (td ta : Vector (BitVec 1) 3) (s : State) : (acceptScan td ta s).agenda = s.agenda := rfl

/-! ### acceptFrame -/

@[simp] theorem acceptFrame_ie (w h : Nat) (ss : BitVec 2) (tq : Vector (BitVec 2) 3) (s : State) : (acceptFrame w h ss tq s).ie = s.ie := rfl
@[simp] theorem acceptFrame_status (w h : Nat) (ss : BitVec 2) (tq : Vector (BitVec 2) 3) (s : State) : (acceptFrame w h ss tq s).status = s.status := rfl
@[simp] theorem acceptFrame_cmdL (w h : Nat) (ss : BitVec 2) (tq : Vector (BitVec 2) 3) (s : State) : (acceptFrame w h ss tq s).cmdL = s.cmdL := rfl
@[simp] theorem acceptFrame_argL (w h : Nat) (ss : BitVec 2) (tq : Vector (BitVec 2) 3) (s : State) : (acceptFrame w h ss tq s).argL = s.argL := rfl
@[simp] theorem acceptFrame_arg (w h : Nat) (ss : BitVec 2) (tq : Vector (BitVec 2) 3) (s : State) : (acceptFrame w h ss tq s).arg = s.arg := rfl
@[simp] theorem acceptFrame_res0 (w h : Nat) (ss : BitVec 2) (tq : Vector (BitVec 2) 3) (s : State) : (acceptFrame w h ss tq s).res0 = s.res0 := rfl
@[simp] theorem acceptFrame_res1 (w h : Nat) (ss : BitVec 2) (tq : Vector (BitVec 2) 3) (s : State) : (acceptFrame w h ss tq s).res1 = packHalves w h := rfl
@[simp] theorem acceptFrame_prevDim (w h : Nat) (ss : BitVec 2) (tq : Vector (BitVec 2) 3) (s : State) : (acceptFrame w h ss tq s).prevDim = s.prevDim := rfl
@[simp] theorem acceptFrame_dri (w h : Nat) (ss : BitVec 2) (tq : Vector (BitVec 2) 3) (s : State) : (acceptFrame w h ss tq s).dri = s.dri := rfl
@[simp] theorem acceptFrame_bw (w h : Nat) (ss : BitVec 2) (tq : Vector (BitVec 2) 3) (s : State) : (acceptFrame w h ss tq s).bw = s.bw := rfl
@[simp] theorem acceptFrame_br (w h : Nat) (ss : BitVec 2) (tq : Vector (BitVec 2) 3) (s : State) : (acceptFrame w h ss tq s).br = s.br := rfl
@[simp] theorem acceptFrame_pred (w h : Nat) (ss : BitVec 2) (tq : Vector (BitVec 2) 3) (s : State) : (acceptFrame w h ss tq s).pred = s.pred := rfl
@[simp] theorem acceptFrame_pstate (w h : Nat) (ss : BitVec 2) (tq : Vector (BitVec 2) 3) (s : State) : (acceptFrame w h ss tq s).pstate = s.pstate := rfl
@[simp] theorem acceptFrame_rstNext (w h : Nat) (ss : BitVec 2) (tq : Vector (BitVec 2) 3) (s : State) : (acceptFrame w h ss tq s).rstNext = s.rstNext := rfl
@[simp] theorem acceptFrame_frmDim (w h : Nat) (ss : BitVec 2) (tq : Vector (BitVec 2) 3) (s : State) : (acceptFrame w h ss tq s).frmDim = packHalves w h := rfl
@[simp] theorem acceptFrame_frmInfo (w h : Nat) (ss : BitVec 2) (tq : Vector (BitVec 2) 3) (s : State) : (acceptFrame w h ss tq s).frmInfo = { s.frmInfo with ss := ss, tq := tq } := rfl
@[simp] theorem acceptFrame_qvalid (w h : Nat) (ss : BitVec 2) (tq : Vector (BitVec 2) 3) (s : State) : (acceptFrame w h ss tq s).qvalid = s.qvalid := rfl
@[simp] theorem acceptFrame_hvalid (w h : Nat) (ss : BitVec 2) (tq : Vector (BitVec 2) 3) (s : State) : (acceptFrame w h ss tq s).hvalid = s.hvalid := rfl
@[simp] theorem acceptFrame_qt (w h : Nat) (ss : BitVec 2) (tq : Vector (BitVec 2) 3) (s : State) : (acceptFrame w h ss tq s).qt = s.qt := rfl
@[simp] theorem acceptFrame_rq (w h : Nat) (ss : BitVec 2) (tq : Vector (BitVec 2) 3) (s : State) : (acceptFrame w h ss tq s).rq = s.rq := rfl
@[simp] theorem acceptFrame_blk (w h : Nat) (ss : BitVec 2) (tq : Vector (BitVec 2) 3) (s : State) : (acceptFrame w h ss tq s).blk = s.blk := rfl
@[simp] theorem acceptFrame_ht (w h : Nat) (ss : BitVec 2) (tq : Vector (BitVec 2) 3) (s : State) : (acceptFrame w h ss tq s).ht = s.ht := rfl
@[simp] theorem acceptFrame_mem (w h : Nat) (ss : BitVec 2) (tq : Vector (BitVec 2) 3) (s : State) : (acceptFrame w h ss tq s).mem = s.mem := rfl
@[simp] theorem acceptFrame_memBytes (w h : Nat) (ss : BitVec 2) (tq : Vector (BitVec 2) 3) (s : State) : (acceptFrame w h ss tq s).memBytes = s.memBytes := rfl
@[simp] theorem acceptFrame_undef (w h : Nat) (ss : BitVec 2) (tq : Vector (BitVec 2) 3) (s : State) : (acceptFrame w h ss tq s).undef = s.undef := rfl
@[simp] theorem acceptFrame_draws (w h : Nat) (ss : BitVec 2) (tq : Vector (BitVec 2) 3) (s : State) : (acceptFrame w h ss tq s).draws = s.draws := rfl
@[simp] theorem acceptFrame_hostData (w h : Nat) (ss : BitVec 2) (tq : Vector (BitVec 2) 3) (s : State) : (acceptFrame w h ss tq s).hostData = s.hostData := rfl
@[simp] theorem acceptFrame_agenda (w h : Nat) (ss : BitVec 2) (tq : Vector (BitVec 2) 3) (s : State) : (acceptFrame w h ss tq s).agenda = s.agenda := rfl

/-! ### parseStart -/

@[simp] theorem parseStart_ie (s : State) : (parseStart s).ie = s.ie := rfl
@[simp] theorem parseStart_status (s : State) : (parseStart s).status = s.status := rfl
@[simp] theorem parseStart_cmdL (s : State) : (parseStart s).cmdL = s.cmdL := rfl
@[simp] theorem parseStart_argL (s : State) : (parseStart s).argL = s.argL := rfl
@[simp] theorem parseStart_arg (s : State) : (parseStart s).arg = s.arg := rfl
@[simp] theorem parseStart_res0 (s : State) : (parseStart s).res0 = 0#32 := rfl
@[simp] theorem parseStart_res1 (s : State) : (parseStart s).res1 = 0#32 := rfl
@[simp] theorem parseStart_prevDim (s : State) : (parseStart s).prevDim = s.prevDim := rfl
@[simp] theorem parseStart_dri (s : State) : (parseStart s).dri = 0#16 := rfl
@[simp] theorem parseStart_bw (s : State) : (parseStart s).bw = s.bw := rfl
@[simp] theorem parseStart_br (s : State) : (parseStart s).br = { s.br with cnt := 0#4, mark := false } := rfl
@[simp] theorem parseStart_pred (s : State) : (parseStart s).pred = s.pred := rfl
@[simp] theorem parseStart_pstate (s : State) : (parseStart s).pstate = .expectSoi := rfl
@[simp] theorem parseStart_rstNext (s : State) : (parseStart s).rstNext = 0#3 := rfl
@[simp] theorem parseStart_frmDim (s : State) : (parseStart s).frmDim = s.frmDim := rfl
@[simp] theorem parseStart_frmInfo (s : State) : (parseStart s).frmInfo = s.frmInfo := rfl
@[simp] theorem parseStart_qvalid (s : State) : (parseStart s).qvalid = s.qvalid := rfl
@[simp] theorem parseStart_hvalid (s : State) : (parseStart s).hvalid = s.hvalid := rfl
@[simp] theorem parseStart_qt (s : State) : (parseStart s).qt = s.qt := rfl
@[simp] theorem parseStart_rq (s : State) : (parseStart s).rq = s.rq := rfl
@[simp] theorem parseStart_blk (s : State) : (parseStart s).blk = s.blk := rfl
@[simp] theorem parseStart_ht (s : State) : (parseStart s).ht = s.ht := rfl
@[simp] theorem parseStart_mem (s : State) : (parseStart s).mem = s.mem := rfl
@[simp] theorem parseStart_memBytes (s : State) : (parseStart s).memBytes = s.memBytes := rfl
@[simp] theorem parseStart_undef (s : State) : (parseStart s).undef = s.undef := rfl
@[simp] theorem parseStart_draws (s : State) : (parseStart s).draws = s.draws := rfl
@[simp] theorem parseStart_hostData (s : State) : (parseStart s).hostData = s.hostData := rfl
@[simp] theorem parseStart_agenda (s : State) : (parseStart s).agenda = s.agenda := rfl

/-! ### decodeStart -/

@[simp] theorem decodeStart_ie (s : State) : (decodeStart s).ie = s.ie := rfl
@[simp] theorem decodeStart_status (s : State) : (decodeStart s).status = s.status := rfl
@[simp] theorem decodeStart_cmdL (s : State) : (decodeStart s).cmdL = s.cmdL := rfl
@[simp] theorem decodeStart_argL (s : State) : (decodeStart s).argL = s.argL := rfl
@[simp] theorem decodeStart_arg (s : State) : (decodeStart s).arg = s.arg := rfl
@[simp] theorem decodeStart_res0 (s : State) : (decodeStart s).res0 = 0#32 := rfl
@[simp] theorem decodeStart_res1 (s : State) : (decodeStart s).res1 = 0#32 := rfl
@[simp] theorem decodeStart_prevDim (s : State) : (decodeStart s).prevDim = s.prevDim := rfl
@[simp] theorem decodeStart_dri (s : State) : (decodeStart s).dri = s.dri := rfl
@[simp] theorem decodeStart_bw (s : State) : (decodeStart s).bw = s.bw := rfl
@[simp] theorem decodeStart_br (s : State) : (decodeStart s).br = s.br := rfl
@[simp] theorem decodeStart_pred (s : State) : (decodeStart s).pred = s.pred := rfl
@[simp] theorem decodeStart_pstate (s : State) : (decodeStart s).pstate = s.pstate := rfl
@[simp] theorem decodeStart_rstNext (s : State) : (decodeStart s).rstNext = s.rstNext := rfl
@[simp] theorem decodeStart_frmDim (s : State) : (decodeStart s).frmDim = s.frmDim := rfl
@[simp] theorem decodeStart_frmInfo (s : State) : (decodeStart s).frmInfo = s.frmInfo := rfl
@[simp] theorem decodeStart_qvalid (s : State) : (decodeStart s).qvalid = s.qvalid := rfl
@[simp] theorem decodeStart_hvalid (s : State) : (decodeStart s).hvalid = s.hvalid := rfl
@[simp] theorem decodeStart_qt (s : State) : (decodeStart s).qt = s.qt := rfl
@[simp] theorem decodeStart_rq (s : State) : (decodeStart s).rq = s.rq := rfl
@[simp] theorem decodeStart_blk (s : State) : (decodeStart s).blk = s.blk := rfl
@[simp] theorem decodeStart_ht (s : State) : (decodeStart s).ht = s.ht := rfl
@[simp] theorem decodeStart_mem (s : State) : (decodeStart s).mem = s.mem := rfl
@[simp] theorem decodeStart_memBytes (s : State) : (decodeStart s).memBytes = s.memBytes := rfl
@[simp] theorem decodeStart_undef (s : State) : (decodeStart s).undef = s.undef := rfl
@[simp] theorem decodeStart_draws (s : State) : (decodeStart s).draws = s.draws := rfl
@[simp] theorem decodeStart_hostData (s : State) : (decodeStart s).hostData = s.hostData := rfl
@[simp] theorem decodeStart_agenda (s : State) : (decodeStart s).agenda = s.agenda := rfl

/-! ### decodeDone -/

@[simp] theorem decodeDone_ie (s : State) : (decodeDone s).ie = s.ie := rfl
@[simp] theorem decodeDone_status (s : State) : (decodeDone s).status = s.status := rfl
@[simp] theorem decodeDone_cmdL (s : State) : (decodeDone s).cmdL = s.cmdL := rfl
@[simp] theorem decodeDone_argL (s : State) : (decodeDone s).argL = s.argL := rfl
@[simp] theorem decodeDone_arg (s : State) : (decodeDone s).arg = s.arg := rfl
@[simp] theorem decodeDone_res0 (s : State) : (decodeDone s).res0 = BitVec.ofNat 32 (3 * lowHalf s.frmDim * highHalf s.frmDim) := rfl
@[simp] theorem decodeDone_res1 (s : State) : (decodeDone s).res1 = s.res1 := rfl
@[simp] theorem decodeDone_prevDim (s : State) : (decodeDone s).prevDim = s.frmDim := rfl
@[simp] theorem decodeDone_dri (s : State) : (decodeDone s).dri = s.dri := rfl
@[simp] theorem decodeDone_bw (s : State) : (decodeDone s).bw = s.bw := rfl
@[simp] theorem decodeDone_br (s : State) : (decodeDone s).br = s.br := rfl
@[simp] theorem decodeDone_pred (s : State) : (decodeDone s).pred = s.pred := rfl
@[simp] theorem decodeDone_pstate (s : State) : (decodeDone s).pstate = s.pstate := rfl
@[simp] theorem decodeDone_rstNext (s : State) : (decodeDone s).rstNext = s.rstNext := rfl
@[simp] theorem decodeDone_frmDim (s : State) : (decodeDone s).frmDim = s.frmDim := rfl
@[simp] theorem decodeDone_frmInfo (s : State) : (decodeDone s).frmInfo = s.frmInfo := rfl
@[simp] theorem decodeDone_qvalid (s : State) : (decodeDone s).qvalid = s.qvalid := rfl
@[simp] theorem decodeDone_hvalid (s : State) : (decodeDone s).hvalid = s.hvalid := rfl
@[simp] theorem decodeDone_qt (s : State) : (decodeDone s).qt = s.qt := rfl
@[simp] theorem decodeDone_rq (s : State) : (decodeDone s).rq = s.rq := rfl
@[simp] theorem decodeDone_blk (s : State) : (decodeDone s).blk = s.blk := rfl
@[simp] theorem decodeDone_ht (s : State) : (decodeDone s).ht = s.ht := rfl
@[simp] theorem decodeDone_mem (s : State) : (decodeDone s).mem = s.mem := rfl
@[simp] theorem decodeDone_memBytes (s : State) : (decodeDone s).memBytes = s.memBytes := rfl
@[simp] theorem decodeDone_undef (s : State) : (decodeDone s).undef = s.undef := rfl
@[simp] theorem decodeDone_draws (s : State) : (decodeDone s).draws = s.draws := rfl
@[simp] theorem decodeDone_hostData (s : State) : (decodeDone s).hostData = s.hostData := rfl
@[simp] theorem decodeDone_agenda (s : State) : (decodeDone s).agenda = s.agenda := rfl

end Sys2Proof.Machine
end

