-- ==== Sys2Proof/Laws/Eng.lean ====
section
/-! SUPPORT. How a piece of a command ends. `Ends s x Q E` says that `x`, run from `s`, ends with a value and a state that
meet Q, or raises an error in a state that they meet E; `Keeps P x` says that P survives `x`, however it ends. One rule per
way a command is put together, so that later proofs never unfold the runner. -/

namespace Sys2Proof.Machine

/-- `x` from `s` ends well in Q or raises in E. -/
def Ends {α : Type} (s : State) (x : Eng α) (Q : α → State → Prop) (E : ErrCode → State → Prop) : Prop :=
  match x s with
  | .ok a t => Q a t
  | .error e t => E e t

/-- The state `x` leaves, with or without error. -/
def stateAfter {α : Type} : EStateM.Result ErrCode State α → State
  | .ok _ t => t
  | .error _ t => t

/-- P survives `x`, however it ends. -/
def Keeps {α : Type} (P : State → Prop) (x : Eng α) : Prop := ∀ s, P s → P (stateAfter (x s))

@[simp] theorem stateAfter_ok {α : Type} (a : α) (t : State) :
    stateAfter (.ok a t : EStateM.Result ErrCode State α) = t := rfl

@[simp] theorem stateAfter_error {α : Type} (e : ErrCode) (t : State) :
    stateAfter (.error e t : EStateM.Result ErrCode State α) = t := rfl

/-! ### Running the pieces -/

section Run
variable {α β : Type} (s : State)

@[simp] theorem run_pure (a : α) : (pure a : Eng α) s = .ok a s := rfl

theorem run_bind (x : Eng α) (f : α → Eng β) :
    (x >>= f) s = match x s with
      | .ok a t => f a t
      | .error e t => .error e t := by
  change EStateM.bind x f s = _
  unfold EStateM.bind
  cases x s <;> rfl

theorem run_bind_ok {x : Eng α} {f : α → Eng β} {a : α} {t : State} (h : x s = .ok a t) : (x >>= f) s = f a t := by
  rw [run_bind, h]

theorem run_bind_error {x : Eng α} {f : α → Eng β} {e : ErrCode} {t : State} (h : x s = .error e t) :
    (x >>= f) s = .error e t := by
  rw [run_bind, h]

@[simp] theorem run_get_bind (f : State → Eng α) : (get >>= f) s = f s s := rfl

@[simp] theorem run_raise (e : ErrCode) : (raise e : Eng α) s = .error e s := rfl

@[simp] theorem run_update (f : State → State) : update f s = .ok () (f s) := rfl

@[simp] theorem run_update_bind (f : State → State) (k : Unit → Eng α) : (update f >>= k) s = k () (f s) := rfl

/-- A piece that ends well ends every part well. -/
theorem ok_of_bind {x : Eng α} {f : α → Eng β} {b : β} {u : State} (h : (x >>= f) s = .ok b u) :
    ∃ a t, x s = .ok a t ∧ f a t = .ok b u := by
  rw [run_bind] at h
  cases hx : x s with
  | ok a t =>
    rw [hx] at h
    exact ⟨a, t, rfl, h⟩
  | error e t =>
    rw [hx] at h
    exact absurd h (by simp)

theorem run_check (ok : Bool) (e : ErrCode) : check ok e s = if ok then .ok () s else .error e s := rfl

theorem run_checkState (p : State → Bool) (e : ErrCode) :
    checkState p e s = if p s then .ok () s else .error e s := rfl

theorem run_check_bind (ok : Bool) (e : ErrCode) (k : Unit → Eng α) :
    (check ok e >>= k) s = if ok then k () s else .error e s := by
  rw [run_bind, run_check]
  cases ok <;> rfl

theorem run_checkState_bind (p : State → Bool) (e : ErrCode) (k : Unit → Eng α) :
    (checkState p e >>= k) s = if p s then k () s else .error e s := by
  rw [run_bind, run_checkState]
  cases p s <;> rfl

@[simp] theorem run_check_true (e : ErrCode) (k : Unit → Eng α) : (check true e >>= k) s = k () s := rfl

@[simp] theorem run_check_false (e : ErrCode) (k : Unit → Eng α) : (check false e >>= k) s = .error e s := rfl

theorem run_checkState_pass {p : State → Bool} (h : p s = true) (e : ErrCode) (k : Unit → Eng α) :
    (checkState p e >>= k) s = k () s := by
  rw [run_checkState_bind, h]
  rfl

theorem run_checkState_fail {p : State → Bool} (h : p s = false) (e : ErrCode) (k : Unit → Eng α) :
    (checkState p e >>= k) s = .error e s := by
  rw [run_checkState_bind, h]
  rfl

theorem run_forEach_nil (f : α → Eng Unit) : forEach [] f s = .ok () s := rfl

theorem run_forEach_cons (a : α) (as : List α) (f : α → Eng Unit) :
    forEach (a :: as) f s = (f a >>= fun _ => forEach as f) s := rfl

theorem run_onError (g : State → State) (x : Eng α) :
    onError g x s = match x s with
      | .ok a t => .ok a t
      | .error e t => .error e (g t) := rfl

theorem run_replaceError (e : ErrCode) (x : Eng α) :
    replaceError e x s = match x s with
      | .ok a t => .ok a t
      | .error _ t => .error e t := rfl

theorem run_memRead {a : Nat} (h : a < s.memBytes) : memRead a s = .ok (readByte s a) s := by
  simp [memRead, h]

theorem run_memRead_outside {a : Nat} (h : s.memBytes ≤ a) : memRead a s = .error .bounds s := by
  simp [memRead, Nat.not_lt.mpr h]

theorem run_memWrite {a : Nat} (v : Byte) (h : a < s.memBytes) : memWrite a v s = .ok () (writeByte a v s) := by
  simp [memWrite, h]

/-- Reading n bytes inside LMEM gives them and changes nothing. -/
theorem run_memReads (n a : Nat) (h : a + n ≤ s.memBytes) : memReads a n s = .ok (readBytes s a n) s := by
  induction n generalizing a with
  | zero => rfl
  | succ n ih =>
    rw [memReads, run_bind_ok s (run_memRead s (by omega)), run_bind_ok s (ih (a + 1) (by omega))]
    rfl

/-- Reading a big-endian field inside LMEM. -/
theorem run_memRead16 (a : Nat) (h : a + 1 < s.memBytes) :
    memRead16 a s = .ok ((readByte s a).toNat * 256 + (readByte s (a + 1)).toNat) s := by
  rw [memRead16, run_bind_ok s (run_memRead s (by omega)), run_bind_ok s (run_memRead s h)]
  rfl

theorem run_checkExtent (a n : Nat) (h : a + n ≤ s.memBytes) : checkExtent a n s = .ok () s := by
  simp [checkExtent, run_checkState, h]

theorem run_checkExtent_outside (a n : Nat) (h : s.memBytes < a + n) : checkExtent a n s = .error .bounds s := by
  simp [checkExtent, run_checkState, h]

end Run

/-! ### Keeping a property -/

section Keeps
variable {α β : Type} {P : State → Prop}

theorem Keeps.apply {x : Eng α} (h : Keeps P x) {s : State} (hs : P s) : P (stateAfter (x s)) := h s hs

@[simp] theorem keeps_pure (a : α) : Keeps P (pure a : Eng α) := fun _ h => h

@[simp] theorem keeps_raise (e : ErrCode) : Keeps P (raise e : Eng α) := fun _ h => h

@[simp] theorem keeps_get : Keeps P (get : Eng State) := fun _ h => h

@[simp] theorem keeps_update (f : State → State) : Keeps P (update f) ↔ ∀ s, P s → P (f s) := Iff.rfl

@[simp] theorem keeps_check (ok : Bool) (e : ErrCode) : Keeps P (check ok e) := by
  intro s h
  rw [run_check]
  cases ok <;> exact h

@[simp] theorem keeps_checkState (p : State → Bool) (e : ErrCode) : Keeps P (checkState p e) := by
  intro s h
  rw [run_checkState]
  cases p s <;> exact h

@[simp] theorem keeps_checkExtent (a n : Nat) : Keeps P (checkExtent a n) := keeps_checkState _ _

theorem keeps_bind {x : Eng α} {f : α → Eng β} (hx : Keeps P x) (hf : ∀ a, Keeps P (f a)) : Keeps P (x >>= f) := by
  intro s h
  have h1 := hx s h
  rw [run_bind]
  cases hr : x s with
  | ok a t =>
    rw [hr] at h1
    exact hf a t h1
  | error e t =>
    rw [hr] at h1
    exact h1

theorem keeps_seq {x : Eng Unit} {y : Eng β} (hx : Keeps P x) (hy : Keeps P y) : Keeps P (do x; y) :=
  keeps_bind hx fun _ => hy

/-- A read of the state first: the rest runs from that very state. -/
theorem keeps_get_bind {f : State → Eng α} (h : ∀ s, P s → P (stateAfter (f s s))) : Keeps P (get >>= f) :=
  fun s hs => h s hs

theorem keeps_ite {c : Prop} [Decidable c] {x y : Eng α} (hx : Keeps P x) (hy : Keeps P y) :
    Keeps P (if c then x else y) := by
  split
  · exact hx
  · exact hy

/-- After a check that passed. -/
theorem keeps_check_bind {ok : Bool} {e : ErrCode} {k : Unit → Eng α} (h : ok = true → Keeps P (k ())) :
    Keeps P (check ok e >>= k) := by
  intro s hs
  rw [run_check_bind]
  split
  · next hok => exact h hok s hs
  · exact hs

/-- After a check on the state that passed: the rest runs from that very state. -/
theorem keeps_checkState_bind {p : State → Bool} {e : ErrCode} {k : Unit → Eng α}
    (h : ∀ s, P s → p s = true → P (stateAfter (k () s))) : Keeps P (checkState p e >>= k) := by
  intro s hs
  rw [run_checkState_bind]
  split
  · next hok => exact h s hs hok
  · exact hs

/-- MemRead answers or raises, and changes nothing. -/
theorem memReads_cases (a n : Nat) (s : State) :
    (∃ bs, memReads a n s = .ok bs s ∧ bs.length = n) ∨ memReads a n s = .error .bounds s := by
  induction n generalizing a with
  | zero => exact .inl ⟨[], rfl, rfl⟩
  | succ n ih =>
    by_cases h : a < s.memBytes
    · rcases ih (a + 1) with ⟨bs, h1, h2⟩ | h1
      · refine .inl ⟨readByte s a :: bs, ?_, by simp [h2]⟩
        rw [memReads, run_bind_ok s (run_memRead s h), run_bind_ok s h1]
        rfl
      · exact .inr (by rw [memReads, run_bind_ok s (run_memRead s h), run_bind_error s h1])
    · exact .inr (by rw [memReads, run_bind_error s (run_memRead_outside s (by omega))])

theorem keeps_memReads_bind {a n : Nat} {k : List Byte → Eng α} (h : ∀ bs, bs.length = n → Keeps P (k bs)) :
    Keeps P (memReads a n >>= k) := by
  intro s hs
  rcases memReads_cases a n s with ⟨bs, h1, h2⟩ | h1
  · rw [run_bind_ok s h1]
    exact h bs h2 s hs
  · rw [run_bind_error s h1]
    exact hs

theorem keeps_update_bind {f : State → State} {k : Unit → Eng α} (hf : ∀ s, P s → P (f s)) (hk : Keeps P (k ())) :
    Keeps P (update f >>= k) := keeps_bind hf fun _ => hk

theorem keeps_forEach {as : List α} {f : α → Eng Unit} (h : ∀ a ∈ as, Keeps P (f a)) : Keeps P (forEach as f) := by
  induction as with
  | nil => exact keeps_pure ()
  | cons a as ih =>
    exact keeps_bind (h a (by simp)) fun _ => ih fun b hb => h b (by simp [hb])

theorem keeps_onError {g : State → State} {x : Eng α} (hx : Keeps P x) (hg : ∀ s, P s → P (g s)) :
    Keeps P (onError g x) := by
  intro s h
  have h1 := hx s h
  rw [run_onError]
  cases hr : x s with
  | ok a t =>
    rw [hr] at h1
    exact h1
  | error e t =>
    rw [hr] at h1
    exact hg t h1

theorem keeps_replaceError {e : ErrCode} {x : Eng α} (hx : Keeps P x) : Keeps P (replaceError e x) := by
  intro s h
  have h1 := hx s h
  rw [run_replaceError]
  cases hr : x s <;> (rw [hr] at h1; exact h1)

@[simp] theorem keeps_memRead (a : Nat) : Keeps P (memRead a) := by
  intro s h
  unfold memRead
  split <;> exact h

theorem keeps_memWrite {a : Nat} {v : Byte} (h : ∀ s, P s → a < s.memBytes → P (writeByte a v s)) :
    Keeps P (memWrite a v) := by
  intro s hs
  unfold memWrite
  split
  · next ha => exact h s hs ha
  · exact hs

@[simp] theorem keeps_memReads (a n : Nat) : Keeps P (memReads a n) := by
  induction n generalizing a with
  | zero => exact keeps_pure []
  | succ n ih => exact keeps_bind (keeps_memRead a) fun _ => keeps_bind (ih (a + 1)) fun _ => keeps_pure _

@[simp] theorem keeps_memRead16 (a : Nat) : Keeps P (memRead16 a) :=
  keeps_bind (keeps_memRead a) fun _ => keeps_bind (keeps_memRead (a + 1)) fun _ => keeps_pure _

/-- The end of a command keeps what the command and the completion keep. -/
theorem finish_keeps {x : Eng Unit} (hx : Keeps P x) (hc : ∀ e s, P s → P (complete e s)) {s : State} (h : P s) :
    P (finish (x s)) := by
  have h1 := hx s h
  cases hr : x s <;> (rw [hr] at h1; exact hc _ _ h1)

end Keeps

/-! ### Ends -/

section EndsRules
variable {α β : Type} {s : State} {Q : α → State → Prop} {E : ErrCode → State → Prop}

theorem ends_bind {x : Eng β} {f : β → Eng α} :
    Ends s (x >>= f) Q E ↔ Ends s x (fun b t => Ends t (f b) Q E) E := by
  unfold Ends
  rw [run_bind]
  cases x s <;> rfl

theorem ends_mono {x : Eng α} {Q' : α → State → Prop} {E' : ErrCode → State → Prop} (h : Ends s x Q E)
    (hq : ∀ a t, Q a t → Q' a t) (he : ∀ e t, E e t → E' e t) : Ends s x Q' E' := by
  unfold Ends at h ⊢
  cases hr : x s <;> rw [hr] at h
  · exact hq _ _ h
  · exact he _ _ h

@[simp] theorem ends_pure (a : α) : Ends s (pure a) Q E ↔ Q a s := Iff.rfl

@[simp] theorem ends_raise (e : ErrCode) : Ends s (raise e : Eng α) Q E ↔ E e s := Iff.rfl

@[simp] theorem ends_get_bind (f : State → Eng α) : Ends s (get >>= f) Q E ↔ Ends s (f s) Q E := Iff.rfl

@[simp] theorem ends_update (f : State → State) (Q : Unit → State → Prop) : Ends s (update f) Q E ↔ Q () (f s) := Iff.rfl

@[simp] theorem ends_check (ok : Bool) (e : ErrCode) (Q : Unit → State → Prop) :
    Ends s (check ok e) Q E ↔ if ok then Q () s else E e s := by
  unfold Ends
  rw [run_check]
  cases ok <;> rfl

@[simp] theorem ends_checkState (p : State → Bool) (e : ErrCode) (Q : Unit → State → Prop) :
    Ends s (checkState p e) Q E ↔ if p s then Q () s else E e s := by
  unfold Ends
  rw [run_checkState]
  cases p s <;> rfl

theorem ends_onError {g : State → State} {x : Eng α} :
    Ends s (onError g x) Q E ↔ Ends s x Q (fun e t => E e (g t)) := by
  unfold Ends
  rw [run_onError]
  cases x s <;> rfl

theorem ends_replaceError {e : ErrCode} {x : Eng α} :
    Ends s (replaceError e x) Q E ↔ Ends s x Q (fun _ t => E e t) := by
  unfold Ends
  rw [run_replaceError]
  cases x s <;> rfl

theorem ends_memRead {a : Nat} {Q : Byte → State → Prop} :
    Ends s (memRead a) Q E ↔ if a < s.memBytes then Q (readByte s a) s else E .bounds s := by
  by_cases h : a < s.memBytes <;> simp [Ends, memRead, h]

end EndsRules

end Sys2Proof.Machine
end

