-- ==== Sys2Proof/Laws/Memory.lean ====
section
/-! SUPPORT. LMEM: the canonical form and what a read gives after a write. -/

namespace Sys2Proof.Machine

/-! ### The canonical form -/

theorem mem_memSet {m : Memory} {a : Nat} {b : Byte} {c : Host.Cell} (h : c ∈ memSet m a b) :
    c = (a, b) ∨ c ∈ m := by
  induction m with
  | nil => exact .inl (by simpa [memSet] using h)
  | cons d m ih =>
    unfold memSet at h
    split at h
    · simpa using h
    · split at h
      · rcases List.mem_cons.mp h with h | h
        · exact .inl h
        · exact .inr (List.mem_cons_of_mem _ h)
      · rcases List.mem_cons.mp h with h | h
        · exact .inr (by simp [h])
        · exact (ih h).imp id (List.mem_cons_of_mem _)

/-- A write keeps the canonical form. -/
theorem memSet_wf {m : Memory} (h : m.wf) (a : Nat) (b : Byte) : Memory.wf (memSet m a b) := by
  induction m with
  | nil => simp [memSet]
  | cons d m ih =>
    obtain ⟨hd, hm⟩ := List.pairwise_cons.mp h
    unfold memSet
    split
    · next hlt =>
      refine List.pairwise_cons.mpr ⟨fun c hc => ?_, h⟩
      rcases List.mem_cons.mp hc with rfl | hc
      · exact hlt
      · exact Nat.lt_trans hlt (hd c hc)
    · split
      · next heq => exact List.pairwise_cons.mpr ⟨fun c hc => heq ▸ hd c hc, hm⟩
      · refine List.pairwise_cons.mpr ⟨fun c hc => ?_, ih hm⟩
        rcases mem_memSet hc with rfl | hc
        · simp only
          omega
        · exact hd c hc

/-- Forgetting a region keeps the canonical form. -/
theorem memForget_wf {m : Memory} (h : m.wf) (r : Region) : Memory.wf (memForget m r) := List.Pairwise.filter _ h

theorem mem_of_mem_memForget {m : Memory} {r : Region} {c : Host.Cell} (h : c ∈ memForget m r) : c ∈ m :=
  List.mem_of_mem_filter h

theorem reset_mem_wf : Memory.wf State.reset.mem := List.Pairwise.nil

theorem writeBytes_wf {bs : List Byte} {a : Nat} {s : State} (h : s.mem.wf) : (writeBytes a bs s).mem.wf := by
  induction bs generalizing a s with
  | nil => exact h
  | cons b bs ih => exact ih (memSet_wf h a b)

theorem mem_writeBytes {bs : List Byte} {a : Nat} {s : State} {c : Host.Cell} (h : c ∈ (writeBytes a bs s).mem) :
    (a ≤ c.1 ∧ c.1 < a + bs.length) ∨ c ∈ s.mem := by
  induction bs generalizing a s with
  | nil => exact .inr h
  | cons b bs ih =>
    rcases ih h with ⟨h1, h2⟩ | h
    · exact .inl ⟨by omega, by simp only [List.length_cons]; omega⟩
    · rcases mem_memSet h with rfl | h
      · exact .inl ⟨Nat.le_refl _, by simp⟩
      · exact .inr h

/-! ### A read after a write -/

/-- A read at the written address gives the byte, a read elsewhere what it gave before. -/
theorem memGet_memSet (m : Memory) (a b : Nat) (v : Byte) (h : m.wf) :
    memGet (memSet m a v) b = if b = a then some v else memGet m b := by
  induction m with
  | nil => by_cases hb : a = b <;> simp [memSet, memGet, hb, eq_comm]
  | cons c m ih =>
    obtain ⟨hc, hm⟩ := List.pairwise_cons.mp h
    unfold memSet
    split
    · by_cases hb : a = b <;> simp [memGet, hb, eq_comm]
    · split
      · next heq => by_cases hb : a = b <;> simp [memGet, hb, heq.symm, eq_comm]
      · next hne =>
        simp only [memGet, ih hm]
        by_cases hb : c.1 = b
        · simp [hb, show b ≠ a by omega]
        · simp [hb]

/-- The same without the canonical form: the read at another address. -/
theorem memGet_memSet_other (m : Memory) {a b : Nat} (v : Byte) (h : b ≠ a) : memGet (memSet m a v) b = memGet m b := by
  induction m with
  | nil => simp [memSet, memGet, h.symm]
  | cons c m ih =>
    unfold memSet
    split
    · simp [memGet, h.symm]
    · split
      · next heq => simp [memGet, h.symm, heq.symm]
      · simp [memGet, ih]

/-- The same without the canonical form: the read at the written address. -/
theorem memGet_memSet_self (m : Memory) (a : Nat) (v : Byte) : memGet (memSet m a v) a = some v := by
  induction m with
  | nil => simp [memSet, memGet]
  | cons c m ih =>
    unfold memSet
    split
    · simp [memGet]
    · split
      · simp [memGet]
      · next hne => simp [memGet, ih, show c.1 ≠ a by omega]

theorem readByte_writeByte (s : State) (a b : Nat) (v : Byte) :
    readByte (writeByte a v s) b = if b = a then v else readByte s b := by
  by_cases h : b = a
  · subst h
    simp [readByte, memGet_memSet_self]
  · simp [readByte, memGet_memSet_other _ _ h, h]

/-- Two states with the same LMEM and the same redrawn regions read alike. -/
theorem readByte_congr {s t : State} (hm : t.mem = s.mem) (hu : t.undef = s.undef) (a : Nat) :
    readByte t a = readByte s a := by
  simp [readByte, hm, hu]

theorem readBytes_congr {s t : State} (n : Nat) (a : Nat) (h : ∀ b, a ≤ b → b < a + n → readByte t b = readByte s b) :
    readBytes t a n = readBytes s a n := by
  induction n generalizing a with
  | zero => rfl
  | succ n ih =>
    rw [readBytes, readBytes, h a (Nat.le_refl _) (by omega), ih (a + 1) fun b h1 h2 => h b (by omega) (by omega)]

theorem readBytes_mem_congr {s t : State} (hm : t.mem = s.mem) (hu : t.undef = s.undef) (a n : Nat) :
    readBytes t a n = readBytes s a n :=
  readBytes_congr n a fun b _ _ => readByte_congr hm hu b

@[simp] theorem readBytes_length (s : State) (a n : Nat) : (readBytes s a n).length = n := by
  induction n generalizing a with
  | zero => rfl
  | succ n ih => simp [readBytes, ih]

theorem readBytes_getElem? (s : State) (a n i : Nat) :
    (readBytes s a n)[i]? = if i < n then some (readByte s (a + i)) else none := by
  induction n generalizing a i with
  | zero => simp [readBytes]
  | succ n ih =>
    cases i with
    | zero => simp [readBytes]
    | succ i => simp [readBytes, ih, show a + 1 + i = a + (i + 1) by omega]

theorem readBytes_append (s : State) (a n k : Nat) :
    readBytes s a (n + k) = readBytes s a n ++ readBytes s (a + n) k := by
  induction n generalizing a with
  | zero => simp [readBytes]
  | succ n ih => rw [Nat.succ_add, readBytes, ih, readBytes, Nat.add_assoc, Nat.add_comm 1 n]; rfl

/-- What a read gives after the bytes `bs` were written from `a` on. -/
theorem readByte_writeBytes (bs : List Byte) (a b : Nat) (s : State) :
    readByte (writeBytes a bs s) b = if a ≤ b then bs.getD (b - a) (readByte s b) else readByte s b := by
  induction bs generalizing a s with
  | nil => simp [writeBytes]
  | cons v bs ih =>
    rw [writeBytes, ih, readByte_writeByte]
    rcases Nat.lt_trichotomy b a with h | h | h
    · simp [show ¬ a + 1 ≤ b by omega, show ¬ a ≤ b by omega, show b ≠ a by omega]
    · subst h
      simp [show ¬ b + 1 ≤ b by omega]
    · obtain ⟨k, rfl⟩ : ∃ k, b = a + 1 + k := ⟨b - (a + 1), by omega⟩
      simp [show a + 1 + k ≠ a by omega, show a ≤ a + 1 + k by omega, show a + 1 + k - a = k + 1 by omega]

/-- A read outside the written bytes gives what it gave before. -/
theorem readByte_writeBytes_outside {bs : List Byte} {a b : Nat} (s : State) (h : b < a ∨ a + bs.length ≤ b) :
    readByte (writeBytes a bs s) b = readByte s b := by
  rw [readByte_writeBytes]
  split
  · rw [List.getD_eq_getElem?_getD, List.getElem?_eq_none (by omega)]
    rfl
  · rfl

/-- The bytes just written are read back. -/
theorem readBytes_writeBytes (bs : List Byte) (a : Nat) (s : State) :
    readBytes (writeBytes a bs s) a bs.length = bs := by
  apply List.ext_getElem?
  intro i
  rw [readBytes_getElem?]
  split
  · next h => simp [readByte_writeBytes, List.getD_eq_getElem?_getD, h]
  · next h => rw [List.getElem?_eq_none (by omega)]

theorem writeBytes_append (bs cs : List Byte) (a : Nat) (s : State) :
    writeBytes a (bs ++ cs) s = writeBytes (a + bs.length) cs (writeBytes a bs s) := by
  induction bs generalizing a s with
  | nil => rfl
  | cons b bs ih => rw [List.cons_append, writeBytes, ih, writeBytes, List.length_cons, Nat.add_right_comm, Nat.add_assoc]

theorem undefEpoch_cons (r : Region) (rs : List Region) (a : Nat) :
    undefEpoch (r :: rs) a = if r.lo ≤ a ∧ a < r.hi then rs.length + 1 else undefEpoch rs a := rfl

theorem memGet_memForget (m : Memory) (r : Region) {a : Nat} (h : ¬(r.lo ≤ a ∧ a < r.hi)) :
    memGet (memForget m r) a = memGet m a := by
  induction m with
  | nil => rfl
  | cons c m ih =>
    have hf : memForget (c :: m) r =
        if (r.lo ≤ c.1 ∧ c.1 < r.hi) then memForget m r else c :: memForget m r := by
      by_cases h1 : r.lo ≤ c.1 <;> by_cases h2 : c.1 < r.hi <;> simp [memForget, h1, h2]
    rw [hf]
    split
    · next hc =>
      have : c.1 ≠ a := fun hca => h (hca ▸ hc)
      simp [memGet, ih, this]
    · simp [memGet, ih]

theorem writeBytes_mem_congr (bs : List Byte) (a : Nat) {s t : State} (h : s.mem = t.mem) :
    (writeBytes a bs s).mem = (writeBytes a bs t).mem := by
  induction bs generalizing a s t with
  | nil => exact h
  | cons b bs ih => exact ih (a + 1) (by simp [h])

/-! ### writeBytes leaves the rest of the state -/

theorem writeBytes_eq (bs : List Byte) (a : Nat) (s : State) :
    writeBytes a bs s = { s with mem := (writeBytes a bs s).mem } := by
  induction bs generalizing a s with
  | nil => rfl
  | cons b bs ih =>
    rw [writeBytes, ih]
    rfl

@[simp] theorem writeBytes_ie (bs : List Byte) (a : Nat) (s : State) : (writeBytes a bs s).ie = s.ie := by
  rw [writeBytes_eq]

@[simp] theorem writeBytes_status (bs : List Byte) (a : Nat) (s : State) : (writeBytes a bs s).status = s.status := by
  rw [writeBytes_eq]

@[simp] theorem writeBytes_cmdL (bs : List Byte) (a : Nat) (s : State) : (writeBytes a bs s).cmdL = s.cmdL := by
  rw [writeBytes_eq]

@[simp] theorem writeBytes_argL (bs : List Byte) (a : Nat) (s : State) : (writeBytes a bs s).argL = s.argL := by
  rw [writeBytes_eq]

@[simp] theorem writeBytes_arg (bs : List Byte) (a : Nat) (s : State) : (writeBytes a bs s).arg = s.arg := by
  rw [writeBytes_eq]

@[simp] theorem writeBytes_res0 (bs : List Byte) (a : Nat) (s : State) : (writeBytes a bs s).res0 = s.res0 := by
  rw [writeBytes_eq]

@[simp] theorem writeBytes_res1 (bs : List Byte) (a : Nat) (s : State) : (writeBytes a bs s).res1 = s.res1 := by
  rw [writeBytes_eq]

@[simp] theorem writeBytes_prevDim (bs : List Byte) (a : Nat) (s : State) : (writeBytes a bs s).prevDim = s.prevDim := by
  rw [writeBytes_eq]

@[simp] theorem writeBytes_dri (bs : List Byte) (a : Nat) (s : State) : (writeBytes a bs s).dri = s.dri := by
  rw [writeBytes_eq]

@[simp] theorem writeBytes_bw (bs : List Byte) (a : Nat) (s : State) : (writeBytes a bs s).bw = s.bw := by
  rw [writeBytes_eq]

@[simp] theorem writeBytes_br (bs : List Byte) (a : Nat) (s : State) : (writeBytes a bs s).br = s.br := by
  rw [writeBytes_eq]

@[simp] theorem writeBytes_pred (bs : List Byte) (a : Nat) (s : State) : (writeBytes a bs s).pred = s.pred := by
  rw [writeBytes_eq]

@[simp] theorem writeBytes_pstate (bs : List Byte) (a : Nat) (s : State) : (writeBytes a bs s).pstate = s.pstate := by
  rw [writeBytes_eq]

@[simp] theorem writeBytes_rstNext (bs : List Byte) (a : Nat) (s : State) : (writeBytes a bs s).rstNext = s.rstNext := by
  rw [writeBytes_eq]

@[simp] theorem writeBytes_frmDim (bs : List Byte) (a : Nat) (s : State) : (writeBytes a bs s).frmDim = s.frmDim := by
  rw [writeBytes_eq]

@[simp] theorem writeBytes_frmInfo (bs : List Byte) (a : Nat) (s : State) : (writeBytes a bs s).frmInfo = s.frmInfo := by
  rw [writeBytes_eq]

@[simp] theorem writeBytes_qvalid (bs : List Byte) (a : Nat) (s : State) : (writeBytes a bs s).qvalid = s.qvalid := by
  rw [writeBytes_eq]

@[simp] theorem writeBytes_hvalid (bs : List Byte) (a : Nat) (s : State) : (writeBytes a bs s).hvalid = s.hvalid := by
  rw [writeBytes_eq]

@[simp] theorem writeBytes_qt (bs : List Byte) (a : Nat) (s : State) : (writeBytes a bs s).qt = s.qt := by
  rw [writeBytes_eq]

@[simp] theorem writeBytes_rq (bs : List Byte) (a : Nat) (s : State) : (writeBytes a bs s).rq = s.rq := by
  rw [writeBytes_eq]

@[simp] theorem writeBytes_blk (bs : List Byte) (a : Nat) (s : State) : (writeBytes a bs s).blk = s.blk := by
  rw [writeBytes_eq]

@[simp] theorem writeBytes_ht (bs : List Byte) (a : Nat) (s : State) : (writeBytes a bs s).ht = s.ht := by
  rw [writeBytes_eq]

@[simp] theorem writeBytes_memBytes (bs : List Byte) (a : Nat) (s : State) : (writeBytes a bs s).memBytes = s.memBytes := by
  rw [writeBytes_eq]

@[simp] theorem writeBytes_undef (bs : List Byte) (a : Nat) (s : State) : (writeBytes a bs s).undef = s.undef := by
  rw [writeBytes_eq]

@[simp] theorem writeBytes_draws (bs : List Byte) (a : Nat) (s : State) : (writeBytes a bs s).draws = s.draws := by
  rw [writeBytes_eq]

@[simp] theorem writeBytes_hostData (bs : List Byte) (a : Nat) (s : State) : (writeBytes a bs s).hostData = s.hostData := by
  rw [writeBytes_eq]

@[simp] theorem writeBytes_agenda (bs : List Byte) (a : Nat) (s : State) : (writeBytes a bs s).agenda = s.agenda := by
  rw [writeBytes_eq]

end Sys2Proof.Machine
end

