-- ==== Sys2Proof/Laws/Reader.lean ====
section
/-! SUPPORT. What the bit reader does: it takes the bits of `readerBits` one after another and changes nothing but its own
registers (43 R466). -/

namespace Sys2Proof.Machine

/-- The state with another bit reader. -/
def withReader (r : BitReader) (s : State) : State := { s with br := r }

@[simp] theorem withReader_br (r : BitReader) (s : State) : (withReader r s).br = r := rfl

@[simp] theorem withReader_self (s : State) : withReader s.br s = s := rfl

@[simp] theorem withReader_withReader (r q : BitReader) (s : State) : withReader r (withReader q s) = withReader r s := rfl

@[simp] theorem readByte_withReader (r : BitReader) (s : State) (a : Nat) :
    readByte (withReader r s) a = readByte s a := rfl

theorem readBytes_withReader (r : BitReader) (s : State) (a n : Nat) :
    readBytes (withReader r s) a n = readBytes s a n :=
  readBytes_mem_congr (s := s) (t := withReader r s) rfl rfl a n

theorem inputBytes_setCount (c : BitVec 4) (s : State) : inputBytes (setCount c s) = inputBytes s :=
  readBytes_mem_congr (s := s) (t := setCount c s) rfl rfl _ _

theorem inputBytes_cons {s : State} (h : s.br.ptr.toNat < s.br.lim.toNat) :
    inputBytes s = readByte s s.br.ptr.toNat
      :: readBytes s (s.br.ptr.toNat + 1) (s.br.lim.toNat - (s.br.ptr.toNat + 1)) := by
  obtain ⟨n, hn⟩ : ∃ n, s.br.lim.toNat - s.br.ptr.toNat = n + 1 := ⟨s.br.lim.toNat - s.br.ptr.toNat - 1, by omega⟩
  rw [inputBytes, hn, readBytes]
  congr 2
  omega

/-- FILL on an input byte that is not FF. -/
theorem run_fill_plain {s : State} (hm : s.br.mark = false) (h : s.br.ptr.toNat < s.br.lim.toNat)
    (hl : s.br.lim.toNat ≤ s.memBytes) (hb : readByte s s.br.ptr.toNat ≠ 0xFF#8) :
    fill s = .ok () (loadCurrent (readByte s s.br.ptr.toNat) 1#32 s) := by
  rw [fill, run_checkState_pass s (by simp [hm]), run_checkState_pass s (by simp [h]), run_get_bind,
    run_bind_ok s (run_memRead s (by omega)), if_pos hb, run_update]

/-- FILL on FF 00. -/
theorem run_fill_stuffed {s : State} (hm : s.br.mark = false) (h : s.br.ptr.toNat + 1 < s.br.lim.toNat)
    (hl : s.br.lim.toNat ≤ s.memBytes) (hb : readByte s s.br.ptr.toNat = 0xFF#8)
    (hc : readByte s (s.br.ptr.toNat + 1) = 0x00#8) : fill s = .ok () (loadCurrent 0xFF#8 2#32 s) := by
  rw [fill, run_checkState_pass s (by simp [hm]), run_checkState_pass s (by simp; omega), run_get_bind,
    run_bind_ok s (run_memRead s (by omega)), if_neg (by simp [hb]), run_check_bind, if_pos (by simpa using h),
    run_bind_ok s (run_memRead s (by omega)), if_pos hc, run_update]

/-- FILL on a marker: MARK is set, ERR_UNEXPECTED_MARKER. -/
theorem run_fill_marker {s : State} (hm : s.br.mark = false) (h : s.br.ptr.toNat + 1 < s.br.lim.toNat)
    (hl : s.br.lim.toNat ≤ s.memBytes) (hb : readByte s s.br.ptr.toNat = 0xFF#8)
    (hc : readByte s (s.br.ptr.toNat + 1) ≠ 0x00#8) : fill s = .error .unexpectedMarker (setMark s) := by
  rw [fill, run_checkState_pass s (by simp [hm]), run_checkState_pass s (by simp; omega), run_get_bind,
    run_bind_ok s (run_memRead s (by omega)), if_neg (by simp [hb]), run_check_bind, if_pos (by simpa using h),
    run_bind_ok s (run_memRead s (by omega)), if_neg hc, run_update_bind, run_raise]

/-- FILL after a marker was met: ERR_UNEXPECTED_MARKER. -/
theorem run_fill_marked {s : State} (hm : s.br.mark = true) : fill s = .error .unexpectedMarker s := by
  rw [fill, run_checkState_fail s (by simp [hm])]

/-- FILL at the end of the input: ERR_NO_EOI. -/
theorem run_fill_end {s : State} (hm : s.br.mark = false) (h : s.br.lim.toNat ≤ s.br.ptr.toNat) :
    fill s = .error .noEoi s := by
  rw [fill, run_checkState_pass s (by simp [hm]), run_checkState_fail s (by simp; omega)]

/-- FILL on FF as the last byte: ERR_NO_EOI. -/
theorem run_fill_last {s : State} (hm : s.br.mark = false) (h : s.br.ptr.toNat + 1 = s.br.lim.toNat)
    (hl : s.br.lim.toNat ≤ s.memBytes) (hb : readByte s s.br.ptr.toNat = 0xFF#8) : fill s = .error .noEoi s := by
  rw [fill, run_checkState_pass s (by simp [hm]), run_checkState_pass s (by simp; omega), run_get_bind,
    run_bind_ok s (run_memRead s (by omega)), if_neg (by simp [hb]), run_check_bind, if_neg (by simp; omega)]

/-- Taking a bit of CUR. -/
theorem takeBit_unread {s : State} (hc : s.br.cnt ≠ 0#4) :
    takeBit s = .ok (s.br.cur.toNat.testBit (s.br.cnt.toNat - 1)) (setCount (s.br.cnt - 1#4) s) := by
  have hpos : s.br.cnt.toNat ≠ 0 := fun h => hc (BitVec.eq_of_toNat_eq h)
  have hlt := s.br.cnt.isLt
  have : (s.br.cnt - 1#4).toNat = s.br.cnt.toNat - 1 := by
    rw [BitVec.toNat_sub]
    simp
    omega
  rw [takeBit, this]
  rfl

theorem cnt_pred {c : BitVec 4} (hc : c ≠ 0#4) : c.toNat = (c - 1#4).toNat + 1 := by
  have hpos : c.toNat ≠ 0 := fun h => hc (BitVec.eq_of_toNat_eq h)
  have hlt := c.isLt
  rw [BitVec.toNat_sub]
  simp
  omega

/-- GETBIT gives the first bit of `readerBits` and leaves the others, changing only the reader's registers. -/
theorem run_getBit {s : State} {b : Bool} {bs : List Bool} (hs : ReaderOk s) (h : readerBits s = b :: bs) :
    ∃ r, getBit s = .ok b (withReader r s) ∧ ReaderOk (withReader r s) ∧ readerBits (withReader r s) = bs
      ∧ r.lim = s.br.lim ∧ r.mark = s.br.mark := by
  obtain ⟨h1, h2, h3⟩ := hs
  have take (t : State) (hc : t.br.cnt ≠ 0#4) (hok : ReaderOk t) (hbits : readerBits t = b :: bs) :
      takeBit t = .ok b (setCount (t.br.cnt - 1#4) t) ∧ ReaderOk (setCount (t.br.cnt - 1#4) t)
        ∧ readerBits (setCount (t.br.cnt - 1#4) t) = bs := by
    have hcnt := cnt_pred hc
    have heq : readerBits t = t.br.cur.toNat.testBit (t.br.cnt.toNat - 1) :: readerBits (setCount (t.br.cnt - 1#4) t) := by
      rw [readerBits, hcnt, bitsMsb, readerBits, inputBytes_setCount]
      rfl
    rw [heq] at hbits
    injection hbits with hb hbs
    refine ⟨?_, ⟨hok.1, hok.2.1, ?_⟩, hbs⟩
    · rw [takeBit_unread hc, hb]
    · have := hok.2.2
      change (t.br.cnt - 1#4).toNat ≤ 8
      omega
  by_cases hc : s.br.cnt = 0#4
  · have hm : s.br.mark = false := by
      by_contra hm
      simp [readerBits, hc, show s.br.mark = true by simpa using hm] at h
    have hin : unstuffedBits (inputBytes s) = b :: bs := by simpa [readerBits, hc, hm] using h
    have hlt : s.br.ptr.toNat < s.br.lim.toNat := by
      by_contra hlt
      have : s.br.lim.toNat - s.br.ptr.toNat = 0 := by omega
      simp [inputBytes, this, readBytes, unstuffedBits] at hin
    have hlim := s.br.lim.isLt
    rw [inputBytes_cons hlt] at hin
    by_cases hb : readByte s s.br.ptr.toNat = 0xFF#8
    · have hlt2 : s.br.ptr.toNat + 1 < s.br.lim.toNat := by
        by_contra hlt2
        have : s.br.lim.toNat - (s.br.ptr.toNat + 1) = 0 := by omega
        simp [hb, this, readBytes, unstuffedBits] at hin
      obtain ⟨n, hn⟩ : ∃ n, s.br.lim.toNat - (s.br.ptr.toNat + 1) = n + 1 := ⟨s.br.lim.toNat - s.br.ptr.toNat - 2, by omega⟩
      rw [hn, readBytes, hb] at hin
      by_cases hz : readByte s (s.br.ptr.toNat + 1) = 0x00#8
      · rw [hz, unstuffedBits_stuffed_ff] at hin
        have hp : (s.br.ptr + 2#32).toNat = s.br.ptr.toNat + 2 := by
          rw [BitVec.toNat_add]
          simp
          omega
        have hbits : readerBits (loadCurrent 0xFF#8 2#32 s) = b :: bs := by
          rw [← hin, readerBits]
          simp only [loadCurrent_br, hm, inputBytes, hp, Bool.false_eq_true, if_false]
          rw [show s.br.lim.toNat - (s.br.ptr.toNat + 2) = n by omega, readBytes_mem_congr (s := s) (t := loadCurrent 0xFF#8 2#32 s) rfl rfl]
          rfl
        obtain ⟨t1, t2, t3⟩ := take (loadCurrent 0xFF#8 2#32 s) (by simp)
          ⟨by simp only [loadCurrent_br, hp]; omega, h2, by simp⟩ hbits
        refine ⟨_, ?_, t2, t3, rfl, rfl⟩
        rw [getBit, run_get_bind, if_pos hc, run_bind_ok s (run_fill_stuffed hm hlt2 h2 hb hz)]
        exact t1
      · rw [unstuffedBits_marker hz] at hin
        exact absurd hin (by simp)
    · rw [unstuffedBits_cons hb] at hin
      have hp : (s.br.ptr + 1#32).toNat = s.br.ptr.toNat + 1 := by
        rw [BitVec.toNat_add]
        simp
        omega
      have hbits : readerBits (loadCurrent (readByte s s.br.ptr.toNat) 1#32 s) = b :: bs := by
        rw [← hin, readerBits]
        simp only [loadCurrent_br, hm, inputBytes, hp, Bool.false_eq_true, if_false]
        rw [readBytes_mem_congr (s := s) (t := loadCurrent _ 1#32 s) rfl rfl]
        rfl
      obtain ⟨t1, t2, t3⟩ := take (loadCurrent (readByte s s.br.ptr.toNat) 1#32 s) (by simp)
        ⟨by simp only [loadCurrent_br, hp]; omega, h2, by simp⟩ hbits
      refine ⟨_, ?_, t2, t3, rfl, rfl⟩
      rw [getBit, run_get_bind, if_pos hc, run_bind_ok s (run_fill_plain hm hlt h2 hb)]
      exact t1
  · obtain ⟨t1, t2, t3⟩ := take s hc ⟨h1, h2, h3⟩ h
    refine ⟨_, ?_, t2, t3, rfl, rfl⟩
    rw [getBit, run_get_bind, if_neg hc]
    exact t1

/-- Taking the next n bits. -/
theorem run_getBitList {s : State} (bs cs : List Bool) (hs : ReaderOk s) (h : readerBits s = bs ++ cs) :
    ∃ r, getBitList bs.length s = .ok bs (withReader r s) ∧ ReaderOk (withReader r s)
      ∧ readerBits (withReader r s) = cs ∧ r.lim = s.br.lim ∧ r.mark = s.br.mark := by
  induction bs generalizing s with
  | nil => exact ⟨s.br, rfl, hs, h, rfl, rfl⟩
  | cons b bs ih =>
    obtain ⟨r, h1, h2, h3, h4, h5⟩ := run_getBit hs h
    obtain ⟨q, g1, g2, g3, g4, g5⟩ := ih h2 h3
    refine ⟨q, ?_, by simpa using g2, by simpa using g3, by rw [g4]; exact h4, by rw [g5]; exact h5⟩
    rw [List.length_cons, getBitList, run_bind_ok s h1, run_bind_ok _ g1]
    rfl

/-- GETBITS of the number whose bits come next (43 R466). -/
theorem run_getBits {s : State} (bs cs : List Bool) (hs : ReaderOk s) (h : readerBits s = bs ++ cs) :
    ∃ r, getBits bs.length s = .ok (bitsValue 0 bs) (withReader r s) ∧ ReaderOk (withReader r s)
      ∧ readerBits (withReader r s) = cs ∧ r.lim = s.br.lim ∧ r.mark = s.br.mark := by
  obtain ⟨r, h1, h2⟩ := run_getBitList bs cs hs h
  exact ⟨r, by rw [getBits, run_bind_ok s h1]; rfl, h2⟩

/-- DECODE_SYM on the bits that come next is the canonical decode of those bits (43 R471). -/
theorem run_decodeSymFrom {s : State} (t : HuffTable) (ls : List Level) (len code : Nat) (bs : List Bool) (hs : ReaderOk s)
    (h : readerBits s = bs) {v : Byte} {n : Nat} (hd : decodeBitsFrom t ls len code bs = some (v, len + n)) :
    ∃ r, decodeSymFrom t ls code s = .ok v (withReader r s) ∧ ReaderOk (withReader r s)
      ∧ readerBits (withReader r s) = bs.drop n ∧ r.lim = s.br.lim ∧ r.mark = s.br.mark := by
  induction ls generalizing s len code bs n with
  | nil => simp [decodeBitsFrom] at hd
  | cons l ls ih =>
    cases bs with
    | nil => simp [decodeBitsFrom] at hd
    | cons b bs =>
      obtain ⟨r, h1, h2, h3, h4, h5⟩ := run_getBit hs h
      rw [decodeBitsFrom] at hd
      cases hl : levelSym t l (2 * code + b.toNat) with
      | some w =>
        rw [hl] at hd
        simp only [Option.some.injEq, Prod.mk.injEq] at hd
        obtain ⟨rfl, hn⟩ := hd
        have : n = 1 := by omega
        subst this
        refine ⟨r, ?_, h2, by simpa using h3, h4, h5⟩
        rw [decodeSymFrom, run_bind_ok s h1, hl]
        rfl
      | none =>
        rw [hl] at hd
        have hn : len < len + n := by
          clear ih h h1 h2 h3
          have grow : ∀ (ls : List Level) (len code : Nat) (bs : List Bool) (v : Byte) (m : Nat),
              decodeBitsFrom t ls len code bs = some (v, m) → len < m := by
            intro ls
            induction ls with
            | nil => intro len code bs v m hm; simp [decodeBitsFrom] at hm
            | cons l ls ih =>
              intro len code bs v m hm
              cases bs with
              | nil => simp [decodeBitsFrom] at hm
              | cons b bs =>
                rw [decodeBitsFrom] at hm
                split at hm
                · simp only [Option.some.injEq, Prod.mk.injEq] at hm
                  omega
                · have := ih _ _ _ _ _ hm
                  omega
          have := grow _ _ _ _ _ _ hd
          omega
        obtain ⟨m, rfl⟩ : ∃ m, n = m + 1 := ⟨n - 1, by omega⟩
        obtain ⟨q, g1, g2, g3, g4, g5⟩ := ih (len + 1) (2 * code + b.toNat) bs h2 h3 (n := m)
          (by simpa [Nat.add_assoc, Nat.add_comm 1 m] using hd)
        refine ⟨q, ?_, by simpa using g2, by simpa using g3, by rw [g4]; exact h4, by rw [g5]; exact h5⟩
        rw [decodeSymFrom, run_bind_ok s h1, hl]
        exact g1

end Sys2Proof.Machine
end

