-- ==== Sys2Proof/Laws/Writer.lean ====
section
/-! SUPPORT. What the bit writer does: one lemma per primitive (43 R460, R463, R464). -/

namespace Sys2Proof.Machine

/-! ### EMIT -/

/-- BW_PTR after n more bytes. -/
def advanceWriter (n : Nat) (s : State) : State := { s with bw.ptr := s.bw.ptr + BitVec.ofNat 32 n }

/-- EMIT with room: the byte is written, BW_PTR moves on. -/
theorem run_emit {s : State} (v : Byte) (h : hasRoom s 1) :
    emit v s = .ok () (advanceWriter 1 (writeByte s.bw.ptr.toNat v s)) := by
  obtain ⟨h1, h2⟩ := h
  rw [emit, run_checkState_pass s (by simp; omega), run_get_bind, run_bind_ok s (run_memWrite s v (by omega))]
  rfl

/-- EMIT at BW_LIM: ERR_BOUNDS, nothing changed. -/
theorem run_emit_full {s : State} (v : Byte) (h : s.bw.lim.toNat ≤ s.bw.ptr.toNat) : emit v s = .error .bounds s := by
  rw [emit, run_checkState_fail s (by simp; omega)]

/-- RAWBYTE with room at a byte boundary. -/
theorem run_rawByte {s : State} (v : Byte) (hc : s.bw.cnt = 0#3) (h : hasRoom s 1) :
    rawByte v s = .ok () (advanceWriter 1 (writeByte s.bw.ptr.toNat v s)) := by
  rw [rawByte, run_checkState_pass s (by simp [hc]), run_emit v h]

/-! ### Appending bits -/

/-- The pending bits after one more bit that completes no byte. -/
theorem pendingBits_push (w : BitWriter) (b : Bool) (hc : w.cnt.toNat < 7) (ha : w.acc.toNat < 2 ^ w.cnt.toNat) :
    pendingBits { w with acc := w.acc <<< 1 ||| (BitVec.ofBool b).setWidth 8, cnt := w.cnt + 1#3 }
      = pendingBits w ++ [b] := by
  have hcnt : (w.cnt + 1#3).toNat = w.cnt.toNat + 1 := by
    rw [BitVec.toNat_add]
    simp
    omega
  have hp : 2 ^ w.cnt.toNat ≤ 2 ^ 6 := Nat.pow_le_pow_right (by omega) (by omega)
  have hacc : (w.acc <<< 1 ||| (BitVec.ofBool b).setWidth 8).toNat = 2 * w.acc.toNat + b.toNat := by
    have h2 : (w.acc <<< 1).toNat = 2 * w.acc.toNat := by
      rw [BitVec.toNat_shiftLeft, Nat.shiftLeft_eq, Nat.mod_eq_of_lt (by omega)]
      omega
    rw [BitVec.toNat_or, h2]
    cases b
    · simp
    · have h3 : (BitVec.setWidth 8 (BitVec.ofBool true)).toNat = 1 := by decide
      rw [h3]
      have := Nat.two_pow_add_eq_or_of_lt (i := 1) (b := 1) (by omega) w.acc.toNat
      simp only [Nat.pow_one] at this
      rw [← this]
      rfl
  simp only [pendingBits, hcnt, hacc, bitsMsb_double]

/-- The bound on ACC after that bit. -/
theorem acc_push_lt (w : BitWriter) (b : Bool) (hc : w.cnt.toNat < 7) (ha : w.acc.toNat < 2 ^ w.cnt.toNat) :
    (w.acc <<< 1 ||| (BitVec.ofBool b).setWidth 8).toNat < 2 ^ (w.cnt + 1#3).toNat := by
  have hb := pendingBits_push w b hc ha
  have hcnt : (w.cnt + 1#3).toNat = w.cnt.toNat + 1 := by
    rw [BitVec.toNat_add]
    simp
    omega
  have h2 : (w.acc <<< 1).toNat < 2 ^ (w.cnt.toNat + 1) := by
    rw [BitVec.toNat_shiftLeft, Nat.shiftLeft_eq]
    exact Nat.lt_of_le_of_lt (Nat.mod_le _ _) (by rw [Nat.pow_succ]; omega)
  rw [hcnt, BitVec.toNat_or]
  refine Nat.or_lt_two_pow h2 ?_
  have : ((BitVec.ofBool b).setWidth 8).toNat ≤ 1 := by cases b <;> decide
  have : 2 ≤ 2 ^ (w.cnt.toNat + 1) := by
    rw [Nat.pow_succ]
    have := Nat.one_le_two_pow (n := w.cnt.toNat)
    omega
  omega

/-- The byte that the eighth bit completes. -/
theorem acc_complete (w : BitWriter) (b : Bool) (hc : w.cnt = 7#3) (ha : w.acc.toNat < 2 ^ w.cnt.toNat) :
    w.acc <<< 1 ||| (BitVec.ofBool b).setWidth 8 = BitVec.ofNat 8 (bitsValue 0 (pendingBits w ++ [b])) := by
  rw [bitsValue_append, pendingBits, bitsValue_bitsMsb, Nat.mod_eq_of_lt ha]
  apply BitVec.eq_of_toNat_eq
  simp only [hc] at ha
  have h2 : (w.acc <<< 1).toNat = 2 * w.acc.toNat := by
    rw [BitVec.toNat_shiftLeft, Nat.shiftLeft_eq, Nat.mod_eq_of_lt] <;> simp at ha <;> omega
  rw [BitVec.toNat_or, h2, BitVec.toNat_ofNat]
  simp only [bitsValue]
  simp at ha
  cases b
  · simp
    omega
  · have h3 : (BitVec.setWidth 8 (BitVec.ofBool true)).toNat = 1 := by decide
    rw [h3]
    have := Nat.two_pow_add_eq_or_of_lt (i := 1) (b := 1) (by omega) w.acc.toNat
    simp only [Nat.pow_one] at this
    rw [← this]
    simp
    omega

/-! ### Emitted bytes -/

section Fields
variable (out : List Byte) (left : List Bool) (s : State)

@[simp] theorem emitted_bw : (emitted out left s).bw =
    { ptr := s.bw.ptr + BitVec.ofNat 32 out.length, lim := s.bw.lim, acc := BitVec.ofNat 8 (bitsValue 0 left),
      cnt := BitVec.ofNat 3 left.length } := rfl

@[simp] theorem emitted_ie : (emitted out left s).ie = s.ie := rfl
@[simp] theorem emitted_status : (emitted out left s).status = s.status := rfl
@[simp] theorem emitted_cmdL : (emitted out left s).cmdL = s.cmdL := rfl
@[simp] theorem emitted_argL : (emitted out left s).argL = s.argL := rfl
@[simp] theorem emitted_arg : (emitted out left s).arg = s.arg := rfl
@[simp] theorem emitted_res0 : (emitted out left s).res0 = s.res0 := rfl
@[simp] theorem emitted_res1 : (emitted out left s).res1 = s.res1 := rfl
@[simp] theorem emitted_prevDim : (emitted out left s).prevDim = s.prevDim := rfl
@[simp] theorem emitted_dri : (emitted out left s).dri = s.dri := rfl
@[simp] theorem emitted_br : (emitted out left s).br = s.br := rfl
@[simp] theorem emitted_pred : (emitted out left s).pred = s.pred := rfl
@[simp] theorem emitted_pstate : (emitted out left s).pstate = s.pstate := rfl
@[simp] theorem emitted_rstNext : (emitted out left s).rstNext = s.rstNext := rfl
@[simp] theorem emitted_frmDim : (emitted out left s).frmDim = s.frmDim := rfl
@[simp] theorem emitted_frmInfo : (emitted out left s).frmInfo = s.frmInfo := rfl
@[simp] theorem emitted_qvalid : (emitted out left s).qvalid = s.qvalid := rfl
@[simp] theorem emitted_hvalid : (emitted out left s).hvalid = s.hvalid := rfl
@[simp] theorem emitted_qt : (emitted out left s).qt = s.qt := rfl
@[simp] theorem emitted_rq : (emitted out left s).rq = s.rq := rfl
@[simp] theorem emitted_blk : (emitted out left s).blk = s.blk := rfl
@[simp] theorem emitted_ht : (emitted out left s).ht = s.ht := rfl
@[simp] theorem emitted_memBytes : (emitted out left s).memBytes = s.memBytes := rfl
@[simp] theorem emitted_undef : (emitted out left s).undef = s.undef := rfl
@[simp] theorem emitted_draws : (emitted out left s).draws = s.draws := rfl
@[simp] theorem emitted_hostData : (emitted out left s).hostData = s.hostData := rfl
@[simp] theorem emitted_agenda : (emitted out left s).agenda = s.agenda := rfl
@[simp] theorem emitted_mem : (emitted out left s).mem = (writeBytes s.bw.ptr.toNat out s).mem := rfl

theorem emitted_readByte (a : Nat) :
    readByte (emitted out left s) a = readByte (writeBytes s.bw.ptr.toNat out s) a := by
  rw [readByte_congr] <;> simp

end Fields

theorem pendingBits_emitted (out : List Byte) {left : List Bool} (s : State) (h : left.length < 8) :
    pendingBits (emitted out left s).bw = left := by
  have hlt := bitsValue_lt left
  have hp : 2 ^ left.length ≤ 2 ^ 8 := Nat.pow_le_pow_right (by omega) (by omega)
  simp only [emitted_bw, pendingBits, BitVec.toNat_ofNat]
  rw [Nat.mod_eq_of_lt (by omega), Nat.mod_eq_of_lt (by omega), bitsMsb_bitsValue]

theorem emitted_acc_lt (out : List Byte) {left : List Bool} (s : State) (h : left.length < 8) :
    (emitted out left s).bw.acc.toNat < 2 ^ (emitted out left s).bw.cnt.toNat := by
  have hlt := bitsValue_lt left
  have hp : 2 ^ left.length ≤ 2 ^ 8 := Nat.pow_le_pow_right (by omega) (by omega)
  simp only [emitted_bw, BitVec.toNat_ofNat]
  rw [Nat.mod_eq_of_lt (by omega), Nat.mod_eq_of_lt (by omega)]
  exact hlt

theorem ptr_add {s : State} {n : Nat} (h : hasRoom s n) :
    (s.bw.ptr + BitVec.ofNat 32 n).toNat = s.bw.ptr.toNat + n := by
  obtain ⟨h1, -⟩ := h
  have := s.bw.lim.isLt
  rw [BitVec.toNat_add, BitVec.toNat_ofNat]
  omega

/-- Emitting twice is emitting both byte strings. -/
theorem emitted_emitted {s : State} {out out' : List Byte} {left left' : List Bool} (h : hasRoom s out.length) :
    emitted out' left' (emitted out left s) = emitted (out ++ out') left' s := by
  have hptr := ptr_add h
  have hw : (writeBytes (emitted out left s).bw.ptr.toNat out' (emitted out left s)).mem
      = (writeBytes s.bw.ptr.toNat (out ++ out') s).mem := by
    rw [writeBytes_append, emitted_bw, hptr]
    exact writeBytes_mem_congr _ _ (by simp)
  rw [emitted, hw, emitted]
  congr 1
  simp only [List.length_append, BitVec.ofNat_add, BitVec.add_assoc]

/-! ### PUTBIT and PUTBITS -/

theorem emittedBytes_cons (w : BitWriter) (b : Bool) (bs : List Bool) :
    emittedBytes w (b :: bs) = emittedBytes w [b] ++ stuffed (wholeBytes (leftBits (pendingBits w ++ [b]) ++ bs)) := by
  rw [emittedBytes, emittedBytes, ← stuffed_append, ← wholeBytes_append, List.append_assoc]
  rfl

theorem leftBits_lt (bs : List Bool) : (leftBits bs).length < 8 := by
  rw [leftBits_length]
  omega

@[simp] theorem appended_bw_lim (bs : List Bool) (s : State) : (appended bs s).bw.lim = s.bw.lim := rfl

theorem pendingBits_appended (bs : List Bool) (s : State) :
    pendingBits (appended bs s).bw = leftBits (pendingBits s.bw ++ bs) :=
  pendingBits_emitted _ _ (leftBits_lt _)

theorem appended_acc_lt (bs : List Bool) (s : State) :
    (appended bs s).bw.acc.toNat < 2 ^ (appended bs s).bw.cnt.toNat :=
  emitted_acc_lt _ _ (leftBits_lt _)

theorem pendingBits_length (w : BitWriter) : (pendingBits w).length = w.cnt.toNat := bitsMsb_length _ _

/-- Appending no bit changes nothing. -/
theorem appended_nil {s : State} (ha : s.bw.acc.toNat < 2 ^ s.bw.cnt.toNat) : appended [] s = s := by
  have hlen : (pendingBits s.bw).length < 8 := by
    rw [pendingBits_length]
    exact s.bw.cnt.isLt
  rw [appended, emittedBytes, List.append_nil, wholeBytes_short hlen, leftBits_short hlen, stuffed_nil, emitted]
  have h1 : BitVec.ofNat 8 (bitsValue 0 (pendingBits s.bw)) = s.bw.acc := by
    rw [pendingBits, bitsValue_bitsMsb, Nat.mod_eq_of_lt ha]
    simp
  have h2 : BitVec.ofNat 3 (pendingBits s.bw).length = s.bw.cnt := by
    rw [pendingBits_length]
    simp
  rw [h1, h2]
  simp [writeBytes]

/-- PUTBIT with room (43 R460, R465). -/
theorem run_putBit {s : State} (b : Bool) (ha : s.bw.acc.toNat < 2 ^ s.bw.cnt.toNat)
    (hr : hasRoom s (emittedBytes s.bw [b]).length) : putBit b s = .ok () (appended [b] s) := by
  have hlt := s.bw.cnt.isLt
  by_cases hc : s.bw.cnt = 7#3
  · have hacc := acc_complete s.bw b hc ha
    have hlen : (pendingBits s.bw ++ [b]).length = 8 := by simp [pendingBits_length, hc]
    have hwb : wholeBytes (pendingBits s.bw ++ [b]) = [BitVec.ofNat 8 (bitsValue 0 (pendingBits s.bw ++ [b]))] := by
      have := wholeBytes_eight (cs := []) hlen
      rwa [List.append_nil] at this
    have hlb : leftBits (pendingBits s.bw ++ [b]) = [] := by
      have := leftBits_eight (cs := []) hlen
      rwa [List.append_nil] at this
    rw [putBit, run_get_bind, if_pos hc, run_update_bind, hacc]
    rw [appended, hlb]
    rw [emittedBytes, hwb] at hr ⊢
    generalize BitVec.ofNat 8 (bitsValue 0 (pendingBits s.bw ++ [b])) = v at hr ⊢
    by_cases hv : v = 0xFF#8
    · subst hv
      have hr2 : hasRoom s 2 := by simpa [stuffed] using hr
      have hr0 : hasRoom (setPending 0#8 0#3 s) 1 := ⟨by simp; have := hr2.1; omega, hr2.2⟩
      rw [run_bind_ok _ (run_emit _ hr0), if_pos rfl]
      have hptr := ptr_add (s := s) (n := 1) ⟨by have := hr2.1; omega, hr2.2⟩
      have hr3 : hasRoom (advanceWriter 1 (writeByte s.bw.ptr.toNat 0xFF#8 (setPending 0#8 0#3 s))) 1 := by
        refine ⟨?_, hr2.2⟩
        change (s.bw.ptr + BitVec.ofNat 32 1).toNat + 1 ≤ s.bw.lim.toNat
        rw [hptr]
        have := hr2.1
        omega
      refine (run_emit _ hr3).trans ?_
      simp only [stuffed, if_pos]
      congr 1
      simp only [emitted, advanceWriter, writeByte, setPending, writeBytes]
      congr 1
      · simp [bitsValue, BitVec.add_assoc]
      · rw [show (1#32 : BitVec 32) = BitVec.ofNat 32 1 from rfl, hptr]
    · have hr1 : hasRoom s 1 := by simpa [stuffed, hv] using hr
      rw [run_bind_ok _ (run_emit _ (s := setPending 0#8 0#3 s) hr1), if_neg hv]
      simp only [stuffed, if_neg hv, run_pure]
      rfl
  · have hc7 : s.bw.cnt.toNat < 7 := by
      have : s.bw.cnt.toNat ≠ 7 := fun h => hc (BitVec.eq_of_toNat_eq h)
      omega
    have hp := pendingBits_push s.bw b hc7 ha
    have hlt2 := acc_push_lt s.bw b hc7 ha
    have hlen : (pendingBits s.bw ++ [b]).length < 8 := by simp [pendingBits_length]; omega
    rw [putBit, run_get_bind, if_neg hc, run_update]
    have := appended_nil (s := setPending (s.bw.acc <<< 1 ||| (BitVec.ofBool b).setWidth 8) (s.bw.cnt + 1#3) s) hlt2
    rw [← this]
    simp only [appended, emittedBytes, setPending_bw, hp, List.append_nil, wholeBytes_short hlen, leftBits_short hlen]
    rfl

theorem hasRoom_appended {s : State} {bs : List Bool} {n : Nat} (h : hasRoom s ((emittedBytes s.bw bs).length + n)) :
    hasRoom (appended bs s) n := by
  obtain ⟨h1, h2⟩ := h
  refine ⟨?_, h2⟩
  have := ptr_add (s := s) (n := (emittedBytes s.bw bs).length) ⟨by omega, h2⟩
  simp only [appended, emitted_bw, this]
  omega

/-- Appending twice is appending both bit strings. -/
theorem appended_appended {s : State} {bs cs : List Bool} (h : hasRoom s (emittedBytes s.bw bs).length) :
    appended cs (appended bs s) = appended (bs ++ cs) s := by
  rw [appended.eq_1 cs, emittedBytes, pendingBits_appended, ← leftBits_append]
  rw [appended.eq_1 bs, emitted_emitted h, emittedBytes, ← stuffed_append, ← wholeBytes_append, appended, emittedBytes]
  simp only [List.append_assoc]

theorem emittedBytes_append (w : BitWriter) (s : State) (hw : s.bw = w) (bs cs : List Bool) :
    emittedBytes w (bs ++ cs) = emittedBytes w bs ++ emittedBytes (appended bs s).bw cs := by
  subst hw
  rw [emittedBytes, emittedBytes, emittedBytes, pendingBits_appended, ← stuffed_append, ← wholeBytes_append,
    List.append_assoc]

/-- PUTBITS with room: the bits are appended (43 R460). -/
theorem run_putBits {s : State} (bs : List Bool) (ha : s.bw.acc.toNat < 2 ^ s.bw.cnt.toNat)
    (hr : hasRoom s (emittedBytes s.bw bs).length) : putBits bs s = .ok () (appended bs s) := by
  induction bs generalizing s with
  | nil => rw [appended_nil ha]; rfl
  | cons b bs ih =>
    have hsplit := emittedBytes_append s.bw s rfl [b] bs
    rw [List.singleton_append] at hsplit
    rw [hsplit, List.length_append] at hr
    have hr1 : hasRoom s (emittedBytes s.bw [b]).length := ⟨by have := hr.1; omega, hr.2⟩
    rw [putBits, run_forEach_cons, run_bind_ok s (run_putBit b ha hr1)]
    rw [show forEach bs putBit = putBits bs from rfl, ih (appended_acc_lt _ _) (hasRoom_appended hr),
      appended_appended hr1]
    rfl

/-- FLUSH with room: the pending bits are padded with 1-bits to a byte (43 R463). -/
theorem bitsMsb_ones (n : Nat) : bitsMsb (2 ^ n - 1) n = List.replicate n true := by
  suffices h : ∀ k, k ≤ n → bitsMsb (2 ^ n - 1) k = List.replicate k true from h n (Nat.le_refl n)
  intro k hk
  induction k with
  | zero => rfl
  | succ k ih =>
    rw [bitsMsb, ih (by omega), Nat.testBit_two_pow_sub_one, List.replicate_succ]
    simp
    omega

theorem run_flush {s : State} (ha : s.bw.acc.toNat < 2 ^ s.bw.cnt.toNat)
    (hr : hasRoom s (emittedBytes s.bw (padBits s.bw)).length) : flush s = .ok () (appended (padBits s.bw) s) := by
  rw [flush, run_get_bind]
  by_cases hc : s.bw.cnt = 0#3
  · rw [if_pos hc]
    have : padBits s.bw = [] := by simp [padBits, hc]
    rw [this, appended_nil ha]
    rfl
  · rw [if_neg hc, bitsMsb_ones]
    have hpos : s.bw.cnt.toNat ≠ 0 := fun h => hc (BitVec.eq_of_toNat_eq h)
    have : padBits s.bw = List.replicate (8 - s.bw.cnt.toNat) true := by
      rw [padBits, Nat.mod_eq_of_lt (by omega)]
    rw [← this, run_putBits _ ha hr]

/-! ### Raw bytes -/

theorem rawWritten_rawWritten {s : State} {bs cs : List Byte} (h : hasRoom s bs.length) :
    rawWritten cs (rawWritten bs s) = rawWritten (bs ++ cs) s := by
  have hptr := ptr_add h
  have hw : (writeBytes (rawWritten bs s).bw.ptr.toNat cs (rawWritten bs s)).mem
      = (writeBytes s.bw.ptr.toNat (bs ++ cs) s).mem := by
    rw [writeBytes_append, ← hptr]
    exact writeBytes_mem_congr _ _ rfl
  rw [rawWritten, hw, rawWritten, rawWritten]
  congr 1
  simp only [List.length_append, BitVec.ofNat_add, BitVec.add_assoc]

theorem hasRoom_rawWritten {s : State} {bs : List Byte} {n : Nat} (h : hasRoom s (bs.length + n)) :
    hasRoom (rawWritten bs s) n := by
  obtain ⟨h1, h2⟩ := h
  refine ⟨?_, h2⟩
  have hp : (rawWritten bs s).bw.ptr.toNat = _ := ptr_add (s := s) (n := bs.length) ⟨by omega, h2⟩
  rw [hp]
  change _ ≤ s.bw.lim.toNat
  omega

theorem rawWritten_nil (s : State) : rawWritten [] s = s := by simp [rawWritten, writeBytes]

/-- Raw bytes with room, at a byte boundary (43 R464). -/
theorem run_rawBytes {s : State} (bs : List Byte) (hc : s.bw.cnt = 0#3) (hr : hasRoom s bs.length) :
    forEach bs rawByte s = .ok () (rawWritten bs s) := by
  induction bs generalizing s with
  | nil => rw [rawWritten_nil]; rfl
  | cons b bs ih =>
    have h1 : hasRoom s 1 := ⟨by have := hr.1; simp at this; omega, hr.2⟩
    have hw : (advanceWriter 1 (writeByte s.bw.ptr.toNat b s)) = rawWritten [b] s := rfl
    rw [run_forEach_cons, run_bind_ok s (run_rawByte b hc h1), hw,
      ih (s := rawWritten [b] s) hc (hasRoom_rawWritten (bs := [b]) (by simpa [Nat.add_comm] using hr)),
      rawWritten_rawWritten (bs := [b]) h1]
    rfl

/-! ### No room -/

/-- PUTBITS without room: ERR_BOUNDS; the bytes that fit are in LMEM, BW_PTR is BW_LIM, the next byte is lost (43 R460). -/
theorem run_putBits_full {s : State} (bs : List Bool) (hp : s.bw.ptr.toNat ≤ s.bw.lim.toNat)
    (hm : s.bw.lim.toNat ≤ s.memBytes) (ha : s.bw.acc.toNat < 2 ^ s.bw.cnt.toNat)
    (hr : s.bw.lim.toNat < s.bw.ptr.toNat + (emittedBytes s.bw bs).length) :
    putBits bs s = .error .bounds (overflowed (emittedBytes s.bw bs) s) := by
  induction bs generalizing s with
  | nil =>
    have hlen : (pendingBits s.bw).length < 8 := by
      rw [pendingBits_length]
      exact s.bw.cnt.isLt
    rw [emittedBytes, List.append_nil, wholeBytes_short hlen] at hr
    simp at hr
    omega
  | cons b bs ih =>
    have hsplit := emittedBytes_append s.bw s rfl [b] bs
    rw [List.singleton_append] at hsplit
    by_cases h1 : hasRoom s (emittedBytes s.bw [b]).length
    · have hptr := ptr_add h1
      have hp' : (appended [b] s).bw.ptr.toNat = s.bw.ptr.toNat + (emittedBytes s.bw [b]).length := hptr
      rw [putBits, run_forEach_cons, run_bind_ok s (run_putBit b ha h1)]
      have h2 := ih (s := appended [b] s) (by rw [hp']; exact h1.1) hm (appended_acc_lt _ _) (by
        rw [hp']
        rw [hsplit, List.length_append] at hr
        change s.bw.lim.toNat < _
        omega)
      rw [show forEach bs putBit = putBits bs from rfl, h2, hsplit]
      congr 1
      rw [overflowed, overflowed]
      congr 1
      rw [hp']
      change (writeBytes _ (List.take (s.bw.lim.toNat - _) _) _).mem = _
      rw [List.take_append, List.take_of_length_le (l := emittedBytes s.bw [b]) (by have := h1.1; omega), writeBytes_append, Nat.sub_add_eq]
      exact writeBytes_mem_congr _ _ rfl
    · have hc : s.bw.cnt = 7#3 := by
        by_contra hc
        have hc7 : s.bw.cnt.toNat < 7 := by
          have hlt := s.bw.cnt.isLt
          have : s.bw.cnt.toNat ≠ 7 := fun h => hc (BitVec.eq_of_toNat_eq h)
          omega
        have hlen : (pendingBits s.bw ++ [b]).length < 8 := by simp [pendingBits_length]; omega
        exact h1 ⟨by rw [emittedBytes, wholeBytes_short hlen]; simpa using hp, hm⟩
      have hacc := acc_complete s.bw b hc ha
      have hlen : (pendingBits s.bw ++ [b]).length = 8 := by simp [pendingBits_length, hc]
      have hwb : wholeBytes (pendingBits s.bw ++ [b]) = [BitVec.ofNat 8 (bitsValue 0 (pendingBits s.bw ++ [b]))] := by
        have := wholeBytes_eight (cs := []) hlen
        rwa [List.append_nil] at this
      have he : emittedBytes s.bw [b] = stuffed [BitVec.ofNat 8 (bitsValue 0 (pendingBits s.bw ++ [b]))] := by
        rw [emittedBytes, hwb]
      rw [putBits, run_forEach_cons]
      rw [he] at h1 hsplit
      suffices h : putBit b s = .error .bounds (overflowed (emittedBytes s.bw (b :: bs)) s) by
        rw [run_bind_error s h]
      rw [putBit, run_get_bind, if_pos hc, run_update_bind, hacc, hsplit]
      generalize BitVec.ofNat 8 (bitsValue 0 (pendingBits s.bw ++ [b])) = v at h1 ⊢
      generalize emittedBytes (appended [b] s).bw bs = rest
      by_cases h0 : s.bw.ptr.toNat = s.bw.lim.toNat
      · rw [run_bind_error _ (run_emit_full v (s := setPending 0#8 0#3 s) (by simp; omega))]
        congr 1
        have hpl : s.bw.ptr = s.bw.lim := BitVec.eq_of_toNat_eq h0
        simp [overflowed, setPending, hpl, writeBytes]
      · have hv : v = 0xFF#8 := by
          by_contra hv
          exact h1 ⟨by simp only [stuffed, if_neg hv, List.length_singleton]; omega, hm⟩
        subst hv
        simp only [stuffed, if_true] at h1 ⊢
        have hlim : s.bw.lim.toNat = s.bw.ptr.toNat + 1 := by
          by_contra hl
          exact h1 ⟨by simp only [List.length_cons, List.length_nil]; omega, hm⟩
        have hr1 : hasRoom (setPending 0#8 0#3 s) 1 := ⟨by simp; omega, hm⟩
        rw [run_bind_ok _ (run_emit _ hr1)]
        have hp1 : (s.bw.ptr + 1#32) = s.bw.lim := by
          apply BitVec.eq_of_toNat_eq
          rw [hlim]
          exact ptr_add (s := s) (n := 1) ⟨by omega, hm⟩
        refine (run_emit_full _ ?_).trans ?_
        · change s.bw.lim.toNat ≤ (s.bw.ptr + 1#32).toNat
          rw [hp1]
        · congr 1
          have hs : s.bw.lim.toNat - s.bw.ptr.toNat = 1 := by omega
          simp only [overflowed, advanceWriter, writeByte, setPending, hs, hp1, List.cons_append, List.nil_append,
            List.take_succ_cons, List.take_zero, writeBytes]

end Sys2Proof.Machine
end

