-- ==== Sys2Proof/Laws/Closure.lean ====
section
/-! SUPPORT. Everything each operation and each command can do to the state: a property that survives the named changes
listed in the hypotheses survives the whole operation, with or without error. Frames and invariants of every command come
from these lemmas. -/

namespace Sys2Proof.Machine

/-! ### Bit writer -/

/-- P survives every change the bit writer makes (43 R460). -/
structure WriterClosed (P : State → Prop) : Prop where
  emit : ∀ v s, P s → s.bw.ptr.toNat < s.bw.lim.toNat → s.bw.ptr.toNat < s.memBytes →
    P (advanceWriter 1 (writeByte s.bw.ptr.toNat v s))
  clear : ∀ s, P s → s.bw.cnt = 7#3 → P (setPending 0#8 0#3 s)
  push : ∀ b s, P s → s.bw.cnt ≠ 7#3 →
    P (setPending (s.bw.acc <<< 1 ||| (BitVec.ofBool b).setWidth 8) (s.bw.cnt + 1#3) s)

section Writer
variable {P : State → Prop}

theorem keeps_emit (hP : WriterClosed P) (v : Byte) : Keeps P (emit v) := by
  intro s hs
  rw [emit, run_checkState_bind]
  split
  · next h =>
    rw [run_get_bind]
    by_cases hm : s.bw.ptr.toNat < s.memBytes
    · rw [run_bind_ok s (run_memWrite s v hm)]
      exact hP.emit v s hs (by simpa using h) hm
    · rw [run_bind_error (e := .bounds) (t := s) s (by simp [memWrite, hm])]
      exact hs
  · exact hs

theorem keeps_putBit (hP : WriterClosed P) (b : Bool) : Keeps P (putBit b) := by
  refine keeps_get_bind fun s hs => ?_
  split
  · next hc =>
    rw [run_update_bind]
    refine (keeps_bind (keeps_emit hP _) fun _ => keeps_ite (keeps_emit hP _) (keeps_pure _)) _ (hP.clear s hs hc)
  · next hc => exact hP.push b s hs hc

theorem keeps_putBits (hP : WriterClosed P) (bs : List Bool) : Keeps P (putBits bs) :=
  keeps_forEach fun b _ => keeps_putBit hP b

theorem keeps_flush (hP : WriterClosed P) : Keeps P flush :=
  keeps_bind keeps_get fun _ => keeps_ite (keeps_pure _) (keeps_putBits hP _)

theorem keeps_rawByte (hP : WriterClosed P) (v : Byte) : Keeps P (rawByte v) :=
  keeps_bind (keeps_checkState _ _) fun _ => keeps_emit hP v

end Writer

/-! ### Bit reader -/

/-- P survives every change GETBIT makes (43 R466). -/
structure ReaderClosed (P : State → Prop) : Prop where
  load : ∀ c n s, P s → s.br.cnt = 0#4 → s.br.ptr.toNat + n.toNat ≤ s.br.lim.toNat → P (loadCurrent c n s)
  mark : ∀ s, P s → P (setMark s)
  take : ∀ s, P s → s.br.cnt ≠ 0#4 → P (setCount (s.br.cnt - 1#4) s)

/-- P survives the byte-wise moves of the reader (45 R580, R610). -/
structure BytesClosed (P : State → Prop) : Prop where
  advance : ∀ n s, P s → s.br.ptr.toNat + n ≤ s.br.lim.toNat → P (advanceReader n s)
  drop : ∀ s, P s → P (dropPadding s)

section Reader
variable {P : State → Prop}

/-- FILL: an unread byte is loaded, or a marker is met, or nothing changes. -/
theorem fill_cases (s : State) :
    (∃ c n, fill s = .ok () (loadCurrent c n s) ∧ s.br.ptr.toNat + n.toNat ≤ s.br.lim.toNat)
      ∨ fill s = .error .unexpectedMarker (setMark s) ∨ ∃ e, fill s = .error e s := by
  rw [fill, run_checkState_bind]
  split
  · rw [run_checkState_bind]
    split
    · next hlt =>
      have hlt : s.br.ptr.toNat < s.br.lim.toNat := by simpa using hlt
      rw [run_get_bind]
      by_cases hm : s.br.ptr.toNat < s.memBytes
      · rw [run_bind_ok s (run_memRead s hm)]
        split
        · exact .inl ⟨_, _, rfl, by simpa using hlt⟩
        · rw [run_check_bind]
          split
          · next hl2 =>
            have hl2 : s.br.ptr.toNat + 1 < s.br.lim.toNat := by simpa using hl2
            by_cases hm2 : s.br.ptr.toNat + 1 < s.memBytes
            · rw [run_bind_ok s (run_memRead s hm2)]
              split
              · exact .inl ⟨_, _, rfl, by simp; omega⟩
              · exact .inr (.inl rfl)
            · rw [run_bind_error s (run_memRead_outside s (by omega))]
              exact .inr (.inr ⟨_, rfl⟩)
          · exact .inr (.inr ⟨_, rfl⟩)
      · rw [run_bind_error s (run_memRead_outside s (by omega))]
        exact .inr (.inr ⟨_, rfl⟩)
    · exact .inr (.inr ⟨_, rfl⟩)
  · exact .inr (.inr ⟨_, rfl⟩)

theorem keeps_getBit (hP : ReaderClosed P) : Keeps P getBit := by
  refine keeps_get_bind fun s hs => ?_
  split
  · next hc =>
    rcases fill_cases s with ⟨c, n, h1, h2⟩ | h1 | ⟨e, h1⟩
    · rw [run_bind_ok s h1]
      exact hP.take _ (hP.load c n s hs hc h2) (by simp)
    · rw [run_bind_error s h1]
      exact hP.mark s hs
    · rw [run_bind_error s h1]
      exact hs
  · next hc => exact hP.take s hs hc

theorem keeps_getBitList (hP : ReaderClosed P) (n : Nat) : Keeps P (getBitList n) := by
  induction n with
  | zero => exact keeps_pure _
  | succ n ih => exact keeps_bind (keeps_getBit hP) fun _ => keeps_bind ih fun _ => keeps_pure _

theorem keeps_getBits (hP : ReaderClosed P) (n : Nat) : Keeps P (getBits n) :=
  keeps_bind (keeps_getBitList hP n) fun _ => keeps_pure _

theorem keeps_decodeSymFrom (hP : ReaderClosed P) (t : HuffTable) (ls : List Level) (code : Nat) :
    Keeps P (decodeSymFrom t ls code) := by
  induction ls generalizing code with
  | nil => exact keeps_raise _
  | cons l ls ih =>
    refine keeps_bind (keeps_getBit hP) fun b => ?_
    split
    · exact keeps_pure _
    · exact ih _

theorem keeps_decodeSym (hP : ReaderClosed P) (t : HuffTable) : Keeps P (decodeSym t) := keeps_decodeSymFrom hP t _ _

theorem keeps_nextByte (hP : BytesClosed P) (e : ErrCode) : Keeps P (nextByte e) := by
  refine keeps_checkState_bind fun s hs h => ?_
  rw [run_get_bind]
  have h : s.br.ptr.toNat < s.br.lim.toNat := by simpa using h
  by_cases hm : s.br.ptr.toNat < s.memBytes
  · rw [run_bind_ok s (run_memRead s hm)]
    exact hP.advance 1 s hs h
  · rw [run_bind_error s (run_memRead_outside s (by omega))]
    exact hs

theorem keeps_codeAfterFill (hP : BytesClosed P) (n : Nat) : Keeps P (codeAfterFill n) := by
  induction n with
  | zero => exact keeps_raise _
  | succ n ih => exact keeps_bind (keeps_nextByte hP _) fun _ => keeps_ite ih (keeps_pure _)

theorem keeps_nextMarker (hP : BytesClosed P) : Keeps P nextMarker :=
  keeps_bind (keeps_nextByte hP _) fun _ => keeps_bind (keeps_check _ _) fun _ =>
    keeps_bind keeps_get fun _ => keeps_codeAfterFill hP _

/-- SEGLEN answers a length that fits, or raises; it changes nothing (45 R582). -/
theorem segLen_cases (s : State) :
    (∃ len, segLen s = .ok len s ∧ 2 ≤ len ∧ s.br.ptr.toNat + len ≤ s.br.lim.toNat) ∨ ∃ e, segLen s = .error e s := by
  rw [segLen, run_checkState_bind]
  split
  · rw [run_get_bind]
    by_cases hm : s.br.ptr.toNat + 1 < s.memBytes
    · rw [run_bind_ok s (run_memRead16 s _ hm), run_check_bind]
      split
      · next h =>
        simp only [Bool.and_eq_true, decide_eq_true_eq] at h
        exact .inl ⟨_, rfl, h⟩
      · exact .inr ⟨_, rfl⟩
    · refine .inr ⟨.bounds, ?_⟩
      rw [run_bind_error]
      by_cases h0 : s.br.ptr.toNat < s.memBytes
      · rw [memRead16, run_bind_ok s (run_memRead s h0), run_bind_error s (run_memRead_outside s (by omega))]
      · rw [memRead16, run_bind_error s (run_memRead_outside s (by omega))]
  · exact .inr ⟨_, rfl⟩

theorem keeps_segLen_bind {α : Type} {k : Nat → Eng α}
    (h : ∀ len s, P s → 2 ≤ len → s.br.ptr.toNat + len ≤ s.br.lim.toNat → P (stateAfter (k len s))) :
    Keeps P (segLen >>= k) := by
  intro s hs
  rcases segLen_cases s with ⟨len, h1, h2, h3⟩ | ⟨e, h1⟩
  · rw [run_bind_ok s h1]
    exact h len s hs h2 h3
  · rw [run_bind_error s h1]
    exact hs

end Reader

/-! ### Tables -/

/-- P survives installing tables that passed their checks (41 R358, 43 R474). -/
structure TablesClosed (P : State → Prop) : Prop where
  quant : ∀ t e s, P s → (∀ i : Fin 64, e[i] ≠ 0#8) → P (installQt t e s)
  huff : ∀ tc th bits vals s, P s → bits.length = 16 → bitsValid (bits.map BitVec.toNat) = true →
    P (installHt tc th (huffTableOf bits vals) s)

theorem naturalTable_ne_zero {bs : List Byte} (hl : bs.length = 64) (h : (bs.all fun b => decide (b ≠ 0#8)) = true)
    (i : Fin 64) : (naturalTable bs)[i] ≠ 0#8 := by
  have hi : izz[i].val < bs.length := by
    rw [hl]
    exact izz[i].isLt
  have hn : (naturalTable bs)[i] = bs.getD izz[i].val 0#8 := by
    rw [naturalTable]
    exact Vector.getElem_ofFn ..
  rw [hn, List.getD_eq_getElem?_getD, List.getElem?_eq_getElem hi]
  have := List.all_eq_true.mp h _ (List.getElem_mem hi)
  simpa using this

theorem qEntry_ne_zero (base scale : Nat) : qEntry base scale ≠ 0#8 := by
  have h : 1 ≤ clamp ((((base * scale + 0x200) >>> 10 : Nat)) : Int) 1 255
      ∧ clamp ((((base * scale + 0x200) >>> 10 : Nat)) : Int) 1 255 ≤ 255 := by
    unfold clamp
    split
    · omega
    · split <;> omega
  intro h0
  rw [qEntry, byteOf] at h0
  obtain ⟨n, hn⟩ := Int.eq_ofNat_of_zero_le (a := clamp ((((base * scale + 0x200) >>> 10 : Nat)) : Int) 1 255) (by omega)
  rw [hn] at h h0
  have := congrArg BitVec.toNat h0
  simp at this
  omega

theorem builtTable_ne_zero (seed : Bool) (scale : Nat) (i : Fin 64) : (builtTable seed scale)[i] ≠ 0#8 := by
  have : (builtTable seed scale)[i] = qEntry (seedTable seed)[i] scale := by
    rw [builtTable]
    exact Vector.getElem_ofFn ..
  rw [this]
  exact qEntry_ne_zero _ _

section Tables
variable {P : State → Prop}

theorem keeps_doQbuild (t : BitVec 2) (x : BitVec 4) (a : Word)
    (hq : ∀ e s, P s → (∀ i : Fin 64, e[i] ≠ 0#8) → P (installQt t e s)) (hr : ∀ v s, P s → P (setRes0 v s)) :
    Keeps P (doQbuild t x a) :=
  keeps_bind (keeps_check _ _) fun _ => keeps_bind (fun s hs => hq _ s hs (builtTable_ne_zero _ _)) fun _ => hr _

theorem keeps_doQload (t : BitVec 2) (a : Word) (hq : ∀ e s, P s → (∀ i : Fin 64, e[i] ≠ 0#8) → P (installQt t e s)) :
    Keeps P (doQload t a) :=
  keeps_bind (keeps_checkExtent _ _) fun _ => keeps_memReads_bind fun _ hl =>
    keeps_check_bind fun h s hs => hq _ s hs (naturalTable_ne_zero hl h)

theorem keeps_doHload (t : BitVec 2) (x : BitVec 4) (a : Word)
    (hh : x.toNat < 2 → t.toNat < 2 → ∀ bits vals s, P s → bits.length = 16 → bitsValid (bits.map BitVec.toNat) = true →
      P (installHt (x.setWidth 1) (t.setWidth 1) (huffTableOf bits vals) s))
    (hr : ∀ v s, P s → P (setRes0 v s)) : Keeps P (doHload t x a) := by
  refine keeps_check_bind fun hx => ?_
  simp only [Bool.and_eq_true, decide_eq_true_eq] at hx
  refine keeps_bind (keeps_checkExtent _ _) fun _ => keeps_memReads_bind fun bits hl => ?_
  refine keeps_bind (keeps_check _ _) fun _ => keeps_bind (keeps_checkExtent _ _) fun _ =>
    keeps_bind (keeps_memReads _ _) fun vals => keeps_check_bind fun hv => ?_
  exact keeps_bind (fun s hs => hh hx.1 hx.2 bits vals s hs hl hv) fun _ => hr _

/-- DQT keeps what table installs keep; the reader stays where it is until the end (45 R583). -/
theorem keeps_dqtTables (hq : ∀ t e s, P s → (∀ i : Fin 64, e[i] ≠ 0#8) → P (installQt t e s)) (stop fuel p : Nat) :
    Keeps P (dqtTables stop fuel p) := by
  induction fuel generalizing p with
  | zero => exact keeps_pure _
  | succ n ih =>
    refine keeps_ite (keeps_pure _) (keeps_bind (keeps_memRead _) fun _ => keeps_bind (keeps_check _ _) fun _ =>
      keeps_bind (keeps_check _ _) fun _ => keeps_memReads_bind fun _ hl => keeps_check_bind fun h =>
      keeps_bind (fun s hs => hq _ _ s hs (naturalTable_ne_zero hl h)) fun _ => ih _)

theorem keeps_dhtTables (hh : ∀ tc th bits vals s, P s → bits.length = 16 → bitsValid (bits.map BitVec.toNat) = true →
    P (installHt tc th (huffTableOf bits vals) s)) (stop fuel p : Nat) : Keeps P (dhtTables stop fuel p) := by
  induction fuel generalizing p with
  | zero => exact keeps_pure _
  | succ n ih =>
    refine keeps_ite (keeps_pure _) (keeps_bind (keeps_memRead _) fun _ => keeps_bind (keeps_check _ _) fun _ =>
      keeps_bind (keeps_check _ _) fun _ => keeps_memReads_bind fun bits hl => keeps_bind (keeps_check _ _) fun _ =>
      keeps_bind (keeps_memReads _ _) fun vals => keeps_check_bind fun h =>
      keeps_bind (fun s hs => hh _ _ bits vals s hs hl h) fun _ => ih _)

end Tables

end Sys2Proof.Machine
end

