-- ==== Sys2Proof/Laws/Commands.lean ====
section
/-! SUPPORT. The closure lemmas of the commands (see Laws/Closure): what survives a command's every named change survives the
command. -/

namespace Sys2Proof.Machine

variable {P : State → Prop}

/-! ### Block and pixel commands -/

theorem keeps_doFdct (d src : Slot) (h : ∀ b s, P s → P (setBlk d b s)) : Keeps P (doFdct d src) := fun s hs => h _ s hs

theorem keeps_doIdct (d src : Slot) (h : ∀ b s, P s → P (setBlk d b s)) : Keeps P (doIdct d src) := fun s hs => h _ s hs

theorem keeps_doZigzag (d src : Slot) (h : ∀ b s, P s → P (setBlk d b s)) : Keeps P (doZigzag d src) := fun s hs => h _ s hs

theorem keeps_doUnzigzag (d src : Slot) (h : ∀ b s, P s → P (setBlk d b s)) : Keeps P (doUnzigzag d src) :=
  fun s hs => h _ s hs

theorem keeps_doQuant (d src : Slot) (t : BitVec 2) (h : ∀ b s, P s → P (setBlk d b s)) : Keeps P (doQuant d src t) :=
  keeps_bind (keeps_checkState _ _) fun _ s hs => h _ s hs

theorem keeps_doDequant (d src : Slot) (t : BitVec 2) (h : ∀ b s, P s → P (setBlk d b s)) : Keeps P (doDequant d src t) :=
  keeps_bind (keeps_checkState _ _) fun _ s hs => h _ s hs

theorem writeMcu_keeps (s0 : State) (f : PixelFormat) (ss : Subsampling) (base w h mx my : Nat) (ps : List (Slot × Fin 3))
    (hb : ∀ p ∈ ps, ∀ b s, P s → P (setBlk p.1 b s)) {s : State} (hs : P s) :
    P (writeMcu s0 f ss base w h mx my ps s) := by
  induction ps generalizing s with
  | nil => exact hs
  | cons p ps ih => exact ih (fun q hq => hb q (by simp [hq])) (hb p (by simp) _ s hs)

theorem keeps_checkMcu (ss : Subsampling) (w h mx my : Nat) : Keeps P (checkMcu ss w h mx my) :=
  keeps_bind (keeps_check _ _) fun _ => keeps_check _ _

theorem keeps_doCconv (t : BitVec 2) (x : BitVec 4) (base dims pos : Word)
    (hb : ∀ p ∈ mcuBlocks (subsamplingOf t), ∀ b s, P s → P (setBlk p.1 b s)) : Keeps P (doCconv t x base dims pos) := by
  unfold doCconv
  split
  · exact keeps_raise _
  · exact keeps_bind (keeps_checkMcu _ _ _ _ _) fun _ => keeps_bind (keeps_checkExtent _ _) fun _ s hs =>
      writeMcu_keeps s _ _ _ _ _ _ _ _ hb hs

theorem writeBytes_keeps {lo hi : Nat} (hw : ∀ a v s, P s → lo ≤ a → a < hi → P (writeByte a v s)) (bs : List Byte) (a : Nat)
    (h1 : lo ≤ a) (h2 : a + bs.length ≤ hi) {s : State} (hs : P s) : P (writeBytes a bs s) := by
  induction bs generalizing a s with
  | nil => exact hs
  | cons b bs ih =>
    simp only [List.length_cons] at h2
    exact ih (a + 1) (by omega) (by omega) (hw a b s hs h1 (by omega))

theorem pixelBytes_length (bgr : Bool) (p : Triple) : (pixelBytes bgr p).length = 3 := by
  cases bgr <;> rfl

theorem writePixel_keeps (s0 : State) (ss : Subsampling) (bgr : Bool) (out w h mx my px py : Nat)
    (hw : ∀ a v s, P s → out ≤ a → a < out + 3 * w * h → P (writeByte a v s)) {s : State} (hs : P s) :
    P (writePixel s0 ss bgr out w h mx my px py s) := by
  unfold writePixel
  split
  · next hin =>
    refine writeBytes_keeps (lo := out) (hi := out + 3 * w * h) hw _ _ (by omega) ?_ hs
    rw [pixelBytes_length]
    have : (mcuH ss * my + py) * w + w ≤ h * w := by
      rw [← Nat.succ_mul]
      exact Nat.mul_le_mul_right w hin.2
    have : 3 * w * h = 3 * (h * w) := by ring
    omega
  · exact hs

theorem writePixels_keeps (s0 : State) (ss : Subsampling) (bgr : Bool) (out w h mx my : Nat) (ps : List (Nat × Nat))
    (hw : ∀ a v s, P s → out ≤ a → a < out + 3 * w * h → P (writeByte a v s)) {s : State} (hs : P s) :
    P (writePixels s0 ss bgr out w h mx my ps s) := by
  induction ps generalizing s with
  | nil => exact hs
  | cons p ps ih => exact ih (writePixel_keeps s0 ss bgr out w h mx my p.1 p.2 hw hs)

theorem keeps_doUpscc (t : BitVec 2) (x : BitVec 4) (out dims pos : Word)
    (hw : ∀ a v s, P s → out.toNat ≤ a → a < out.toNat + 3 * lowHalf dims * highHalf dims → a < s.memBytes →
      P (writeByte a v s)) : Keeps P (doUpscc t x out dims pos) := by
  refine keeps_bind (keeps_check _ _) fun _ => keeps_bind (keeps_check _ _) fun _ =>
    keeps_bind (keeps_checkMcu _ _ _ _ _) fun _ => keeps_checkState_bind fun s hs hx => ?_
  have hx : out.toNat + 3 * lowHalf dims * highHalf dims ≤ s.memBytes := by simpa using hx
  refine (writePixels_keeps (P := fun t => P t ∧ t.memBytes = s.memBytes) s _ _ _ _ _ _ _ _ ?_ ⟨hs, rfl⟩).1
  intro a v u hu h1 h2
  exact ⟨hw a v u hu.1 h1 h2 (by rw [hu.2]; omega), hu.2⟩

/-! ### Bit writer, bit reader and Huffman commands -/

theorem keeps_doBwinit (a n : Word)
    (h : ∀ s, P s → a.toNat + n.toNat ≤ s.memBytes →
      P { s with bw := { ptr := a, lim := a + n, acc := 0#8, cnt := 0#3 } }) : Keeps P (doBwinit a n) :=
  keeps_checkState_bind fun s hs hx => h s hs (by simpa using hx)

theorem keeps_doBrinit (a n : Word)
    (h : ∀ s, P s → a.toNat + n.toNat ≤ s.memBytes →
      P { s with br := { ptr := a, lim := a + n, cur := 0#8, cnt := 0#4, mark := false } }) : Keeps P (doBrinit a n) :=
  keeps_checkState_bind fun s hs hx => h s hs (by simpa using hx)

theorem keeps_encodeBlock (hP : WriterClosed P) (src : Slot) (c : Fin 3) (chroma : Bool)
    (hp : ∀ v s, P s → P (setPred c v s)) : Keeps P (encodeBlock src c chroma) :=
  keeps_bind keeps_get fun _ => keeps_bind (keeps_putBits hP _) fun _ => hp _

theorem componentOf_some {c : BitVec 2} {k : Fin 3} (h : componentOf c = some k) : k.val = c.toNat := by
  unfold componentOf at h
  split at h
  · simp only [Option.some.injEq] at h
    exact h ▸ rfl
  · simp at h

theorem keeps_doHenc (hP : WriterClosed P) (src : Slot) (c t : BitVec 2)
    (hp : ∀ (k : Fin 3), k.val = c.toNat → ∀ v s, P s → P (setPred k v s)) : Keeps P (doHenc src c t) := by
  unfold doHenc
  split
  · exact keeps_raise _
  · next k hk => exact keeps_bind (keeps_check _ _) fun _ => keeps_encodeBlock hP src k _ (hp k (componentOf_some hk))

theorem keeps_decodeAc (hP : ReaderClosed P) (t : HuffTable) (fuel k : Nat) (z : Block) : Keeps P (decodeAc t fuel k z) := by
  induction fuel generalizing k z with
  | zero => exact keeps_pure _
  | succ n ih =>
    unfold decodeAc
    refine keeps_ite (keeps_pure _) (keeps_bind (keeps_decodeSym hP t) fun rs => ?_)
    refine keeps_ite (keeps_ite (keeps_bind (keeps_check _ _) fun _ => ih _ _) (keeps_ite (keeps_pure _) (keeps_raise _))) ?_
    exact keeps_bind (keeps_check _ _) fun _ => keeps_bind (keeps_check _ _) fun _ =>
      keeps_bind (keeps_getBits hP _) fun _ => ih _ _

theorem keeps_decodeDc (hP : ReaderClosed P) (t : HuffTable) (c : Fin 3) : Keeps P (decodeDc t c) :=
  keeps_bind (keeps_decodeSym hP t) fun _ => keeps_bind (keeps_check _ _) fun _ =>
    keeps_bind (keeps_getBits hP _) fun _ => keeps_bind keeps_get fun _ => keeps_pure _

theorem keeps_decodeBlock (hP : ReaderClosed P) (d : Slot) (c : Fin 3) (td ta : BitVec 1)
    (hb : ∀ b s, P s → P (setBlk d b s)) (hp : ∀ v s, P s → P (setPred c v s)) : Keeps P (decodeBlock d c td ta) :=
  keeps_bind (keeps_checkState _ _) fun _ => keeps_bind keeps_get fun _ => keeps_bind (keeps_decodeDc hP _ _) fun _ =>
    keeps_bind (keeps_decodeAc hP _ _ _ _) fun _ => keeps_bind (hb _) fun _ => hp _

theorem keeps_doHdec (hP : ReaderClosed P) (d : Slot) (c t : BitVec 2) (hb : ∀ b s, P s → P (setBlk d b s))
    (hp : ∀ (k : Fin 3), k.val = c.toNat → ∀ v s, P s → P (setPred k v s)) : Keeps P (doHdec d c t) := by
  unfold doHdec
  split
  · exact keeps_raise _
  · next k hk => exact keeps_decodeBlock hP d k _ _ hb (hp k (componentOf_some hk))

theorem keeps_doHdrw (hP : WriterClosed P) (t : BitVec 2) (dims : Word) (hr : ∀ v s, P s → P (setRes0 v s)) :
    Keeps P (doHdrw t dims) :=
  keeps_bind (keeps_checkState _ _) fun _ => keeps_bind (keeps_checkState _ _) fun _ => keeps_bind (keeps_check _ _) fun _ =>
    keeps_bind keeps_get fun _ => keeps_bind (keeps_forEach fun b _ => keeps_rawByte hP b) fun _ => hr _

theorem keeps_doClose (hP : WriterClosed P) : Keeps P doClose :=
  keeps_bind (keeps_flush hP) fun _ => keeps_bind (keeps_rawByte hP _) fun _ => keeps_rawByte hP _

/-! ### Parser -/

/-- P survives every change the header parse makes (45 R583 to R600). -/
structure HeaderClosed (P : State → Prop) : Prop where
  bytes : BytesClosed P
  tables : TablesClosed P
  start : ∀ s, P s → P (parseStart s)
  pstate : ∀ p s, P s → P (setPstate p s)
  dri : ∀ v s, P s → P { s with dri := v }
  frame : ∀ w h ss tq s, P s → P (acceptFrame w h ss tq s)
  scan : ∀ td ta s, P s → P (acceptScan td ta s)
  res0 : ∀ v s, P s → P (setRes0 v s)

theorem keeps_and_br (hP : BytesClosed P) {len : Nat} {s : State} {x : Eng Unit}
    (hx : Keeps (fun t => P t ∧ t.br = s.br) x) (hs : P s) (hl : s.br.ptr.toNat + len ≤ s.br.lim.toNat) :
    P (stateAfter ((x >>= fun _ => update (advanceReader len)) s)) := by
  have h := hx s ⟨hs, rfl⟩
  rw [run_bind]
  cases hr : x s with
  | ok a t =>
    rw [hr] at h
    exact hP.advance len t h.1 (by rw [show t.br = s.br from h.2]; exact hl)
  | error e t =>
    rw [hr] at h
    exact h.1

theorem keeps_parseDqt (hb : BytesClosed P) (hq : ∀ t e s, P s → (∀ i : Fin 64, e[i] ≠ 0#8) → P (installQt t e s)) :
    Keeps P parseDqt :=
  keeps_segLen_bind fun _ _ hs _ hl => keeps_and_br hb
    (keeps_dqtTables (fun t e u hu he => ⟨hq t e u hu.1 he, hu.2⟩) _ _ _) hs hl

theorem keeps_parseDht (hb : BytesClosed P)
    (hh : ∀ tc th bits vals s, P s → bits.length = 16 → bitsValid (bits.map BitVec.toNat) = true →
      P (installHt tc th (huffTableOf bits vals) s)) : Keeps P parseDht :=
  keeps_segLen_bind fun _ _ hs _ hl => keeps_and_br hb
    (keeps_dhtTables (fun tc th bits vals u hu h1 h2 => ⟨hh tc th bits vals u hu.1 h1 h2, hu.2⟩) _ _ _) hs hl

theorem keeps_skipSegment (hb : BytesClosed P) : Keeps P skipSegment :=
  keeps_segLen_bind fun _ s hs _ hl => hb.advance _ s hs hl

theorem memRead_cases (a : Nat) (s : State) :
    memRead a s = .ok (readByte s a) s ∨ memRead a s = .error .bounds s := by
  unfold memRead
  split
  · exact .inl rfl
  · exact .inr rfl

theorem memRead16_cases (a : Nat) (s : State) :
    memRead16 a s = .ok ((readByte s a).toNat * 256 + (readByte s (a + 1)).toNat) s ∨ memRead16 a s = .error .bounds s := by
  rw [memRead16]
  rcases memRead_cases a s with h | h
  · rw [run_bind_ok s h]
    rcases memRead_cases (a + 1) s with h2 | h2
    · rw [run_bind_ok s h2]
      exact .inl rfl
    · rw [run_bind_error s h2]
      exact .inr rfl
  · rw [run_bind_error s h]
    exact .inr rfl

/-- DRI: the segment's interval is set, or an error is raised and nothing changes (45 R586). -/
theorem keeps_parseDri (hb : BytesClosed P) (hd : ∀ v s, P s → P { s with dri := v }) : Keeps P parseDri := by
  refine keeps_segLen_bind fun len s hs _ hl => ?_
  rw [run_check_bind]
  split
  · next h4 =>
    have h4 : len = 4 := by simpa using h4
    subst h4
    rw [run_get_bind]
    rcases memRead16_cases (s.br.ptr.toNat + 2) s with h | h
    · rw [run_bind_ok s h]
      exact hb.advance 4 _ (hd _ s hs) hl
    · rw [run_bind_error s h]
      exact hs
  · exact hs

/-- SOF0 accepts a frame the parser can decode, or raises and changes nothing (45 R590). -/
theorem parseSof0_cases (s : State) :
    (∃ len w h ss tq, parseSof0 s = .ok () (advanceReader len (acceptFrame w h ss tq s))
      ∧ s.br.ptr.toNat + len ≤ s.br.lim.toNat ∧ (ss = 1#2 ∨ ss = 2#2) ∧ w ≠ 0 ∧ h ≠ 0 ∧ w < 65536 ∧ h < 65536
      ∧ w % 16 = 0 ∧ h % mcuH (subsamplingOf ss) = 0) ∨ ∃ e, parseSof0 s = .error e s := by
  unfold parseSof0
  rcases segLen_cases s with ⟨len, h1, -, hl⟩ | ⟨e, h1⟩
  swap
  · exact .inr ⟨e, run_bind_error s h1⟩
  rw [run_bind_ok s h1, run_check_bind]
  split
  swap
  · exact .inr ⟨_, rfl⟩
  rw [run_get_bind]
  rcases memRead_cases (s.br.ptr.toNat + 2) s with hp | hp
  swap
  · exact .inr ⟨_, run_bind_error s hp⟩
  rw [run_bind_ok s hp]
  rcases memRead16_cases (s.br.ptr.toNat + 2 + 1) s with hh | hh
  swap
  · exact .inr ⟨_, run_bind_error s hh⟩
  rw [run_bind_ok s hh]
  rcases memRead16_cases (s.br.ptr.toNat + 2 + 3) s with hw | hw
  swap
  · exact .inr ⟨_, run_bind_error s hw⟩
  rw [run_bind_ok s hw]
  rcases memRead_cases (s.br.ptr.toNat + 2 + 5) s with hn | hn
  swap
  · exact .inr ⟨_, run_bind_error s hn⟩
  rw [run_bind_ok s hn, run_check_bind]
  have b16 (a : Nat) : (readByte s a).toNat * 256 + (readByte s (a + 1)).toNat < 65536 := by
    have := (readByte s a).isLt
    have := (readByte s (a + 1)).isLt
    omega
  have hh16 := b16 (s.br.ptr.toNat + 2 + 1)
  have hw16 := b16 (s.br.ptr.toNat + 2 + 3)
  split
  swap
  · exact .inr ⟨_, rfl⟩
  rw [run_check_bind]
  split
  swap
  · exact .inr ⟨_, rfl⟩
  next hwh =>
  rw [run_check_bind]
  split
  swap
  · exact .inr ⟨_, rfl⟩
  rw [run_check_bind]
  split
  swap
  · exact .inr ⟨_, rfl⟩
  rw [run_check_bind]
  split
  swap
  · exact .inr ⟨_, rfl⟩
  rcases memReads_cases (s.br.ptr.toNat + 2 + 6) 9 s with ⟨cs, hc, -⟩ | hc
  swap
  · exact .inr ⟨_, run_bind_error s hc⟩
  rw [run_bind_ok s hc, run_check_bind]
  split
  swap
  · exact .inr ⟨_, rfl⟩
  rw [run_check_bind]
  split
  swap
  · exact .inr ⟨_, rfl⟩
  rw [run_check_bind]
  split
  swap
  · exact .inr ⟨_, rfl⟩
  rw [run_check_bind]
  split
  all_goals
    split
    · next hal =>
      simp only [Bool.and_eq_true, decide_eq_true_eq] at hwh hal
      exact .inl ⟨len, _, _, _, _, rfl, hl, by simp, hwh.1, hwh.2, hw16, hh16, hal.1, hal.2⟩
    · exact .inr ⟨_, rfl⟩

/-- A scan component is read, its Huffman tables being installed, or an error is raised; nothing changes (45 R595). -/
theorem scanComponent_cases (a i : Nat) (s : State) :
    (∃ td ta, scanComponent a i s = .ok (td, ta) s ∧ htValid s 0#1 td = true ∧ htValid s 1#1 ta = true)
      ∨ ∃ e, scanComponent a i s = .error e s := by
  unfold scanComponent
  rcases memRead_cases (a + 1 + 2 * i) s with h | h
  swap
  · exact .inr ⟨_, run_bind_error s h⟩
  rw [run_bind_ok s h]
  rcases memRead_cases (a + 2 + 2 * i) s with h | h
  swap
  · exact .inr ⟨_, run_bind_error s h⟩
  rw [run_bind_ok s h, run_check_bind]
  split
  swap
  · exact .inr ⟨_, rfl⟩
  rw [run_check_bind]
  split
  swap
  · exact .inr ⟨_, rfl⟩
  rw [run_checkState_bind]
  split
  swap
  · exact .inr ⟨_, rfl⟩
  next hv =>
  simp only [Bool.and_eq_true] at hv
  exact .inl ⟨_, _, rfl, hv.1, hv.2⟩

/-- SOS accepts a scan whose tables are installed, or raises and changes nothing (45 R595). -/
theorem parseSos_cases (s : State) :
    (∃ len td ta, parseSos s = .ok () (advanceReader len (acceptScan td ta s)) ∧ s.br.ptr.toNat + len ≤ s.br.lim.toNat
      ∧ (∀ c : Fin 3, htValid s 0#1 td[c] = true ∧ htValid s 1#1 ta[c] = true) ∧ frameTablesValid s = true)
      ∨ ∃ e, parseSos s = .error e s := by
  unfold parseSos
  rcases segLen_cases s with ⟨len, h1, -, hl⟩ | ⟨e, h1⟩
  swap
  · exact .inr ⟨e, run_bind_error s h1⟩
  rw [run_bind_ok s h1, run_check_bind]
  split
  swap
  · exact .inr ⟨_, rfl⟩
  rw [run_get_bind]
  rcases memRead_cases (s.br.ptr.toNat + 2) s with h | h
  swap
  · exact .inr ⟨_, run_bind_error s h⟩
  rw [run_bind_ok s h, run_check_bind]
  split
  swap
  · exact .inr ⟨_, rfl⟩
  rw [run_check_bind]
  split
  swap
  · exact .inr ⟨_, rfl⟩
  rcases scanComponent_cases (s.br.ptr.toNat + 2) 0 s with ⟨td0, ta0, h, v0, w0⟩ | ⟨e, h⟩
  swap
  · exact .inr ⟨_, run_bind_error s h⟩
  rw [run_bind_ok s h]
  rcases scanComponent_cases (s.br.ptr.toNat + 2) 1 s with ⟨td1, ta1, h, v1, w1⟩ | ⟨e, h⟩
  swap
  · exact .inr ⟨_, run_bind_error s h⟩
  rw [run_bind_ok s h]
  rcases scanComponent_cases (s.br.ptr.toNat + 2) 2 s with ⟨td2, ta2, h, v2, w2⟩ | ⟨e, h⟩
  swap
  · exact .inr ⟨_, run_bind_error s h⟩
  rw [run_bind_ok s h]
  rcases memReads_cases (s.br.ptr.toNat + 2 + 7) 3 s with ⟨tail, h, -⟩ | h
  swap
  · exact .inr ⟨_, run_bind_error s h⟩
  rw [run_bind_ok s h, run_check_bind]
  split
  swap
  · exact .inr ⟨_, rfl⟩
  rw [run_checkState_bind]
  split
  swap
  · exact .inr ⟨_, rfl⟩
  next hq =>
  refine .inl ⟨len, _, _, rfl, hl, fun c => ?_, hq⟩
  match c with
  | 0 => exact ⟨v0, w0⟩
  | 1 => exact ⟨v1, w1⟩
  | 2 => exact ⟨v2, w2⟩

theorem keeps_parseSof0 (hb : BytesClosed P) (hf : ∀ w h ss tq s, P s → P (acceptFrame w h ss tq s)) :
    Keeps P parseSof0 := by
  intro s hs
  rcases parseSof0_cases s with ⟨len, w, h, ss, tq, hr, hl, -⟩ | ⟨e, hr⟩
  · rw [hr]
    exact hb.advance len _ (hf w h ss tq s hs) hl
  · rw [hr]
    exact hs

theorem keeps_parseSos (hb : BytesClosed P) (hf : ∀ td ta s, P s → P (acceptScan td ta s)) : Keeps P parseSos := by
  intro s hs
  rcases parseSos_cases s with ⟨len, td, ta, hr, hl, -⟩ | ⟨e, hr⟩
  · rw [hr]
    exact hb.advance len _ (hf td ta s hs) hl
  · rw [hr]
    exact hs

theorem keeps_headerCase (hP : HeaderClosed P) (c : Byte) : Keeps P (headerCase c) := by
  unfold headerCase
  refine keeps_ite (keeps_bind (keeps_skipSegment hP.bytes) fun _ => keeps_pure _) ?_
  refine keeps_ite (keeps_bind (keeps_parseDqt hP.bytes hP.tables.quant) fun _ => keeps_pure _) ?_
  refine keeps_ite (keeps_bind (keeps_parseDht hP.bytes hP.tables.huff) fun _ => keeps_pure _) ?_
  refine keeps_ite (keeps_bind (keeps_parseDri hP.bytes hP.dri) fun _ => keeps_pure _) ?_
  refine keeps_ite (keeps_bind (keeps_checkState _ _) fun _ => keeps_bind (keeps_parseSof0 hP.bytes hP.frame) fun _ =>
    keeps_bind (hP.pstate _) fun _ => keeps_pure _) ?_
  refine keeps_ite (keeps_raise _) ?_
  refine keeps_ite (keeps_bind (keeps_checkState _ _) fun _ => keeps_bind (keeps_parseSos hP.bytes hP.scan) fun _ =>
    keeps_bind (fun s hs => hP.res0 _ _ (hP.pstate _ s hs)) fun _ => keeps_pure _) ?_
  exact keeps_raise _

theorem keeps_headerLoop (hP : HeaderClosed P) (n : Nat) : Keeps P (headerLoop n) := by
  induction n with
  | zero => exact keeps_raise _
  | succ n ih =>
    exact keeps_bind (keeps_nextMarker hP.bytes) fun c => keeps_bind (keeps_headerCase hP c) fun _ =>
      keeps_ite (keeps_pure _) ih

theorem keeps_expectSoiMarker (hb : BytesClosed P) (hp : ∀ s, P s → P (setPstate .readingTables s)) :
    Keeps P expectSoiMarker := by
  refine keeps_checkState_bind fun s hs hlim => ?_
  have hlim : s.br.ptr.toNat + 2 ≤ s.br.lim.toNat := by simpa using hlim
  rw [run_get_bind]
  rcases memRead_cases s.br.ptr.toNat s with h | h
  swap
  · rw [run_bind_error s h]
    exact hs
  rw [run_bind_ok s h, run_check_bind]
  split
  swap
  · exact hs
  rcases memRead_cases (s.br.ptr.toNat + 1) s with h | h
  swap
  · rw [run_bind_error s h]
    exact hs
  rw [run_bind_ok s h, run_check_bind]
  split
  swap
  · exact hs
  exact hp _ (hb.advance 2 s hs hlim)

theorem keeps_doParsehdr (hP : HeaderClosed P) : Keeps P doParsehdr :=
  keeps_onError (keeps_bind hP.start fun _ => keeps_bind (keeps_expectSoiMarker hP.bytes (hP.pstate _)) fun _ =>
    keeps_bind keeps_get fun _ => keeps_headerLoop hP _) (hP.pstate _)

theorem keeps_restartCase (c : Byte) (hr : ∀ n s, P s → P (clearPreds { s with rstNext := n })) :
    Keeps P (restartCase c) :=
  keeps_bind (keeps_checkState _ _) fun _ s hs => hr _ s hs

theorem keeps_endCase (c : Byte) (hp : ∀ p s, P s → P (setPstate p s)) : Keeps P (endCase c) :=
  keeps_bind (keeps_check _ _) fun _ => hp _

theorem keeps_doRstchk (hb : BytesClosed P) (hp : ∀ p s, P s → P (setPstate p s))
    (hr : ∀ n s, P s → P (clearPreds { s with rstNext := n })) : Keeps P doRstchk :=
  keeps_bind (keeps_checkState _ _) fun _ => keeps_onError (keeps_bind hb.drop fun _ =>
    keeps_bind (keeps_nextMarker hb) fun c => keeps_restartCase c hr) (hp _)

theorem keeps_doEoichk (hb : BytesClosed P) (hp : ∀ p s, P s → P (setPstate p s)) : Keeps P doEoichk :=
  keeps_bind (keeps_checkState _ _) fun _ => keeps_onError (keeps_bind hb.drop fun _ =>
    keeps_bind (keeps_replaceError (keeps_nextMarker hb)) fun c => keeps_endCase c hp) (hp _)

/-! ### ENCODE and DECODE -/

/-- P survives every change ENCODE makes (47 R680). -/
structure EncodeClosed (ss : BitVec 2) (P : State → Prop) : Prop where
  writer : WriterClosed P
  quant : ∀ (t : BitVec 2), t.toNat < 2 → ∀ e s, P s → (∀ i : Fin 64, e[i] ≠ 0#8) → P (installQt t e s)
  blk : ∀ p ∈ mcuBlocks (subsamplingOf ss), ∀ b s, P s → P (setBlk p.1 b s)
  pred : ∀ c v s, P s → P (setPred c v s)
  preds : ∀ s, P s → P (clearPreds s)
  res0 : ∀ v s, P s → P (setRes0 v s)
  res1 : ∀ v s, P s → P (setRes1 v s)
  init : ∀ (dst cap : Word) s, P s → dst.toNat + cap.toNat ≤ s.memBytes →
    P { s with bw := { ptr := dst, lim := dst + cap, acc := 0#8, cnt := 0#3 } }

theorem keeps_encodeSlot {ss : BitVec 2} (hP : EncodeClosed ss P) (p : Slot × Fin 3)
    (h : p ∈ mcuBlocks (subsamplingOf ss)) : Keeps P (encodeSlot p) :=
  keeps_bind (keeps_doFdct _ _ (hP.blk p h)) fun _ => keeps_bind (keeps_doQuant _ _ _ (hP.blk p h)) fun _ =>
    keeps_bind (keeps_doZigzag _ _ (hP.blk p h)) fun _ => keeps_doHenc hP.writer _ _ _ fun k _ => hP.pred k

theorem keeps_encodeMcu {ss : BitVec 2} (hP : EncodeClosed ss P) (fmt : BitVec 4) (src dims : Word) (p : Nat × Nat) :
    Keeps P (encodeMcu ss fmt src dims p) :=
  keeps_bind (keeps_doCconv _ _ _ _ _ hP.blk) fun _ => keeps_forEach fun q hq => keeps_encodeSlot hP q hq

theorem keeps_encodeFrame {ss : BitVec 2} (hP : EncodeClosed ss P) (fmt : BitVec 4) (src dims : Word) :
    Keeps P (encodeFrame ss fmt src dims) :=
  keeps_bind (keeps_doHdrw hP.writer _ _ hP.res0) fun _ => keeps_bind hP.preds fun _ =>
    keeps_bind (keeps_forEach fun p _ => keeps_encodeMcu hP fmt src dims p) fun _ => keeps_doClose hP.writer

theorem keeps_encodeSetup {ss : BitVec 2} (hP : EncodeClosed ss P) (dst cap : Word) (scale : Nat) :
    Keeps P (encodeSetup dst cap scale) :=
  keeps_bind (keeps_doQbuild _ _ _ (hP.quant _ (by decide)) hP.res0) fun _ =>
    keeps_bind (keeps_doQbuild _ _ _ (hP.quant _ (by decide)) hP.res0) fun _ => keeps_bind (hP.res1 _) fun _ =>
    keeps_doBwinit _ _ (hP.init dst cap)

theorem keeps_doEncode (src dst cap dims opts raw : Word) (hP : EncodeClosed (opts.extractLsb' 4 2) P) :
    Keeps P (doEncode src dst cap dims opts raw) := by
  refine keeps_bind (hP.res0 _) fun _ => ?_
  split
  · exact keeps_raise _
  · exact keeps_bind (keeps_check _ _) fun _ => keeps_bind (keeps_checkExtent _ _) fun _ =>
      keeps_bind (keeps_checkExtent _ _) fun _ => keeps_bind (keeps_encodeSetup hP _ _ _) fun _ =>
      keeps_bind (keeps_onError (keeps_encodeFrame hP _ _ _) fun s hs => hP.res0 _ s hs) fun _ s hs => hP.res0 _ s hs

/-- P survives every change DECODE makes within its output buffer [lo, hi) (47 R690). -/
structure DecodeClosed (lo hi : Nat) (P : State → Prop) : Prop where
  header : HeaderClosed P
  reader : ReaderClosed P
  clear : ∀ s, P s → P (clearTables s)
  resized : ∀ s, P s → P (noteResized s)
  blk : ∀ (d : Slot), d.toNat < 6 → ∀ b s, P s → P (setBlk d b s)
  pred : ∀ c v s, P s → P (setPred c v s)
  preds : ∀ s, P s → P (clearPreds s)
  rst : ∀ n s, P s → P (clearPreds { s with rstNext := n })
  start : ∀ s, P s → P (decodeStart s)
  done : ∀ s, P s → P (decodeDone s)
  init : ∀ (src len : Word) s, P s → src.toNat + len.toNat ≤ s.memBytes →
    P { s with br := { ptr := src, lim := src + len, cur := 0#8, cnt := 0#4, mark := false } }
  write : ∀ a v s, P s → lo ≤ a → a < hi → a < s.memBytes → P (writeByte a v s)

theorem mcuBlocks_lt {ss : Subsampling} {p : Slot × Fin 3} (h : p ∈ mcuBlocks ss) : p.1.toNat < 6 := by
  revert p
  cases ss <;> decide

theorem keeps_decodeSlot {lo hi : Nat} (hP : DecodeClosed lo hi P) (p : Slot × Fin 3) (hp : p.1.toNat < 6) :
    Keeps P (decodeSlot p) :=
  keeps_bind keeps_get fun _ => keeps_bind (keeps_doHdec hP.reader _ _ _ (hP.blk _ hp) fun k _ => hP.pred k) fun _ =>
    keeps_bind (keeps_doUnzigzag _ _ (hP.blk _ hp)) fun _ => keeps_bind (keeps_doDequant _ _ _ (hP.blk _ hp)) fun _ =>
    keeps_doIdct _ _ (hP.blk _ hp)

theorem keeps_decodeMcu {lo hi : Nat} (hP : DecodeClosed lo hi P) (ss : BitVec 2) (bgr : Bool) (dst dims : Word) (nx : Nat)
    (p : Nat × Nat) (h1 : lo ≤ dst.toNat) (h2 : dst.toNat + 3 * lowHalf dims * highHalf dims ≤ hi) :
    Keeps P (decodeMcu ss bgr dst dims nx p) := by
  have hout : Keeps P (do
      forEach (mcuBlocks (subsamplingOf ss)) decodeSlot
      doUpscc ss (if bgr then 1#4 else 0#4) dst dims (packHalves p.1 p.2)) :=
    keeps_bind (keeps_forEach fun q hq => keeps_decodeSlot hP q (mcuBlocks_lt hq)) fun _ =>
      keeps_doUpscc _ _ _ _ _ fun a v s hs ha hb hm => hP.write a v s hs (by omega) (by omega) hm
  refine keeps_get_bind fun s hs => ?_
  split
  · exact keeps_bind (keeps_doRstchk hP.header.bytes hP.header.pstate hP.rst) (fun _ => hout) s hs
  · exact hout s hs

theorem keeps_decodeHeader {lo hi : Nat} (hP : DecodeClosed lo hi P) (src len cap : Word) (expect : Bool) :
    Keeps P (decodeHeader src len cap expect) :=
  keeps_bind hP.clear fun _ => keeps_bind (keeps_doBrinit _ _ (hP.init src len)) fun _ =>
    keeps_bind (keeps_doParsehdr hP.header) fun _ => keeps_bind (hP.header.res0 _) fun _ =>
    keeps_bind (keeps_checkState _ _) fun _ => keeps_bind hP.resized fun _ => keeps_checkState _ _

/-- A header part without error leaves a frame that fits the capacity (47 R690). -/
theorem decodeHeader_fits {src len cap : Word} {expect : Bool} {s t : State}
    (h : decodeHeader src len cap expect s = .ok () t) : 3 * lowHalf t.frmDim * highHalf t.frmDim ≤ cap.toNat := by
  unfold decodeHeader at h
  obtain ⟨_, _, -, h⟩ := ok_of_bind _ h
  obtain ⟨_, _, -, h⟩ := ok_of_bind _ h
  obtain ⟨_, _, -, h⟩ := ok_of_bind _ h
  obtain ⟨_, _, -, h⟩ := ok_of_bind _ h
  obtain ⟨_, _, -, h⟩ := ok_of_bind _ h
  obtain ⟨_, u, -, h⟩ := ok_of_bind _ h
  rw [run_checkState] at h
  split at h
  · next hc =>
    simp only [EStateM.Result.ok.injEq, true_and] at h
    subst h
    simpa using hc
  · exact absurd h (by simp)

theorem decodeScan_keeps {lo hi : Nat} (hP : DecodeClosed lo hi P) (bgr : Bool) (dst : Word) {s : State} (hs : P s)
    (h1 : lo ≤ dst.toNat) (h2 : dst.toNat + 3 * lowHalf s.frmDim * highHalf s.frmDim ≤ hi) :
    P (stateAfter (decodeScan bgr dst s)) := by
  unfold decodeScan
  rw [run_update_bind, run_get_bind]
  exact keeps_forEach (fun p _ => keeps_decodeMcu hP _ _ _ _ _ p h1 (by simpa using h2)) _ (hP.preds s hs)

theorem keeps_doDecode (src len dst cap flags : Word) (hP : DecodeClosed dst.toNat (dst.toNat + cap.toNat) P) :
    Keeps P (doDecode src len dst cap flags) := by
  refine keeps_onError ?_ (hP.header.pstate _)
  refine keeps_bind hP.start fun _ => keeps_bind (keeps_checkExtent _ _) fun _ => keeps_bind (keeps_checkExtent _ _) fun _ => ?_
  intro s hs
  have h1 := keeps_decodeHeader hP src len cap (flags.getLsbD 0) s hs
  rw [run_bind]
  cases hr : decodeHeader src len cap (flags.getLsbD 0) s with
  | error e t =>
    rw [hr] at h1
    exact h1
  | ok a t =>
    rw [hr] at h1
    have hfit := decodeHeader_fits hr
    have h2 := decodeScan_keeps hP (flags.getLsbD 1) dst h1 (Nat.le_refl _) (by rw [stateAfter_ok]; omega)
    simp only
    rw [run_bind]
    cases hr2 : decodeScan (flags.getLsbD 1) dst t with
    | error e u =>
      rw [stateAfter_ok, hr2] at h2
      exact h2
    | ok b u =>
      rw [stateAfter_ok, hr2] at h2
      exact keeps_bind (f := fun _ => update decodeDone) (keeps_doEoichk hP.header.bytes hP.header.pstate)
        (fun _ => hP.done) u h2

/-! ### Markers -/

theorem keeps_headerEvent (hc : ∀ c, Keeps P (headerCase c)) (hp : ∀ p s, P s → P (setPstate p s)) (c : Byte) :
    Keeps P (headerEvent c) := by
  intro s hs
  unfold headerEvent
  split
  · split
    · exact hp _ s hs
    · exact hs
  · exact hc c s hs
  · exact hc c s hs
  · exact hs
  · exact hs
  · exact hs

theorem keeps_restartEvent (c : Byte) (hr : ∀ n s, P s → P (clearPreds { s with rstNext := n })) :
    Keeps P (restartEvent c) :=
  keeps_bind (keeps_checkState _ _) fun _ => keeps_bind (keeps_restartCase c hr) fun _ => keeps_pure _

theorem keeps_endEvent (c : Byte) (hp : ∀ p s, P s → P (setPstate p s)) : Keeps P (endEvent c) :=
  keeps_bind (keeps_checkState _ _) fun _ => keeps_bind (keeps_endCase c hp) fun _ => keeps_pure _

/-- A marker event keeps what its reader's cases keep. -/
theorem keeps_markerEvent {c : Byte} (hh : Keeps P (headerEvent c)) (hr : Keeps P (restartEvent c))
    (he : Keeps P (endEvent c)) (r : MarkerReader) : Keeps P (markerEvent r c) := by
  cases r
  · exact hh
  · exact hr
  · exact he

/-- All that a marker's meaning can do: its reader's event, or nothing where no command reads markers. -/
theorem runMarker_cases {c : Byte} {s t : State} (h : runMarker c s = .next t) :
    (∃ r, endMarker (markerEvent r c s) = t) ∨ s = t := by
  simp only [runMarker, Host.Outcome.next.injEq] at h
  split at h
  · exact .inl ⟨_, h⟩
  · exact .inr h

theorem endMarker_keeps {x : EStateM.Result ErrCode State Bool} (hx : P (stateAfter x)) (hc : ∀ e s, P s → P (complete e s))
    (hp : ∀ s, P s → P (setPstate .failed s)) : P (endMarker x) := by
  match x with
  | .ok true s => exact hc _ _ hx
  | .ok false s => exact hx
  | .error .command s => exact hc _ _ hx
  | .error .noSoi s => exact hc _ _ (hp _ hx)
  | .error .precision s => exact hc _ _ (hp _ hx)
  | .error .sizeMismatch s => exact hc _ _ (hp _ hx)
  | .error .dimensions s => exact hc _ _ (hp _ hx)
  | .error .tooManyComponents s => exact hc _ _ (hp _ hx)
  | .error .sampling s => exact hc _ _ (hp _ hx)
  | .error .qtSelector s => exact hc _ _ (hp _ hx)
  | .error .profile s => exact hc _ _ (hp _ hx)
  | .error .scanComponent s => exact hc _ _ (hp _ hx)
  | .error .notBaseline s => exact hc _ _ (hp _ hx)
  | .error .unexpectedMarker s => exact hc _ _ (hp _ hx)
  | .error .noEoi s => exact hc _ _ (hp _ hx)
  | .error .badTable s => exact hc _ _ (hp _ hx)
  | .error .entropy s => exact hc _ _ (hp _ hx)
  | .error .bounds s => exact hc _ _ (hp _ hx)

end Sys2Proof.Machine
end

