-- ==== Sys2Proof/Laws/Frame.lean ====
section
/-! SUPPORT. Which parts of the state (Safety: Part) survive each named change, so that a frame of a command is its closure
lemma (Laws/Closure, Laws/Commands) applied to `Part.same`. -/

namespace Sys2Proof.Machine

variable {s0 u : State} {p : Part}

theorem part_same_refl (s : State) (p : Part) : p.same s s := by cases p <;> simp [Part.same]

theorem part_same_complete (e : Option ErrCode) (h : p.same s0 u) : p.same s0 (complete e u) := by
  cases p <;> simpa [Part.same, statusComplete, readByte] using h

theorem runCommand_next {s t : State} {x : Eng Unit} (h : runCommand x s = .next t) : t = finish (x s) := by
  simpa [runCommand] using h.symm

/-- The frame of a command from its closure lemma. -/
theorem part_same_runCommand {s t : State} {x : Eng Unit} (h : runCommand x s = .next t)
    (hx : Keeps (fun u => p.same s u) x) : p.same s t := by
  rw [runCommand_next h]
  exact finish_keeps hx (fun e _ => part_same_complete e) (part_same_refl s p)

/-! ### Named changes -/

theorem part_same_setBlk {d : Slot} (b : Block) (h : p.same s0 u) (hp : p.isSlot d.toNat = false) :
    p.same s0 (setBlk d b u) := by
  cases p <;> try (simpa [Part.same, readByte] using h)
  next i =>
    have : i.val ≠ d.toNat := by simpa [Part.isSlot] using hp
    simp only [Part.same, setBlk_blk] at h ⊢
    rw [← h]
    simp [Ne.symm this]

theorem part_same_setPred {c : Fin 3} (v : Half) (h : p.same s0 u) (hp : p.isPred c.val = false) :
    p.same s0 (setPred c v u) := by
  cases p <;> try (simpa [Part.same, readByte] using h)
  next i =>
    have : i.val ≠ c.val := by simpa [Part.isPred] using hp
    simp only [Part.same, setPred_pred] at h ⊢
    rw [← h]
    simp [Ne.symm this]

theorem part_same_clearPreds (h : p.same s0 u) (hp : p.isAnyPred = false) : p.same s0 (clearPreds u) := by
  cases p <;> first | (simp [Part.isAnyPred] at hp; done) | simpa [Part.same, readByte] using h

theorem part_same_setRes0 (v : Word) (h : p.same s0 u) (hp : p ≠ .res0) : p.same s0 (setRes0 v u) := by
  cases p <;> first | exact absurd rfl hp | simpa [Part.same, readByte] using h

theorem part_same_setRes1 (v : Word) (h : p.same s0 u) (hp : p ≠ .res1) : p.same s0 (setRes1 v u) := by
  cases p <;> first | exact absurd rfl hp | simpa [Part.same, readByte] using h

theorem part_same_setPstate (v : ParserState) (h : p.same s0 u) (hp : p ≠ .pstate) : p.same s0 (setPstate v u) := by
  cases p <;> first | exact absurd rfl hp | simpa [Part.same, readByte] using h

theorem part_same_setDri (v : Half) (h : p.same s0 u) (hp : p ≠ .dri) : p.same s0 { u with dri := v } := by
  cases p <;> first | exact absurd rfl hp | simpa [Part.same, readByte] using h

theorem part_same_setRstNext (v : BitVec 3) (h : p.same s0 u) (hp : p ≠ .rstNext) : p.same s0 { u with rstNext := v } := by
  cases p <;> first | exact absurd rfl hp | simpa [Part.same, readByte] using h

theorem part_same_setWriter (w : BitWriter) (h : p.same s0 u) (hp : p ≠ .writer) : p.same s0 { u with bw := w } := by
  cases p <;> first | exact absurd rfl hp | simpa [Part.same, readByte] using h

theorem part_same_setReader (r : BitReader) (h : p.same s0 u) (hp : p ≠ .reader) : p.same s0 { u with br := r } := by
  cases p <;> first | exact absurd rfl hp | simpa [Part.same, readByte] using h

theorem part_same_setMem (m : Memory) (h : p.same s0 u) (hp : p ≠ .lmem) : p.same s0 { u with mem := m } := by
  cases p <;> first | exact absurd rfl hp | simpa [Part.same] using h

theorem part_same_installQt {t : BitVec 2} (e : Vector Byte 64) (h : p.same s0 u) (hp : p.isQuantTable t.toNat = false) :
    p.same s0 (installQt t e u) := by
  cases p <;> try (simpa [Part.same, readByte] using h)
  next i =>
    have : i.val ≠ t.toNat := by simpa [Part.isQuantTable] using hp
    simp only [Part.same, installQt_qt, installQt_rq, installQt_qvalid] at h ⊢
    simp [Ne.symm this] at h ⊢
    exact h

theorem part_same_installHt {tc th : BitVec 1} (e : HuffTable) (h : p.same s0 u)
    (hp : p.isHuffTable (htIndex tc th).val = false) : p.same s0 (installHt tc th e u) := by
  cases p <;> try (simpa [Part.same, readByte] using h)
  next i =>
    have : i.val ≠ (htIndex tc th).val := by simpa [Part.isHuffTable] using hp
    simp only [Part.same, installHt_ht, installHt_hvalid] at h ⊢
    simp [Ne.symm this] at h ⊢
    exact h

theorem part_same_acceptFrame (w h : Nat) (ss : BitVec 2) (tq : Vector (BitVec 2) 3) (hs : p.same s0 u)
    (h1 : p ≠ .frmDim) (h2 : p ≠ .frmInfo) (h3 : p ≠ .res1) : p.same s0 (acceptFrame w h ss tq u) := by
  cases p <;> first
    | exact absurd rfl h1
    | exact absurd rfl h2
    | exact absurd rfl h3
    | simpa [Part.same, readByte] using hs

theorem part_same_acceptScan (td ta : Vector (BitVec 1) 3) (hs : p.same s0 u) (h1 : p ≠ .frmInfo) (h2 : p ≠ .reader)
    (h3 : p ≠ .rstNext) : p.same s0 (acceptScan td ta u) := by
  cases p <;> first
    | exact absurd rfl h1
    | exact absurd rfl h2
    | exact absurd rfl h3
    | simpa [Part.same, readByte] using hs

/-! ### Closures -/

theorem writerClosed_part (h : p.isOutput = false) : WriterClosed (fun u => p.same s0 u) := by
  have h1 : p ≠ .writer := by rintro rfl; simp [Part.isOutput] at h
  have h2 : p ≠ .lmem := by rintro rfl; simp [Part.isOutput] at h
  exact
    { emit := fun _ _ hs _ _ => part_same_setWriter _ (part_same_setMem _ hs h2) h1
      clear := fun _ hs _ => part_same_setWriter _ hs h1
      push := fun _ _ hs _ => part_same_setWriter _ hs h1 }

theorem readerClosed_part (h : p ≠ .reader) : ReaderClosed (fun u => p.same s0 u) where
  load _ _ _ hs _ _ := part_same_setReader _ hs h
  mark _ hs := part_same_setReader _ hs h
  take _ hs _ := part_same_setReader _ hs h

theorem bytesClosed_part (h : p ≠ .reader) : BytesClosed (fun u => p.same s0 u) where
  advance _ _ hs _ := part_same_setReader _ hs h
  drop _ hs := part_same_setReader _ hs h

theorem part_same_parseStart (h : p.same s0 u) (hp : p.isHeader = false) : p.same s0 (parseStart u) := by
  cases p <;> first | (simp [Part.isHeader] at hp; done) | simpa [Part.same, readByte] using h

theorem headerClosed_part (hp : p.isHeader = false) : HeaderClosed (fun u => p.same s0 u) := by
  have hq : ∀ t, p.isQuantTable t = false := fun t => by cases p <;> first | rfl | simp [Part.isHeader] at hp
  have hh : ∀ t, p.isHuffTable t = false := fun t => by cases p <;> first | rfl | simp [Part.isHeader] at hp
  have h1 : p ≠ .reader := by rintro rfl; simp [Part.isHeader] at hp
  have h2 : p ≠ .pstate := by rintro rfl; simp [Part.isHeader] at hp
  have h3 : p ≠ .dri := by rintro rfl; simp [Part.isHeader] at hp
  have h4 : p ≠ .frmDim := by rintro rfl; simp [Part.isHeader] at hp
  have h5 : p ≠ .frmInfo := by rintro rfl; simp [Part.isHeader] at hp
  have h6 : p ≠ .res1 := by rintro rfl; simp [Part.isHeader] at hp
  have h7 : p ≠ .res0 := by rintro rfl; simp [Part.isHeader] at hp
  have h8 : p ≠ .rstNext := by rintro rfl; simp [Part.isHeader] at hp
  exact
    { bytes := bytesClosed_part h1
      tables := ⟨fun _ e _ hs _ => part_same_installQt e hs (hq _), fun _ _ _ _ _ hs _ _ => part_same_installHt _ hs (hh _)⟩
      start := fun _ hs => part_same_parseStart hs hp
      pstate := fun v _ hs => part_same_setPstate v hs h2
      dri := fun v _ hs => part_same_setDri v hs h3
      frame := fun w h ss tq _ hs => part_same_acceptFrame w h ss tq hs h4 h5 h6
      scan := fun td ta _ hs => part_same_acceptScan td ta hs h5 h1 h8
      res0 := fun v _ hs => part_same_setRes0 v hs h7 }

theorem isSlot_of_isMcuSlot {ss : Subsampling} (hp : p.isMcuSlot ss = false) {q : Slot × Fin 3} (hq : q ∈ mcuBlocks ss) :
    p.isSlot q.1.toNat = false := by
  have := List.any_eq_false.mp hp q hq
  simpa using this

theorem encodeClosed_part {ss : BitVec 2} (ho : p.isOutput = false) (h0 : p ≠ .res0) (h1 : p ≠ .res1)
    (hq : ∀ t, t < 2 → p.isQuantTable t = false) (hp : p.isAnyPred = false) (hb : p.isMcuSlot (subsamplingOf ss) = false) :
    EncodeClosed ss (fun u => p.same s0 u) := by
  have hw : p ≠ .writer := by rintro rfl; simp [Part.isOutput] at ho
  have hc : ∀ c, p.isPred c = false := fun c => by cases p <;> first | rfl | simp [Part.isAnyPred] at hp
  exact
    { writer := writerClosed_part ho
      quant := fun _ ht e _ hs _ => part_same_installQt e hs (hq _ ht)
      blk := fun _ hq b _ hs => part_same_setBlk b hs (isSlot_of_isMcuSlot hb hq)
      pred := fun _ v _ hs => part_same_setPred v hs (hc _)
      preds := fun _ hs => part_same_clearPreds hs hp
      res0 := fun v _ hs => part_same_setRes0 v hs h0
      res1 := fun v _ hs => part_same_setRes1 v hs h1
      init := fun _ _ _ hs _ => part_same_setWriter _ hs hw }

theorem decodeClosed_part {lo hi : Nat} (hh : p.isHeader = false) (h1 : p ≠ .resized) (h2 : p ≠ .prevDim)
    (hp : p.isAnyPred = false) (hb : p.isMcuSlot .s420 = false) (hm : p ≠ .lmem) :
    DecodeClosed lo hi (fun u => p.same s0 u) := by
  have hr : p ≠ .reader := by rintro rfl; simp [Part.isHeader] at hh
  have h0 : p ≠ .res0 := by rintro rfl; simp [Part.isHeader] at hh
  have hr1 : p ≠ .res1 := by rintro rfl; simp [Part.isHeader] at hh
  have hn : p ≠ .rstNext := by rintro rfl; simp [Part.isHeader] at hh
  have hc : ∀ c, p.isPred c = false := fun c => by cases p <;> first | rfl | simp [Part.isAnyPred] at hp
  have hs : ∀ d : Slot, d.toNat < 6 → p.isSlot d.toNat = false := by
    intro d hd
    have hm : ∃ c, (d, c) ∈ mcuBlocks .s420 := by revert d; decide
    obtain ⟨c, hq⟩ := hm
    exact isSlot_of_isMcuSlot hb hq
  exact
    { header := headerClosed_part hh
      reader := readerClosed_part hr
      clear := fun _ hs => by
        cases p <;> first | (simp [Part.isHeader] at hh; done) | simpa [Part.same, readByte] using hs
      resized := fun _ hs => by
        unfold noteResized
        split
        · exact hs
        · cases p <;> first | exact absurd rfl h1 | simpa [Part.same, readByte] using hs
      blk := fun _ hd b _ h => part_same_setBlk b h (hs _ hd)
      pred := fun _ v _ h => part_same_setPred v h (hc _)
      preds := fun _ h => part_same_clearPreds h hp
      rst := fun v _ h => part_same_clearPreds (part_same_setRstNext v h hn) hp
      start := fun _ h => part_same_setRes1 _ (part_same_setRes0 _ h h0) hr1
      done := fun _ hs => by
        cases p <;> first | exact absurd rfl h2 | exact absurd rfl h0 | simpa [Part.same, readByte] using hs
      init := fun _ _ _ h _ => part_same_setReader _ h hr
      write := fun _ _ _ h _ _ _ => part_same_setMem _ h hm }

/-! ### Markers -/

/-- A restart event with a code that is no RSTn changes nothing. -/
theorem keeps_restartEvent_other {P : State → Prop} {c : Byte} (hc : ∀ n : BitVec 3, c.toNat ≠ 0xD0 + n.toNat) :
    Keeps P (restartEvent c) := by
  refine keeps_bind (keeps_checkState _ _) fun _ => keeps_bind ?_ fun _ => keeps_pure _
  refine keeps_checkState_bind fun s hs h => ?_
  simp at h
  exact absurd h (hc _)

/-- The frame of a marker from those of its cases. -/
theorem part_same_runMarker {s t : State} {c : Byte} (h : runMarker c s = .next t) (hp : p ≠ .pstate)
    (hc : Keeps (fun u => p.same s u) (headerCase c)) (hr : Keeps (fun u => p.same s u) (restartEvent c)) : p.same s t := by
  obtain ⟨r, rfl⟩ | rfl := runMarker_cases h
  swap
  · exact part_same_refl _ p
  refine endMarker_keeps (P := fun u => p.same s u) ?_ (fun e _ => part_same_complete e)
    fun u hu => part_same_setPstate _ hu hp
  refine keeps_markerEvent ?_ hr (keeps_endEvent c fun v u hu => part_same_setPstate v hu hp) r s (part_same_refl s p)
  intro u hu
  unfold headerEvent
  split
  · split
    · exact part_same_setPstate _ hu hp
    · exact hu
  · exact hc u hu
  · exact hc u hu
  · exact hu
  · exact hu
  · exact hu

end Sys2Proof.Machine
end

