-- ==== Sys2Proof/Laws/PerInstr.lean ====
section
/-! SUPPORT. A property of every instruction's words, one lemma per constructor: a command word has its reserved bits clear,
a marker's code byte is none that means a stuffed byte or a fill byte (30 R200, R201, R240). -/

namespace Sys2Proof.Laws

/-- A command word built from its fields has bits 11, 15 and 31:24 clear (30 R200). -/
theorem commandWord_reserved (op : Byte) (d src : Slot) (t c : BitVec 2) (x : BitVec 4) :
    commandWord op d src t c x &&& reservedMask = 0#32 := by
  apply BitVec.eq_of_getLsbD_eq
  intro i hi
  have h : (i = 11 ∨ i = 15 ∨ 24 ≤ i) ∨ reservedMask.getLsbD i = false := by
    revert i; decide
  rcases h with h | h
  · have hz : (commandWord op d src t c x).getLsbD i = false := by
      simp only [commandWord, BitVec.getLsbD_append]
      rcases h with rfl | rfl | h
      · rfl
      · rfl
      · interval_cases i <;> rfl
    simp only [BitVec.getLsbD_and, hz, Bool.false_and, BitVec.getLsbD_zero]
  · simp only [BitVec.getLsbD_and, h, Bool.and_false, BitVec.getLsbD_zero]

/-- A command word's reserved bits are 0; a marker is FF and a code byte that is not 00 and not FF (30 R201, R240). -/
def reservedClear : Encoding → Bool
  | .command w => w &&& reservedMask = 0#32
  | .marker w => w.extractLsb' 8 8 = 0xFF#8 ∧ w.extractLsb' 0 8 ≠ 0x00#8 ∧ w.extractLsb' 0 8 ≠ 0xFF#8

/-- The encoding of an instruction keeps its reserved bits clear. -/
def ReservedClear.Statement (i : Instr) : Prop := reservedClear (encode i) = true

theorem reservedClear_commandWord (op : Byte) (d src : Slot) (t c : BitVec 2) (x : BitVec 4) :
    reservedClear (.command (commandWord op d src t c x)) = true := decide_eq_true (commandWord_reserved op d src t c x)

theorem ReservedClear.nop : ReservedClear.Statement .nop := reservedClear_commandWord _ _ _ _ _ _

theorem ReservedClear.predclr : ReservedClear.Statement .predclr := reservedClear_commandWord _ _ _ _ _ _

theorem ReservedClear.bwinit : ReservedClear.Statement .bwinit := reservedClear_commandWord _ _ _ _ _ _

theorem ReservedClear.bwflush : ReservedClear.Statement .bwflush := reservedClear_commandWord _ _ _ _ _ _

theorem ReservedClear.close : ReservedClear.Statement .close := reservedClear_commandWord _ _ _ _ _ _

theorem ReservedClear.brinit : ReservedClear.Statement .brinit := reservedClear_commandWord _ _ _ _ _ _

theorem ReservedClear.bralign : ReservedClear.Statement .bralign := reservedClear_commandWord _ _ _ _ _ _

theorem ReservedClear.fdct (d src : Slot) : ReservedClear.Statement (.fdct d src) := reservedClear_commandWord _ _ _ _ _ _

theorem ReservedClear.idct (d src : Slot) : ReservedClear.Statement (.idct d src) := reservedClear_commandWord _ _ _ _ _ _

theorem ReservedClear.quant (d src : Slot) (t : BitVec 2) : ReservedClear.Statement (.quant d src t) :=
  reservedClear_commandWord _ _ _ _ _ _

theorem ReservedClear.dequant (d src : Slot) (t : BitVec 2) : ReservedClear.Statement (.dequant d src t) :=
  reservedClear_commandWord _ _ _ _ _ _

theorem ReservedClear.zigzag (d src : Slot) : ReservedClear.Statement (.zigzag d src) :=
  reservedClear_commandWord _ _ _ _ _ _

theorem ReservedClear.unzigzag (d src : Slot) : ReservedClear.Statement (.unzigzag d src) :=
  reservedClear_commandWord _ _ _ _ _ _

theorem ReservedClear.qbuild (t : BitVec 2) (x : BitVec 4) : ReservedClear.Statement (.qbuild t x) :=
  reservedClear_commandWord _ _ _ _ _ _

theorem ReservedClear.qload (t : BitVec 2) : ReservedClear.Statement (.qload t) := reservedClear_commandWord _ _ _ _ _ _

theorem ReservedClear.henc (src : Slot) (c t : BitVec 2) : ReservedClear.Statement (.henc src c t) :=
  reservedClear_commandWord _ _ _ _ _ _

theorem ReservedClear.hdec (d : Slot) (c t : BitVec 2) : ReservedClear.Statement (.hdec d c t) :=
  reservedClear_commandWord _ _ _ _ _ _

theorem ReservedClear.hload (t : BitVec 2) (x : BitVec 4) : ReservedClear.Statement (.hload t x) :=
  reservedClear_commandWord _ _ _ _ _ _

theorem ReservedClear.cconv (t : BitVec 2) (x : BitVec 4) : ReservedClear.Statement (.cconv t x) :=
  reservedClear_commandWord _ _ _ _ _ _

theorem ReservedClear.upscc (t : BitVec 2) (x : BitVec 4) : ReservedClear.Statement (.upscc t x) :=
  reservedClear_commandWord _ _ _ _ _ _

theorem ReservedClear.hdrw (t : BitVec 2) : ReservedClear.Statement (.hdrw t) := reservedClear_commandWord _ _ _ _ _ _

theorem ReservedClear.parsehdr : ReservedClear.Statement .parsehdr := reservedClear_commandWord _ _ _ _ _ _

theorem ReservedClear.rstchk : ReservedClear.Statement .rstchk := reservedClear_commandWord _ _ _ _ _ _

theorem ReservedClear.eoichk : ReservedClear.Statement .eoichk := reservedClear_commandWord _ _ _ _ _ _

theorem ReservedClear.encode : ReservedClear.Statement .encode := reservedClear_commandWord _ _ _ _ _ _

theorem ReservedClear.decode : ReservedClear.Statement .decode := reservedClear_commandWord _ _ _ _ _ _

theorem ReservedClear.soi : ReservedClear.Statement .soi := by unfold ReservedClear.Statement; decide

theorem ReservedClear.eoi : ReservedClear.Statement .eoi := by unfold ReservedClear.Statement; decide

theorem ReservedClear.dqt : ReservedClear.Statement .dqt := by unfold ReservedClear.Statement; decide

theorem ReservedClear.dht : ReservedClear.Statement .dht := by unfold ReservedClear.Statement; decide

theorem ReservedClear.dri : ReservedClear.Statement .dri := by unfold ReservedClear.Statement; decide

theorem ReservedClear.sof0 : ReservedClear.Statement .sof0 := by unfold ReservedClear.Statement; decide

theorem ReservedClear.sos : ReservedClear.Statement .sos := by unfold ReservedClear.Statement; decide

theorem ReservedClear.rstn (n : BitVec 3) : ReservedClear.Statement (.rstn n) :=
  by revert n; unfold ReservedClear.Statement; decide

theorem ReservedClear.appn (n : BitVec 4) : ReservedClear.Statement (.appn n) :=
  by revert n; unfold ReservedClear.Statement; decide

theorem ReservedClear.com : ReservedClear.Statement .com := by unfold ReservedClear.Statement; decide

theorem ReservedClear.sof1 : ReservedClear.Statement .sof1 := by unfold ReservedClear.Statement; decide

theorem ReservedClear.sof2 : ReservedClear.Statement .sof2 := by unfold ReservedClear.Statement; decide

theorem ReservedClear.sof3 : ReservedClear.Statement .sof3 := by unfold ReservedClear.Statement; decide

theorem ReservedClear.sof5 : ReservedClear.Statement .sof5 := by unfold ReservedClear.Statement; decide

theorem ReservedClear.sof6 : ReservedClear.Statement .sof6 := by unfold ReservedClear.Statement; decide

theorem ReservedClear.sof7 : ReservedClear.Statement .sof7 := by unfold ReservedClear.Statement; decide

theorem ReservedClear.jpg : ReservedClear.Statement .jpg := by unfold ReservedClear.Statement; decide

theorem ReservedClear.sof9 : ReservedClear.Statement .sof9 := by unfold ReservedClear.Statement; decide

theorem ReservedClear.sof10 : ReservedClear.Statement .sof10 := by unfold ReservedClear.Statement; decide

theorem ReservedClear.sof11 : ReservedClear.Statement .sof11 := by unfold ReservedClear.Statement; decide

theorem ReservedClear.dac : ReservedClear.Statement .dac := by unfold ReservedClear.Statement; decide

theorem ReservedClear.sof13 : ReservedClear.Statement .sof13 := by unfold ReservedClear.Statement; decide

theorem ReservedClear.sof14 : ReservedClear.Statement .sof14 := by unfold ReservedClear.Statement; decide

theorem ReservedClear.sof15 : ReservedClear.Statement .sof15 := by unfold ReservedClear.Statement; decide

theorem ReservedClear.dnl : ReservedClear.Statement .dnl := by unfold ReservedClear.Statement; decide

theorem ReservedClear.dhp : ReservedClear.Statement .dhp := by unfold ReservedClear.Statement; decide

theorem ReservedClear.exp : ReservedClear.Statement .exp := by unfold ReservedClear.Statement; decide

theorem ReservedClear.tem : ReservedClear.Statement .tem := by unfold ReservedClear.Statement; decide

theorem ReservedClear.jpgnF0 (n : BitVec 3) : ReservedClear.Statement (.jpgnF0 n) :=
  by revert n; unfold ReservedClear.Statement; decide

theorem ReservedClear.jpgnF8 (n : BitVec 2) : ReservedClear.Statement (.jpgnF8 n) :=
  by revert n; unfold ReservedClear.Statement; decide

theorem ReservedClear.jpgnFC (n : BitVec 1) : ReservedClear.Statement (.jpgnFC n) :=
  by revert n; unfold ReservedClear.Statement; decide

theorem ReservedClear.res02 (n : BitVec 1) : ReservedClear.Statement (.res02 n) :=
  by revert n; unfold ReservedClear.Statement; decide

theorem ReservedClear.res04 (n : BitVec 2) : ReservedClear.Statement (.res04 n) :=
  by revert n; unfold ReservedClear.Statement; decide

theorem ReservedClear.res08 (n : BitVec 3) : ReservedClear.Statement (.res08 n) :=
  by revert n; unfold ReservedClear.Statement; decide

theorem ReservedClear.res10 (n : BitVec 4) : ReservedClear.Statement (.res10 n) :=
  by revert n; unfold ReservedClear.Statement; decide

theorem ReservedClear.res20 (n : BitVec 5) : ReservedClear.Statement (.res20 n) :=
  by revert n; unfold ReservedClear.Statement; decide

theorem ReservedClear.res40 (n : BitVec 6) : ReservedClear.Statement (.res40 n) :=
  by revert n; unfold ReservedClear.Statement; decide

theorem ReservedClear.res80 (n : BitVec 6) : ReservedClear.Statement (.res80 n) :=
  by revert n; unfold ReservedClear.Statement; decide

end Sys2Proof.Laws
end

