-- ==== Sys2Proof/Laws/Step.lean ====
section
/-! SUPPORT. Everything a step can do: a property that survives each named change survives every instruction and every
step. -/

namespace Sys2Proof.Machine

/-- P survives every change an instruction makes (40 to 48, 60 R756). -/
structure ExecClosed (P : State → Prop) : Prop where
  complete : ∀ e s, P s → P (complete e s)
  writer : WriterClosed P
  reader : ReaderClosed P
  header : HeaderClosed P
  blk : ∀ d b s, P s → P (setBlk d b s)
  pred : ∀ c v s, P s → P (setPred c v s)
  preds : ∀ s, P s → P (clearPreds s)
  rst : ∀ n s, P s → P (clearPreds { s with rstNext := n })
  res0 : ∀ v s, P s → P (setRes0 v s)
  res1 : ∀ v s, P s → P (setRes1 v s)
  clear : ∀ s, P s → P (clearTables s)
  resized : ∀ s, P s → P (noteResized s)
  decStart : ∀ s, P s → P (decodeStart s)
  decDone : ∀ s, P s → P (decodeDone s)
  bwInit : ∀ (a n : Word) s, P s → a.toNat + n.toNat ≤ s.memBytes →
    P { s with bw := { ptr := a, lim := a + n, acc := 0#8, cnt := 0#3 } }
  brInit : ∀ (a n : Word) s, P s → a.toNat + n.toNat ≤ s.memBytes →
    P { s with br := { ptr := a, lim := a + n, cur := 0#8, cnt := 0#4, mark := false } }
  align : ∀ s, P s → P (setCount 0#4 s)
  write : ∀ a v s, P s → a < s.memBytes → P (writeByte a v s)

variable {P : State → Prop}

theorem runCommand_keeps (hP : ExecClosed P) {x : Eng Unit} {s t : State} (hs : P s) (h : runCommand x s = .next t)
    (hx : Keeps P x) : P t := by
  rw [runCommand_next h]
  exact finish_keeps hx hP.complete hs

theorem keeps_markerEvent_of_closed (hP : ExecClosed P) (r : MarkerReader) (c : Byte) : Keeps P (markerEvent r c) :=
  keeps_markerEvent (keeps_headerEvent (keeps_headerCase hP.header) hP.header.pstate c) (keeps_restartEvent c hP.rst)
    (keeps_endEvent c hP.header.pstate) r

theorem endMarker_keeps_of_closed (hP : ExecClosed P) {x : EStateM.Result ErrCode State Bool} (hx : P (stateAfter x)) :
    P (endMarker x) := endMarker_keeps hx hP.complete (hP.header.pstate _)

theorem runMarker_keeps (hP : ExecClosed P) {c : Byte} {s t : State} (hs : P s) (h : runMarker c s = .next t) : P t := by
  obtain ⟨r, rfl⟩ | rfl := runMarker_cases h
  · exact endMarker_keeps_of_closed hP (keeps_markerEvent_of_closed hP r c s hs)
  · exact hs

/-- Every instruction answers a next state. -/
theorem exec_next (i : Instr) (s : State) : ∃ t, exec i s = .next t := by
  cases i <;> exact ⟨_, rfl⟩

theorem encodeClosed_of_closed (hP : ExecClosed P) (ss : BitVec 2) : EncodeClosed ss P where
  writer := hP.writer
  quant _ _ e s hs he := hP.header.tables.quant _ e s hs he
  blk _ _ := hP.blk _
  pred := hP.pred
  preds := hP.preds
  res0 := hP.res0
  res1 := hP.res1
  init := hP.bwInit

theorem decodeClosed_of_closed (hP : ExecClosed P) (lo hi : Nat) : DecodeClosed lo hi P where
  header := hP.header
  reader := hP.reader
  clear := hP.clear
  resized := hP.resized
  blk _ _ := hP.blk _
  pred := hP.pred
  preds := hP.preds
  rst := hP.rst
  start := hP.decStart
  done := hP.decDone
  init := hP.brInit
  write _ _ _ hs _ _ hm := hP.write _ _ _ hs hm

/-- P survives every instruction. -/
theorem exec_keeps (hP : ExecClosed P) {i : Instr} {s t : State} (hs : P s) (h : exec i s = .next t) : P t := by
  cases i
  case nop => exact runCommand_keeps hP hs h (keeps_pure _)
  case predclr => exact runCommand_keeps hP hs h hP.preds
  case bwinit => exact runCommand_keeps hP hs h (keeps_doBwinit _ _ (hP.bwInit _ _))
  case bwflush => exact runCommand_keeps hP hs h (keeps_flush hP.writer)
  case close => exact runCommand_keeps hP hs h (keeps_doClose hP.writer)
  case brinit => exact runCommand_keeps hP hs h (keeps_doBrinit _ _ (hP.brInit _ _))
  case bralign => exact runCommand_keeps hP hs h fun u hu => hP.align u hu
  case fdct d src => exact runCommand_keeps hP hs h (keeps_doFdct _ _ (hP.blk d))
  case idct d src => exact runCommand_keeps hP hs h (keeps_doIdct _ _ (hP.blk d))
  case quant d src tt => exact runCommand_keeps hP hs h (keeps_doQuant _ _ _ (hP.blk d))
  case dequant d src tt => exact runCommand_keeps hP hs h (keeps_doDequant _ _ _ (hP.blk d))
  case zigzag d src => exact runCommand_keeps hP hs h (keeps_doZigzag _ _ (hP.blk d))
  case unzigzag d src => exact runCommand_keeps hP hs h (keeps_doUnzigzag _ _ (hP.blk d))
  case qbuild tt x =>
    exact runCommand_keeps hP hs h (keeps_doQbuild _ _ _ (hP.header.tables.quant _) hP.res0)
  case qload tt => exact runCommand_keeps hP hs h (keeps_doQload _ _ (hP.header.tables.quant _))
  case henc src c tt => exact runCommand_keeps hP hs h (keeps_doHenc hP.writer _ _ _ fun k _ => hP.pred k)
  case hdec d c tt => exact runCommand_keeps hP hs h (keeps_doHdec hP.reader _ _ _ (hP.blk d) fun k _ => hP.pred k)
  case hload tt x =>
    exact runCommand_keeps hP hs h (keeps_doHload _ _ _ (fun _ _ => hP.header.tables.huff _ _) hP.res0)
  case cconv tt x => exact runCommand_keeps hP hs h (keeps_doCconv _ _ _ _ _ fun q _ => hP.blk q.1)
  case upscc tt x =>
    exact runCommand_keeps hP hs h (keeps_doUpscc _ _ _ _ _ fun a v s hs _ _ hm => hP.write a v s hs hm)
  case hdrw tt => exact runCommand_keeps hP hs h (keeps_doHdrw hP.writer _ _ hP.res0)
  case parsehdr => exact runCommand_keeps hP hs h (keeps_doParsehdr hP.header)
  case rstchk => exact runCommand_keeps hP hs h (keeps_doRstchk hP.header.bytes hP.header.pstate hP.rst)
  case eoichk => exact runCommand_keeps hP hs h (keeps_doEoichk hP.header.bytes hP.header.pstate)
  case encode => exact runCommand_keeps hP hs h (keeps_doEncode _ _ _ _ _ _ (encodeClosed_of_closed hP _))
  case decode => exact runCommand_keeps hP hs h (keeps_doDecode _ _ _ _ _ (decodeClosed_of_closed hP _ _))
  all_goals exact runMarker_keeps hP hs h

/-- Reading the next marker keeps what the reader's moves keep. -/
theorem keeps_fetchMarker (hP : ExecClosed P) (r : MarkerReader) : Keeps P (fetchMarker r) := by
  intro s hs
  cases r <;> simp only [fetchMarker]
  · split
    · have h := keeps_expectSoiMarker hP.header.bytes (hP.header.pstate _) s hs
      cases hr : expectSoiMarker s <;> rw [hr] at h
      · exact hP.header.pstate _ _ h
      · exact h
    · exact keeps_nextMarker hP.header.bytes s hs
  · exact keeps_bind (keeps_checkState _ _) (fun _ => keeps_update_bind hP.header.bytes.drop
      (keeps_nextMarker hP.header.bytes)) s hs
  · exact keeps_bind (keeps_checkState _ _) (fun _ => keeps_update_bind hP.header.bytes.drop
      (keeps_replaceError (keeps_nextMarker hP.header.bytes))) s hs

/-- P survives every move of the host and the taking of a move off the agenda (60 R785, 70 R802). -/
structure HostClosed (P : State → Prop) : Prop where
  agenda : ∀ ms s, P s → P { s with agenda := ms }
  ie : ∀ b s, P s → P { s with ie := b }
  reset : ∀ s, P s → P (softReset s)
  clear : ∀ w s, P s → P { s with status := statusClear w s.status }
  issue : ∀ w s, P s → P (issue w s)
  live : ∀ o w s, P s → P (writeLiveCsr o w s)
  read : ∀ v n s, P s → P { s with hostData := v, draws := n }
  write : ∀ a bs s, P s → a + bs.length ≤ s.memBytes → P (writeBytes a bs s)

theorem engineMove_keeps (hP : ExecClosed P) {s t : State} (hs : P s) (h : engineMove s = .next t) : P t := by
  unfold engineMove at h
  split at h
  · split at h
    · exact exec_keeps hP hs h
    · simp only [Host.Outcome.next.injEq] at h
      exact h ▸ hP.complete _ _ hs
  · simp only [Host.Outcome.next.injEq] at h
    exact h ▸ hs

theorem hostBytes_state (a n : Nat) (s : State) : ∃ k, (hostBytes a n s).2 = { s with draws := k } := by
  induction n generalizing a s with
  | zero => exact ⟨s.draws, rfl⟩
  | succ n ih =>
    have hd : ∃ j, (hostByte a s).2 = { s with draws := j } := by
      unfold hostByte
      split
      · exact ⟨_, rfl⟩
      · exact ⟨s.draws, rfl⟩
    obtain ⟨j, hj⟩ := hd
    obtain ⟨k, hk⟩ := ih (a + 1) { s with draws := j }
    exact ⟨k, by rw [hostBytes]; simp only [hj, hk]⟩

theorem littleBytes_length (w n : Nat) : (littleBytes w n).length = n := by
  induction n generalizing w with
  | zero => rfl
  | succ n ih => simp [littleBytes, ih]

/-- All that a CSR read does: it hands the host a value. -/
theorem hostReadCsr_state (o : Nat) (s : State) : ∃ v d, hostReadCsr o s = { s with hostData := v, draws := d } := by
  unfold hostReadCsr
  split
  · exact ⟨_, s.draws, rfl⟩
  · exact ⟨_, _, rfl⟩

/-- Where the value of a CSR is defined, it is what the host gets. -/
theorem hostReadCsr_defined {o : Nat} {s : State} (h : csrDefined s o = true) :
    hostReadCsr o s = { s with hostData := csrValue s o } := by rw [hostReadCsr, if_pos h]

theorem hostMove_keeps (hH : HostClosed P) {a : HostAccess} {s t : State} (hs : P s) (h : hostMove a s = .next t) :
    P t := by
  cases a with
  | readCsr o w =>
    simp only [hostMove, csrAccess] at h
    split at h <;> [skip; split at h] <;> simp only [Host.Outcome.next.injEq, reduceCtorEq] at h
    obtain ⟨v, d, hr⟩ := hostReadCsr_state o s
    rw [← h, hr]
    exact hH.read _ _ _ hs
  | writeCsr o w d =>
    simp only [hostMove, csrAccess] at h
    split at h <;> [simp at h; split at h] <;> [simp at h; skip]
    unfold hostWriteCsr at h
    split at h
    · simp only [Host.Outcome.next.injEq] at h
      rw [← h]
      unfold writeCtrl
      split
      · exact hH.reset _ hs
      · exact hH.ie _ _ hs
    · split at h
      · simp only [Host.Outcome.next.injEq] at h
        exact h ▸ hH.clear _ _ hs
      · split at h
        · simp only [Host.Outcome.next.injEq] at h
          exact h ▸ hH.issue _ _ hs
        · split at h
          · split at h
            · simp at h
            · simp only [Host.Outcome.next.injEq] at h
              exact h ▸ hH.live _ _ _ hs
          · simp only [Host.Outcome.next.injEq] at h
            exact h ▸ hs
  | readMem a w =>
    simp only [hostMove, lmemAccess] at h
    split at h <;> [skip; split at h] <;> simp only [Host.Outcome.next.injEq, reduceCtorEq] at h
    rw [← h]
    unfold hostReadMem
    obtain ⟨k, hk⟩ := hostBytes_state a (widthBytes w) s
    simp only [hk]
    exact hH.read _ _ _ hs
  | writeMem a w d =>
    simp only [hostMove, lmemAccess] at h
    split at h <;> [simp at h; split at h] <;> [simp at h; split at h] <;> [simp at h; skip]
    next hm _ =>
    simp only [Host.Outcome.next.injEq] at h
    rw [← h]
    exact hH.write _ _ _ hs (by rw [littleBytes_length]; omega)

/-- P survives every step. -/
theorem step_keeps (hP : ExecClosed P) (hH : HostClosed P) {s t : State} (hs : P s) (h : step s = .next t) : P t := by
  unfold step at h
  split at h
  · exact engineMove_keeps hP hs h
  · exact engineMove_keeps hP (hH.agenda _ _ hs) h
  · exact hostMove_keeps hH (hH.agenda _ _ hs) h

end Sys2Proof.Machine
end

