-- ==== Sys2Proof/Tests/Slice0.lean ====
section
/-! SUPPORT. Tests: the well-formedness checks refuse, every constructor decodes from a word written out from spec/30, one
or two small steps per instruction with results from spec/95 or by hand from the rules, and a witness for the hypotheses of
every statement. Each comment names the source of the expected result. -/

namespace Sys2Proof.Tests

open Sys2Proof Sys2Proof.Machine

set_option Elab.async false

/-! ### Well-formedness: each check refuses an ill-formed term (30 R201, R205, R210, R213, R215) -/

theorem test_wf_refuses_component_3 : (Instr.henc 0#3 3#2 0#2).wf = false ∧ (Instr.hdec 0#3 3#2 0#2).wf = false := by
  decide

theorem test_wf_refuses_encoder_set_2 : (Instr.henc 0#3 0#2 2#2).wf = false := by decide

theorem test_wf_refuses_qbuild_x : (Instr.qbuild 0#2 4#4).wf = false := by decide

theorem test_wf_refuses_hload_fields : (Instr.hload 2#2 0#4).wf = false ∧ (Instr.hload 0#2 2#4).wf = false := by decide

theorem test_wf_refuses_cconv_format : (Instr.cconv 0#2 7#4).wf = false := by decide

theorem test_wf_refuses_cconv_pair : (Instr.cconv 2#2 6#4).wf = false ∧ (Instr.cconv 3#2 6#4).wf = true := by decide

theorem test_wf_refuses_upscc_layout : (Instr.upscc 0#2 0#4).wf = false ∧ (Instr.upscc 3#2 0#4).wf = false := by decide

theorem test_wf_refuses_upscc_order : (Instr.upscc 1#2 2#4).wf = false := by decide

/-! ### Decoding: words written out from the encodings of 30 R200, R203 and R252 -/

/-- System, stream and macro commands: only OP, bits 7:0 (R203). -/
theorem test_decode_plain_words :
    [0x00000000#32, 0x00000001#32, 0x00000008#32, 0x00000009#32, 0x0000000B#32, 0x0000000C#32, 0x0000000D#32,
        0x00000039#32, 0x0000003A#32, 0x0000003B#32, 0x00000040#32, 0x00000041#32].map (fun w => (decodeCommand w).toOption)
      = [some .nop, some .predclr, some .bwinit, some .bwflush, some .close, some .brinit, some .bralign, some .parsehdr,
        some .rstchk, some .eoichk, some .encode, some .decode] := by decide

/-- FDCT b1, b0 (R252); IDCT b7, b2: 0x11, D = 7 in bits 10:8, S = 2 in bits 14:12. -/
theorem test_decode_dct :
    (decodeCommand 0x00000110#32).toOption = some (.fdct 1#3 0#3)
      ∧ (decodeCommand 0x00002711#32).toOption = some (.idct 7#3 2#3) := by decide

/-- QUANT b1, b1, q0 and ZIGZAG b2, b1 and QBUILD q1, chroma, quality (R252); DEQUANT b5, b6, q3: T = 3 in bits 17:16;
UNZIGZAG b1, b0 (P1); QLOAD q2. -/
theorem test_decode_quant :
    (decodeCommand 0x00001114#32).toOption = some (.quant 1#3 1#3 0#2)
      ∧ (decodeCommand 0x00036515#32).toOption = some (.dequant 5#3 6#3 3#2)
      ∧ (decodeCommand 0x00001216#32).toOption = some (.zigzag 2#3 1#3)
      ∧ (decodeCommand 0x00000117#32).toOption = some (.unzigzag 1#3 0#3)
      ∧ (decodeCommand 0x00310018#32).toOption = some (.qbuild 1#2 3#4)
      ∧ (decodeCommand 0x00020019#32).toOption = some (.qload 2#2) := by decide

/-- HENC b4, c1, h1 and HDEC b3, c2, dc1, ac1 and HLOAD ac1 (R252). -/
theorem test_decode_huffman :
    (decodeCommand 0x00054020#32).toOption = some (.henc 4#3 1#2 1#2)
      ∧ (decodeCommand 0x000B0321#32).toOption = some (.hdec 3#3 2#2 3#2)
      ∧ (decodeCommand 0x00110022#32).toOption = some (.hload 1#2 1#4) := by decide

/-- CCONV rgb24, s420 and UPSCC s422, bgr and HDRW s400 (R252). -/
theorem test_decode_pixels_and_header :
    (decodeCommand 0x00020030#32).toOption = some (.cconv 2#2 0#4)
      ∧ (decodeCommand 0x00110031#32).toOption = some (.upscc 1#2 1#4)
      ∧ (decodeCommand 0x00030038#32).toOption = some (.hdrw 3#2) := by decide

/-- Reserved bits 11, 15 and 24, an unused field, and an unassigned opcode are refused by name (R201, R204). -/
theorem test_decode_refuses :
    decodeCommand 0x00000800#32 = .error .reservedBits ∧ decodeCommand 0x00008000#32 = .error .reservedBits
      ∧ decodeCommand 0x01000000#32 = .error .reservedBits ∧ decodeCommand 0x00000100#32 = .error .unusedField
      ∧ decodeCommand 0x00000002#32 = .error .unassignedOpcode := by decide

/-- The markers with one code byte (30 R241). -/
theorem test_decode_markers :
    [0xD8#8, 0xD9#8, 0xDB#8, 0xC4#8, 0xDD#8, 0xC0#8, 0xDA#8, 0xFE#8].map (fun c => (decodeMarkerCode c).toOption)
        = [some .soi, some .eoi, some .dqt, some .dht, some .dri, some .sof0, some .sos, some .com]
      ∧ [0xC1#8, 0xC2#8, 0xC3#8, 0xC5#8, 0xC6#8, 0xC7#8, 0xC8#8, 0xC9#8, 0xCA#8, 0xCB#8, 0xCC#8, 0xCD#8, 0xCE#8,
          0xCF#8].map (fun c => (decodeMarkerCode c).toOption)
        = [some .sof1, some .sof2, some .sof3, some .sof5, some .sof6, some .sof7, some .jpg, some .sof9, some .sof10,
          some .sof11, some .dac, some .sof13, some .sof14, some .sof15]
      ∧ [0xDC#8, 0xDE#8, 0xDF#8, 0x01#8].map (fun c => (decodeMarkerCode c).toOption)
        = [some .dnl, some .dhp, some .exp, some .tem] := by decide

/-- The ranges, at their first and last codes: RST0..7, APP0..15, JPG0..13, the reserved codes 02..BF (30 R241). -/
theorem test_decode_marker_ranges :
    [0xD0#8, 0xD7#8, 0xE0#8, 0xEF#8, 0xF0#8, 0xF7#8, 0xF8#8, 0xFB#8, 0xFC#8, 0xFD#8].map
        (fun c => (decodeMarkerCode c).toOption)
        = [some (.rstn 0#3), some (.rstn 7#3), some (.appn 0#4), some (.appn 15#4), some (.jpgnF0 0#3),
          some (.jpgnF0 7#3), some (.jpgnF8 0#2), some (.jpgnF8 3#2), some (.jpgnFC 0#1), some (.jpgnFC 1#1)]
      ∧ [0x02#8, 0x03#8, 0x04#8, 0x07#8, 0x08#8, 0x0F#8, 0x10#8, 0x1F#8, 0x20#8, 0x3F#8, 0x40#8, 0x7F#8, 0x80#8,
          0xBF#8].map (fun c => (decodeMarkerCode c).toOption)
        = [some (.res02 0#1), some (.res02 1#1), some (.res04 0#2), some (.res04 3#2), some (.res08 0#3),
          some (.res08 7#3), some (.res10 0#4), some (.res10 15#4), some (.res20 0#5), some (.res20 31#5),
          some (.res40 0#6), some (.res40 63#6), some (.res80 0#6), some (.res80 63#6)] := by decide

/-- FF 00 and FF FF are no markers, and a marker starts with FF (30 R240). -/
theorem test_decode_refuses_markers :
    decodeMarkerBytes [0xFF#8, 0x00#8] = .error .notAMarker ∧ decodeMarkerBytes [0xFF#8, 0xFF#8] = .error .notAMarker
      ∧ decodeMarkerBytes [0xD8#8, 0xFF#8] = .error .notAMarker := by decide

/-- The words of the opcode table, at their first table words: the decoder reads them, in the table's order of bits. -/
theorem test_table_words :
    decodeTableWord 32 0x00110031 = some (.upscc 1#2 1#4) ∧ decodeTableWord 16 0xFFD8 = some .soi
      ∧ decodeTableWord 16 0xFFEF = some (.appn 15#4) ∧ decodeTableWord 16 0xFF00 = none := by decide

/-- Whether the first step after reset runs the placed word to a next state. -/
def runsFirst (nbits w : Nat) : Bool :=
  match step (State.reset.withFetchWord nbits w) with
  | .next _ => true
  | _ => false

/-- Every command of 30 R203, all fields 0, runs as the first instruction after reset. -/
theorem test_commands_run_first :
    [0x00, 0x01, 0x08, 0x09, 0x0B, 0x0C, 0x0D, 0x10, 0x11, 0x14, 0x15, 0x16, 0x17, 0x18, 0x19, 0x20, 0x21, 0x22, 0x30,
      0x31, 0x38, 0x39, 0x3A, 0x3B, 0x40, 0x41].all (runsFirst 32) = true := by decide +kernel

/-- A placed marker is run by the engine's step, from reset: the ERRCODE of SOI, RST0 and EOI, of DQT and APP0 with a length 0, of
SOF1 and of SOS before SOF0 (30 R241; 45 R582, R600, R610, R615). -/
theorem test_placed_marker_codes :
    [0xD8, 0xD0, 0xD9, 0xDB, 0xE0, 0xC1, 0xDA].map (fun c =>
        match step (State.reset.withFetchWord 16 (0xFF00 + c)) with
        | .next t => some t.status.errCode.toNat
        | _ => none)
      = [some 11, some 0, some 0, some 13, some 13, some 10, some 11] := by decide +kernel

/-- Every marker row of 30 R241, at its first code, runs as the first instruction after reset. -/
theorem test_markers_run_first :
    [0xD8, 0xD9, 0xDB, 0xC4, 0xDD, 0xC0, 0xDA, 0xD0, 0xE0, 0xFE, 0xC1, 0xC2, 0xC3, 0xC5, 0xC6, 0xC7, 0xC8, 0xC9, 0xCA, 0xCB,
      0xCC, 0xCD, 0xCE, 0xCF, 0xDC, 0xDE, 0xDF, 0x01, 0xF0, 0xF8, 0xFC, 0x02, 0x04, 0x08, 0x10, 0x20, 0x40, 0x80].all
        (fun c => runsFirst 16 (0xFF00 + c)) = true := by decide +kernel

/-! ### Small states -/

/-- The reset state of a machine with 64 KiB of LMEM. -/
def base : State := { State.reset with memBytes := 65536 }

/-- The latched arguments. -/
def withArgs (as : List Word) (s : State) : State := { s with argL := Vector.ofFn fun i : Fin 8 => as.getD i.val 0#32 }

/-- The state an instruction answers. -/
def run (i : Instr) (s : State) : State :=
  match exec i s with
  | .next t => t
  | _ => s

/-- ERRCODE. -/
def code (s : State) : Nat := s.status.errCode.toNat

/-- The block with the given entries, the others 0. -/
def blockOf (es : List (Nat × Int)) : Block := Vector.ofFn fun i : Fin 64 => wrap32 ((es.lookup i.val).getD 0)

/-- The block with every entry x. -/
def flat (x : Int) : Block := Vector.replicate 64 (wrap32 x)

/-- The entries of a slot. -/
def entries (d : Slot) (s : State) : List Int := (getBlk s d).toList.map BitVec.toInt

/-- The bit writer on an empty buffer of n bytes at 0x100. -/
def writing (n : Nat) (s : State) : State :=
  { s with bw := { ptr := 0x100#32, lim := 0x100#32 + BitVec.ofNat 32 n, acc := 0#8, cnt := 0#3 } }

/-- The bit reader at the first of the given bytes, at 0x1000. -/
def reading (bs : List Byte) (s : State) : State :=
  { writeBytes 0x1000 bs s with
    br := { ptr := 0x1000#32, lim := 0x1000#32 + BitVec.ofNat 32 bs.length, cur := 0#8, cnt := 0#4, mark := false } }

/-- The luma ROM tables installed as DC0 and AC0. -/
def lumaTables (s : State) : State := installHt 0#1 0#1 romDc0.toTable (installHt 1#1 0#1 romAc0.toTable s)

/-- A quantization table with every entry q, installed as table t. -/
def flatTable (t : BitVec 2) (q : Byte) (s : State) : State := installQt t (Vector.replicate 64 q) s

/-- A header parse in parser state p. -/
def parsing (p : ParserState) (s : State) : State := { s with cmdL := 0x39#32, pstate := p }

/-- A restart check of RST_NEXT = n, or with w = 0x3B the end check, in a scan. -/
def checking (w : Word) (n : BitVec 3) (s : State) : State := { s with cmdL := w, pstate := .inScan, rstNext := n }

/-! ### Operations: 95 V1, V2, V3, V9, V16, S5 -/

/-- V1, the rows (255,0,0), (200,100,50) and (1,2,3). -/
theorem test_ycc :
    ycc ⟨255, 0, 0⟩ = ⟨76, 85, 255⟩ ∧ ycc ⟨200, 100, 50⟩ = ⟨124, 86, 182⟩ ∧ ycc ⟨1, 2, 3⟩ = ⟨1, 128, 127⟩ := by
  decide

/-- V2, the RGB565 words 0x8410 and 0x1234. -/
theorem test_widen565 : widen565 0x8410 = ⟨132, 130, 132⟩ ∧ widen565 0x1234 = ⟨16, 69, 165⟩ := by decide

/-- V2: RGB32 bytes 50 64 C8 FF and BGR24 bytes 32 64 C8. -/
theorem test_packed_pixels :
    packedPixel (writeBytes 0 [0x50#8, 0x64#8, 0xC8#8, 0xFF#8] base) .rgb32 0 0 = ⟨200, 100, 80⟩
      ∧ packedPixel (writeBytes 0 [0x32#8, 0x64#8, 0xC8#8] base) .bgr24 0 0 = ⟨200, 100, 50⟩ := by decide +kernel

/-- V3. -/
theorem test_qscale :
    ([-5, 0, 1, 10, 25, 49, 50, 51, 75, 80, 90, 95, 99, 100, 150] : List Int).map qScale
      = [51200, 51200, 51200, 5120, 2048, 1044, 1024, 1004, 512, 410, 205, 102, 20, 0, 0] := by decide

/-- V16, five rows. -/
theorem test_ycc2rgb :
    ([⟨76, 85, 255⟩, ⟨28, 255, 107⟩, ⟨124, 86, 182⟩, ⟨0, 0, 0⟩, ⟨255, 255, 255⟩] : List Triple).map ycc2rgb
      = [⟨254, 0, 0⟩, ⟨0, 0, 253⟩, ⟨200, 100, 50⟩, ⟨0, 135, 0⟩, ⟨255, 121, 255⟩] := by decide

/-- S5: SOF0 of a 16×16 4:2:0 and of an 8×8 4:0:0 frame. -/
theorem test_sof_bytes :
    sofBytes .s420 16 16
        = [0xFF#8, 0xC0#8, 0x00#8, 0x11#8, 0x08#8, 0x00#8, 0x10#8, 0x00#8, 0x10#8, 0x03#8, 0x01#8, 0x22#8, 0x00#8, 0x02#8,
          0x11#8, 0x01#8, 0x03#8, 0x11#8, 0x01#8]
      ∧ sofBytes .s400 8 8
        = [0xFF#8, 0xC0#8, 0x00#8, 0x0B#8, 0x08#8, 0x00#8, 0x08#8, 0x00#8, 0x08#8, 0x01#8, 0x01#8, 0x11#8, 0x00#8] := by
  decide

/-- S5: SOS of three components and of one. -/
theorem test_sos_bytes :
    sosBytes .s422
        = [0xFF#8, 0xDA#8, 0x00#8, 0x0C#8, 0x03#8, 0x01#8, 0x00#8, 0x02#8, 0x11#8, 0x03#8, 0x11#8, 0x00#8, 0x3F#8, 0x00#8]
      ∧ sosBytes .s400 = [0xFF#8, 0xDA#8, 0x00#8, 0x08#8, 0x01#8, 0x01#8, 0x00#8, 0x00#8, 0x3F#8, 0x00#8] := by decide

/-- V9, code words of the ROM tables: AC0 0x0A and 0xFA, AC1 ZRL, DC1 11. -/
theorem test_rom_codes :
    codeBits romAc0 0x0A#8 = bitsMsb 0b1111111110000011 16 ∧ codeBits romAc0 0xFA#8 = bitsMsb 0b1111111111111110 16
      ∧ codeBits romAc1 0xF0#8 = bitsMsb 0b1111111010 10 ∧ codeBits romDc1 11#8 = bitsMsb 0b11111111110 11 := by
  decide +kernel

/-! ### Commands: 95 V4 to V22 -/

/-- V18: after NOP STATUS is 0x00000002. -/
theorem test_nop : statusWord (run .nop base).status = 0x00000002#32 := by decide +kernel

/-- V18: PRED0 = 5, PRED1 = −3. -/
theorem test_predclr : (run .predclr { base with pred := #v[5#16, 0xFFFD#16, 0#16] }).pred = #v[0#16, 0#16, 0#16] := by
  decide +kernel

/-- V10: BWINIT of 0x40 bytes at 0x100. -/
theorem test_bwinit :
    (run .bwinit (withArgs [0x100#32, 0x40#32] base)).bw
      = { ptr := 0x100#32, lim := 0x140#32, acc := 0#8, cnt := 0#3 } := by
  decide +kernel

/-- V10: ARG0 + ARG1 > MEM_BYTES, here by one byte. -/
theorem test_bwinit_bounds : code (run .bwinit (withArgs [0xFFFF#32, 2#32] base)) = 17 := by decide +kernel

/-- V10: CNT = 4 and ACC = 0xF give FF 00. -/
theorem test_bwflush :
    let t := run .bwflush { writing 16 base with bw.acc := 0xF#8, bw.cnt := 4#3 }
    readBytes t 0x100 2 = [0xFF#8, 0x00#8] ∧ t.bw.ptr = 0x102#32 ∧ t.bw.cnt = 0#3 := by decide +kernel

/-- V10: CNT = 2 and ACC = 0b00 give 3F FF D9. -/
theorem test_close :
    readBytes (run .close { writing 16 base with bw.cnt := 2#3 }) 0x100 3 = [0x3F#8, 0xFF#8, 0xD9#8] := by decide +kernel

/-- P3 step 8: BR_PTR = 0x400, BR_END = 0x64D. -/
theorem test_brinit :
    let t := run .brinit (withArgs [0x400#32, 589#32] { base with br.mark := true })
    t.br.ptr = 0x400#32 ∧ t.br.lim = 0x64D#32 ∧ t.br.mark = false := by decide +kernel

/-- 43 R468: CNT = 0, BR_PTR where it was. -/
theorem test_bralign :
    let t := run .bralign { base with br.ptr := 9#32, br.cnt := 5#4 }
    t.br.cnt = 0#4 ∧ t.br.ptr = 9#32 := by decide +kernel

/-- V8: the constant block −128. -/
theorem test_fdct_constant :
    entries 1#3 (run (.fdct 1#3 0#3) (setBlk 0#3 (flat (-128)) base)) = -1024 :: List.replicate 63 0 := by decide +kernel

/-- V8: the vertical ramp 16r − 56, column 0 of the result. -/
theorem test_fdct_ramp :
    let t := run (.fdct 0#3 0#3) (setBlk 0#3 (Vector.ofFn fun i : Fin 64 => wrap32 (16 * (i.val / 8 : Nat) - 56)) base)
    (List.range 8).map (fun r => (entries 0#3 t).getD (8 * r) 1) = [0, -292, 0, -30, 0, -9, 0, -2] := by decide +kernel

/-- V8: only X[1] = 100. -/
theorem test_idct_x1 :
    (entries 1#3 (run (.idct 1#3 0#3) (setBlk 0#3 (blockOf [(1, 100)]) base))).take 8
      = [145, 143, 138, 132, 125, 118, 113, 111] := by decide +kernel

/-- V8: DC only −5, and 2000, which is clamped. -/
theorem test_idct_dc :
    entries 1#3 (run (.idct 1#3 0#3) (setBlk 0#3 (blockOf [(0, -5)]) base)) = List.replicate 64 127
      ∧ entries 1#3 (run (.idct 1#3 0#3) (setBlk 0#3 (blockOf [(0, 2000)]) base)) = List.replicate 64 255 := by
  decide +kernel

/-- V5, the rows of q = 16. -/
theorem test_quant :
    (entries 1#3 (run (.quant 1#3 0#3 2#2) (flatTable 2#2 16#8
      (setBlk 0#3 (blockOf [(0, 100), (1, -100), (2, 8), (3, -8), (4, 24), (5, -24), (6, 16368)]) base)))).take 7
      = [6, -6, 1, 0, 2, -1, 1023] := by decide +kernel

/-- V5: QVALID[t] = 0. -/
theorem test_quant_needs_table : code (run (.quant 1#3 0#3 2#2) base) = 18 := by decide +kernel

/-- V5: −171 · 6, and 2^30 · 4, which wraps. -/
theorem test_dequant :
    (entries 1#3 (run (.dequant 1#3 0#3 0#2) (flatTable 0#2 6#8 (setBlk 0#3 (blockOf [(0, -171)]) base)))).head?
        = some (-1026)
      ∧ (entries 1#3 (run (.dequant 1#3 0#3 0#2) (flatTable 0#2 4#8 (setBlk 0#3 (blockOf [(0, 2 ^ 30)]) base)))).head?
        = some 0 := by decide +kernel

/-- V6: BLK[s][i] = i. -/
theorem test_zigzag :
    let e := entries 1#3 (run (.zigzag 1#3 0#3) (setBlk 0#3 (Vector.ofFn fun i : Fin 64 => wrap32 i.val) base))
    e.getD 2 0 = 8 ∧ e.getD 3 0 = 16 ∧ e.getD 63 0 = 63 := by decide +kernel

/-- V6: BLK[s][k] = k. -/
theorem test_unzigzag :
    let e := entries 0#3 (run (.unzigzag 0#3 0#3) (setBlk 0#3 (Vector.ofFn fun i : Fin 64 => wrap32 i.val) base))
    e.getD 8 0 = 2 ∧ e.getD 16 0 = 3 ∧ e.getD 5 0 = 15 := by decide +kernel

/-- V4: quality 80, luma row 0 and its reciprocals, RES0 = 410. -/
theorem test_qbuild_quality :
    let t := run (.qbuild 0#2 2#4) (withArgs [80#32] base)
    (getQt t 0#2).toList.take 8 = [6#8, 4#8, 4#8, 6#8, 10#8, 16#8, 20#8, 24#8]
      ∧ (getRq t 0#2).toList.take 8 = [5461#16, 8192#16, 8192#16, 5461#16, 3276#16, 2048#16, 1638#16, 1365#16]
      ∧ t.res0 = 410#32 := by decide +kernel

/-- V4: the raw scale 2^32 − 1, every entry 255. -/
theorem test_qbuild_raw :
    getQt (run (.qbuild 2#2 0#4) (withArgs [0xFFFFFFFF#32] base)) 2#2 = Vector.replicate 64 255#8 := by decide +kernel

/-- V13: 64 bytes 01, and byte 10 = 00. -/
theorem test_qload :
    let t := run (.qload 3#2) (withArgs [0x100#32] (writeBytes 0x100 (List.replicate 64 1#8) base))
    getRq t 3#2 = Vector.replicate 64 32768#16 ∧ qtValid t 3#2 = true := by decide +kernel

theorem test_qload_zero_entry :
    let t := run (.qload 3#2) (withArgs [0x100#32]
      (writeBytes 0x100 (List.replicate 10 1#8 ++ [0#8] ++ List.replicate 53 1#8) base))
    code t = 13 ∧ qtValid t 3#2 = false := by decide +kernel

/-- V9, the row {63: 1}: three ZRL, stuffing, no EOB. -/
theorem test_henc_long_run :
    let t := run (.henc 0#3 0#2 0#2) (setBlk 0#3 (blockOf [(63, 1)]) (writing 64 base))
    readBytes t 0x100 7 = [0x3F#8, 0xCF#8, 0xF9#8, 0xFF#8, 0x00#8, 0x3F#8, 0xFD#8] ∧ t.bw.cnt = 4#3
      ∧ t.bw.acc = 0b0111#8 := by
  decide +kernel

/-- V9, the row {0: −1000} with PRED = 1500: the difference is clamped, the predictor is not. -/
theorem test_henc_clamped_difference :
    let t := run (.henc 0#3 2#2 0#2) (setBlk 0#3 (blockOf [(0, -1000)])
      { writing 64 base with pred := #v[0#16, 0#16, 1500#16] })
    readBytes t 0x100 4 = [0xFF#8, 0x00#8, 0x00#8, 0x0A#8] ∧ t.bw.cnt = 0#3 ∧ getPred t 2 = -1000 := by decide +kernel

/-- V11, the row 3F FA FF 00 E7 FC FF 00 9F: z = {15: 1}, the last ZRL ends the block. -/
theorem test_hdec_zrl_to_the_end :
    let t := run (.hdec 3#3 0#2 0#2) (lumaTables (reading
      [0x3F#8, 0xFA#8, 0xFF#8, 0x00#8, 0xE7#8, 0xFC#8, 0xFF#8, 0x00#8, 0x9F#8] base))
    getBlk t 3#3 = blockOf [(15, 1)] ∧ t.br.ptr = 0x1009#32 ∧ t.br.cnt = 4#4 := by decide +kernel

/-- V11: sixteen 1-bits match no code, and FF D9 is a marker. -/
theorem test_hdec_errors :
    code (run (.hdec 3#3 0#2 0#2) (lumaTables (reading [0xFF#8, 0x00#8, 0xFF#8, 0x00#8, 0xFF#8, 0x00#8] base))) = 16
      ∧ code (run (.hdec 3#3 0#2 0#2) (lumaTables (reading [0xFF#8, 0xD9#8] base))) = 11 := by decide +kernel

/-- The DC0 image of V12. -/
def dc0Image : List Byte :=
  [0x00#8, 0x01#8, 0x05#8, 0x01#8, 0x01#8, 0x01#8, 0x01#8, 0x01#8, 0x01#8, 0x00#8, 0x00#8, 0x00#8, 0x00#8, 0x00#8, 0x00#8,
    0x00#8, 0x00#8, 0x01#8, 0x02#8, 0x03#8, 0x04#8, 0x05#8, 0x06#8, 0x07#8, 0x08#8, 0x09#8, 0x0A#8, 0x0B#8]

/-- V12: RES0 = 28, TVALID bit 4. -/
theorem test_hload :
    let t := run (.hload 0#2 0#4) (withArgs [0x100#32] (writeBytes 0x100 dc0Image base))
    t.res0 = 28#32 ∧ tvalidWord t = 0x10#32 ∧ (getHt t 0#1 0#1).vals[11] = 0x0B#8 := by decide +kernel

/-- V12: three codes of length 1. -/
theorem test_hload_oversubscribed :
    code (run (.hload 0#2 0#4) (withArgs [0x100#32] (writeBytes 0x100 (3#8 :: List.replicate 18 0#8) base))) = 13 := by
  decide +kernel

/-- V1 and the edge replication of 40 R306: a single pixel (200, 100, 50) as 4:4:4. -/
theorem test_cconv_pixel :
    let t := run (.cconv 0#2 0#4) (withArgs [0#32, 0x00010001#32, 0#32] (writeBytes 0 [200#8, 100#8, 50#8] base))
    getBlk t 0#3 = flat (124 - 128) ∧ getBlk t 4#3 = flat (86 - 128) ∧ getBlk t 5#3 = flat (182 - 128) := by decide +kernel

/-- V7: MCU (1, 0) of a 16×16 image with SS 2, and W = 0. -/
theorem test_cconv_errors :
    code (run (.cconv 2#2 0#4) (withArgs [0#32, 0x00100010#32, 1#32] base)) = 18
      ∧ code (run (.cconv 2#2 0#4) (withArgs [0#32, 0x00100000#32, 0#32] base)) = 4 := by decide +kernel

/-- V17, the SS 1 case: pixels (4,3) and (6,3), in an image 7 wide and 4 high. -/
theorem test_upscc_s422 :
    let s := setBlk 0#3 (flat 50) (setBlk 1#3 (flat 150) (setBlk 4#3 ((flat 128).set 26 0#32)
      (setBlk 5#3 ((flat 128).set 26 255#32) (withArgs [0x1000#32, 0x00040007#32, 0#32] base))))
    let t := run (.upscc 1#2 0#4) s
    readBytes t (0x1000 + 3 * (3 * 7 + 4)) 3 = [228#8, 3#8, 0#8]
      ∧ readBytes t (0x1000 + 3 * (3 * 7 + 6)) 3 = [50#8, 50#8, 50#8] := by decide +kernel

/-- V17, the BGR order: E4 4B 64. -/
theorem test_upscc_bgr :
    let s := setBlk 0#3 (flat 100) (setBlk 4#3 ((flat 128).set 0 200#32)
      (setBlk 5#3 (flat 128) (withArgs [0x1000#32, 0x00010001#32, 0#32] base)))
    readBytes (run (.upscc 2#2 1#4) s) 0x1000 3 = [0xE4#8, 0x4B#8, 0x64#8] := by decide +kernel

/-- P3 step 6: four bytes of room. -/
theorem test_hdrw_bounds :
    let t := run (.hdrw 2#2) (withArgs [0x00100010#32]
      { flatTable 0#2 6#8 (flatTable 1#2 7#8 (writing 4 base)) with res0 := 410#32 })
    code t = 17 ∧ readBytes t 0x100 4 = [0xFF#8, 0xD8#8, 0xFF#8, 0xDB#8] ∧ t.bw.ptr = 0x104#32 ∧ t.res0 = 410#32 := by
  decide +kernel

/-- V14: the header of an 8×8 4:0:0 frame has 579 bytes, of a 16×16 4:2:0 frame 589. -/
theorem test_header_lengths :
    (headerBytes .s400 8 8 (Vector.replicate 64 1#8) (Vector.replicate 64 1#8)).length = 579
      ∧ (headerBytes .s420 16 16 (Vector.replicate 64 1#8) (Vector.replicate 64 1#8)).length = 589 := by decide +kernel

/-! ### Parser: 95 V15, and a small stream made by hand from 30 R242 -/

/-- A DHT table of one code of length 1 for the symbol 0. -/
def oneCode (tcth : Byte) : List Byte := [tcth, 1#8] ++ List.replicate 15 0#8 ++ [0#8]

/-- The DQT, DHT, SOF0 and SOS segments of a 16×8 4:2:2 frame, each without its FF and code byte. -/
def dqtSegment : List Byte := [0#8, 67#8, 0#8] ++ List.replicate 64 1#8

def dhtSegment : List Byte := [0#8, 38#8] ++ oneCode 0x00#8 ++ oneCode 0x10#8

def sof0Segment : List Byte :=
  [0#8, 17#8, 8#8, 0#8, 8#8, 0#8, 16#8, 3#8, 1#8, 0x21#8, 0#8, 2#8, 0x11#8, 0#8, 3#8, 0x11#8, 0#8]

def sosSegment : List Byte := [0#8, 12#8, 3#8, 1#8, 0#8, 2#8, 0#8, 3#8, 0#8, 0#8, 63#8, 0#8]

/-- The header of the frame: 144 bytes. -/
def smallHeader : List Byte :=
  [0xFF#8, 0xD8#8, 0xFF#8, 0xDB#8] ++ dqtSegment ++ [0xFF#8, 0xC4#8] ++ dhtSegment ++ [0xFF#8, 0xC0#8] ++ sof0Segment
    ++ [0xFF#8, 0xDA#8] ++ sosSegment

/-- The frame: four blocks of DC category 0 and EOB, eight 0-bits, and FF D9. -/
def smallFrame : List Byte := smallHeader ++ [0x00#8, 0xFF#8, 0xD9#8]

/-- 45 R600: the scan starts behind SOS; the size and layout of SOF0. -/
theorem test_parsehdr :
    let t := run .parsehdr (reading smallHeader base)
    (t.pstate, t.res0, t.res1, t.frmInfo.ss, t.br.ptr) = (.inScan, 0x1090#32, 0x00080010#32, 1#2, 0x1090#32) := by
  decide +kernel

/-- V15: no SOI. -/
theorem test_parsehdr_no_soi :
    let t := run .parsehdr (reading [0xFF#8, 0xDB#8] base)
    code t = 1 ∧ t.pstate = .failed ∧ t.br.ptr = 0x1000#32 := by decide +kernel

/-- V15: RST_NEXT = 7 and FF D7. -/
theorem test_rstchk :
    let t := run .rstchk (checking 0x3A#32 7#3 (reading [0xFF#8, 0xD7#8] { base with pred := #v[1#16, 2#16, 3#16] }))
    code t = 0 ∧ t.rstNext = 0#3 ∧ t.pred = #v[0#16, 0#16, 0#16] ∧ t.br.ptr = 0x1002#32 := by decide +kernel

/-- P4, the variant with FF D1 for FF D0. -/
theorem test_rstchk_wrong_marker :
    code (run .rstchk (checking 0x3A#32 0#3 (reading [0xFF#8, 0xD1#8] base))) = 11 := by decide +kernel

/-- V15: FF D9, and FF alone. -/
theorem test_eoichk :
    (run .eoichk (checking 0x3B#32 0#3 (reading [0xFF#8, 0xD9#8] base))).pstate = .terminal
      ∧ code (run .eoichk (checking 0x3B#32 0#3 (reading [0xFF#8] base))) = 12 := by decide +kernel

/-! ### Macro commands: 95 V20, V22 -/

/-- V20: cap 100, 16×16. -/
theorem test_encode_bounds :
    let t := run .encode (withArgs [0#32, 0x1000#32, 100#32, 0x00100010#32, 0x5020#32] base)
    (code t, t.res0, t.res1) = (17, 100#32, 410#32) := by decide +kernel

/-- V20: W = 0, and fmt 6 with SS 2. -/
theorem test_encode_checks :
    code (run .encode (withArgs [0#32, 0x1000#32, 100#32, 0x00100000#32, 0x5020#32] base)) = 4
      ∧ code (run .encode (withArgs [0#32, 0x1000#32, 100#32, 0x00100010#32, 0x5026#32] base)) = 18 := by decide +kernel

/-- DECODE of the small frame. -/
def decoding (cap flags : Word) : State :=
  withArgs [0x1000#32, BitVec.ofNat 32 smallFrame.length, 0x2000#32, cap, flags] (writeBytes 0x1000 smallFrame base)

/-- V22, grey: RES0 = 3·16·8 without error. -/
theorem test_decode :
    (run .decode (decoding 384#32 0#32)).res0 = 384#32 ∧ (run .decode (decoding 384#32 0#32)).status.err = false := by
  decide +kernel

/-- V22, a capacity one byte too small; V15, EXPECT with PREV_DIM = 0. -/
theorem test_decode_errors :
    let t := run .decode (decoding 383#32 0#32)
    (code t, t.res0, t.pstate, t.status.resized) = (17, 0#32, .failed, true)
      ∧ code (run .decode (decoding 384#32 1#32)) = 3 := by decide +kernel

/-! ### Markers (30 R241, 45 R583 to R615) -/

/-- SOI begins the tables; EOI at the end check ends the image. -/
theorem test_soi_eoi :
    (run .soi (parsing .expectSoi base)).pstate = .readingTables
      ∧ (run .eoi (checking 0x3B#32 0#3 base)).pstate = .terminal := by decide +kernel

/-- DQT: table 0 of ones (V13). -/
theorem test_dqt :
    let t := run .dqt (parsing .readingTables (reading dqtSegment base))
    qtValid t 0#2 = true ∧ getRq t 0#2 = Vector.replicate 64 32768#16 ∧ t.br.ptr = 0x1043#32 := by decide +kernel

/-- S15: a 16-bit table. -/
theorem test_dqt_precision :
    code (run .dqt (parsing .readingTables (reading ([0#8, 131#8, 0x10#8] ++ List.replicate 128 0#8) base))) = 13 := by
  decide +kernel

/-- DHT: two tables, DC0 and AC0: TVALID bits 4 and 6. -/
theorem test_dht :
    tvalidWord (run .dht (parsing .readingTables (reading dhtSegment base))) = 0x50#32 := by decide +kernel

/-- P4: the DRI segment FF DD 00 04 00 01. -/
theorem test_dri :
    (run .dri (parsing .readingTables (reading [0#8, 4#8, 0#8, 1#8] base))).dri = 1#16
      ∧ code (run .dri (parsing .readingTables (reading [0#8, 5#8, 0#8, 1#8, 0#8] base))) = 13 := by decide +kernel

/-- SOF0 of the small frame; S14, SOF0 with four components; a second SOF0. -/
theorem test_sof0 :
    let t := run .sof0 (parsing .readingTables (reading sof0Segment base))
    t.pstate = .sof0Seen ∧ t.frmDim = 0x00080010#32 ∧ t.frmInfo.ss = 1#2 := by decide +kernel

theorem test_sof0_errors :
    code (run .sof0 (parsing .readingTables (reading
        [0#8, 20#8, 8#8, 0#8, 16#8, 0#8, 16#8, 4#8, 1#8, 0x22#8, 0#8, 2#8, 0x11#8, 1#8, 3#8, 0x11#8, 1#8, 4#8, 0x11#8, 1#8]
        base))) = 5
      ∧ code (run .sof0 (parsing .sof0Seen (reading sof0Segment base))) = 11 := by decide +kernel

/-- SOS with its tables, and without the Huffman tables. -/
theorem test_sos :
    let t := run .sos (parsing .sof0Seen (reading sosSegment (lumaTables (flatTable 0#2 1#8 base))))
    t.pstate = .inScan ∧ t.res0 = 0x100C#32 ∧ code t = 0 := by decide +kernel

theorem test_sos_needs_tables :
    code (run .sos (parsing .sof0Seen (reading sosSegment (flatTable 0#2 1#8 base)))) = 13 := by decide +kernel

/-- RSTn at its check; in a header it is unexpected. -/
theorem test_rstn :
    (run (.rstn 7#3) (checking 0x3A#32 7#3 base)).rstNext = 0#3
      ∧ code (run (.rstn 0#3) (parsing .readingTables base)) = 11 := by decide +kernel

/-- APPn and COM skip their segments. -/
theorem test_appn_com :
    (run (.appn 0#4) (parsing .readingTables (reading [0#8, 5#8, 1#8, 2#8, 3#8] base))).br.ptr = 0x1005#32
      ∧ (run .com (parsing .sof0Seen (reading [0#8, 2#8] base))).br.ptr = 0x1002#32 := by decide +kernel

/-- V15: the markers that are not baseline. -/
theorem test_not_baseline :
    ([.sof1, .sof2, .sof3, .sof5, .sof6, .sof7, .jpg, .sof9, .sof10, .sof11, .dac, .sof13, .sof14, .sof15, .dhp, .exp] :
      List Instr).map (fun i => code (run i (parsing .readingTables base))) = List.replicate 16 10 := by decide +kernel

/-- 30 R241: the markers that are unexpected wherever they stand. -/
theorem test_unexpected :
    ([.dnl, .tem, .jpgnF0 0#3, .jpgnF8 0#2, .jpgnFC 0#1, .res02 0#1, .res04 0#2, .res08 0#3, .res10 0#4, .res20 0#5,
      .res40 0#6, .res80 0#6] : List Instr).map (fun i => code (run i (parsing .sof0Seen base)))
      = List.replicate 12 11 := by
  decide +kernel

/-! ### Steps: 95 V18, V19, P3, P5 -/

/-- The state one step answers. -/
def stepped (s : State) : State :=
  match step s with
  | .next t => t
  | _ => s

/-- The host access as the next move. -/
def hosting (a : HostAccess) (s : State) : State := { s with agenda := [.host a] }

/-- 20 R165, 93 I19: while BUSY an unlisted offset reads 0 without a draw and STATUS its value; another CSR is a draw. -/
theorem test_csr_reads_while_busy :
    let s := { base with status.busy := true, hostData := 5#32 }
    let t := stepped (hosting (.readCsr 0x04C .word) s)
    let u := stepped (hosting (.readCsr 0x008 .word) s)
    (t.hostData, t.draws, u.hostData, u.draws) = (0#32, 0, 1#32, 0)
      ∧ (stepped (hosting (.readCsr 0x03C .word) s)).draws = 1 := by decide +kernel

/-- V18 and P3 step 2: the words 0x00000100 and 0x00000002 give STATUS = 0x00001206. -/
theorem test_step_illegal_words :
    statusWord (stepped (placeCommand 0x00000100#32 base)).status = 0x00001206#32
      ∧ statusWord (stepped (placeCommand 0x00000002#32 base)).status = 0x00001206#32 := by decide +kernel

/-- V19: a CMD write while BUSY sets OVR; the write of 2 to STATUS ends IRQ. -/
theorem test_step_ovr_and_ack :
    (stepped (hosting (.writeCsr 0x00C .word 0#32) { base with status.busy := true })).status.ovr = true
      ∧ irq (stepped (hosting (.writeCsr 0x008 .word 2#32) { base with ie := true, status.done := true })) = false := by
  decide +kernel

/-- 20 R156: a word is little-endian; 10 R60: ID. -/
theorem test_step_host_access :
    readBytes (stepped (hosting (.writeMem 0x10 .word 0x11223344#32) base)) 0x10 4 = [0x44#8, 0x33#8, 0x22#8, 0x11#8]
      ∧ (stepped (hosting (.readCsr 0x000 .word) base)).hostData = 0x4A430001#32 := by decide +kernel

/-- P2: FRM_INFO = 0x0003C142 for SS 2, TQ1 = TQ2 = 1 and TD1 = TA1 = TD2 = TA2 = 1; V10: BW_STATE. -/
theorem test_csr_words :
    frmInfoWord { ss := 2#2, tq := #v[0#2, 1#2, 1#2], td := #v[0#1, 1#1, 1#1], ta := #v[0#1, 1#1, 1#1] } = 0x0003C142#32
      ∧ csrValue { base with bw.acc := 0b1010#8, bw.cnt := 4#3 } 0x048 = 0x40A#32
      ∧ csrValue { base with pstate := .terminal, rstNext := 1#3 } 0x070 = 0x14#32 := by decide +kernel

/-! ### Witnesses: concrete states and operands that meet the hypotheses of the statements, clause by clause -/

/-- Whether a step answers a next state. -/
def answers (s : State) : Bool :=
  match step s with
  | .next _ => true
  | _ => false

theorem step_of_answers {s : State} (h : answers s = true) : step s = .next (stepped s) := by
  unfold answers at h
  unfold stepped
  split at h
  · next hs => rw [hs]
  · cases h

theorem exec_run (i : Instr) (s : State) : exec i s = .next (run i s) := by cases i <;> rfl

/-- The machine with a latched command running. -/
def busyWith (w : Word) (s : State) : State := { s with status.busy := true, cmdL := w }

theorem witness_EncodeOfDecodeIsIdentity :
    decode (.command 0x00054020#32) = .ok (.henc 4#3 1#2 1#2) ∧ decode (.marker 0xFFEF#16) = .ok (.appn 15#4) := by decide

/-- Each ground of illegality: bits 11, 15, 24, OP, the unused D, S, T, C, X, and C = 3. -/
theorem witness_IllegalWordsRaiseErrCommand :
    (∀ w : Word, (busyWith w base).agenda = [] ∧ (busyWith w base).status.busy = true) ∧ illegalWord 0x00000800#32
      ∧ illegalWord 0x00008000#32 ∧ illegalWord 0x01000000#32 ∧ illegalWord 0x00000002#32 ∧ illegalWord 0x00000100#32
      ∧ illegalWord 0x00001000#32 ∧ illegalWord 0x00010000#32 ∧ illegalWord 0x00040000#32 ∧ illegalWord 0x00100000#32
      ∧ illegalWord 0x000C0020#32 := by
  refine ⟨fun _ => ⟨rfl, rfl⟩, ?_, ?_, ?_, ?_, ?_, ?_, ?_, ?_, ?_, ?_⟩ <;>
    · unfold illegalWord
      decide

theorem witness_IllegalFieldsRaiseErrCommand :
    ∀ i ∈ ([.qbuild 0#2 4#4, .henc 0#3 3#2 0#2, .henc 0#3 0#2 2#2, .hdec 0#3 3#2 0#2, .hload 2#2 0#4, .hload 0#2 2#4,
      .cconv 2#2 6#4, .cconv 0#2 7#4, .upscc 3#2 0#4, .upscc 1#2 2#4] : List Instr), i.wf = false := by decide

theorem witness_StepRunsTheLatchedCommand :
    (busyWith 0x00000040#32 base).status.busy = true ∧ decodeCommand 0x00000040#32 = .ok .encode
      ∧ base.status.busy = false := by
  decide +kernel

/-- PARSEHDR, RSTCHK and EOICHK latched; a marker of a header parse; SOI at its start; a marker at a checkpoint. -/
theorem witness_StepRunsTheMarkersOfAParse :
    let s := parsing .sof0Seen (busyWith 0#32 (reading [0xFF#8, 0xDB#8] base))
    let u := parsing .expectSoi (busyWith 0#32 (reading [0xFF#8, 0xD8#8] base))
    let v := checking 0x3A#32 0#3 (busyWith 0#32 (reading [0xFF#8, 0xD0#8] base))
    let e := checking 0x3B#32 0#3 (busyWith 0#32 (reading [0xFF#8, 0xD9#8] base))
    (s.status.busy = true ∧ ReaderOk s ∧ s.br.ptr.toNat + 2 ≤ s.br.lim.toNat ∧ readByte s s.br.ptr.toNat = 0xFF#8
        ∧ readByte s (s.br.ptr.toNat + 1) = 0xDB#8 ∧ decodeMarkerCode 0xDB#8 = .ok .dqt ∧ readingHeader s
        ∧ decodeCommand s.cmdL = .ok .parsehdr)
      ∧ (u.status.busy = true ∧ ReaderOk u ∧ u.br.ptr.toNat + 2 ≤ u.br.lim.toNat ∧ readByte u u.br.ptr.toNat = 0xFF#8
        ∧ readByte u (u.br.ptr.toNat + 1) = 0xD8#8 ∧ decodeMarkerCode 0xD8#8 = .ok .soi ∧ markerReader u = some .header
        ∧ u.pstate = .expectSoi)
      ∧ (v.status.busy = true ∧ ReaderOk v ∧ v.br.ptr.toNat + 2 ≤ v.br.lim.toNat ∧ readByte v v.br.ptr.toNat = 0xFF#8
        ∧ readByte v (v.br.ptr.toNat + 1) = 0xD0#8 ∧ decodeMarkerCode 0xD0#8 = .ok (.rstn 0#3)
        ∧ markerReader v = some .restart ∧ v.pstate = .inScan ∧ decodeCommand v.cmdL = .ok .rstchk)
      ∧ (e.status.busy = true ∧ ReaderOk e ∧ e.br.ptr.toNat + 2 ≤ e.br.lim.toNat ∧ readByte e e.br.ptr.toNat = 0xFF#8
        ∧ readByte e (e.br.ptr.toNat + 1) = 0xD9#8 ∧ decodeMarkerCode 0xD9#8 = .ok .eoi
        ∧ markerReader e = some .imageEnd ∧ e.pstate = .inScan ∧ decodeCommand e.cmdL = .ok .eoichk) := by
  unfold ReaderOk readingHeader
  decide +kernel

theorem witness_CmdWriteIssuesOrSetsOvr : (busyWith 0#32 base).status.busy = true ∧ base.status.busy = false := by
  decide +kernel

theorem witness_EveryCommandCompletes :
    decodeCommand 0x00000041#32 = .ok .decode ∧ decodeCommand 0#32 = .ok .nop ∧ Instr.nop ≠ .decode := by decide

theorem witness_IrqIsIeAndDone :
    ((2#32 : Word).getLsbD 1 = true ∧ answers (hosting (.writeCsr 0x008 .word 2#32) base) = true)
      ∧ (base.status.busy = false ∧ answers (hosting (.writeCsr 0x00C .word 0#32) base) = true)
      ∧ ((0#32 : Word).getLsbD 0 = false ∧ answers (hosting (.writeCsr 0x004 .word 0#32) base) = true)
      ∧ (let s := busyWith 0#32 { base with ie := true };
        s.agenda = [] ∧ s.status.busy = true ∧ s.ie = true ∧ answers s = true) := by decide +kernel

/-- Every kind of register, and the last offset; while BUSY those the host may write, and reads of ID, CTRL, STATUS and of
unlisted offsets, the holes of a Huffman window among them. -/
theorem witness_CsrWritesReadBack :
    (∀ o ∈ [0x000, 0x004, 0x008, 0x010, 0x02C, 0x030, 0x038, 0x03C, 0x040, 0x060, 0x068, 0x06C, 0x07C, 0x400, 0x1000, 0x17FC,
        0x1800, 0x2000, 0x3FFC],
      base.status.busy = false ∧ o % 4 = 0 ∧ o < 0x4000 ∧ o ≠ 0x00C ∧ (o = 0x004 → (1#32 : Word).getLsbD 1 = false))
      ∧ (∀ o ∈ [0x000, 0x004, 0x008, 0x030, 0x04C, 0x07C, 0x17FC + 4], isLiveCsr o = false)
      ∧ (∀ o ∈ [0x04C, 0x05C, 0x06C, 0x080, 0x500, 0xA00, 0x1800, 0x2110, 0x21FC, 0x3FFC], csrBits o = 0#32) := by
  decide +kernel

/-- While a DECODE with output [0x2000, 0x2000 + 384) runs: the last byte before and the first behind it; and while idle. -/
theorem witness_SoftResetRestoresResetValues :
    (2#32 : Word).getLsbD 1 = true
      ∧ inFootprint (busyWith 0x00000041#32 (decoding 384#32 0#32)) 0x1FFF = false
      ∧ inFootprint (busyWith 0x00000041#32 (decoding 384#32 0#32)) 0x2180 = false
      ∧ inFootprint (busyWith 0x00000041#32 (decoding 384#32 0#32)) 0x217F = true ∧ base.status.busy = false := by
  decide +kernel

/-- The last bytes of LMEM at every width; while a DECODE with output [0x2000, 0x2000 + 384) runs, the bytes around it. -/
theorem witness_HostLmemIsLittleEndian :
    (base.status.busy = false ∧ (0xFFFF % widthBytes .byte = 0 ∧ 0xFFFF + widthBytes .byte ≤ base.memBytes)
      ∧ (0xFFFE % widthBytes .half = 0 ∧ 0xFFFE + widthBytes .half ≤ base.memBytes)
      ∧ (0xFFFC % widthBytes .word = 0 ∧ 0xFFFC + widthBytes .word ≤ base.memBytes))
      ∧ inFootprint (busyWith 0x00000041#32 (decoding 384#32 0#32)) 0x1FFF = false
      ∧ inFootprint (busyWith 0x00000041#32 (decoding 384#32 0#32)) 0x2000 = true
      ∧ inFootprint (busyWith 0x00000041#32 (decoding 384#32 0#32)) 0x2180 = false := by decide +kernel

theorem witness_StepStopsOnlyOutsideInterface :
    step (hosting (.readMem 0x0001 .word) base) = .refused .misalignedLmem
      ∧ step (hosting (.readCsr 0x004 .byte) base) = .refused .csrForm
      ∧ step (hosting (.writeMem 0 .byte 0#32) (busyWith 0#32 base)) = .refused .hostWriteWhileBusy
      ∧ step (hosting (.readMem 0x10000 .byte) base) = .fault .lmemOutside
      ∧ step (hosting (.readCsr 0x4000 .word) base) = .fault .csrOutside ∧ answers base = true :=
  ⟨rfl, rfl, rfl, rfl, rfl, by decide +kernel⟩

/-- A state in a scan, with its tables, a written stream and pending bits, HENC the running command. -/
def live : State :=
  busyWith 0x00000020#32 (lumaTables (flatTable 0#2 16#8
    { writing 64 (reading [0x96#8, 0xBF#8] base) with
      bw.cnt := 2#3, bw.acc := 0b10#8, pstate := .inScan, frmDim := 0x00080010#32, frmInfo.ss := 1#2 }))

theorem live_answers : answers live = true := by decide +kernel

theorem witness_StepKeepsMemoryCanonical : MemOk live ∧ step live = .next (stepped live) :=
  ⟨by unfold MemOk; decide +kernel, step_of_answers live_answers⟩

theorem witness_StepKeepsBitWriterInRange : ParamOk live ∧ WriterOk live ∧ step live = .next (stepped live) :=
  ⟨by unfold ParamOk; decide +kernel, by unfold WriterOk; decide +kernel, step_of_answers live_answers⟩

theorem witness_StepKeepsBitReaderInRange : ParamOk live ∧ ReaderOk live ∧ step live = .next (stepped live) :=
  ⟨by unfold ParamOk; decide +kernel, by unfold ReaderOk; decide +kernel, step_of_answers live_answers⟩

theorem witness_StepKeepsInstalledTablesValid : QuantOk live ∧ HuffOk live ∧ step live = .next (stepped live) :=
  ⟨by unfold QuantOk; decide +kernel, by unfold HuffOk; decide +kernel, step_of_answers live_answers⟩

theorem witness_StepKeepsAcceptedFrame : ScanOk live ∧ live.pstate = .inScan ∧ step live = .next (stepped live) :=
  ⟨by unfold ScanOk frameAligned scanTablesInstalled; decide +kernel, rfl, step_of_answers live_answers⟩

/-- PARSEHDR of the small header leaves FAILED, and so does a soft reset. -/
theorem witness_FailedIsLeftOnlyByNewParse :
    let s := busyWith 0x00000039#32 { reading smallHeader base with pstate := .failed }
    let u := hosting (.writeCsr 0x004 .word 2#32) { base with pstate := .failed }
    (s.pstate = .failed ∧ answers s = true ∧ (stepped s).pstate ≠ .failed)
      ∧ (u.pstate = .failed ∧ answers u = true ∧ (stepped u).pstate ≠ .failed) := by decide +kernel

theorem witness_CommandsChangeOnlyListedParts :
    decodeCommand 0x00000110#32 = .ok (.fdct 1#3 0#3) ∧ exec (.fdct 1#3 0#3) live = .next (run (.fdct 1#3 0#3) live)
      ∧ mayChange live (.fdct 1#3 0#3) (.blk 0) = false ∧ mayChange live (.fdct 1#3 0#3) .lmem = false :=
  ⟨by decide, exec_run _ _, by decide +kernel, by decide +kernel⟩

theorem witness_MarkersChangeOnlyListedParts :
    decodeMarkerCode 0xDB#8 = .ok .dqt ∧ exec .dqt live = .next (run .dqt live) ∧ mayChange live .dqt .lmem = false :=
  ⟨by decide, exec_run _ _, by decide +kernel⟩

/-- HENC's footprint at both its ends, and NOP, which has none. -/
theorem witness_StoresStayInTheFootprint :
    exec (.henc 0#3 0#2 0#2) live = .next (run (.henc 0#3 0#2 0#2) live)
      ∧ footprintOf live (.henc 0#3 0#2 0#2) = some ⟨0x100, 0x140⟩ ∧ footprintOf live .nop = none :=
  ⟨exec_run _ _, by decide +kernel, by decide +kernel⟩

theorem witness_WriterStoresOnlyEmittedBytes :
    (live.bw.ptr.toNat ≤ live.bw.lim.toNat ∧ exec .bwflush live = .next (run .bwflush live))
      ∧ ParamOk live ∧ exec .encode live = .next (run .encode live) :=
  ⟨⟨by decide +kernel, exec_run _ _⟩, by unfold ParamOk; decide +kernel, exec_run _ _⟩

/-- A buffer that ends with LMEM, and one a byte longer. -/
theorem witness_StreamBuffersAreSetUp :
    (let s := withArgs [0xFFFF#32, 1#32] base;
      s.argL[0].toNat + s.argL[1].toNat ≤ s.memBytes)
      ∧ (let s := withArgs [0xFFFF#32, 2#32] base;
        s.memBytes < s.argL[0].toNat + s.argL[1].toNat) := by decide +kernel

theorem witness_FdctDcIsTheRoundedSum :
    let s := setBlk 0#3 (flat 64) base
    exec (.fdct 1#3 0#3) s = .next (run (.fdct 1#3 0#3) s) ∧ ∀ i : Fin 64, (getBlk s 0#3)[i] = 64#32 :=
  ⟨exec_run _ _, by decide +kernel⟩

theorem witness_IdctOfDcOnlyIsFlat :
    let s := setBlk 0#3 (blockOf [(0, 80)]) base
    exec (.idct 1#3 0#3) s = .next (run (.idct 1#3 0#3) s) ∧ ∀ i : Fin 64, i ≠ 0 → (getBlk s 0#3)[i] = 0#32 :=
  ⟨exec_run _ _, by decide +kernel⟩

theorem witness_QuantAndDequantResults : qtValid (flatTable 3#2 6#8 base) 3#2 = true ∧ qtValid base 3#2 = false := by
  decide +kernel

theorem witness_UnzigzagUndoesZigzag :
    exec (.zigzag 1#3 0#3) live = .next (run (.zigzag 1#3 0#3) live)
      ∧ exec (.unzigzag 2#3 1#3) (run (.zigzag 1#3 0#3) live)
        = .next (run (.unzigzag 2#3 1#3) (run (.zigzag 1#3 0#3) live)) := ⟨exec_run _ _, exec_run _ _⟩

theorem witness_QbuildInstallsTheScaledTable : (3#4 : BitVec 4).toNat < 4 := by decide

/-- The last 64 bytes of LMEM, one byte too far, and an entry 0. -/
theorem witness_QloadInstallsTheWireTable :
    (let s := withArgs [0xFFC0#32] (writeBytes 0xFFC0 (List.replicate 64 1#8) base);
      s.argL[0].toNat + 64 ≤ s.memBytes ∧ 0#8 ∉ readBytes s s.argL[0].toNat 64)
      ∧ (let s := withArgs [0xFFC1#32] base;
        s.memBytes < s.argL[0].toNat + 64)
      ∧ (let s := withArgs [0xFFC0#32] (writeBytes 0xFFC0 (List.replicate 64 0#8) base);
        s.argL[0].toNat + 64 ≤ s.memBytes ∧ 0#8 ∈ readBytes s s.argL[0].toNat 64) := by decide +kernel

/-- HLOAD's clauses in order: BITS beyond LMEM; 257 symbols; symbols beyond LMEM; BITS not valid; the DC0 image at the end
of LMEM. -/
theorem witness_HloadInstallsTheImage :
    (let s := withArgs [0xFFF1#32] base;
      s.memBytes < s.argL[0].toNat + 16)
      ∧ (let s := withArgs [0xFFF0#32] (writeBytes 0xFFF0 (List.replicate 14 0#8 ++ [2#8, 255#8]) base);
        s.argL[0].toNat + 16 ≤ s.memBytes ∧ 256 < bitsSum (readBytes s s.argL[0].toNat 16))
      ∧ (let s := withArgs [0xFFF0#32] (writeBytes 0xFFF0 (List.replicate 15 0#8 ++ [1#8]) base);
        s.argL[0].toNat + 16 ≤ s.memBytes ∧ bitsSum (readBytes s s.argL[0].toNat 16) ≤ 256
          ∧ s.memBytes < s.argL[0].toNat + 16 + bitsSum (readBytes s s.argL[0].toNat 16))
      ∧ (let s := withArgs [0x100#32] (writeBytes 0x100 (3#8 :: List.replicate 18 0#8) base);
        s.argL[0].toNat + 16 + bitsSum (readBytes s s.argL[0].toNat 16) ≤ s.memBytes
          ∧ bitsSum (readBytes s s.argL[0].toNat 16) ≤ 256
          ∧ bitsValid ((readBytes s s.argL[0].toNat 16).map BitVec.toNat) = false)
      ∧ (let s := withArgs [0xFFE4#32] (writeBytes 0xFFE4 dc0Image base);
        s.argL[0].toNat + 16 + bitsSum (readBytes s s.argL[0].toNat 16) ≤ s.memBytes
          ∧ bitsValid ((readBytes s s.argL[0].toNat 16).map BitVec.toNat) = true) := by decide +kernel

/-- The row {63: 1} of V9: seven bytes of room are just enough, six are too few. -/
theorem witness_HencAppendsTheBlockBits :
    let s := fun n : Nat => setBlk 0#3 (blockOf [(63, 1)]) (writing n base)
    let out := fun n : Nat => emittedBytes (s n).bw (blockBits false (getPred (s n) 0) (getBlk (s n) 0#3))
    componentOf 0#2 = some 0 ∧ (0#2 : BitVec 2).toNat < 2 ∧ WriterOk (s 7) ∧ WriterOk (s 6)
      ∧ (s 7).bw.ptr.toNat + (out 7).length ≤ (s 7).bw.lim.toNat
      ∧ (s 6).bw.lim.toNat < (s 6).bw.ptr.toNat + (out 6).length := by
  unfold WriterOk
  decide +kernel

/-- Four pending 1-bits: the byte FF and its stuffed 00 fit in two bytes and not in one, with FF D9 in four and not in three. -/
theorem witness_FlushAndCloseEndTheStream :
    let s := fun n : Nat => { writing n base with bw.acc := 0xF#8, bw.cnt := 4#3 }
    let out := fun n : Nat => emittedBytes (s n).bw (padBits (s n).bw)
    (WriterOk (s 2) ∧ (s 2).bw.ptr.toNat + (out 2).length ≤ (s 2).bw.lim.toNat)
      ∧ (WriterOk (s 1) ∧ (s 1).bw.lim.toNat < (s 1).bw.ptr.toNat + (out 1).length)
      ∧ (WriterOk (s 4) ∧ (s 4).bw.ptr.toNat + (out 4).length + 2 ≤ (s 4).bw.lim.toNat)
      ∧ (WriterOk (s 3) ∧ (s 3).bw.lim.toNat < (s 3).bw.ptr.toNat + (out 3).length + 2) := by
  unfold WriterOk
  decide +kernel

/-- The row {0: 5} of V9 and V11: 96 BF, six bits behind the block. -/
theorem witness_HdecRecoversTheCodedBlock :
    let s := lumaTables (reading [0x96#8, 0xBF#8] base)
    componentOf 0#2 = some 0 ∧ ReaderOk s ∧ htValid s 0#1 0#1 = true ∧ htValid s 1#1 0#1 = true
      ∧ getHt s 0#1 0#1 = (dcTable false).toTable ∧ getHt s 1#1 0#1 = (acTable false).toTable
      ∧ codable (getPred s 0) (blockOf [(0, 5)])
      ∧ readerBits s = blockBits false (getPred s 0) (blockOf [(0, 5)]) ++ List.replicate 6 true :=
  ⟨by decide, by unfold ReaderOk; decide +kernel, by decide +kernel, by decide +kernel, rfl, rfl,
    by unfold codable; decide +kernel, by decide +kernel⟩

theorem witness_HdecErrorKeepsSlotsAndPredictors :
    let s := lumaTables (reading [0xFF#8, 0xD9#8] base)
    (exec (.hdec 3#3 0#2 0#2) s = .next (run (.hdec 3#3 0#2 0#2) s) ∧ (run (.hdec 3#3 0#2 0#2) s).status.err = true)
      ∧ htValid s 0#1 1#1 = false := ⟨⟨exec_run _ _, by decide +kernel⟩, by decide +kernel⟩

theorem witness_ValidTablesArePrefixFree :
    bitsValid romAc0.bits = true ∧ romAc0.bits.length = 16 ∧ (canonicalCodes romAc0).length = 162 := by decide +kernel

/-- An input whose next ten bits are 0, where LUT has a code of two bits, and one with the sixteen-bit code of 0x0A, which needs
more than ten (V9); a ROM table meets the premises of the second part. -/
theorem witness_LutAgreesWithCanonicalDecode :
    let s := reading [0x00#8, 0x00#8] base
    let u := reading [0xFF#8, 0x00#8, 0x83#8] base
    (ReaderOk s ∧ readerBits s = bitsMsb (0 : Fin 1024).val 10 ++ bitsMsb 0 6 ∧ lut romAc0.toTable 0 = some (0x01#8, 2))
      ∧ (ReaderOk u ∧ readerBits u = bitsMsb (0b1111111110 : Fin 1024).val 10 ++ bitsMsb 0b000011 6
        ∧ lut romAc0.toTable 0b1111111110 = none ∧ (match decodeSym romAc0.toTable u with
          | .ok v _ => some v
          | .error _ _ => none) = some 0x0A#8)
      ∧ (romAc0.bits.length = 16 ∧ (∀ n ∈ romAc0.bits, n < 256) ∧ bitsValid romAc0.bits = true
        ∧ romAc0.vals.length = romAc0.bits.sum) := by
  unfold ReaderOk
  decide +kernel

/-- CCONV's clauses in order, for 16×16 RGB24 as 4:2:0: an illegal pair, W = 0, the first column and the first row outside,
a source one byte too long, a source that ends with LMEM. -/
theorem witness_CconvExtractsTheMcu :
    legalFormat 6#4 (subsamplingOf 2#2) = none ∧ legalFormat 0#4 (subsamplingOf 2#2) = some .rgb24
      ∧ lowHalf 0x00100000#32 = 0
      ∧ (lowHalf 0x00100010#32 ≤ lowHalf 1#32 * mcuW .s420 ∧ highHalf 0x00100010#32 ≤ highHalf 0x00010000#32 * mcuH .s420)
      ∧ (lowHalf 0#32 * mcuW .s420 < lowHalf 0x00100010#32 ∧ highHalf 0#32 * mcuH .s420 < highHalf 0x00100010#32)
      ∧ base.memBytes < (0xFD01#32 : Word).toNat + srcSize .rgb24 (lowHalf 0x00100010#32) (highHalf 0x00100010#32)
      ∧ (0xFD00#32 : Word).toNat + srcSize .rgb24 (lowHalf 0x00100010#32) (highHalf 0x00100010#32) ≤ base.memBytes
      ∧ lumaH .s420 * lumaV .s420 = 4 ∧ subsamplingOf 2#2 ≠ .s400 := by decide +kernel

/-- UPSCC's clauses in order, for 16×16 as 4:2:0; the last pixel of the MCU is inside. -/
theorem witness_UpsccWritesTheMcuPixels :
    2 ≤ (2#4 : BitVec 4).toNat ∧ (1#4 : BitVec 4).toNat < 2 ∧ lowHalf 0x00100000#32 = 0
      ∧ lowHalf 0x00100010#32 ≤ lowHalf 1#32 * mcuW .s420
      ∧ (lowHalf 0#32 * mcuW .s420 < lowHalf 0x00100010#32 ∧ highHalf 0#32 * mcuH .s420 < highHalf 0x00100010#32)
      ∧ base.memBytes < (0xFD01#32 : Word).toNat + 3 * lowHalf 0x00100010#32 * highHalf 0x00100010#32
      ∧ (0xFD00#32 : Word).toNat + 3 * lowHalf 0x00100010#32 * highHalf 0x00100010#32 ≤ base.memBytes
      ∧ (15 < mcuW .s420 ∧ 15 < mcuH .s420 ∧ mcuW .s420 * lowHalf 0#32 + 15 < lowHalf 0x00100010#32) := by decide +kernel

/-- HDRW's clauses in order; 589 bytes of room, and 588. -/
theorem witness_HdrwWritesTheHeader :
    ({ writing 1 base with bw.cnt := 1#3 } : State).bw.cnt ≠ 0#3
      ∧ ((writing 1 base).bw.cnt = 0#3 ∧ qtValid (writing 1 base) 0#2 = false)
      ∧ (let s := flatTable 0#2 6#8 (flatTable 1#2 7#8 (writing 589 base));
        s.bw.cnt = 0#3 ∧ qtValid s 0#2 = true ∧ qtValid s 1#2 = true ∧ hasRoom s (headerLength .s420))
      ∧ (let s := flatTable 0#2 6#8 (flatTable 1#2 7#8 (writing 588 base));
        s.bw.cnt = 0#3 ∧ qtValid s 0#2 = true ∧ qtValid s 1#2 = true ∧ WriterOk s
          ∧ s.bw.lim.toNat < s.bw.ptr.toNat + headerLength .s420)
      ∧ lowHalf 0x00100000#32 = 0 ∧ (lowHalf 0x00100010#32 ≠ 0 ∧ highHalf 0x00100010#32 ≠ 0) := by
  unfold hasRoom WriterOk
  decide +kernel

/-- A table of ones. -/
def ones : Vector Byte 64 := Vector.replicate 64 1#8

theorem reading_lim (bs : List Byte) (s : State) : (reading bs s).br.lim = 0x1000#32 + BitVec.ofNat 32 bs.length := rfl

theorem reading_input (bs : List Byte) (s : State) : readBytes (reading bs s) 0x1000 bs.length = bs :=
  (readBytes_mem_congr (s := writeBytes 0x1000 bs s) (t := reading bs s) rfl rfl _ _).trans
    (readBytes_writeBytes bs 0x1000 s)

theorem placed_input (as : List Word) (d : Word) (a : Nat) (bs : List Byte) (s : State) :
    readBytes { withArgs as (writeBytes a bs s) with prevDim := d } a bs.length = bs :=
  (readBytes_mem_congr (s := writeBytes a bs s)
    (t := { withArgs as (writeBytes a bs s) with prevDim := d }) rfl rfl _ _).trans (readBytes_writeBytes bs a s)

/-- The header of a 16×16 4:2:0 frame as the input. -/
def headerInput : State := reading (headerBytes .s420 16 16 ones ones) base

theorem headerInput_length : (headerBytes .s420 16 16 ones ones).length = 589 := by decide +kernel

theorem witness_ParsehdrAcceptsTheWrittenHeader :
    ReaderOk headerInput ∧ mcuH (subsamplingOf 2#2) = 16 ∧ (∀ i : Fin 64, ones[i] ≠ 0#8)
      ∧ headerInput.br.ptr.toNat + 589 ≤ headerInput.br.lim.toNat
      ∧ readBytes headerInput headerInput.br.ptr.toNat 589 = headerBytes (subsamplingOf 2#2) 16 16 ones ones := by
  have hl := headerInput_length
  have hp : headerInput.br.lim = 0x124D#32 := by
    rw [headerInput, reading_lim, hl]
    rfl
  refine ⟨?_, rfl, by decide +kernel, by rw [hp]; decide, ?_⟩
  · unfold ReaderOk
    rw [hp]
    exact ⟨by decide +kernel, by decide +kernel, by decide +kernel⟩
  · have h := reading_input (headerBytes .s420 16 16 ones ones) base
    rw [hl] at h
    exact h

theorem witness_ParsehdrNeedsSoi :
    (let s := reading [0xFF#8] base;
      ReaderOk s ∧ s.br.lim.toNat < s.br.ptr.toNat + 2)
      ∧ (let s := reading [0xFF#8, 0xDB#8] base;
        ReaderOk s ∧ readBytes s s.br.ptr.toNat 2 ≠ [0xFF#8, 0xD8#8]) := by
  unfold ReaderOk
  decide +kernel

/-- Outside a scan; the expected marker bare and behind two fill bytes; another marker; no marker; fill bytes only, and no
input. -/
theorem witness_RestartAndEndChecks :
    let s := fun bs : List Byte => checking 0x3A#32 7#3 (reading bs base)
    base.pstate ≠ .inScan
      ∧ (∀ bs ∈ ([[0xFF#8, 0xD7#8], [0xFF#8, 0xFF#8, 0xFF#8, 0xD7#8], [0xFF#8, 0xD9#8], [0x28#8], []] : List (List Byte)),
        (s bs).pstate = .inScan ∧ ReaderOk (s bs))
      ∧ readBytes (s [0xFF#8, 0xD7#8]) 0x1000 2 = markerBytes 0 (0xD0#8 + (7#3 : BitVec 3).setWidth 8)
      ∧ readBytes (s [0xFF#8, 0xFF#8, 0xFF#8, 0xD7#8]) 0x1000 4 = markerBytes 2 (0xD0#8 + (7#3 : BitVec 3).setWidth 8)
      ∧ readBytes (s [0xFF#8, 0xD9#8]) 0x1000 2 = markerBytes 0 0xD9#8
      ∧ readByte (s [0x28#8]) 0x1000 ≠ 0xFF#8
      ∧ (∀ bs ∈ ([[0xFF#8, 0xFF#8], []] : List (List Byte)),
        ReaderOk (s bs) ∧ readBytes (s bs) 0x1000 (bytesLeft (s bs)) = List.replicate (bytesLeft (s bs)) 0xFF#8) := by
  unfold ReaderOk
  decide +kernel

theorem witness_SoiRstnAndEoiWhereExpected :
    (let s := parsing .expectSoi base;
      markerReader s = some .header ∧ s.pstate = .expectSoi)
      ∧ (let s := checking 0x3A#32 7#3 base;
        markerReader s = some .restart ∧ s.pstate = .inScan)
      ∧ (let s := checking 0x3B#32 0#3 base;
        markerReader s = some .imageEnd ∧ s.pstate = .inScan) := by decide +kernel

/-- One table, and then nothing or the 16-bit table of S15. -/
theorem witness_DqtInstallsItsTables :
    let ts : List (BitVec 2 × List Byte) := [(3#2, List.replicate 64 1#8)]
    let s := fun bad : List Byte =>
      parsing .readingTables (reading (be16Bytes (2 + (dqtImage ts ++ bad).length) ++ dqtImage ts ++ bad) base)
    dqtImageOk ts ∧ badDqtTable [0x10#8]
      ∧ ∀ bad ∈ ([[], [0x10#8]] : List (List Byte)), readingHeader (s bad) ∧ ReaderOk (s bad)
        ∧ segmentAt (s bad) (2 + (dqtImage ts ++ bad).length)
        ∧ segmentContent (s bad) (2 + (dqtImage ts ++ bad).length) = dqtImage ts ++ bad := by
  refine ⟨by unfold dqtImageOk; decide +kernel, ⟨0x10#8, [], rfl, .inl (by decide)⟩, ?_⟩
  unfold readingHeader ReaderOk segmentAt
  decide +kernel

/-- Two tables, and then nothing or a class 2. -/
theorem witness_DhtInstallsItsTables :
    let ts : List DhtEntry :=
      [⟨0#1, 1#1, 1#8 :: List.replicate 15 0#8, [7#8]⟩, ⟨1#1, 0#1, 1#8 :: List.replicate 15 0#8, [0#8]⟩]
    let s := fun bad : List Byte =>
      parsing .sof0Seen (reading (be16Bytes (2 + (dhtImage ts ++ bad).length) ++ dhtImage ts ++ bad) base)
    dhtImageOk ts ∧ badDhtTable [0x20#8]
      ∧ ∀ bad ∈ ([[], [0x20#8]] : List (List Byte)), readingHeader (s bad) ∧ ReaderOk (s bad)
        ∧ segmentAt (s bad) (2 + (dhtImage ts ++ bad).length)
        ∧ segmentContent (s bad) (2 + (dhtImage ts ++ bad).length) = dhtImage ts ++ bad := by
  refine ⟨by unfold dhtImageOk; decide +kernel, ⟨0x20#8, [], rfl, .inl (by decide)⟩, ?_⟩
  unfold readingHeader ReaderOk segmentAt
  decide +kernel

/-- Segments of length 4, and of 2, the shortest. -/
theorem witness_AppnComAndDriSegments :
    ∀ bs ∈ ([[0#8, 4#8, 0#8, 1#8], [0#8, 2#8]] : List (List Byte)),
      let s := parsing .readingTables (reading bs base)
      readingHeader s ∧ ReaderOk s ∧ segmentAt s bs.length := by
  unfold readingHeader ReaderOk segmentAt
  decide +kernel

/-- An input that ends within the length field, and one that ends within the content. -/
theorem witness_TruncatedSegmentsAreMalformed :
    ∀ bs ∈ ([[0#8], [0#8, 5#8, 1#8, 2#8]] : List (List Byte)),
      let s := parsing .readingTables (reading bs base)
      readingHeader s ∧ ReaderOk s ∧ ∀ len, ¬ segmentAt s len := by
  have h : ∀ s : State, (s.br.lim.toNat < s.br.ptr.toNat + 2 ∨ s.br.lim.toNat < s.br.ptr.toNat + segmentLength s) →
      ∀ len, ¬ segmentAt s len := by
    rintro s hs len ⟨h1, h2, -, h4⟩
    omega
  have hd : ∀ bs ∈ ([[0#8], [0#8, 5#8, 1#8, 2#8]] : List (List Byte)),
      let s := parsing .readingTables (reading bs base)
      readingHeader s ∧ ReaderOk s
        ∧ (s.br.lim.toNat < s.br.ptr.toNat + 2 ∨ s.br.lim.toNat < s.br.ptr.toNat + segmentLength s) := by
    unfold readingHeader ReaderOk
    decide +kernel
  exact fun bs hb => ⟨(hd bs hb).1, (hd bs hb).2.1, h _ (hd bs hb).2.2⟩

theorem witness_Sof0ChecksInOrder :
    let s := parsing .readingTables (reading sof0Segment base)
    markerReader s = some .header ∧ s.pstate = .readingTables ∧ ReaderOk s ∧ segmentAt s 17 := by
  unfold ReaderOk segmentAt
  decide +kernel

theorem witness_SosChecksInOrder :
    let s := parsing .sof0Seen (reading sosSegment base)
    markerReader s = some .header ∧ s.pstate = .sof0Seen ∧ ReaderOk s ∧ segmentAt s 12 := by
  unfold ReaderOk segmentAt
  decide +kernel

theorem witness_HeaderParseRejectsOtherMarkers :
    readingHeader (parsing .readingTables base) ∧ readingHeader (parsing .sof0Seen base) := by
  unfold readingHeader
  decide +kernel

/-- ENCODE's arguments: an illegal pair, W = 0, a buffer one byte too long, and arguments that pass with both buffers at the
ends of LMEM. -/
theorem witness_EncodePreconditionsAreItsHeadChecks :
    ParamOk base ∧ legalFormat 6#4 (subsamplingOf 2#2) = none ∧ legalFormat 0#4 (subsamplingOf 2#2) = some .rgb24
      ∧ lowHalf 0x00100000#32 = 0
      ∧ base.memBytes < (0xF001#32 : Word).toNat + (0x1000#32 : Word).toNat
      ∧ encodeArgsOk (withArgs [0#32, 0xF000#32, 0x1000#32, 0x00100010#32, 0x5020#32] base) :=
  ⟨by unfold ParamOk; decide +kernel, by decide, by decide, by decide, by decide +kernel,
    ⟨.rgb24, by decide +kernel, by decide +kernel, by decide +kernel, by decide +kernel, by decide +kernel⟩⟩

/-- One 8×8 MCU as 4:0:0 with just 3100 bytes of room, behind the source. -/
theorem witness_EncodeWritesACompleteFrame :
    let s := withArgs [0#32, 0x1000#32, 3100#32, 0x00080008#32, 0x5030#32] base
    ParamOk s ∧ encodeArgsOk s
      ∧ 600 + 2500 * (ceilDiv (lowHalf s.argL[3]) (mcuW .s400) * ceilDiv (highHalf s.argL[3]) (mcuH .s400))
        ≤ s.argL[2].toNat
      ∧ legalFormat (s.argL[4].extractLsb' 0 4) .s400 = some .rgb24
      ∧ s.argL[0].toNat + srcSize .rgb24 (lowHalf s.argL[3]) (highHalf s.argL[3]) ≤ s.argL[1].toNat :=
  ⟨by unfold ParamOk; decide +kernel,
    ⟨.rgb24, by decide +kernel, by decide +kernel, by decide +kernel, by decide +kernel, by decide +kernel⟩,
    by decide +kernel, by decide +kernel, by decide +kernel⟩

/-- The parse of DECODE's header (47 R690). -/
def headerParsed (s : State) : State :=
  run .parsehdr
    { clearTables (decodeStart s) with
      br := { ptr := s.argL[0], lim := s.argL[0] + s.argL[1], cur := 0#8, cnt := 0#4, mark := false } }

/-- DECODE with an error, without one (test_decode), with ERR_SIZE_MISMATCH, and with an output buffer outside LMEM; a header
that is accepted, with EXPECT and without it and with a capacity too small, and one that is not. -/
theorem witness_DecodeReportsItsOutcome :
    (∀ s, exec .decode s = .next (run .decode s)) ∧ (run .decode (decoding 383#32 0#32)).status.err = true
      ∧ (run .decode (decoding 384#32 0#32)).status.err = false
      ∧ (run .decode (decoding 384#32 1#32)).status.errCode = 3#8
      ∧ (decoding 0xE001#32 0#32).memBytes
        < (decoding 0xE001#32 0#32).argL[2].toNat + (decoding 0xE001#32 0#32).argL[3].toNat
      ∧ (∀ s, exec .parsehdr
          { clearTables (decodeStart s) with
            br := { ptr := s.argL[0], lim := s.argL[0] + s.argL[1], cur := 0#8, cnt := 0#4, mark := false } }
          = .next (headerParsed s))
      ∧ (headerParsed (decoding 383#32 0#32)).status.err = false
      ∧ (headerParsed (decoding 383#32 0#32)).frmDim ≠ (decoding 383#32 0#32).prevDim
      ∧ (383#32 : Word).toNat < 3 * lowHalf (headerParsed (decoding 383#32 0#32)).frmDim
        * highHalf (headerParsed (decoding 383#32 0#32)).frmDim
      ∧ (headerParsed (withArgs [0x1000#32, 1#32] base)).status.err = true :=
  ⟨exec_run _, by decide +kernel, test_decode.2, by decide +kernel, by decide +kernel, fun _ => exec_run _ _, by decide +kernel,
    by decide +kernel, by decide +kernel, by decide +kernel⟩

/-- The blocks of one 4:2:0 MCU, all 0. -/
def zeroBlocks : List (Fin 3 × Block) := (mcuBlocks .s420).map fun p => (p.2, Vector.replicate 64 0#32)

/-- The frame of n such MCUs, one above the other, in intervals of one MCU with a restart interval, else in one. -/
def zeroIntervals (ri n : Nat) : List (List (Fin 3 × Block)) :=
  if ri = 0 then [(List.replicate n zeroBlocks).flatten] else List.replicate n zeroBlocks

/-- Its bytes. -/
def zeroFrame (ri n : Nat) : List Byte := restartFrameBytes .s420 16 (16 * n) ones ones ri (zeroIntervals ri n)

/-- A DECODE of it with EXPECT. -/
def zeroDecoding (ri n : Nat) : State :=
  { withArgs [0x1000#32, 0x400#32, 0x2000#32, 0x600#32, 1#32] (writeBytes 0x1000 (zeroFrame ri n) base) with
    prevDim := packHalves 16 (16 * n) }

/-- What the statement asks of the frame. -/
def zeroFrameOk (ri n : Nat) : Prop :=
  scheduled ri 6 (zeroIntervals ri n)
    ∧ (zeroIntervals ri n).flatten.map Prod.fst
      = scanComponents (subsamplingOf 2#2) (16 / 16 * (16 * n / mcuH (subsamplingOf 2#2)))
    ∧ (∀ x ∈ (zeroIntervals ri n).flatten, ∀ v ∈ x.2.toList, -1023 ≤ v.toInt ∧ v.toInt ≤ 1023)
    ∧ (zeroFrame ri n).length ≤ 0x400
    ∧ readBytes (zeroDecoding ri n) (zeroDecoding ri n).argL[0].toNat (zeroFrame ri n).length = zeroFrame ri n

theorem zeroBlocks_small (ri n : Nat) (h : ((zeroIntervals ri n).flatten.all fun x =>
      x.2.toList.all fun v => decide (-1023 ≤ v.toInt ∧ v.toInt ≤ 1023)) = true) :
    ∀ x ∈ (zeroIntervals ri n).flatten, ∀ v ∈ x.2.toList, -1023 ≤ v.toInt ∧ v.toInt ≤ 1023 :=
  fun x hx v hv => of_decide_eq_true (List.all_eq_true.mp (List.all_eq_true.mp h x hx) v hv)

theorem zeroFrame_placed (ri n : Nat) :
    readBytes (zeroDecoding ri n) (zeroDecoding ri n).argL[0].toNat (zeroFrame ri n).length = zeroFrame ri n :=
  placed_input _ _ 0x1000 (zeroFrame ri n) base

/-- One MCU without a restart interval, and two with one of 1, RST0 between them. -/
theorem witness_DecodeAcceptsACompleteFrame :
    zeroFrameOk 0 1 ∧ zeroFrameOk 1 2 ∧ (mcuBlocks (subsamplingOf 2#2)).length = 6 ∧ (∀ i : Fin 64, ones[i] ≠ 0#8)
      ∧ ∀ p ∈ [(0, 1), (1, 2)],
        let s := zeroDecoding p.1 p.2
        ParamOk s ∧ s.argL[1].toNat = 0x400 ∧ s.argL[0].toNat + s.argL[1].toNat ≤ s.memBytes
          ∧ s.argL[2].toNat + s.argL[3].toNat ≤ s.memBytes ∧ 3 * 16 * (16 * p.2) ≤ s.argL[3].toNat
          ∧ s.argL[0].toNat + s.argL[1].toNat ≤ s.argL[2].toNat ∧ s.prevDim = packHalves 16 (16 * p.2) := by
  refine ⟨⟨.inl rfl, by decide +kernel, zeroBlocks_small _ _ (by decide +kernel), by decide +kernel, zeroFrame_placed _ _⟩,
    ⟨⟨by decide, by decide +kernel, .inr (by decide +kernel)⟩, by decide +kernel, zeroBlocks_small _ _ (by decide +kernel),
      by decide +kernel, zeroFrame_placed _ _⟩, by decide +kernel, by decide +kernel, ?_⟩
  unfold ParamOk
  decide +kernel

end Sys2Proof.Tests
end

section
/-! The reset state meets the invariants (10 R99, 70 R800). -/

namespace Sys2Proof.Machine

/-! ### What reset holds -/

/-- No quantization table is installed (10 R75). -/
@[simp] theorem reset_qvalid (t : Nat) (ht : t < 4) : State.reset.qvalid[t] = false := Vector.getElem_replicate ht

/-- No decoder table is installed (10 R75). -/
@[simp] theorem reset_hvalid (h : Nat) (hh : h < 4) : State.reset.hvalid[h] = false := Vector.getElem_replicate hh

@[simp] theorem reset_pstate : State.reset.pstate = .expectSoi := rfl

@[simp] theorem reset_mem : State.reset.mem = [] := rfl

/-! ### One lemma per invariant -/

/-- Every size the machine can be built with is one 00 R8 allows. -/
theorem reset_paramOk : ParamOk State.reset := by
  have above := Config.memBytesAbove.isLt
  show 2 ^ 16 ≤ Config.memBytesAbove.val + 2 ^ 16 ∧ Config.memBytesAbove.val + 2 ^ 16 ≤ 2 ^ 31
  omega

theorem reset_memOk : MemOk State.reset := ⟨reset_mem_wf, by simp⟩

/-- Pointer and limit are 0, and the accumulator is empty. -/
theorem reset_writerOk : WriterOk State.reset := ⟨Nat.le_refl 0, Nat.zero_le _, Nat.zero_lt_one⟩

/-- Pointer, limit and bit count are 0. -/
theorem reset_readerOk : ReaderOk State.reset := ⟨Nat.le_refl 0, Nat.zero_le _, Nat.zero_le 8⟩

theorem reset_quantOk : QuantOk State.reset := by
  intro t installed
  simp at installed

theorem reset_huffOk : HuffOk State.reset := by
  intro h installed
  simp at installed

/-- The parser awaits SOI, a state of which ScanOk asks nothing. -/
theorem reset_scanOk : ScanOk State.reset := by
  constructor
  · intro seen
    simp at seen
  · intro inScan
    simp at inScan

/-- Settles O21: one lemma per invariant. -/
theorem resetMeetsInvariants : Obligations.ResetMeetsInvariants :=
  ⟨reset_paramOk, reset_memOk, reset_writerOk, reset_readerOk, reset_quantOk, reset_huffOk, reset_scanOk⟩

end Sys2Proof.Machine
end

section
/-! Invariants of every step: the bit writer, the bit reader and the installed tables (10 R69, R70, R80). -/

namespace Sys2Proof.Machine

/-! ### What a move of the host can write -/

/-- `s` with the fields of `u` that a host move other than a soft reset can write (60 R785). -/
def withHostFields (u s : State) : State :=
  { s with
    ie := u.ie
    status := u.status
    cmdL := u.cmdL
    argL := u.argL
    arg := u.arg
    prevDim := u.prevDim
    dri := u.dri
    pred := u.pred
    blk := u.blk
    mem := u.mem
    draws := u.draws
    hostData := u.hostData
    agenda := u.agenda }

theorem issue_eq (w : Word) (s : State) : issue w s = withHostFields (issue w s) s := by
  unfold issue
  split <;> rfl

theorem writeLiveCsr_eq (o : Nat) (w : Word) (s : State) : writeLiveCsr o w s = withHostFields (writeLiveCsr o w s) s := by
  unfold writeLiveCsr
  split_ifs <;> rfl

/-- A soft reset gives every register its reset value, whatever becomes of the abandoned footprint (70 R802). -/
theorem softReset_cases (s : State) : ∃ m rs, softReset s = resetRegisters { s with mem := m, undef := rs } := by
  unfold softReset
  split
  · next r _ => exact ⟨memForget s.mem r, r :: s.undef, rfl⟩
  · exact ⟨s.mem, s.undef, rfl⟩

/-- A property of none of the fields a host move writes survives the host, if it survives the soft reset. -/
theorem hostClosed_of_frame {P : State → Prop} (frame : ∀ u s, P s → P (withHostFields u s))
    (reset : ∀ m rs s, P s → P (resetRegisters { s with mem := m, undef := rs })) : HostClosed P where
  agenda ms s := frame { s with agenda := ms } s
  ie b s := frame { s with ie := b } s
  reset s hs := by
    obtain ⟨m, rs, h⟩ := softReset_cases s
    rw [h]
    exact reset m rs s hs
  clear w s := frame { s with status := statusClear w s.status } s
  issue w s hs := by
    rw [issue_eq]
    exact frame _ s hs
  live o w s hs := by
    rw [writeLiveCsr_eq]
    exact frame _ s hs
  read v n s := frame { s with hostData := v, draws := n } s
  write a bs s hs _ := by
    rw [writeBytes_eq]
    exact frame { s with mem := (writeBytes a bs s).mem } s hs

/-- The check of DECODE on the size writes STATUS only (47 R694). -/
theorem noteResized_keeps {P : State → Prop} (frame : ∀ st s, P s → P { s with status := st }) {s : State} (hs : P s) :
    P (noteResized s) := by
  unfold noteResized
  split
  · exact hs
  · exact frame _ s hs

/-! ### Extents and pointers in 32 bits -/

/-- The end of an extent inside LMEM does not wrap (20 R150, R153). -/
theorem extent_end_toNat {s : State} (hs : ParamOk s) {a n : Word} (h : a.toNat + n.toNat ≤ s.memBytes) :
    (a + n).toNat = a.toNat + n.toNat := by
  obtain ⟨-, hmax⟩ := hs
  rw [BitVec.toNat_add, Nat.mod_eq_of_lt (by omega)]

/-- A pointer moved on within its limit does not wrap. -/
theorem pointer_add_toNat {p lim n : Word} (h : p.toNat + n.toNat ≤ lim.toNat) : (p + n).toNat = p.toNat + n.toNat := by
  have := lim.isLt
  rw [BitVec.toNat_add, Nat.mod_eq_of_lt (by omega)]

/-- The same for a distance that is a number. -/
theorem pointer_add_ofNat_toNat {p lim : Word} {n : Nat} (h : p.toNat + n ≤ lim.toNat) :
    (p + BitVec.ofNat 32 n).toNat = p.toNat + n := by
  have hn : (BitVec.ofNat 32 n).toNat = n := by
    have := lim.isLt
    rw [BitVec.toNat_ofNat, Nat.mod_eq_of_lt (by omega)]
  rw [pointer_add_toNat (lim := lim) (by rw [hn]; exact h), hn]

/-! ### The bit writer (10 R69) -/

/-- The invariant of the bit writer, with the bound on MEM_BYTES it rests on. -/
def WriterInRange (s : State) : Prop := ParamOk s ∧ WriterOk s

/-- EMIT moves BW_PTR on by a byte only where it is below BW_LIM (43 R460). -/
theorem writerInRange_emit (v : Byte) (s : State) (hs : WriterInRange s) (hlt : s.bw.ptr.toNat < s.bw.lim.toNat) :
    WriterInRange (advanceWriter 1 (writeByte s.bw.ptr.toNat v s)) := by
  obtain ⟨hp, -, hlim, hacc⟩ := hs
  refine ⟨hp, ?_, hlim, hacc⟩
  change (s.bw.ptr + 1#32).toNat ≤ s.bw.lim.toNat
  rw [pointer_add_ofNat_toNat hlt]
  exact hlt

/-- PUTBIT keeps the pending bits in ACC[CNT-1:0] (43 R460). -/
theorem writerInRange_push (b : Bool) (s : State) (hs : WriterInRange s) (hc : s.bw.cnt ≠ 7#3) :
    WriterInRange (setPending (s.bw.acc <<< 1 ||| (BitVec.ofBool b).setWidth 8) (s.bw.cnt + 1#3) s) := by
  obtain ⟨hp, hptr, hlim, hacc⟩ := hs
  have hlt : s.bw.cnt.toNat < 7 := by
    have := s.bw.cnt.isLt
    have : s.bw.cnt.toNat ≠ 7 := fun h => hc (BitVec.eq_of_toNat_eq h)
    omega
  exact ⟨hp, hptr, hlim, acc_push_lt s.bw b hlt hacc⟩

/-- BWINIT sets an empty accumulator on a buffer inside LMEM (43 R461). -/
theorem writerInRange_init (a n : Word) (s : State) (hs : WriterInRange s) (h : a.toNat + n.toNat ≤ s.memBytes) :
    WriterInRange { s with bw := { ptr := a, lim := a + n, acc := 0#8, cnt := 0#3 } } := by
  have hend := extent_end_toNat hs.1 h
  refine ⟨hs.1, ?_, ?_, Nat.zero_lt_one⟩
  · change a.toNat ≤ (a + n).toNat
    omega
  · change (a + n).toNat ≤ s.memBytes
    omega

theorem writerClosed_writerInRange : WriterClosed WriterInRange where
  emit v s hs hlt _ := writerInRange_emit v s hs hlt
  clear _ hs _ := ⟨hs.1, hs.2.1, hs.2.2.1, Nat.zero_lt_one⟩
  push := writerInRange_push

/-- Nothing in the header parse touches the bit writer. -/
theorem headerClosed_writerInRange : HeaderClosed WriterInRange where
  bytes := ⟨fun _ _ hs _ => hs, fun _ hs => hs⟩
  tables := ⟨fun _ _ _ hs _ => hs, fun _ _ _ _ _ hs _ _ => hs⟩
  start _ hs := hs
  pstate _ _ hs := hs
  dri _ _ hs := hs
  frame _ _ _ _ _ hs := hs
  scan _ _ _ hs := hs
  res0 _ _ hs := hs

theorem execClosed_writerInRange : ExecClosed WriterInRange where
  complete _ _ hs := hs
  writer := writerClosed_writerInRange
  reader := ⟨fun _ _ _ hs _ _ => hs, fun _ hs => hs, fun _ hs _ => hs⟩
  header := headerClosed_writerInRange
  blk _ _ _ hs := hs
  pred _ _ _ hs := hs
  preds _ hs := hs
  rst _ _ hs := hs
  res0 _ _ hs := hs
  res1 _ _ hs := hs
  clear _ hs := hs
  resized _ := noteResized_keeps fun _ _ hs => hs
  decStart _ hs := hs
  decDone _ hs := hs
  bwInit := writerInRange_init
  brInit _ _ _ hs _ := hs
  align _ hs := hs
  write _ _ _ hs _ := hs

theorem hostClosed_writerInRange : HostClosed WriterInRange :=
  hostClosed_of_frame (fun _ _ hs => hs) fun _ _ _ hs => ⟨hs.1, Nat.le_refl 0, Nat.zero_le _, Nat.zero_lt_one⟩

/-- Settles O17: the bit writer's own changes keep it in range, and nothing else reaches it. -/
theorem stepKeepsBitWriterInRange : Obligations.StepKeepsBitWriterInRange := fun _ _ hp hw h =>
  step_keeps execClosed_writerInRange hostClosed_writerInRange ⟨hp, hw⟩ h

/-! ### The bit reader (10 R70) -/

/-- The invariant of the bit reader, with the bound on MEM_BYTES it rests on. -/
def ReaderInRange (s : State) : Prop := ParamOk s ∧ ReaderOk s

/-- FILL takes bytes that stand before BR_END (43 R466). -/
theorem readerInRange_load (c : Byte) (n : Word) (s : State) (hs : ReaderInRange s)
    (h : s.br.ptr.toNat + n.toNat ≤ s.br.lim.toNat) : ReaderInRange (loadCurrent c n s) := by
  obtain ⟨hp, -, hlim, -⟩ := hs
  refine ⟨hp, ?_, hlim, Nat.le_refl 8⟩
  change (s.br.ptr + n).toNat ≤ s.br.lim.toNat
  rw [pointer_add_toNat h]
  exact h

/-- Taking a bit of CUR lowers CNT. -/
theorem readerInRange_take (s : State) (hs : ReaderInRange s) (hc : s.br.cnt ≠ 0#4) :
    ReaderInRange (setCount (s.br.cnt - 1#4) s) := by
  obtain ⟨hp, hptr, hlim, hcnt⟩ := hs
  refine ⟨hp, hptr, hlim, ?_⟩
  have := cnt_pred hc
  change (s.br.cnt - 1#4).toNat ≤ 8
  omega

/-- The parser's bytes stand before BR_END (45 R580, R582). -/
theorem readerInRange_advance (n : Nat) (s : State) (hs : ReaderInRange s) (h : s.br.ptr.toNat + n ≤ s.br.lim.toNat) :
    ReaderInRange (advanceReader n s) := by
  obtain ⟨hp, -, hlim, hcnt⟩ := hs
  refine ⟨hp, ?_, hlim, hcnt⟩
  change (s.br.ptr + BitVec.ofNat 32 n).toNat ≤ s.br.lim.toNat
  rw [pointer_add_ofNat_toNat h]
  exact h

/-- Clearing CNT and setting MARK in any way leaves the input as it is. -/
theorem readerInRange_dropBits (m : Bool) (s : State) (hs : ReaderInRange s) :
    ReaderInRange { s with br.cnt := 0#4, br.mark := m } := by
  obtain ⟨hp, hptr, hlim, -⟩ := hs
  exact ⟨hp, hptr, hlim, Nat.zero_le 8⟩

/-- BRINIT sets the reader on an input inside LMEM (43 R467). -/
theorem readerInRange_init (a n : Word) (s : State) (hs : ReaderInRange s) (h : a.toNat + n.toNat ≤ s.memBytes) :
    ReaderInRange { s with br := { ptr := a, lim := a + n, cur := 0#8, cnt := 0#4, mark := false } } := by
  have hend := extent_end_toNat hs.1 h
  refine ⟨hs.1, ?_, ?_, Nat.zero_le 8⟩
  · change a.toNat ≤ (a + n).toNat
    omega
  · change (a + n).toNat ≤ s.memBytes
    omega

theorem readerClosed_readerInRange : ReaderClosed ReaderInRange where
  load c n s hs _ h := readerInRange_load c n s hs h
  mark _ hs := hs
  take := readerInRange_take

theorem headerClosed_readerInRange : HeaderClosed ReaderInRange where
  bytes := ⟨readerInRange_advance, readerInRange_dropBits false⟩
  tables := ⟨fun _ _ _ hs _ => hs, fun _ _ _ _ _ hs _ _ => hs⟩
  start := readerInRange_dropBits false
  pstate _ _ hs := hs
  dri _ _ hs := hs
  frame _ _ _ _ _ hs := hs
  scan _ _ := readerInRange_dropBits false
  res0 _ _ hs := hs

theorem execClosed_readerInRange : ExecClosed ReaderInRange where
  complete _ _ hs := hs
  writer := ⟨fun _ _ hs _ _ => hs, fun _ hs _ => hs, fun _ _ hs _ => hs⟩
  reader := readerClosed_readerInRange
  header := headerClosed_readerInRange
  blk _ _ _ hs := hs
  pred _ _ _ hs := hs
  preds _ hs := hs
  rst _ _ hs := hs
  res0 _ _ hs := hs
  res1 _ _ hs := hs
  clear _ hs := hs
  resized _ := noteResized_keeps fun _ _ hs => hs
  decStart _ hs := hs
  decDone _ hs := hs
  bwInit _ _ _ hs _ := hs
  brInit := readerInRange_init
  align s := readerInRange_dropBits s.br.mark s
  write _ _ _ hs _ := hs

theorem hostClosed_readerInRange : HostClosed ReaderInRange :=
  hostClosed_of_frame (fun _ _ hs => hs) fun _ _ _ hs => ⟨hs.1, Nat.le_refl 0, Nat.zero_le _, Nat.zero_le 8⟩

/-- Settles O18: the moves of the bit reader and of the parser stay inside the input, and nothing else reaches the reader. -/
theorem stepKeepsBitReaderInRange : Obligations.StepKeepsBitReaderInRange := fun _ _ hp hr h =>
  (step_keeps execClosed_readerInRange hostClosed_readerInRange ⟨hp, hr⟩ h).2

/-! ### The installed tables (10 R80, R83) -/

/-- The invariant of both kinds of tables. -/
def TablesValid (s : State) : Prop := QuantOk s ∧ HuffOk s

/-- 32768 div q fits 16 bits (41 R357). -/
theorem reciprocal_toNat (q : Byte) : (reciprocal q).toNat = 32768 / q.toNat := by
  rw [reciprocal, BitVec.toNat_ofNat, Nat.mod_eq_of_lt]
  exact Nat.lt_of_le_of_lt (Nat.div_le_self _ _) (by decide)

/-- A table image of 16 counts keeps them all (43 R474). -/
theorem huffTableOf_bits_toList {bits vals : List Byte} (h : bits.length = 16) :
    (huffTableOf bits vals).bits.toList = bits := by
  apply List.ext_getElem
  · simp [h]
  · intro i h1 h2
    simp [huffTableOf, h2]

/-- Installing a table without an entry 0 keeps the tables valid (41 R358). -/
theorem tablesValid_installQt (t : BitVec 2) (e : Vector Byte 64) (s : State) (hs : TablesValid s)
    (he : ∀ i : Fin 64, e[i] ≠ 0#8) : TablesValid (installQt t e s) := by
  refine ⟨fun k hk i => ?_, hs.2⟩
  by_cases hkt : t.toNat = k.val
  · have hq : (installQt t e s).qt[k] = e := by simp [hkt]
    have hr : (installQt t e s).rq[k] = Vector.ofFn fun i : Fin 64 => reciprocal e[i] := by simp [hkt]
    rw [hq, hr]
    exact ⟨he i, by simp [reciprocal_toNat]⟩
  · have hv : s.qvalid[k] = true := by simpa [hkt] using hk
    simpa [hkt] using hs.1 k hv i

/-- Installing a table that passed the validity check keeps the tables valid (43 R474). -/
theorem tablesValid_installHt (tc th : BitVec 1) (bits vals : List Byte) (s : State) (hs : TablesValid s)
    (hl : bits.length = 16) (hb : bitsValid (bits.map BitVec.toNat) = true) :
    TablesValid (installHt tc th (huffTableOf bits vals) s) := by
  refine ⟨hs.1, fun k hk => ?_⟩
  by_cases hkt : (htIndex tc th).val = k.val
  · have ht : (installHt tc th (huffTableOf bits vals) s).ht[k] = huffTableOf bits vals := by simp [hkt]
    rw [ht, huffTableOf_bits_toList hl]
    exact hb
  · have hv : s.hvalid[k] = true := by simpa [hkt] using hk
    simpa [hkt] using hs.2 k hv

/-- Where no table is installed there is nothing to check. -/
theorem tablesValid_of_none {s : State} (hq : s.qvalid = Vector.replicate 4 false)
    (hh : s.hvalid = Vector.replicate 4 false) : TablesValid s := by
  constructor
  · intro t ht
    simp [hq] at ht
  · intro h hv
    simp [hh] at hv

theorem headerClosed_tablesValid : HeaderClosed TablesValid where
  bytes := ⟨fun _ _ hs _ => hs, fun _ hs => hs⟩
  tables := ⟨tablesValid_installQt, tablesValid_installHt⟩
  start _ hs := hs
  pstate _ _ hs := hs
  dri _ _ hs := hs
  frame _ _ _ _ _ hs := hs
  scan _ _ _ hs := hs
  res0 _ _ hs := hs

theorem execClosed_tablesValid : ExecClosed TablesValid where
  complete _ _ hs := hs
  writer := ⟨fun _ _ hs _ _ => hs, fun _ hs _ => hs, fun _ _ hs _ => hs⟩
  reader := ⟨fun _ _ _ hs _ _ => hs, fun _ hs => hs, fun _ hs _ => hs⟩
  header := headerClosed_tablesValid
  blk _ _ _ hs := hs
  pred _ _ _ hs := hs
  preds _ hs := hs
  rst _ _ hs := hs
  res0 _ _ hs := hs
  res1 _ _ hs := hs
  clear _ _ := tablesValid_of_none rfl rfl
  resized _ := noteResized_keeps fun _ _ hs => hs
  decStart _ hs := hs
  decDone _ hs := hs
  bwInit _ _ _ hs _ := hs
  brInit _ _ _ hs _ := hs
  align _ hs := hs
  write _ _ _ hs _ := hs

theorem hostClosed_tablesValid : HostClosed TablesValid :=
  hostClosed_of_frame (fun _ _ hs => hs) fun _ _ _ _ => tablesValid_of_none rfl rfl

/-- Settles O19: a table is installed only after its checks, and the tables are otherwise kept or all dropped. -/
theorem stepKeepsInstalledTablesValid : Obligations.StepKeepsInstalledTablesValid := fun _ _ hq hh h =>
  step_keeps execClosed_tablesValid hostClosed_tablesValid ⟨hq, hh⟩ h

end Sys2Proof.Machine
end

section
/-! The frame of the 26 commands (48 R727; 40 to 48). -/

namespace Sys2Proof.Machine

/-! ### Which instructions a command word can give -/

theorem accept_eq_ok {w unused : Word} {i j : Instr} (h : accept w unused i = .ok j) : i = j := by
  unfold accept at h
  split at h
  · exact Except.ok.inj h
  · cases h

/-- A command word gives a command, never a marker (30 R203). -/
theorem encode_of_decodeCommand {w : Word} {i : Instr} (h : decodeCommand w = .ok i) : ∃ v, encode i = .command v := by
  unfold decodeCommand at h
  split at h
  · unfold decodeByOpcode at h
    split at h
    case h_27 => cases h
    all_goals
      obtain rfl := accept_eq_ok h
      exact ⟨_, rfl⟩
  · cases h

/-! ### What the listed parts leave out -/

/-- HLOAD's table is entry 2·X + T (10 R76, 43 R475). -/
theorem htIndex_setWidth {t : BitVec 2} {x : BitVec 4} (hx : x.toNat < 2) (ht : t.toNat < 2) :
    (htIndex (x.setWidth 1) (t.setWidth 1)).val = 2 * x.toNat + t.toNat := by
  simp only [htIndex, BitVec.toNat_setWidth]
  omega

section Frames
variable {s t : State} {p : Part}

/-- The frame of the commands that write one slot. -/
theorem part_same_of_slot {x : Eng Unit} {d : Slot} (h : runCommand x s = .next t) (hp : p.isSlot d.toNat = false)
    (hx : (∀ b u, p.same s u → p.same s (setBlk d b u)) → Keeps (fun u => p.same s u) x) : p.same s t :=
  part_same_runCommand h (hx fun b _ hu => part_same_setBlk b hu hp)

theorem part_same_hload {tt : BitVec 2} {x : BitVec 4} (h : exec (.hload tt x) s = .next t)
    (hh : p.isHuffTable (2 * x.toNat + tt.toNat) = false) (hr : p ≠ .res0) : p.same s t :=
  part_same_runCommand h (keeps_doHload _ _ _
    (fun hx ht _ _ _ hu _ _ => part_same_installHt _ hu (by rw [htIndex_setWidth hx ht]; exact hh))
    fun v _ hu => part_same_setRes0 v hu hr)

theorem part_same_rstchk (h : exec .rstchk s = .next t) (h1 : p ≠ .reader) (h2 : p ≠ .pstate) (h3 : p ≠ .rstNext)
    (h4 : p.isAnyPred = false) : p.same s t :=
  part_same_runCommand h (keeps_doRstchk (bytesClosed_part h1) (fun v _ hu => part_same_setPstate v hu h2)
    fun v _ hu => part_same_clearPreds (part_same_setRstNext v hu h3) h4)

end Frames

/-- Settles O23: for each command, its closure lemma applied to `Part.same`, the listed parts left out. -/
theorem commandsChangeOnlyListedParts : Obligations.CommandsChangeOnlyListedParts := by
  intro w i s t p hw h hp
  obtain ⟨v, hv⟩ := encode_of_decodeCommand hw
  cases i <;> simp only [mayChange, Bool.or_eq_false_iff, decide_eq_false_iff_not] at hp
  case nop => exact part_same_runCommand h (keeps_pure _)
  case predclr => exact part_same_runCommand h fun _ hu => part_same_clearPreds hu hp
  case bwinit => exact part_same_runCommand h (keeps_doBwinit _ _ fun _ hu _ => part_same_setWriter _ hu hp)
  case bwflush => exact part_same_runCommand h (keeps_flush (writerClosed_part hp))
  case close => exact part_same_runCommand h (keeps_doClose (writerClosed_part hp))
  case brinit => exact part_same_runCommand h (keeps_doBrinit _ _ fun _ hu _ => part_same_setReader _ hu hp)
  case bralign => exact part_same_runCommand h fun _ hu => part_same_setReader _ hu hp
  case fdct d src => exact part_same_of_slot h hp (keeps_doFdct d src)
  case idct d src => exact part_same_of_slot h hp (keeps_doIdct d src)
  case quant d src tt => exact part_same_of_slot h hp (keeps_doQuant d src tt)
  case dequant d src tt => exact part_same_of_slot h hp (keeps_doDequant d src tt)
  case zigzag d src => exact part_same_of_slot h hp (keeps_doZigzag d src)
  case unzigzag d src => exact part_same_of_slot h hp (keeps_doUnzigzag d src)
  case qbuild tt x =>
    obtain ⟨hq, hr⟩ := hp
    exact part_same_runCommand h (keeps_doQbuild _ _ _ (fun e _ hu _ => part_same_installQt e hu hq)
      fun v _ hu => part_same_setRes0 v hu hr)
  case qload tt => exact part_same_runCommand h (keeps_doQload _ _ fun e _ hu _ => part_same_installQt e hu hp)
  case henc src c tt =>
    obtain ⟨ho, hc⟩ := hp
    exact part_same_runCommand h (keeps_doHenc (writerClosed_part ho) _ _ _
      fun k hk v _ hu => part_same_setPred v hu (by rw [hk]; exact hc))
  case hdec d c tt =>
    obtain ⟨⟨hr, hd⟩, hc⟩ := hp
    exact part_same_runCommand h (keeps_doHdec (readerClosed_part hr) _ _ _ (fun b _ hu => part_same_setBlk b hu hd)
      fun k hk v _ hu => part_same_setPred v hu (by rw [hk]; exact hc))
  case hload tt x =>
    obtain ⟨hh, hr⟩ := hp
    exact part_same_hload h hh hr
  case cconv tt x =>
    exact part_same_runCommand h (keeps_doCconv _ _ _ _ _
      fun q hq b _ hu => part_same_setBlk b hu (isSlot_of_isMcuSlot hp hq))
  case upscc tt x =>
    exact part_same_runCommand h (keeps_doUpscc _ _ _ _ _ fun _ _ _ hu _ _ _ => part_same_setMem _ hu hp)
  case hdrw tt =>
    obtain ⟨ho, hr⟩ := hp
    exact part_same_runCommand h (keeps_doHdrw (writerClosed_part ho) _ _ fun v _ hu => part_same_setRes0 v hu hr)
  case parsehdr => exact part_same_runCommand h (keeps_doParsehdr (headerClosed_part hp))
  case rstchk =>
    obtain ⟨⟨⟨h1, h2⟩, h3⟩, h4⟩ := hp
    exact part_same_rstchk h h1 h2 h3 h4
  case eoichk =>
    obtain ⟨h1, h2⟩ := hp
    exact part_same_runCommand h (keeps_doEoichk (bytesClosed_part h1) fun v _ hu => part_same_setPstate v hu h2)
  case encode =>
    obtain ⟨⟨⟨⟨⟨⟨ho, h0⟩, h1⟩, hq0⟩, hq1⟩, hc⟩, hb⟩ := hp
    have hq : ∀ k, k < 2 → p.isQuantTable k = false := fun k hk => by interval_cases k <;> assumption
    exact part_same_runCommand h (keeps_doEncode _ _ _ _ _ _ (encodeClosed_part ho h0 h1 hq hc hb))
  case decode =>
    obtain ⟨⟨⟨⟨⟨hh, h1⟩, h2⟩, hc⟩, hb⟩, hm⟩ := hp
    exact part_same_runCommand h (keeps_doDecode _ _ _ _ _ (decodeClosed_part hh h1 h2 hc hb hm))
  all_goals cases hv

end Sys2Proof.Machine
end
section
/-! Reset and the soft reset (10 R99; 70 R800, R802). -/

namespace Sys2Proof.Machine

/-! ### A CSR access as a step -/

/-- A well-formed CSR write is the next move: it is `hostWriteCsr` (60 R785). -/
theorem step_writeCsr {o : Nat} (ha : o % 4 = 0) (hlt : o < 0x4000) (w : Word) (s : State) (rest : List Move) :
    step { s with agenda := .host (.writeCsr o .word w) :: rest } = hostWriteCsr o w { s with agenda := rest } := by
  have hform : ¬(AccessWidth.word ≠ .word ∨ o % 4 ≠ 0) := by simp [ha]
  have hspace : ¬Config.csrBytes ≤ o := by simpa [Config.csrBytes] using hlt
  simp only [step, hostMove, csrAccess, if_neg hform, if_neg hspace]

/-- A well-formed CSR read is the next move: it is `hostReadCsr` (60 R785). -/
theorem step_readCsr {o : Nat} (ha : o % 4 = 0) (hlt : o < 0x4000) (s : State) (rest : List Move) :
    step { s with agenda := .host (.readCsr o .word) :: rest } = .next (hostReadCsr o { s with agenda := rest }) := by
  have hform : ¬(AccessWidth.word ≠ .word ∨ o % 4 ≠ 0) := by simp [ha]
  have hspace : ¬Config.csrBytes ≤ o := by simpa [Config.csrBytes] using hlt
  simp only [step, hostMove, csrAccess, if_neg hform, if_neg hspace]

/-! ### The soft reset -/

/-- No register outlives the reset of the registers, so every CSR reads as after power-on. -/
theorem csrValue_resetRegisters (s : State) (o : Nat) : csrValue (resetRegisters s) o = csrValue State.reset o := rfl

theorem footprint_of_idle {s : State} (h : s.status.busy = false) : footprint s = none := by simp [footprint, h]

/-- A scrambled region leaves the bytes outside it (70 R802). -/
theorem readByte_scramble_outside {r : Region} {s : State} {a : Nat} (h : ¬(r.lo ≤ a ∧ a < r.hi)) :
    readByte (scramble r s) a = readByte s a := by
  simp only [readByte, scramble, memGet_memForget s.mem r h, undefEpoch_cons, if_neg h]

/-- The soft reset leaves the bytes outside the abandoned footprint (70 R802). -/
theorem readByte_softReset_outside {s : State} {a : Nat} (h : inFootprint s a = false) :
    readByte (softReset s) a = readByte s a := by
  unfold softReset
  split
  · next r hr =>
    have hout : ¬(r.lo ≤ a ∧ a < r.hi) := by simpa [inFootprint, hr] using h
    exact readByte_scramble_outside hout
  · rfl

/-- While idle there is no footprint to abandon. -/
theorem inFootprint_of_idle {s : State} (h : s.status.busy = false) (a : Nat) : inFootprint s a = false := by
  simp [inFootprint, footprint_of_idle h]

/-- A write to CTRL with SRST set is the soft reset (10 R61). -/
theorem step_writeSrst {w : Word} (hw : w.getLsbD 1 = true) (s : State) (rest : List Move) :
    step { s with agenda := .host (.writeCsr 0x004 .word w) :: rest } = .next (softReset { s with agenda := rest }) := by
  rw [step_writeCsr (by decide) (by decide), hostWriteCsr, if_pos rfl, writeCtrl, if_pos hw]

/-- Settles O13: the registers are those of reset, LMEM is the old one but for the abandoned footprint. -/
theorem softResetRestoresResetValues : Obligations.SoftResetRestoresResetValues := by
  intro s rest w hw
  have hmem (a : Nat) (ha : inFootprint s a = false) : readByte (softReset { s with agenda := rest }) a = readByte s a :=
    readByte_softReset_outside (s := { s with agenda := rest }) ha
  refine ⟨_, step_writeSrst hw s rest, ?_⟩
  obtain ⟨m, rs, h⟩ := softReset_cases { s with agenda := rest }
  rw [h] at hmem ⊢
  exact ⟨fun o _ _ => csrValue_resetRegisters _ o, rfl, fun n => Vector.getElem_replicate n.isLt, rfl, rfl, rfl, rfl, rfl,
    hmem, fun hidle a => hmem a (inFootprint_of_idle hidle a)⟩

/-! ### Power-on reset -/

/-- A window of bytes 0 reads 0. -/
theorem windowWord_eq_zero {f : Nat → Byte} {n : Nat} (h : ∀ k, n ≤ k → k < n + 4 → f k = 0#8) : windowWord f n = 0#32 := by
  rw [windowWord, h n (by omega) (by omega), h (n + 1) (by omega) (by omega), h (n + 2) (by omega) (by omega),
    h (n + 3) (by omega) (by omega)]
  rfl

/-- An entry of a vector of equal entries, or the default that equals them. -/
theorem toList_replicate_getD {α : Type} (n i : Nat) (x : α) : (Vector.replicate n x).toList.getD i x = x := by
  rw [Vector.toList_replicate, List.getD_eq_getElem?_getD, List.getElem?_getD_replicate_default_eq]

theorem reset_getBlk (d : Slot) : getBlk State.reset d = Vector.replicate 64 0#32 := Vector.getElem_replicate d.isLt

theorem reset_getQt (t : BitVec 2) : getQt State.reset t = Vector.replicate 64 0#8 := Vector.getElem_replicate t.isLt

theorem reset_getRq (t : BitVec 2) : getRq State.reset t = Vector.replicate 64 0#16 := Vector.getElem_replicate t.isLt

theorem reset_qtWindowByte (n : Nat) : qtWindowByte State.reset n = 0#8 := by
  rw [qtWindowByte, reset_getQt, toList_replicate_getD]

theorem reset_rqWindowByte (n : Nat) : rqWindowByte State.reset n = 0#8 := by
  rw [rqWindowByte, reset_getRq, toList_replicate_getD, BitVec.extractLsb'_zero]

theorem reset_htWindowByte (n : Nat) : htWindowByte State.reset n = 0#8 := by
  have hht : State.reset.ht.toList.getD (n / 512) { bits := Vector.replicate 16 0#8, vals := Vector.replicate 256 0#8 }
      = { bits := Vector.replicate 16 0#8, vals := Vector.replicate 256 0#8 } := toList_replicate_getD _ _ _
  simp only [htWindowByte, hht, toList_replicate_getD, ite_self]

/-- Both branches have the value. -/
theorem ite_eq_of_branches {α : Type} {c : Prop} [Decidable c] {a b x : α} (ha : a = x) (hb : b = x) :
    (if c then a else b) = x := by
  rw [ha, hb, ite_self]

/-- Register after register, in the order of `csrValue` (10 R60 to R76, R99). -/
theorem csrValue_reset {o : Nat} (h : o ≠ 0) : csrValue State.reset o = 0#32 := by
  rw [csrValue, if_neg h]
  iterate 2 refine ite_eq_of_branches rfl ?_
  refine ite_eq_of_branches (toList_replicate_getD 8 _ 0#32) ?_
  iterate 17 refine ite_eq_of_branches rfl ?_
  refine ite_eq_of_branches (windowWord_eq_zero fun k _ _ => reset_qtWindowByte k) ?_
  refine ite_eq_of_branches (windowWord_eq_zero fun k _ _ => reset_rqWindowByte k) ?_
  refine ite_eq_of_branches ?_ (ite_eq_of_branches (windowWord_eq_zero fun k _ _ => reset_htWindowByte k) rfl)
  rw [reset_getBlk, toList_replicate_getD]

/-- Settles O12: every CSR but ID reads 0. -/
theorem resetStateIsAsSpecified : Obligations.ResetStateIsAsSpecified := by
  refine ⟨fun o _ _ => ?_, rfl, fun n => Vector.getElem_replicate n.isLt, rfl, rfl, rfl, fun h => ?_⟩
  · by_cases h0 : o = 0
    · subst h0
      rfl
    · rw [if_neg h0]
      exact csrValue_reset h0
  · have hht : State.reset.ht[h] = { bits := Vector.replicate 16 0#8, vals := Vector.replicate 256 0#8 } :=
      Vector.getElem_replicate h.isLt
    rw [hht]
    exact ⟨fun n => Vector.getElem_replicate n.isLt, fun n => Vector.getElem_replicate n.isLt⟩

end Sys2Proof.Machine
end

section
/-! CSR writes and reads (10 R57, R60 to R76; 20 R152, R161, R165). -/

namespace Sys2Proof.Machine

/-! ### The registers of `csrValue` by offset -/

theorem csrValue_arg {o : Nat} (h : 0x010 ≤ o ∧ o < 0x030) (s : State) :
    csrValue s o = s.arg.toList.getD ((o - 0x010) / 4) 0#32 := by
  unfold csrValue
  iterate 3 rw [if_neg (by omega)]
  rw [if_pos h]

theorem csrValue_pred (c : Fin 3) (s : State) : csrValue s (0x060 + 4 * c.val) = s.pred[c].signExtend 32 :=
  match c with
  | 0 => rfl
  | 1 => rfl
  | 2 => rfl

theorem csrValue_blk {o : Nat} (h : 0x1000 ≤ o ∧ o < 0x1800) (s : State) :
    csrValue s o = (getBlk s (blkSlot (o - 0x1000))).toList.getD ((o - 0x1000) % 256 / 4) 0#32 := by
  unfold csrValue
  iterate 23 rw [if_neg (by omega)]
  rw [if_pos h]

theorem csrValue_huffWindow {o : Nat} (h : 0x2000 ≤ o ∧ o < 0x2800) (s : State) :
    csrValue s o = windowWord (htWindowByte s) (o - 0x2000) := by
  unfold csrValue
  iterate 24 rw [if_neg (by omega)]
  rw [if_pos h]

/-! ### Reserved bits -/

/-- The bytes behind HUFFVAL in a Huffman window are 0 (10 R76). -/
theorem htWindowByte_unlisted {n : Nat} (h : 272 ≤ n % 512) (s : State) : htWindowByte s n = 0#8 := by
  simp only [htWindowByte, if_neg (show ¬ n % 512 < 16 by omega), if_neg (show ¬ n % 512 < 272 by omega)]

theorem and_not_mask_eq_zero {v m : Word} (h : ∀ i, i < 32 → m.getLsbD i = false → v.getLsbD i = false) :
    v &&& ~~~m = 0#32 := by
  apply BitVec.eq_of_getLsbD_eq
  intro i hi
  have hi' := h i hi
  cases hm : m.getLsbD i
  · simp [hi' hm]
  · simp [hm]

theorem ctrlWord_reserved (b : Bool) : (0#31 ++ BitVec.ofBool b : Word) &&& ~~~0x00000001#32 = 0#32 := by
  cases b <;> rfl

theorem statusWord_reserved (st : Status) : statusWord st &&& ~~~0x0000FF1F#32 = 0#32 := by
  refine and_not_mask_eq_zero fun i hi hm => ?_
  simp only [statusWord, BitVec.getLsbD_append]
  interval_cases i <;> simp at hm ⊢

theorem driWord_reserved (v : Half) : (0#16 ++ v : Word) &&& ~~~0x0000FFFF#32 = 0#32 := by
  refine and_not_mask_eq_zero fun i hi hm => ?_
  simp only [BitVec.getLsbD_append]
  interval_cases i <;> simp at hm ⊢

theorem bwStateWord_reserved (s : State) : bwStateWord s &&& ~~~0x000007FF#32 = 0#32 := by
  refine and_not_mask_eq_zero fun i hi hm => ?_
  simp only [bwStateWord, BitVec.getLsbD_append]
  interval_cases i <;> simp at hm ⊢

theorem brStateWord_reserved (s : State) : brStateWord s &&& ~~~0x00001FFF#32 = 0#32 := by
  refine and_not_mask_eq_zero fun i hi hm => ?_
  simp only [brStateWord, BitVec.getLsbD_append]
  interval_cases i <;> simp at hm ⊢

theorem pstateWord_reserved (s : State) : pstateWord s &&& ~~~0x00000077#32 = 0#32 := by
  refine and_not_mask_eq_zero fun i hi hm => ?_
  simp only [pstateWord, BitVec.getLsbD_append]
  interval_cases i <;> simp at hm ⊢

theorem frmInfoWord_reserved (f : FrameInfo) : frmInfoWord f &&& ~~~0x0003F3F3#32 = 0#32 := by
  refine and_not_mask_eq_zero fun i hi hm => ?_
  simp only [frmInfoWord, BitVec.getLsbD_append]
  interval_cases i <;> simp at hm ⊢

theorem tvalidWord_reserved (s : State) : tvalidWord s &&& ~~~0x000000FF#32 = 0#32 := by
  refine and_not_mask_eq_zero fun i hi hm => ?_
  simp only [tvalidWord, BitVec.getLsbD_append]
  interval_cases i <;> simp at hm ⊢

/-- A mask given by a case distinction. -/
theorem and_not_ite_eq_zero {c : Prop} [Decidable c] {v m n : Word} (hm : c → v &&& ~~~m = 0#32)
    (hn : ¬c → v &&& ~~~n = 0#32) : v &&& ~~~(if c then m else n) = 0#32 := by
  split
  · next h => exact hm h
  · next h => exact hn h

/-- A CSR has no bits but its own, register after register in the order of `csrBits` (10 R57). -/
theorem csrValue_reserved {o : Nat} (ha : o % 4 = 0) (s : State) : csrValue s o &&& ~~~csrBits o = 0#32 := by
  have full {c : Prop} : c → csrValue s o &&& ~~~0xFFFFFFFF#32 = 0#32 := fun _ => BitVec.and_zero
  unfold csrBits
  refine and_not_ite_eq_zero full fun _ => ?_
  refine and_not_ite_eq_zero (fun h => h ▸ ctrlWord_reserved s.ie) fun _ => ?_
  refine and_not_ite_eq_zero (fun h => h ▸ statusWord_reserved s.status) fun _ => ?_
  refine and_not_ite_eq_zero full fun _ => ?_
  refine and_not_ite_eq_zero (fun h => h ▸ driWord_reserved s.dri) fun _ => ?_
  iterate 2 refine and_not_ite_eq_zero full fun _ => ?_
  refine and_not_ite_eq_zero (fun h => h ▸ bwStateWord_reserved s) fun _ => ?_
  iterate 2 refine and_not_ite_eq_zero full fun _ => ?_
  refine and_not_ite_eq_zero (fun h => h ▸ brStateWord_reserved s) fun _ => ?_
  refine and_not_ite_eq_zero full fun _ => ?_
  refine and_not_ite_eq_zero (fun h => h ▸ pstateWord_reserved s) fun _ => ?_
  refine and_not_ite_eq_zero full fun _ => ?_
  refine and_not_ite_eq_zero (fun h => h ▸ frmInfoWord_reserved s.frmInfo) fun _ => ?_
  refine and_not_ite_eq_zero (fun h => h ▸ tvalidWord_reserved s) fun _ => ?_
  iterate 4 refine and_not_ite_eq_zero full fun _ => ?_
  suffices unlisted : csrValue s o = 0#32 by rw [unlisted, BitVec.zero_and]
  by_cases hw : 0x2000 ≤ o ∧ o < 0x2800
  · rw [csrValue_huffWindow hw]
    exact windowWord_eq_zero fun k _ _ => htWindowByte_unlisted (by omega) s
  · unfold csrValue
    iterate 25 rw [if_neg (by omega)]

/-- What a host read hands out has no reserved bit set, even while BUSY (10 R57; log 6). -/
theorem hostReadCsr_reserved {o : Nat} (ha : o % 4 = 0) (s : State) :
    ∃ v d, hostReadCsr o s = { s with hostData := v, draws := d } ∧ v &&& ~~~csrBits o = 0#32 := by
  unfold hostReadCsr
  split
  · exact ⟨_, s.draws, rfl, csrValue_reserved ha s⟩
  · refine ⟨_, _, rfl, ?_⟩
    rw [BitVec.and_assoc, BitVec.and_not_self]
    exact BitVec.and_zero

/-! ### One register written, the others read as before -/

theorem csrValue_setIe {o : Nat} (h : o ≠ 0x004) (b : Bool) (s : State) : csrValue { s with ie := b } o = csrValue s o := by
  simp only [csrValue, if_neg h]
  rfl

theorem csrValue_setStatus {o : Nat} (h : o ≠ 0x008) (st : Status) (s : State) :
    csrValue { s with status := st } o = csrValue s o := by
  simp only [csrValue, if_neg h]
  rfl

theorem csrValue_setArgs {o : Nat} (h : ¬(0x010 ≤ o ∧ o < 0x030)) (as : Vector Word 8) (s : State) :
    csrValue { s with arg := as } o = csrValue s o := by
  simp only [csrValue, if_neg h]
  rfl

theorem csrValue_setPrevDim {o : Nat} (h : o ≠ 0x038) (w : Word) (s : State) :
    csrValue { s with prevDim := w } o = csrValue s o := by
  simp only [csrValue, if_neg h]
  rfl

theorem csrValue_setDri {o : Nat} (h : o ≠ 0x03C) (v : Half) (s : State) :
    csrValue { s with dri := v } o = csrValue s o := by
  simp only [csrValue, if_neg h]
  rfl

theorem csrValue_setPreds {o : Nat} (h : ∀ c : Fin 3, o ≠ 0x060 + 4 * c.val) (v : Vector Half 3) (s : State) :
    csrValue { s with pred := v } o = csrValue s o := by
  have h0 : o ≠ 0x060 := h 0
  have h1 : o ≠ 0x064 := h 1
  have h2 : o ≠ 0x068 := h 2
  simp only [csrValue, if_neg h0, if_neg h1, if_neg h2]
  rfl

theorem csrValue_setBlks {o : Nat} (h : ¬(0x1000 ≤ o ∧ o < 0x1800)) (bs : Vector Block 8) (s : State) :
    csrValue { s with blk := bs } o = csrValue s o := by
  simp only [csrValue, if_neg h]
  rfl

/-! ### A register reads back what was written -/

/-- The entry read after a write to one entry of a vector, through its list. -/
theorem toList_setIfInBounds_getD {α : Type} {n k j : Nat} (v : Vector α n) (x d : α) (hk : k < n) :
    (v.setIfInBounds k x).toList.getD j d = if k = j then x else v.toList.getD j d := by
  simp only [List.getD_eq_getElem?_getD, Vector.toList_setIfInBounds, List.getElem?_set]
  split
  · simp [hk]
  · rfl

theorem getBlk_setBlk (d e : Slot) (b : Block) (s : State) : getBlk (setBlk d b s) e = if d = e then b else getBlk s e := by
  simp only [getBlk, setBlk_blk, Vector.getElem_set, BitVec.toNat_inj]

/-- CTRL holds IE only (10 R61). -/
theorem ctrlWord_eq (w : Word) : (0#31 ++ BitVec.ofBool (w.getLsbD 0) : Word) = w &&& 1#32 := by
  apply BitVec.eq_of_getLsbD_eq
  intro i hi
  simp only [BitVec.getLsbD_append, BitVec.getLsbD_and]
  interval_cases i <;> simp

/-- STATUS after a write to it: the bits 1 to 4 that are written 1 are cleared (10 R62). -/
theorem statusWord_statusClear (m : Word) (st : Status) :
    statusWord (statusClear m st) = statusWord st &&& ~~~(m &&& 0x1E#32) := by
  apply BitVec.eq_of_getLsbD_eq
  intro i hi
  simp only [statusWord, statusClear, BitVec.getLsbD_append, BitVec.getLsbD_and, BitVec.getLsbD_not]
  interval_cases i <;> simp

/-- DRI holds the low half of the word (10 R68). -/
theorem driWord_eq (w : Word) : (0#16 ++ w.setWidth 16 : Word) = w &&& 0xFFFF#32 := by
  apply BitVec.eq_of_getLsbD_eq
  intro i hi
  simp only [BitVec.getLsbD_append, BitVec.getLsbD_and]
  interval_cases i <;> simp

/-! ### What a CSR write does -/

/-- A write of `w` to the CSR at offset `o` led from `s` to `t`: that register as its access kind says, and no other. -/
structure CsrWritten (o : Nat) (w : Word) (s t : State) : Prop where
  busy : t.status.busy = s.status.busy
  value : csrValue t o = readBack s o w
  others : ∀ p, p % 4 = 0 → p ≠ o → csrValue t p = csrValue s p
  bytes : ∀ a, readByte t a = readByte s a

theorem csrWritten_ie (w : Word) (s : State) : CsrWritten 0x004 w s { s with ie := w.getLsbD 0 } where
  busy := rfl
  value := ctrlWord_eq w
  others _ _ h := csrValue_setIe h _ s
  bytes _ := rfl

theorem csrWritten_status (w : Word) (s : State) : CsrWritten 0x008 w s { s with status := statusClear w s.status } where
  busy := rfl
  value := statusWord_statusClear w s.status
  others _ _ h := csrValue_setStatus h _ s
  bytes _ := rfl

theorem csrWritten_prevDim (w : Word) (s : State) : CsrWritten 0x038 w s { s with prevDim := w } where
  busy := rfl
  value := rfl
  others _ _ h := csrValue_setPrevDim h _ s
  bytes _ := rfl

theorem csrWritten_dri (w : Word) (s : State) : CsrWritten 0x03C w s { s with dri := w.setWidth 16 } where
  busy := rfl
  value := driWord_eq w
  others _ _ h := csrValue_setDri h _ s
  bytes _ := rfl

theorem csrWritten_pred (c : Fin 3) (w : Word) (s : State) :
    CsrWritten (0x060 + 4 * c.val) w s (setPred c (w.setWidth 16) s) where
  busy := rfl
  value := by
    have hback : readBack s (0x060 + 4 * c.val) w = (w.extractLsb' 0 16).signExtend 32 :=
      match c with
      | 0 => rfl
      | 1 => rfl
      | 2 => rfl
    rw [csrValue_pred, hback, BitVec.setWidth_eq_extractLsb' (by decide)]
    simp
  others p _ h := by
    by_cases hp : ∃ d : Fin 3, p = 0x060 + 4 * d.val
    · obtain ⟨d, rfl⟩ := hp
      have hne : c.val ≠ d.val := by omega
      rw [csrValue_pred, csrValue_pred]
      simp [hne]
    · exact csrValue_setPreds (fun d hd => hp ⟨d, hd⟩) _ s
  bytes _ := rfl

theorem csrWritten_arg {o : Nat} (ho : 0x010 ≤ o ∧ o < 0x030) (ha : o % 4 = 0) (w : Word) (s : State) :
    CsrWritten o w s { s with arg := s.arg.setIfInBounds ((o - 0x010) / 4) w } where
  busy := rfl
  value := by
    rw [csrValue_arg ho, toList_setIfInBounds_getD _ _ _ (by omega), if_pos rfl]
    unfold readBack
    rw [if_neg (by omega), if_neg (by omega), if_pos (.inl ho)]
  others p hp h := by
    by_cases hin : 0x010 ≤ p ∧ p < 0x030
    · rw [csrValue_arg hin, csrValue_arg hin, toList_setIfInBounds_getD _ _ _ (by omega), if_neg (by omega)]
    · exact csrValue_setArgs hin _ s
  bytes _ := rfl

theorem blkSlot_inj {m n : Nat} (hm : m < 0x800) (hn : n < 0x800) : blkSlot m = blkSlot n ↔ m / 256 = n / 256 := by
  simp only [blkSlot, ← BitVec.toNat_inj, BitVec.toNat_ofNat]
  omega

theorem csrWritten_blk {o : Nat} (ho : 0x1000 ≤ o ∧ o < 0x1800) (ha : o % 4 = 0) (w : Word) (s : State) :
    CsrWritten o w s (setBlk (blkSlot (o - 0x1000))
      ((getBlk s (blkSlot (o - 0x1000))).setIfInBounds ((o - 0x1000) % 256 / 4) w) s) where
  busy := rfl
  value := by
    rw [csrValue_blk ho, getBlk_setBlk, if_pos rfl, toList_setIfInBounds_getD _ _ _ (by omega), if_pos rfl]
    unfold readBack
    rw [if_neg (by omega), if_neg (by omega), if_pos (.inr (.inr ho))]
  others p hp h := by
    by_cases hin : 0x1000 ≤ p ∧ p < 0x1800
    · rw [csrValue_blk hin, csrValue_blk hin, getBlk_setBlk]
      split
      · next hslot =>
        have hdiv := (blkSlot_inj (by omega) (by omega)).mp hslot
        rw [toList_setIfInBounds_getD _ _ _ (by omega), if_neg (by omega), hslot]
      · rfl
    · exact csrValue_setBlks hin _ s
  bytes _ := rfl

/-- The registers the host may write only while idle (60 R785, R787). -/
theorem isLiveCsr_iff (o : Nat) :
    isLiveCsr o = true ↔ (0x010 ≤ o ∧ o < 0x030) ∨ o = 0x038 ∨ o = 0x03C ∨ (∃ c : Fin 3, o = 0x060 + 4 * c.val)
      ∨ (0x1000 ≤ o ∧ o < 0x1800) := by
  simp [isLiveCsr, Fin.exists_fin_succ, or_assoc]

theorem csrWritten_live {o : Nat} (hlive : isLiveCsr o = true) (ha : o % 4 = 0) (w : Word) (s : State) :
    CsrWritten o w s (writeLiveCsr o w s) := by
  rcases (isLiveCsr_iff o).mp hlive with h | rfl | rfl | ⟨c, rfl⟩ | h
  · unfold writeLiveCsr
    iterate 5 rw [if_neg (by omega)]
    rw [if_pos h.2]
    exact csrWritten_arg h ha w s
  · exact csrWritten_prevDim w s
  · exact csrWritten_dri w s
  · match c with
    | 0 => exact csrWritten_pred 0 w s
    | 1 => exact csrWritten_pred 1 w s
    | 2 => exact csrWritten_pred 2 w s
  · unfold writeLiveCsr
    iterate 6 rw [if_neg (by omega)]
    exact csrWritten_blk h ha w s

/-- RO and WO registers and unlisted offsets ignore a write (10 R57). -/
theorem csrWritten_ignored {o : Nat} (h4 : o ≠ 0x004) (h8 : o ≠ 0x008) (hlive : ¬isLiveCsr o = true) (w : Word) (s : State) :
    CsrWritten o w s s where
  busy := rfl
  value := by
    rw [isLiveCsr_iff] at hlive
    obtain ⟨harg, hprev, hdri, hpred, hblk⟩ : ¬_ ∧ ¬_ ∧ ¬_ ∧ (∀ c : Fin 3, o ≠ 0x060 + 4 * c.val) ∧ ¬_ := by
      simpa only [not_or, not_exists] using hlive
    have h0 : o ≠ 0x060 := hpred 0
    have h1 : o ≠ 0x064 := hpred 1
    have h2 : o ≠ 0x068 := hpred 2
    rw [readBack, if_neg h4, if_neg h8, if_neg (by omega), if_neg hdri, if_neg (by omega)]
  others _ _ _ := rfl
  bytes _ := rfl

/-- Every CSR write but a command and a soft reset, where the host duties allow it (60 R785). -/
theorem hostWriteCsr_written {o : Nat} {w : Word} {s : State} (hduty : s.status.busy = false ∨ isLiveCsr o = false)
    (ha : o % 4 = 0) (hcmd : o ≠ 0x00C) (hsrst : o = 0x004 → w.getLsbD 1 = false) :
    ∃ t, hostWriteCsr o w s = .next t ∧ CsrWritten o w s t := by
  unfold hostWriteCsr
  by_cases h4 : o = 0x004
  · subst h4
    refine ⟨_, if_pos rfl, ?_⟩
    rw [writeCtrl, if_neg (Bool.eq_false_iff.mp (hsrst rfl))]
    exact csrWritten_ie w s
  by_cases h8 : o = 0x008
  · subst h8
    exact ⟨_, rfl, csrWritten_status w s⟩
  rw [if_neg h4, if_neg h8, if_neg hcmd]
  by_cases hlive : isLiveCsr o = true
  · have hidle : ¬s.status.busy = true := by
      rcases hduty with h | h
      · simp [h]
      · exact absurd hlive (by simp [h])
    rw [if_pos hlive, if_neg hidle]
    exact ⟨_, rfl, csrWritten_live hlive ha w s⟩
  · rw [if_neg hlive]
    exact ⟨_, rfl, csrWritten_ignored h4 h8 hlive w s⟩

/-- A read of a CSR whose value is defined, as a step (20 R160, R165). -/
theorem step_readCsr_defined {o : Nat} {s : State} (ha : o % 4 = 0) (hlt : o < 0x4000)
    (hdef : s.status.busy = false ∨ o ≤ 0x008 ∨ csrBits o = 0#32) (rest : List Move) :
    step { s with agenda := .host (.readCsr o .word) :: rest }
      = .next { s with agenda := rest, hostData := csrValue s o } := by
  have hd : csrDefined { s with agenda := rest } o = true := by simpa [csrDefined, or_assoc] using hdef
  rw [step_readCsr ha hlt, hostReadCsr_defined hd]
  rfl

/-- Settles O11: one lemma per kind of register, then the read. -/
theorem csrWritesReadBack : Obligations.CsrWritesReadBack := by
  constructor
  · intro s rest o w hduty ha hlt hcmd hsrst
    obtain ⟨t, ht, hbusy, hvalue, hothers, hbytes⟩ :=
      hostWriteCsr_written (s := { s with agenda := rest }) hduty ha hcmd hsrst
    refine ⟨t, (step_writeCsr ha hlt w s rest).trans ht, hbusy, hvalue, fun p hp _ => hothers p hp, hbytes, ?_⟩
    intro p hp hlt' hdef
    exact step_readCsr_defined hp hlt' (by rw [hbusy]; exact hdef) rest
  · intro s rest o ha hlt
    obtain ⟨v, d, hread, hbits⟩ := hostReadCsr_reserved ha { s with agenda := rest }
    exact ⟨v, d, by rw [step_readCsr ha hlt, hread], hbits⟩

end Sys2Proof.Machine
end

section
/-! What an instruction and a step may do to LMEM (20 R150, R153, R165). -/

namespace Sys2Proof.Machine

/-! ### The canonical form of every step (20 R150, R153) -/

/-- LMEM and its size are all that `MemOk` asks about. -/
theorem memOk_congr {s t : State} (hm : t.mem = s.mem) (hn : t.memBytes = s.memBytes) (hs : MemOk s) : MemOk t := by
  unfold MemOk
  rw [hm, hn]
  exact hs

/-- A byte written inside LMEM keeps the addresses rising and inside (20 R153). -/
theorem memOk_writeByte (a : Nat) (v : Byte) (s : State) (hs : MemOk s) (ha : a < s.memBytes) : MemOk (writeByte a v s) := by
  obtain ⟨hwf, hin⟩ := hs
  refine ⟨memSet_wf hwf a v, fun c hc => ?_⟩
  rcases mem_memSet hc with rfl | hc
  · exact ha
  · exact hin c hc

theorem memOk_writeBytes (a : Nat) (bs : List Byte) (s : State) (hs : MemOk s) (h : a + bs.length ≤ s.memBytes) :
    MemOk (writeBytes a bs s) := by
  obtain ⟨hwf, hin⟩ := hs
  refine ⟨writeBytes_wf hwf, fun c hc => ?_⟩
  rw [writeBytes_memBytes]
  rcases mem_writeBytes hc with ⟨-, hlt⟩ | hc
  · omega
  · exact hin c hc

/-- A soft reset forgets bytes and moves none (70 R802). -/
theorem memOk_softReset (s : State) (hs : MemOk s) : MemOk (softReset s) := by
  obtain ⟨hwf, hin⟩ := hs
  unfold softReset
  split
  · next r _ => exact ⟨memForget_wf hwf r, fun c hc => hin c (mem_of_mem_memForget hc)⟩
  · exact ⟨hwf, hin⟩

theorem headerClosed_memOk : HeaderClosed MemOk where
  bytes := ⟨fun _ _ hs _ => hs, fun _ hs => hs⟩
  tables := ⟨fun _ _ _ hs _ => hs, fun _ _ _ _ _ hs _ _ => hs⟩
  start _ hs := hs
  pstate _ _ hs := hs
  dri _ _ hs := hs
  frame _ _ _ _ _ hs := hs
  scan _ _ _ hs := hs
  res0 _ _ hs := hs

theorem execClosed_memOk : ExecClosed MemOk where
  complete _ _ hs := hs
  writer := ⟨fun v s hs _ hm => memOk_writeByte s.bw.ptr.toNat v s hs hm, fun _ hs _ => hs, fun _ _ hs _ => hs⟩
  reader := ⟨fun _ _ _ hs _ _ => hs, fun _ hs => hs, fun _ hs _ => hs⟩
  header := headerClosed_memOk
  blk _ _ _ hs := hs
  pred _ _ _ hs := hs
  preds _ hs := hs
  rst _ _ hs := hs
  res0 _ _ hs := hs
  res1 _ _ hs := hs
  clear _ hs := hs
  resized _ := noteResized_keeps fun _ _ hs => hs
  decStart _ hs := hs
  decDone _ hs := hs
  bwInit _ _ _ hs _ := hs
  brInit _ _ _ hs _ := hs
  align _ hs := hs
  write := memOk_writeByte

theorem hostClosed_memOk : HostClosed MemOk where
  agenda _ _ hs := hs
  ie _ _ hs := hs
  reset := memOk_softReset
  clear _ _ hs := hs
  issue w s := memOk_congr (by unfold issue; split <;> rfl) (by rw [issue_eq]; rfl)
  live o w s := memOk_congr (by unfold writeLiveCsr; split_ifs <;> rfl) (by rw [writeLiveCsr_eq]; rfl)
  read _ _ _ hs := hs
  write := memOk_writeBytes

/-- Settles O16: LMEM is changed byte by byte at addresses inside it, or forgotten in part. -/
theorem stepKeepsMemoryCanonical : Obligations.StepKeepsMemoryCanonical := fun _ _ hs h =>
  step_keeps execClosed_memOk hostClosed_memOk hs h

/-! ### Where the bit writer stores (43 R460, R461) -/

/-- Address `a` lies outside the region. -/
def Outside (a : Nat) (r : Region) : Prop := a < r.lo ∨ r.hi ≤ a

/-- Address `a` reads as in `s0`. -/
def ReadsAs (s0 : State) (a : Nat) (u : State) : Prop := readByte u a = readByte s0 a

/-- Address `a` still reads as in `s0`, and all that the bit writer can still emit lies in the region. -/
structure WritesWithin (s0 : State) (a : Nat) (r : Region) (u : State) : Prop where
  same : ReadsAs s0 a u
  lo : r.lo ≤ u.bw.ptr.toNat
  hi : u.bw.lim.toNat ≤ r.hi

variable {s0 : State} {a : Nat} {r : Region}

/-- A byte stored inside a region leaves the addresses outside it. -/
theorem readsAs_writeByte {u : State} {b : Nat} (v : Byte) (ha : Outside a r) (hlo : r.lo ≤ b) (hhi : b < r.hi)
    (hu : ReadsAs s0 a u) : ReadsAs s0 a (writeByte b v u) := by
  have hne : a ≠ b := by
    rintro rfl
    rcases ha with h | h <;> omega
  unfold ReadsAs
  rw [readByte_writeByte, if_neg hne, hu]

/-- EMIT stores at BW_PTR, below BW_LIM, and moves BW_PTR up (43 R460). -/
theorem writesWithin_emit (ha : Outside a r) (v : Byte) (u : State) (hu : WritesWithin s0 a r u)
    (hlt : u.bw.ptr.toNat < u.bw.lim.toNat) :
    WritesWithin s0 a r (advanceWriter 1 (writeByte u.bw.ptr.toNat v u)) := by
  obtain ⟨hsame, hlo, hhi⟩ := hu
  refine ⟨readsAs_writeByte v ha hlo (by omega) hsame, ?_, hhi⟩
  change r.lo ≤ (u.bw.ptr + 1#32).toNat
  rw [pointer_add_ofNat_toNat (n := 1) hlt]
  omega

theorem writerClosed_writesWithin (ha : Outside a r) : WriterClosed (WritesWithin s0 a r) where
  emit v u hu hlt _ := writesWithin_emit ha v u hu hlt
  clear _ hu _ := ⟨hu.same, hu.lo, hu.hi⟩
  push _ _ hu _ := ⟨hu.same, hu.lo, hu.hi⟩

/-- What leaves LMEM and the bit writer alone keeps the bound. -/
theorem WritesWithin.congr {u v : State} (hu : WritesWithin s0 a r u) (hb : v.bw = u.bw)
    (hr : readByte v a = readByte u a) : WritesWithin s0 a r v :=
  ⟨hr.trans hu.same, hb ▸ hu.lo, hb ▸ hu.hi⟩

/-- At issue the bit writer's region is its own footprint (20 R165). -/
theorem writesWithin_footprint (s : State) (a : Nat) : WritesWithin s a (writerFootprint s) s :=
  ⟨rfl, Nat.le_refl _, Nat.le_refl _⟩

/-! ### ENCODE's stores (47 R680) -/

/-- P survives every change ENCODE makes once its bit writer is set up. -/
structure EncodeFrameClosed (P : State → Prop) : Prop where
  writer : WriterClosed P
  blk : ∀ d b s, P s → P (setBlk d b s)
  pred : ∀ c v s, P s → P (setPred c v s)
  preds : ∀ s, P s → P (clearPreds s)
  res0 : ∀ v s, P s → P (setRes0 v s)

theorem EncodeFrameClosed.encodeSlot {P : State → Prop} (hP : EncodeFrameClosed P) (p : Slot × Fin 3) :
    Keeps P (encodeSlot p) :=
  keeps_bind (keeps_doFdct _ _ (hP.blk _)) fun _ => keeps_bind (keeps_doQuant _ _ _ (hP.blk _)) fun _ =>
    keeps_bind (keeps_doZigzag _ _ (hP.blk _)) fun _ => keeps_doHenc hP.writer _ _ _ fun k _ => hP.pred k

theorem EncodeFrameClosed.encodeFrame {P : State → Prop} (hP : EncodeFrameClosed P) (ss : BitVec 2) (fmt : BitVec 4)
    (src dims : Word) : Keeps P (encodeFrame ss fmt src dims) :=
  keeps_bind (keeps_doHdrw hP.writer _ _ hP.res0) fun _ => keeps_bind hP.preds fun _ =>
    keeps_bind (keeps_forEach fun _ _ => keeps_bind (keeps_doCconv _ _ _ _ _ fun q _ => hP.blk q.1) fun _ =>
      keeps_forEach fun q _ => hP.encodeSlot q) fun _ => keeps_doClose hP.writer

theorem encodeFrameClosed_writesWithin (ha : Outside a r) : EncodeFrameClosed (WritesWithin s0 a r) where
  writer := writerClosed_writesWithin ha
  blk _ _ _ hu := hu.congr rfl rfl
  pred _ _ _ hu := hu.congr rfl rfl
  preds _ hu := hu.congr rfl rfl
  res0 _ _ hu := hu.congr rfl rfl

/-- The setup of ENCODE stores nothing: tables, results, the bit writer's registers. -/
theorem encodeSetup_readsAs (dst cap : Word) (scale : Nat) :
    Keeps (ReadsAs s0 a) (encodeSetup dst cap scale) :=
  keeps_bind (keeps_doQbuild _ _ _ (fun _ _ hu _ => hu) fun _ _ hu => hu) fun _ =>
    keeps_bind (keeps_doQbuild _ _ _ (fun _ _ hu _ => hu) fun _ _ hu => hu) fun _ =>
    keeps_bind (fun _ hu => hu) fun _ => keeps_doBwinit _ _ fun _ hu _ => hu

/-- BWINIT without error leaves the given buffer (43 R461). -/
theorem doBwinit_ok_bw {dst cap : Word} {u v : State} (h : doBwinit dst cap u = .ok () v) :
    v.bw = { ptr := dst, lim := dst + cap, acc := 0#8, cnt := 0#3 } := by
  obtain ⟨_, w, -, hw⟩ := ok_of_bind u h
  rw [run_update] at hw
  cases hw
  rfl

theorem encodeSetup_ok_bw {dst cap : Word} {scale : Nat} {u v : State} (h : encodeSetup dst cap scale u = .ok () v) :
    v.bw = { ptr := dst, lim := dst + cap, acc := 0#8, cnt := 0#3 } := by
  unfold encodeSetup at h
  obtain ⟨_, _, -, h⟩ := ok_of_bind _ h
  obtain ⟨_, _, -, h⟩ := ok_of_bind _ h
  obtain ⟨_, _, -, h⟩ := ok_of_bind _ h
  exact doBwinit_ok_bw h

/-- ENCODE stores only inside [dst, dst + cap): nothing before its setup, the emitted bytes after it. A sum dst + cap beyond 32
bits leaves BW_LIM below dst, and then nothing is emitted. -/
theorem doEncode_readsAs (src dst cap dims opts raw : Word)
    (ha : Outside a { lo := dst.toNat, hi := dst.toNat + cap.toNat }) :
    Keeps (ReadsAs s0 a) (doEncode src dst cap dims opts raw) := by
  refine keeps_bind (fun _ hu => hu) fun _ => ?_
  split
  · exact keeps_raise _
  refine keeps_bind (keeps_check _ _) fun _ => keeps_bind (keeps_checkExtent _ _) fun _ =>
    keeps_bind (keeps_checkExtent _ _) fun _ u hu => ?_
  have hsetup := encodeSetup_readsAs dst cap (encodeScale opts raw) u hu
  cases hr : encodeSetup dst cap (encodeScale opts raw) u with
  | error e v =>
    rw [hr] at hsetup
    rw [run_bind_error u hr]
    exact hsetup
  | ok _ v =>
    rw [hr] at hsetup
    rw [run_bind_ok u hr]
    have hbw := encodeSetup_ok_bw hr
    have hv : WritesWithin s0 a { lo := dst.toNat, hi := dst.toNat + cap.toNat } v := by
      refine ⟨hsetup, ?_, ?_⟩
      · rw [hbw]
      · rw [hbw, BitVec.toNat_add]
        exact Nat.mod_le _ _
    have hP := encodeFrameClosed_writesWithin (s0 := s0) ha
    exact (keeps_bind (keeps_onError (hP.encodeFrame _ _ _ _) fun _ => hP.res0 _ _) (fun _ _ => hP.res0 _ _) v hv).same

/-! ### The stores of every instruction (20 R165) -/

theorem headerClosed_readsAs : HeaderClosed (ReadsAs s0 a) where
  bytes := ⟨fun _ _ hu _ => hu, fun _ hu => hu⟩
  tables := ⟨fun _ _ _ hu _ => hu, fun _ _ _ _ _ hu _ _ => hu⟩
  start _ hu := hu
  pstate _ _ hu := hu
  dri _ _ hu := hu
  frame _ _ _ _ _ hu := hu
  scan _ _ _ hu := hu
  res0 _ _ hu := hu

theorem readerClosed_readsAs : ReaderClosed (ReadsAs s0 a) :=
  ⟨fun _ _ _ hu _ _ => hu, fun _ hu => hu, fun _ hu _ => hu⟩

/-- DECODE stores the pixels of UPSCC only, inside [dst, dst + cap) (47 R690). -/
theorem decodeClosed_readsAs (ha : Outside a r) : DecodeClosed r.lo r.hi (ReadsAs s0 a) where
  header := headerClosed_readsAs
  reader := readerClosed_readsAs
  clear _ hu := hu
  resized _ := noteResized_keeps fun _ _ hu => hu
  blk _ _ _ _ hu := hu
  pred _ _ _ hu := hu
  preds _ hu := hu
  rst _ _ hu := hu
  start _ hu := hu
  done _ hu := hu
  init _ _ _ hu _ := hu
  write _ v _ hu hlo hhi _ := readsAs_writeByte v ha hlo hhi hu

variable {s t : State}

/-- A command that keeps a byte of LMEM, completion included. -/
theorem readByte_runCommand {x : Eng Unit} (h : runCommand x s = .next t)
    (hx : Keeps (ReadsAs s a) x) : readByte t a = readByte s a := by
  rw [runCommand_next h]
  exact finish_keeps (P := ReadsAs s a) hx (fun _ _ hu => hu) rfl

/-- A command whose only stores are those of the bit writer. -/
theorem readByte_runWriter {x : Eng Unit} (h : runCommand x s = .next t) (ha : Outside a (writerFootprint s))
    (hx : WriterClosed (WritesWithin s a (writerFootprint s)) → Keeps (WritesWithin s a (writerFootprint s)) x) :
    readByte t a = readByte s a := by
  rw [runCommand_next h]
  exact (finish_keeps (hx (writerClosed_writesWithin ha)) (fun _ _ hu => hu.congr rfl rfl) (writesWithin_footprint s a)).same

/-- A marker stores nothing. -/
theorem readByte_runMarker {c : Byte} (h : runMarker c s = .next t) (a : Nat) : readByte t a = readByte s a :=
  part_same_runMarker (p := .lmem) h (by decide) (keeps_headerCase (headerClosed_part rfl) c)
    (keeps_restartEvent c fun n _ hu => part_same_clearPreds (part_same_setRstNext n hu (by decide)) rfl) a

/-- Settles O25: the writer's commands, ENCODE, DECODE and UPSCC stay in their footprints, every other instruction stores
nothing. -/
theorem storesStayInTheFootprint : Obligations.StoresStayInTheFootprint := by
  intro i s t a h hout
  cases i
  case bwflush => exact readByte_runWriter h (hout _ rfl) keeps_flush
  case close => exact readByte_runWriter h (hout _ rfl) keeps_doClose
  case henc src c tt =>
    exact readByte_runWriter h (hout _ rfl) fun hw => keeps_doHenc hw _ _ _ fun _ _ _ _ hu => hu.congr rfl rfl
  case hdrw tt => exact readByte_runWriter h (hout _ rfl) fun hw => keeps_doHdrw hw _ _ fun _ _ hu => hu.congr rfl rfl
  case upscc tt x =>
    exact readByte_runCommand h (keeps_doUpscc _ _ _ _ _
      fun b v _ hu hlo hhi _ => readsAs_writeByte v (hout _ rfl) hlo hhi hu)
  case encode => exact readByte_runCommand h (doEncode_readsAs _ _ _ _ _ _ (hout _ rfl))
  case decode => exact readByte_runCommand h (keeps_doDecode _ _ _ _ _ (decodeClosed_readsAs (hout _ rfl)))
  case nop => exact readByte_runCommand h (keeps_pure _)
  case predclr => exact readByte_runCommand h fun _ hu => hu
  case bwinit => exact readByte_runCommand h (keeps_doBwinit _ _ fun _ hu _ => hu)
  case brinit => exact readByte_runCommand h (keeps_doBrinit _ _ fun _ hu _ => hu)
  case bralign => exact readByte_runCommand h fun _ hu => hu
  case fdct d src => exact readByte_runCommand h (keeps_doFdct _ _ fun _ _ hu => hu)
  case idct d src => exact readByte_runCommand h (keeps_doIdct _ _ fun _ _ hu => hu)
  case quant d src tt => exact readByte_runCommand h (keeps_doQuant _ _ _ fun _ _ hu => hu)
  case dequant d src tt => exact readByte_runCommand h (keeps_doDequant _ _ _ fun _ _ hu => hu)
  case zigzag d src => exact readByte_runCommand h (keeps_doZigzag _ _ fun _ _ hu => hu)
  case unzigzag d src => exact readByte_runCommand h (keeps_doUnzigzag _ _ fun _ _ hu => hu)
  case qbuild tt x => exact readByte_runCommand h (keeps_doQbuild _ _ _ (fun _ _ hu _ => hu) fun _ _ hu => hu)
  case qload tt => exact readByte_runCommand h (keeps_doQload _ _ fun _ _ hu _ => hu)
  case hdec d c tt =>
    exact readByte_runCommand h (keeps_doHdec readerClosed_readsAs _ _ _ (fun _ _ hu => hu) fun _ _ _ _ hu => hu)
  case hload tt x =>
    exact readByte_runCommand h (keeps_doHload _ _ _ (fun _ _ _ _ _ hu _ _ => hu) fun _ _ hu => hu)
  case cconv tt x => exact readByte_runCommand h (keeps_doCconv _ _ _ _ _ fun _ _ _ _ hu => hu)
  case parsehdr => exact readByte_runCommand h (keeps_doParsehdr headerClosed_readsAs)
  case rstchk =>
    exact readByte_runCommand h (keeps_doRstchk headerClosed_readsAs.bytes (fun _ _ hu => hu) fun _ _ hu => hu)
  case eoichk => exact readByte_runCommand h (keeps_doEoichk headerClosed_readsAs.bytes fun _ _ hu => hu)
  all_goals exact readByte_runMarker h a

end Sys2Proof.Machine
end

section
/-! The host's LMEM port, and the moves a step has a meaning for (20 R151 to R165; 60 R784 to R787). -/

namespace Sys2Proof.Machine

/-! ### An access to LMEM as a step -/

theorem lmemAccess_inside {s : State} {a n : Nat} (ha : a % n = 0) (hn : a + n ≤ s.memBytes)
    (k : Host.Outcome State Fault Refusal) : lmemAccess s a n k = k := by
  rw [lmemAccess, if_neg (not_not.mpr ha), if_neg (Nat.not_lt.mpr hn)]

/-- An LMEM write within the interface while idle is the next move (20 R151, R162). -/
theorem step_writeMem {s : State} {a : Nat} {v : AccessWidth} (hidle : s.status.busy = false) (ha : a % widthBytes v = 0)
    (hn : a + widthBytes v ≤ s.memBytes) (w : Word) (rest : List Move) :
    step { s with agenda := .host (.writeMem a v w) :: rest }
      = .next (writeBytes a (littleBytes w.toNat (widthBytes v)) { s with agenda := rest }) := by
  have hbusy : ¬s.status.busy = true := by simp [hidle]
  exact (lmemAccess_inside (s := { s with agenda := rest }) ha hn _).trans (if_neg hbusy)

/-- An LMEM read within the interface is the next move (20 R151). -/
theorem step_readMem {s : State} {a : Nat} {v : AccessWidth} (ha : a % widthBytes v = 0)
    (hn : a + widthBytes v ≤ s.memBytes) (rest : List Move) :
    step { s with agenda := .host (.readMem a v) :: rest }
      = .next (hostReadMem a (widthBytes v) { s with agenda := rest }) :=
  lmemAccess_inside (s := { s with agenda := rest }) ha hn _

/-! ### Little-endian bytes (20 R156) -/

/-- Byte k of a little-endian number. -/
theorem littleBytes_getD {n k : Nat} (h : k < n) (w : Nat) (d : Byte) :
    (littleBytes w n).getD k d = BitVec.ofNat 8 (w / 256 ^ k) := by
  induction n generalizing w k with
  | zero => omega
  | succ n ih =>
    cases k with
    | zero => simp [littleBytes]
    | succ k =>
      rw [littleBytes, List.getD_cons_succ, ih (by omega), Nat.div_div_eq_div_mul, Nat.pow_succ']

theorem two_pow_bytes (n : Nat) : 2 ^ (8 * n) = 256 ^ n := by rw [Nat.pow_mul]

/-- Byte k of a word, as a number. -/
theorem extractByte_toNat (w : Word) (k : Nat) : (w.extractLsb' (8 * k) 8).toNat = w.toNat / 256 ^ k % 256 := by
  rw [BitVec.extractLsb'_toNat, Nat.shiftRight_eq_div_pow, two_pow_bytes]

theorem extractByte_eq (w : Word) (k : Nat) : w.extractLsb' (8 * k) 8 = BitVec.ofNat 8 (w.toNat / 256 ^ k) := by
  apply BitVec.eq_of_toNat_eq
  rw [extractByte_toNat, BitVec.toNat_ofNat]

theorem widthBytes_le (v : AccessWidth) : widthBytes v ≤ 4 := by cases v <;> decide

/-- The number a host read gets fits a word. -/
theorem toNat_ofNat_of_width {v : AccessWidth} {x : Nat} (h : x < 256 ^ widthBytes v) : (BitVec.ofNat 32 x).toNat = x := by
  have hpow : 256 ^ widthBytes v ≤ 256 ^ 4 := Nat.pow_le_pow_right (by decide) (widthBytes_le v)
  rw [BitVec.toNat_ofNat, Nat.mod_eq_of_lt (by omega)]

/-! ### What a host read gets -/

/-- Outside the footprint of the running command a byte reads as it is (20 R165). -/
theorem hostByte_outside {a : Nat} {s : State} (h : inFootprint s a = false) : hostByte a s = (readByte s a, s) := by
  rw [hostByte, h]
  rfl

/-- One byte of a host read changes no state but the count of draws. -/
theorem hostByte_cases (a : Nat) (s : State) :
    ∃ b d, hostByte a s = (b, { s with draws := d }) ∧ (inFootprint s a = false → b = readByte s a) := by
  cases h : inFootprint s a
  · exact ⟨_, s.draws, hostByte_outside h, fun _ => rfl⟩
  · exact ⟨Config.hostByteDraw s.draws, s.draws + 1, by rw [hostByte, h]; rfl, fun h => nomatch h⟩

/-- The bytes of a host read make a number that holds LMEM's own bytes outside the footprint (20 R156, R165). -/
theorem hostBytes_cases (a n : Nat) (s : State) :
    ∃ x d, hostBytes a n s = (x, { s with draws := d }) ∧ x < 256 ^ n
      ∧ ∀ k, k < n → inFootprint s (a + k) = false → x / 256 ^ k % 256 = (readByte s (a + k)).toNat := by
  induction n generalizing a s with
  | zero => exact ⟨0, s.draws, rfl, by decide, fun k hk => by omega⟩
  | succ n ih =>
    obtain ⟨b, d, hb, hread⟩ := hostByte_cases a s
    obtain ⟨x, e, hx, hlt, hbytes⟩ := ih (a + 1) { s with draws := d }
    have hblt := b.isLt
    refine ⟨b.toNat + 256 * x, e, by simp only [hostBytes, hb, hx], by rw [Nat.pow_succ]; omega, fun k hk hk2 => ?_⟩
    cases k with
    | zero => rw [Nat.pow_zero, Nat.div_one, Nat.add_mul_mod_self_left, Nat.mod_eq_of_lt hblt, hread hk2]; rfl
    | succ k =>
      have hdiv : (b.toNat + 256 * x) / 256 = x := by omega
      have hshift : a + (k + 1) = a + 1 + k := by omega
      rw [Nat.pow_succ', ← Nat.div_div_eq_div_mul, hdiv, hshift]
      exact hbytes k (by omega) (hshift ▸ hk2)

/-- A host read of bytes that all lie outside the footprint gets the little-endian number they are. -/
theorem hostBytes_littleEndian {a n : Nat} {s : State} {w : Nat} (hout : ∀ k, k < n → inFootprint s (a + k) = false)
    (hw : ∀ k, k < n → readByte s (a + k) = BitVec.ofNat 8 (w / 256 ^ k)) : hostBytes a n s = (w % 256 ^ n, s) := by
  induction n generalizing a w with
  | zero => simp [hostBytes, Nat.mod_one]
  | succ n ih =>
    have hshift (k : Nat) : a + 1 + k = a + (k + 1) := by omega
    have htail := ih (a := a + 1) (w := w / 256) (fun k hk => hshift k ▸ hout (k + 1) (by omega)) fun k hk => by
      rw [hshift, hw (k + 1) (by omega), Nat.div_div_eq_div_mul, Nat.pow_succ']
    have hhead : hostByte a s = (BitVec.ofNat 8 w, s) := by
      have hbyte := hw 0 (by omega)
      rw [Nat.add_zero, Nat.pow_zero, Nat.div_one] at hbyte
      exact (hostByte_outside (hout 0 (by omega))).trans (congrArg (·, s) hbyte)
    rw [hostBytes, hhead, htail, Nat.pow_succ', Nat.mod_mul]
    rfl

/-- No CSR shows LMEM. -/
theorem csrValue_writeBytes (a : Nat) (bs : List Byte) (s : State) (o : Nat) : csrValue (writeBytes a bs s) o = csrValue s o := by
  rw [writeBytes_eq]
  rfl

/-- While idle a host read gets the little-endian number the bytes are and draws nothing. -/
theorem hostReadMem_idle {a n : Nat} {s : State} {w : Nat} (hidle : s.status.busy = false)
    (hw : ∀ k, k < n → readByte s (a + k) = BitVec.ofNat 8 (w / 256 ^ k)) :
    hostReadMem a n s = { s with hostData := BitVec.ofNat 32 (w % 2 ^ (8 * n)) } := by
  rw [hostReadMem, hostBytes_littleEndian (fun k _ => inFootprint_of_idle hidle (a + k)) hw, two_pow_bytes]

/-- Settles O14: the write byte by byte, then the two kinds of read. -/
theorem hostLmemIsLittleEndian : Obligations.HostLmemIsLittleEndian := by
  constructor
  · intro s rest a v w hidle ha hn
    have hstep := step_writeMem hidle ha hn w rest
    have hbyte (k : Nat) (hk : k < widthBytes v) :
        readByte (writeBytes a (littleBytes w.toNat (widthBytes v)) { s with agenda := rest }) (a + k)
          = BitVec.ofNat 8 (w.toNat / 256 ^ k) := by
      rw [readByte_writeBytes, if_pos (Nat.le_add_right a k), Nat.add_sub_cancel_left, littleBytes_getD hk]
    have hother (b : Nat) (hb : b < a ∨ a + widthBytes v ≤ b) :
        readByte (writeBytes a (littleBytes w.toNat (widthBytes v)) { s with agenda := rest }) b = readByte s b :=
      readByte_writeBytes_outside { s with agenda := rest } (by rw [littleBytes_length]; exact hb)
    have hcsr := csrValue_writeBytes a (littleBytes w.toNat (widthBytes v)) { s with agenda := rest }
    have hstatus := writeBytes_status (littleBytes w.toNat (widthBytes v)) a { s with agenda := rest }
    have hsize := writeBytes_memBytes (littleBytes w.toNat (widthBytes v)) a { s with agenda := rest }
    generalize writeBytes a (littleBytes w.toNat (widthBytes v)) { s with agenda := rest } = t at *
    have hidle' : t.status.busy = false := by rw [hstatus]; exact hidle
    refine ⟨t, hstep, fun k hk => by rw [hbyte k hk, extractByte_eq], hother, hcsr, ?_⟩
    exact (step_readMem ha (by rw [hsize]; exact hn) rest).trans
      (congrArg _ (hostReadMem_idle (s := { t with agenda := rest }) hidle' hbyte))
  · intro s rest a v ha hn
    obtain ⟨x, d, hx, hlt, hbytes⟩ := hostBytes_cases a (widthBytes v) { s with agenda := rest }
    refine ⟨BitVec.ofNat 32 x, d, by rw [step_readMem ha hn, hostReadMem, hx], ?_, fun k hk hout => ?_⟩
    · rw [toNat_ofNat_of_width hlt, two_pow_bytes]
      exact hlt
    · apply BitVec.eq_of_toNat_eq
      rw [extractByte_toNat, toNat_ofNat_of_width hlt]
      exact hbytes k hk hout

/-! ### The moves that have a meaning (20 R159; 60 R785, R787) -/

theorem lmemAccess_next_iff (s : State) (a n : Nat) (k : Host.Outcome State Fault Refusal) :
    (∃ t, lmemAccess s a n k = .next t) ↔ a % n = 0 ∧ a + n ≤ s.memBytes ∧ ∃ t, k = .next t := by
  unfold lmemAccess
  split
  · next h => simp [h]
  · split
    · next h => simp [Nat.not_le.mpr h]
    · next ha hn => simp [not_not.mp ha, Nat.not_lt.mp hn]

theorem csrAccess_next_iff (o : Nat) (w : AccessWidth) (k : Host.Outcome State Fault Refusal) :
    (∃ t, csrAccess o w k = .next t) ↔ w = .word ∧ o % 4 = 0 ∧ o < Config.csrBytes ∧ ∃ t, k = .next t := by
  unfold csrAccess
  split
  · next h =>
    constructor
    · rintro ⟨_, h⟩
      cases h
    · rintro ⟨hw, ho, -⟩
      exact absurd h (by simp [hw, ho])
  · next h =>
    obtain ⟨hw, ho⟩ : w = .word ∧ o % 4 = 0 := by simpa only [not_or, not_not] using h
    split
    · next hout => simp [Nat.not_lt.mpr hout]
    · next hin => simp [hw, ho, Nat.not_le.mp hin]

/-- A CSR write has no meaning exactly for a live register while BUSY (60 R787). -/
theorem hostWriteCsr_next_iff (o : Nat) (w : Word) (s : State) :
    (∃ t, hostWriteCsr o w s = .next t) ↔ (isLiveCsr o = true → s.status.busy = false) := by
  unfold hostWriteCsr
  by_cases h4 : o = 0x004
  · subst h4
    simp [isLiveCsr]
  by_cases h8 : o = 0x008
  · subst h8
    simp [isLiveCsr]
  by_cases hc : o = 0x00C
  · subst hc
    simp [isLiveCsr]
  rw [if_neg h4, if_neg h8, if_neg hc]
  cases hlive : isLiveCsr o <;> cases hbusy : s.status.busy <;> simp

/-- A host access answers a next state exactly within the host duties. -/
theorem hostMove_next_iff (a : HostAccess) (s : State) : (∃ t, hostMove a s = .next t) ↔ dutiful s a := by
  cases a with
  | readCsr o w => simp [hostMove, csrAccess_next_iff, dutiful]
  | writeCsr o w d => simp only [hostMove, csrAccess_next_iff, hostWriteCsr_next_iff, dutiful]
  | readMem a w => simp [hostMove, lmemAccess_next_iff, dutiful]
  | writeMem a w d => cases hbusy : s.status.busy <;> simp [hostMove, lmemAccess_next_iff, dutiful, hbusy]

/-- The engine's move always answers a next state. -/
theorem engineMove_next (s : State) : ∃ t, engineMove s = .next t := by
  unfold engineMove
  split
  · split
    · exact exec_next _ _
    · exact ⟨_, rfl⟩
  · exact ⟨s, rfl⟩

/-- The reasons the model refuses a host access under (log 14). -/
def HostRefusal (r : Refusal) : Prop := r = .hostWriteWhileBusy ∨ r = .misalignedLmem ∨ r = .csrForm

theorem lmemAccess_refused {s : State} {a n : Nat} {k : Host.Outcome State Fault Refusal} {r : Refusal}
    (h : lmemAccess s a n k = .refused r) (hk : k = .refused r → HostRefusal r) : HostRefusal r := by
  unfold lmemAccess at h
  split at h
  · cases h
    exact .inr (.inl rfl)
  · split at h
    · cases h
    · exact hk h

theorem csrAccess_refused {o : Nat} {w : AccessWidth} {k : Host.Outcome State Fault Refusal} {r : Refusal}
    (h : csrAccess o w k = .refused r) (hk : k = .refused r → HostRefusal r) : HostRefusal r := by
  unfold csrAccess at h
  split at h
  · cases h
    exact .inr (.inr rfl)
  · split at h
    · cases h
    · exact hk h

/-- A CSR write of the right form is refused only while BUSY. -/
theorem hostWriteCsr_refused {o : Nat} {w : Word} {s : State} {r : Refusal} (h : hostWriteCsr o w s = .refused r) :
    HostRefusal r := by
  unfold hostWriteCsr at h
  split_ifs at h
  cases h
  exact .inl rfl

theorem hostMove_refused {a : HostAccess} {s : State} {r : Refusal} (h : hostMove a s = .refused r) : HostRefusal r := by
  cases a with
  | readCsr o w => exact csrAccess_refused h fun hk => nomatch hk
  | writeCsr o w d => exact csrAccess_refused h hostWriteCsr_refused
  | readMem a w => exact lmemAccess_refused h fun hk => nomatch hk
  | writeMem a w d =>
    refine lmemAccess_refused h fun hk => ?_
    split at hk
    · cases hk
      exact .inl rfl
    · cases hk

/-- A step of the engine answers a next state and stops under no reason. -/
theorem step_engine_next {s : State} (h : ∀ a rest, s.agenda ≠ .host a :: rest) : ∃ t, step s = .next t := by
  unfold step
  split
  · exact engineMove_next s
  · exact engineMove_next _
  · next a rest ha => exact absurd ha (h a rest)

/-- Settles O15: the engine always moves on, the host by its four accesses. -/
theorem stepStopsOnlyOutsideInterface : Obligations.StepStopsOnlyOutsideInterface := by
  intro s
  by_cases hhost : ∃ a rest, s.agenda = .host a :: rest
  · obtain ⟨a, rest, ha⟩ := hhost
    have hstep : step s = hostMove a { s with agenda := rest } := by simp only [step, ha]
    have hsafe : safeMove s ↔ dutiful s a := by simp only [safeMove, ha]
    refine ⟨?_, fun r hr => hostMove_refused (hstep ▸ hr), fun _ _ => ⟨a, rest, ha⟩⟩
    rw [hsafe, hstep, hostMove_next_iff]
    cases a <;> rfl
  · have hengine : ∀ a rest, s.agenda ≠ .host a :: rest := fun a rest h => hhost ⟨a, rest, h⟩
    obtain ⟨t, ht⟩ := step_engine_next hengine
    refine ⟨iff_of_true ?_ ⟨t, ht⟩, fun r hr => ?_, fun f hf => ?_⟩
    · unfold safeMove
      split
      · next a rest ha => exact absurd ha (hengine a rest)
      · trivial
    · rw [ht] at hr
      cases hr
    · rw [ht] at hf
      cases hf

/-! ### The engine's step (20 R163; 60 R784, R785) -/

/-- While a command runs the engine executes the latched word. -/
theorem engineMove_busy {s : State} {i : Instr} (hbusy : s.status.busy = true) (hi : decodeCommand s.cmdL = .ok i) :
    engineMove s = exec i s := by
  simp only [engineMove, if_pos hbusy, hi]

/-- While idle the engine does nothing. -/
theorem engineMove_idle {s : State} (hidle : s.status.busy = false) : engineMove s = .next s := by
  rw [engineMove, if_neg (Bool.eq_false_iff.mp hidle)]

/-- Settles O6: both forms of the step are the engine's move. -/
theorem stepRunsTheLatchedCommand : Obligations.StepRunsTheLatchedCommand := fun s rest =>
  ⟨fun _ hbusy hi => ⟨engineMove_busy (s := { s with agenda := [] }) hbusy hi,
      engineMove_busy (s := { s with agenda := rest }) hbusy hi⟩,
    fun hidle => ⟨engineMove_idle (s := { s with agenda := [] }) hidle,
      engineMove_idle (s := { s with agenda := rest }) hidle⟩⟩

end Sys2Proof.Machine
end

section
/-! A parse is its markers, one after another (20 R163; 45 R581, R600 to R615; log 2). -/

namespace Sys2Proof.Machine

/-! ### The exec of a marker is the event of its code byte (30 R241) -/

/-- A bit string is its high bits followed by its low bits. -/
theorem append_low_of_high {m k : Nat} {p : BitVec m} {c : BitVec (m + k)} (h : c.extractLsb' k m = p) :
    p ++ c.extractLsb' 0 k = c := by
  rw [← h, BitVec.extractLsb'_append_extractLsb']

theorem ok_of_ite {ε α : Type} {q : Prop} [Decidable q] {x y : Except ε α} {a : α} (h : (if q then x else y) = .ok a) :
    (q ∧ x = .ok a) ∨ y = .ok a := by
  split at h
  · next hq => exact .inl ⟨hq, h⟩
  · exact .inr h

theorem exec_of_decodeMarkerCode {c : Byte} {i : Instr} (h : decodeMarkerCode c = .ok i) (s : State) :
    exec i s = runMarker c s := by
  have byCode {b : Byte} (hb : b = c) : runMarker b s = runMarker c s := by rw [hb]
  unfold decodeMarkerCode at h
  split at h
  case h_27 =>
    iterate 12
      obtain ⟨hc, h⟩ | h := ok_of_ite h
      · cases h
        exact byCode (append_low_of_high hc)
    cases h
  all_goals
    cases h
    rfl

/-! ### No piece of a parse raises ERR_COMMAND (45 R580 to R615)

`endMarker` sets FAILED on every error but ERR_COMMAND, the handler of a command's body (`onError`) on every error. In a parse
the two agree. -/

/-- `x` never raises ERR_COMMAND. -/
def SparesCommand {α : Type} (x : Eng α) : Prop := ∀ s t, x s ≠ .error .command t

theorem SparesCommand.ne {α : Type} {x : Eng α} (hx : SparesCommand x) {s t : State} {e : ErrCode} (h : x s = .error e t) :
    e ≠ .command := by
  rintro rfl
  exact hx s t h

section Spares
variable {α β : Type}

@[simp] theorem spares_pure (a : α) : SparesCommand (pure a : Eng α) := fun _ _ h => nomatch h

@[simp] theorem spares_get : SparesCommand (get : Eng State) := fun _ _ h => nomatch h

@[simp] theorem spares_update (f : State → State) : SparesCommand (update f) := fun _ _ h => nomatch h

@[simp] theorem spares_raise {e : ErrCode} (he : e ≠ .command) : SparesCommand (raise e : Eng α) := by
  intro s t h
  cases h
  exact he rfl

@[simp] theorem spares_checkState {p : State → Bool} {e : ErrCode} (he : e ≠ .command) : SparesCommand (checkState p e) := by
  intro s t h
  rw [run_checkState] at h
  split at h <;> cases h
  exact he rfl

@[simp] theorem spares_check {ok : Bool} {e : ErrCode} (he : e ≠ .command) : SparesCommand (check ok e) :=
  spares_checkState (p := fun _ => ok) he

@[simp] theorem spares_memRead (a : Nat) : SparesCommand (memRead a) := by
  intro s t h
  rcases memRead_cases a s with hr | hr <;> rw [hr] at h <;> cases h

theorem spares_bind {x : Eng β} {f : β → Eng α} (hx : SparesCommand x) (hf : ∀ b, SparesCommand (f b)) :
    SparesCommand (x >>= f) := by
  intro s t h
  rw [run_bind] at h
  cases hr : x s with
  | ok b u =>
    rw [hr] at h
    exact hf b u t h
  | error e u =>
    rw [hr] at h
    cases h
    exact hx s _ hr

theorem spares_ite {q : Prop} [Decidable q] {x y : Eng α} (hx : SparesCommand x) (hy : SparesCommand y) :
    SparesCommand (if q then x else y) := by
  split
  · exact hx
  · exact hy

theorem spares_replaceError {e : ErrCode} (he : e ≠ .command) (x : Eng α) : SparesCommand (replaceError e x) := by
  intro s t h
  rw [run_replaceError] at h
  split at h <;> cases h
  exact he rfl

@[simp] theorem spares_memReads (a n : Nat) : SparesCommand (memReads a n) := by
  induction n generalizing a with
  | zero => exact spares_pure _
  | succ n ih => exact spares_bind (spares_memRead a) fun _ => spares_bind (ih _) fun _ => spares_pure _

@[simp] theorem spares_memRead16 (a : Nat) : SparesCommand (memRead16 a) :=
  spares_bind (spares_memRead _) fun _ => spares_bind (spares_memRead _) fun _ => spares_pure _

theorem spares_nextByte {e : ErrCode} (he : e ≠ .command) : SparesCommand (nextByte e) :=
  spares_bind (spares_checkState he) fun _ => spares_bind spares_get fun _ => spares_bind (spares_memRead _) fun _ =>
    spares_bind (spares_update _) fun _ => spares_pure _

theorem spares_codeAfterFill (n : Nat) : SparesCommand (codeAfterFill n) := by
  induction n with
  | zero => exact spares_raise (by decide)
  | succ n ih => exact spares_bind (spares_nextByte (by decide)) fun _ => spares_ite ih (spares_pure _)

theorem spares_nextMarker : SparesCommand nextMarker :=
  spares_bind (spares_nextByte (by decide)) fun _ => spares_bind (spares_check (by decide)) fun _ =>
    spares_bind spares_get fun _ => spares_codeAfterFill _

@[simp] theorem spares_segLen : SparesCommand segLen :=
  spares_bind (spares_checkState (by decide)) fun _ => spares_bind spares_get fun _ => spares_bind (spares_memRead16 _) fun _ =>
    spares_bind (spares_check (by decide)) fun _ => spares_pure _

@[simp] theorem spares_checkEntries (bs : List Byte) : SparesCommand (checkEntries bs) := spares_check (by decide)

@[simp] theorem spares_checkTable (bits : List Byte) : SparesCommand (checkTable bits) := spares_check (by decide)

@[simp] theorem spares_dqtTables (stop fuel p : Nat) : SparesCommand (dqtTables stop fuel p) := by
  induction fuel generalizing p with
  | zero => exact spares_pure _
  | succ n ih =>
    refine spares_ite (spares_pure _) ?_
    repeat' refine spares_bind ?_ fun _ => ?_
    all_goals simp [ih]

@[simp] theorem spares_dhtTables (stop fuel p : Nat) : SparesCommand (dhtTables stop fuel p) := by
  induction fuel generalizing p with
  | zero => exact spares_pure _
  | succ n ih =>
    refine spares_ite (spares_pure _) ?_
    repeat' refine spares_bind ?_ fun _ => ?_
    all_goals simp [ih]

@[simp] theorem spares_scanComponent (a i : Nat) : SparesCommand (scanComponent a i) :=
  spares_bind (spares_memRead _) fun _ => spares_bind (spares_memRead _) fun _ => spares_bind (spares_check (by decide)) fun _ =>
    spares_bind (spares_check (by decide)) fun _ => spares_bind (spares_checkState (by decide)) fun _ => spares_pure _

/-- Every check and read of the segments raises an error of its own (45 R583 to R600). -/
theorem spares_headerCase (c : Byte) : SparesCommand (headerCase c) := by
  unfold headerCase skipSegment parseDqt parseDht parseDri parseSof0 parseSos
  repeat' refine spares_ite ?_ ?_
  all_goals repeat' refine spares_bind ?_ fun _ => ?_
  all_goals simp

theorem spares_restartCase (c : Byte) : SparesCommand (restartCase c) :=
  spares_bind (spares_checkState (by decide)) fun _ => spares_update _

theorem spares_endCase (c : Byte) : SparesCommand (endCase c) :=
  spares_bind (spares_check (by decide)) fun _ => spares_update _

end Spares

/-- An error other than ERR_COMMAND ends a marker's command in FAILED. -/
theorem endMarker_error {e : ErrCode} (he : e ≠ .command) (t : State) :
    endMarker (.error e t) = complete (some e) (setPstate .failed t) := by
  cases e
  case command => exact absurd rfl he
  all_goals rfl

/-! ### One marker of a parse -/

/-- What the next marker comes to once it is fetched: its event, or the error of the fetch. -/
def fetchedMarkerRun (r : MarkerReader) : EStateM.Result ErrCode State Byte → State
  | .ok c t => endMarker (markerEvent r c t)
  | .error e t => endMarker (.error e t)

/-- The latched word alone says which command reads the markers. -/
theorem markerReader_congr {s t : State} (h : t.cmdL = s.cmdL) : markerReader t = markerReader s := by
  simp only [markerReader, h]

theorem runMarker_eq {r : MarkerReader} {s : State} (hr : markerReader s = some r) (c : Byte) :
    runMarker c s = .next (endMarker (markerEvent r c s)) := by
  simp only [runMarker, hr]

theorem headerClosed_cmdL (w : Word) : HeaderClosed (fun u => u.cmdL = w) where
  bytes := ⟨fun _ _ hu _ => hu, fun _ hu => hu⟩
  tables := ⟨fun _ _ _ hu _ => hu, fun _ _ _ _ _ hu _ _ => hu⟩
  start _ hu := hu
  pstate _ _ hu := hu
  dri _ _ hu := hu
  frame _ _ _ _ _ hu := hu
  scan _ _ _ hu := hu
  res0 _ _ hu := hu

/-- No instruction writes the latched word (10 R59). -/
theorem execClosed_cmdL (w : Word) : ExecClosed (fun u => u.cmdL = w) where
  complete _ _ hu := hu
  writer := ⟨fun _ _ hu _ _ => hu, fun _ hu _ => hu, fun _ _ hu _ => hu⟩
  reader := ⟨fun _ _ _ hu _ _ => hu, fun _ hu => hu, fun _ hu _ => hu⟩
  header := headerClosed_cmdL w
  blk _ _ _ hu := hu
  pred _ _ _ hu := hu
  preds _ hu := hu
  rst _ _ hu := hu
  res0 _ _ hu := hu
  res1 _ _ hu := hu
  clear _ hu := hu
  resized _ := noteResized_keeps (P := fun u => u.cmdL = w) fun _ _ hu => hu
  decStart _ hu := hu
  decDone _ hu := hu
  bwInit _ _ _ hu _ := hu
  brInit _ _ _ hu _ := hu
  align _ hu := hu
  write _ _ _ hu _ := hu

/-- What survives a piece holds where it ends well. -/
theorem Keeps.of_ok {α : Type} {P : State → Prop} {x : Eng α} {s t : State} {a : α} (h : Keeps P x) (hs : P s)
    (hx : x s = .ok a t) : P t := by
  have hP := h s hs
  rwa [hx] at hP

/-- Behind a fetched marker the same command reads. -/
theorem fetchMarker_reader {r q : MarkerReader} {s t : State} {c : Byte} (h : fetchMarker r s = .ok c t)
    (hq : markerReader s = some q) : markerReader t = some q := by
  have hword : t.cmdL = s.cmdL := (keeps_fetchMarker (execClosed_cmdL s.cmdL) r).of_ok rfl h
  rw [markerReader_congr hword, hq]

/-- The next marker of a parse is the event of the byte that is fetched, an instruction or not. -/
theorem nextMarkerRun_eq {r : MarkerReader} {s : State} (hr : markerReader s = some r) :
    nextMarkerRun s = fetchedMarkerRun r (fetchMarker r s) := by
  simp only [nextMarkerRun, hr]
  cases hf : fetchMarker r s with
  | error e t => rfl
  | ok c t =>
    simp only [fetchedMarkerRun]
    split
    · next i hi => rw [exec_of_decodeMarkerCode hi, runMarker_eq (fetchMarker_reader hf hr), stateOf]
    · rfl

/-- The exec of the marker that is fetched. -/
theorem exec_fetched {r : MarkerReader} {s t : State} {c : Byte} {i : Instr} (hr : markerReader s = some r)
    (hf : fetchMarker r s = .ok c t) (hi : decodeMarkerCode c = .ok i) : exec i t = .next (nextMarkerRun s) := by
  rw [exec_of_decodeMarkerCode hi, runMarker_eq (fetchMarker_reader hf hr), nextMarkerRun_eq hr, hf]
  rfl

/-! ### The markers of a header parse (45 R600) -/

/-- From `u` to `v` the parse went on in the input: the command runs on, BR_PTR moved up within the same input. -/
structure ParsedOn (u v : State) : Prop where
  busy : v.status.busy = u.status.busy
  cmdL : v.cmdL = u.cmdL
  lim : v.br.lim = u.br.lim
  ptr : u.br.ptr.toNat ≤ v.br.ptr.toNat
  inside : v.br.ptr.toNat ≤ v.br.lim.toNat

theorem parsedOn_refl {u : State} (h : u.br.ptr.toNat ≤ u.br.lim.toNat) : ParsedOn u u := ⟨rfl, rfl, rfl, Nat.le_refl _, h⟩

theorem ParsedOn.trans {u v w : State} (h1 : ParsedOn u v) (h2 : ParsedOn v w) : ParsedOn u w :=
  ⟨h2.busy.trans h1.busy, h2.cmdL.trans h1.cmdL, h2.lim.trans h1.lim, Nat.le_trans h1.ptr h2.ptr, h2.inside⟩

/-- What leaves STATUS, the latched word and the place of the reader is no move in the input. -/
theorem ParsedOn.congr {u v w : State} (h : ParsedOn u v) (hs : w.status = v.status) (hc : w.cmdL = v.cmdL)
    (hl : w.br.lim = v.br.lim) (hp : w.br.ptr = v.br.ptr) : ParsedOn u w :=
  ⟨hs ▸ h.busy, hc ▸ h.cmdL, hl ▸ h.lim, hp ▸ h.ptr, by rw [hl, hp]; exact h.inside⟩

theorem parsedOn_advance {u : State} {n : Nat} (h : u.br.ptr.toNat + n ≤ u.br.lim.toNat) :
    ParsedOn u (advanceReader n u) := by
  have hp := pointer_add_ofNat_toNat h
  refine ⟨rfl, rfl, rfl, ?_, ?_⟩
  · change _ ≤ (u.br.ptr + BitVec.ofNat 32 n).toNat
    omega
  · change (u.br.ptr + BitVec.ofNat 32 n).toNat ≤ u.br.lim.toNat
    omega

theorem bytesClosed_parsedOn (u : State) : BytesClosed (ParsedOn u) where
  advance _ _ hv h := hv.trans (parsedOn_advance h)
  drop _ hv := hv.congr rfl rfl rfl rfl

theorem headerClosed_parsedOn (u : State) : HeaderClosed (ParsedOn u) where
  bytes := bytesClosed_parsedOn u
  tables := ⟨fun _ _ _ hv _ => hv.congr rfl rfl rfl rfl, fun _ _ _ _ _ hv _ _ => hv.congr rfl rfl rfl rfl⟩
  start _ hv := hv.congr rfl rfl rfl rfl
  pstate _ _ hv := hv.congr rfl rfl rfl rfl
  dri _ _ hv := hv.congr rfl rfl rfl rfl
  frame _ _ _ _ _ hv := hv.congr rfl rfl rfl rfl
  scan _ _ _ hv := hv.congr rfl rfl rfl rfl
  res0 _ _ hv := hv.congr rfl rfl rfl rfl

/-- NEXTBYTE takes a byte of the input, or raises an error and changes nothing (45 R580). -/
theorem nextByte_cases (e : ErrCode) (s : State) :
    (nextByte e s = .ok (readByte s s.br.ptr.toNat) (advanceReader 1 s) ∧ s.br.ptr.toNat < s.br.lim.toNat)
      ∨ ∃ e', nextByte e s = .error e' s := by
  rw [nextByte, run_checkState_bind]
  split
  · next hlt =>
    rw [run_get_bind]
    rcases memRead_cases s.br.ptr.toNat s with hr | hr
    · rw [run_bind_ok s hr]
      exact .inl ⟨rfl, by simpa using hlt⟩
    · exact .inr ⟨_, run_bind_error s hr⟩
  · exact .inr ⟨_, rfl⟩

theorem bytesClosed_pstate (p : ParserState) : BytesClosed (fun u => u.pstate = p) :=
  ⟨fun _ _ hu _ => hu, fun _ hu => hu⟩

/-- NEXTMARKER takes at least one byte (45 R581). -/
theorem nextMarker_parsedOn {c : Byte} {u v : State} (h : nextMarker u = .ok c v) :
    ParsedOn u v ∧ u.br.ptr.toNat < v.br.ptr.toNat := by
  obtain ⟨b, w, hb, hw⟩ := ok_of_bind u h
  rcases nextByte_cases .noEoi u with ⟨hn, hlt⟩ | ⟨e, hn⟩
  swap
  · rw [hn] at hb
    cases hb
  rw [hn] at hb
  cases hb
  have hstep := parsedOn_advance (n := 1) hlt
  have hrest : ParsedOn (advanceReader 1 u) v :=
    (keeps_bind (keeps_check _ _) fun _ => keeps_bind keeps_get fun _ =>
      keeps_codeAfterFill (bytesClosed_parsedOn _) _).of_ok (parsedOn_refl hstep.inside) hw
  have hptr : (advanceReader 1 u).br.ptr.toNat = u.br.ptr.toNat + 1 := pointer_add_ofNat_toNat hlt
  refine ⟨hstep.trans hrest, ?_⟩
  have := hrest.ptr
  omega

/-- PSTATE.STATE is one in which PARSEHDR reads tables (45 R570). -/
def ReadsTables (u : State) : Prop := u.pstate = .readingTables ∨ u.pstate = .sof0Seen

theorem bytesClosed_readsTables : BytesClosed ReadsTables := ⟨fun _ _ hu _ => hu, fun _ hu => hu⟩

/-- A marker of the header that does not reach the scan leaves the parse reading tables: a segment leaves STATE or is SOF0, every
other code raises an error or reaches the scan (45 R600). -/
theorem headerCase_readsTables {c : Byte} {u v : State} (hu : ReadsTables u) (h : headerCase c u = .ok false v) :
    ReadsTables v := by
  have ofSegment {x : Eng Unit} (hx : Keeps ReadsTables x) (h : (x >>= fun _ => (pure false : Eng Bool)) u = .ok false v) :
      ReadsTables v := (keeps_bind hx fun _ => keeps_pure _).of_ok hu h
  unfold headerCase at h
  split at h
  · exact ofSegment (keeps_skipSegment bytesClosed_readsTables) h
  split at h
  · exact ofSegment (keeps_parseDqt bytesClosed_readsTables fun _ _ _ hw _ => hw) h
  split at h
  · exact ofSegment (keeps_parseDht bytesClosed_readsTables fun _ _ _ _ _ hw _ _ => hw) h
  split at h
  · exact ofSegment (keeps_parseDri bytesClosed_readsTables fun _ _ hw => hw) h
  split at h
  · obtain ⟨_, _, -, h⟩ := ok_of_bind _ h
    obtain ⟨_, w, -, h⟩ := ok_of_bind _ h
    cases h
    exact .inr rfl
  split at h
  · cases h
  split at h
  · obtain ⟨_, _, -, h⟩ := ok_of_bind _ h
    obtain ⟨_, _, -, h⟩ := ok_of_bind _ h
    cases h
  · cases h

/-- While tables are read a marker's event is its case in the loop of PARSEHDR. -/
theorem headerEvent_readsTables {u : State} (hu : ReadsTables u) (c : Byte) : headerEvent c u = headerCase c u := by
  unfold headerEvent
  rcases hu with h | h <;> rw [h]

/-- While tables are read the next marker is the one NEXTMARKER finds. -/
theorem fetchMarker_readsTables {u : State} (hu : ReadsTables u) : fetchMarker .header u = nextMarker u := by
  have hne : u.pstate ≠ .expectSoi := by
    rcases hu with h | h <;> rw [h] <;> decide
  simp only [fetchMarker, if_neg hne]

/-- One round of the loop of PARSEHDR: a marker and its case; true when the scan is reached (45 R600). -/
def headerRound : Eng Bool := do
  let c ← nextMarker
  headerCase c

theorem headerLoop_succ (fuel : Nat) :
    headerLoop (fuel + 1) = headerRound >>= fun reached => if reached then pure () else headerLoop fuel := by
  rw [headerLoop, headerRound, bind_assoc]

theorem spares_headerRound : SparesCommand headerRound := spares_bind spares_nextMarker spares_headerCase

/-- While tables are read, the next marker of the parse is a round of the loop. -/
theorem nextMarkerRun_readsTables {u : State} (hreader : markerReader u = some .header) (hu : ReadsTables u) :
    nextMarkerRun u = endMarker (headerRound u) := by
  rw [nextMarkerRun_eq hreader, fetchMarker_readsTables hu, headerRound]
  cases hm : nextMarker u with
  | error e v => rw [run_bind_error u hm, fetchedMarkerRun]
  | ok c v =>
    have hv : ReadsTables v := (keeps_nextMarker bytesClosed_readsTables).of_ok hu hm
    rw [run_bind_ok u hm, fetchedMarkerRun, markerEvent, headerEvent_readsTables hv]

/-- A round that does not reach the scan goes on reading tables, with less of the input left. -/
theorem headerRound_goesOn {u w : State} (hu : ReadsTables u) (h : headerRound u = .ok false w) :
    ParsedOn u w ∧ ReadsTables w ∧ bytesLeft w < bytesLeft u := by
  obtain ⟨c, v, hm, hc⟩ := ok_of_bind u h
  obtain ⟨hon, hlt⟩ := nextMarker_parsedOn hm
  have hv : ReadsTables v := (keeps_nextMarker bytesClosed_readsTables).of_ok hu hm
  have hcase := (keeps_headerCase (headerClosed_parsedOn v) c).of_ok (parsedOn_refl hon.inside) hc
  have hall := hon.trans hcase
  refine ⟨hall, headerCase_readsTables hv hc, ?_⟩
  have hptr := hcase.ptr
  have hin := hall.inside
  unfold bytesLeft
  rw [hall.lim] at hin ⊢
  omega

/-- The markers of the parse in `u`, one after another until the command completes, end in `t`. -/
def ParsesTo (u t : State) : Prop := ∃ n, (markersRun n u).status.busy = false ∧ t = markersRun n u

/-- The next marker completes the command. -/
theorem parsesTo_complete {u v : State} {e : Option ErrCode} (hbusy : u.status.busy = true)
    (h : nextMarkerRun u = complete e v) : ParsesTo u (complete e v) := by
  have hrun : markersRun 1 u = complete e v := by rw [markersRun, if_pos hbusy, markersRun, h]
  exact ⟨1, by rw [hrun]; rfl, hrun.symm⟩

/-- The next marker is one of several. -/
theorem parsesTo_next {u v t : State} (hbusy : u.status.busy = true) (h : nextMarkerRun u = v) (ht : ParsesTo v t) :
    ParsesTo u t := by
  obtain ⟨n, hn⟩ := ht
  have hrun : markersRun (n + 1) u = markersRun n v := by rw [markersRun, if_pos hbusy, h]
  exact ⟨n + 1, by rw [hrun]; exact hn⟩

/-- The state the body of a parse ends in, from its result (45 R570). -/
def closeParse (x : EStateM.Result ErrCode State Unit) : State :=
  match x with
  | .ok _ t => complete none t
  | .error e t => complete (some e) (setPstate .failed t)

theorem finish_onError (x : Eng Unit) (s : State) : finish (onError (setPstate .failed) x s) = closeParse (x s) := by
  rw [run_onError]
  cases x s <;> rfl

/-- The loop of PARSEHDR is its markers, one after another. Each round takes a byte of the input, so the loop's fuel is not what
ends it (45 R600). -/
theorem headerLoop_parsesTo (fuel : Nat) {u : State} (hbusy : u.status.busy = true)
    (hreader : markerReader u = some .header) (hu : ReadsTables u) (hfuel : bytesLeft u < fuel) :
    ParsesTo u (closeParse (headerLoop fuel u)) := by
  induction fuel generalizing u with
  | zero => omega
  | succ fuel ih =>
    have hnext := nextMarkerRun_readsTables hreader hu
    rw [headerLoop_succ]
    cases hr : headerRound u with
    | error e w =>
      rw [hr, endMarker_error (spares_headerRound.ne hr)] at hnext
      rw [run_bind_error u hr]
      exact parsesTo_complete hbusy hnext
    | ok reached w =>
      rw [hr] at hnext
      rw [run_bind_ok u hr]
      cases reached with
      | true => exact parsesTo_complete hbusy hnext
      | false =>
        obtain ⟨hon, hw, hleft⟩ := headerRound_goesOn hu hr
        have hfuel' : bytesLeft w < fuel := by omega
        exact parsesTo_next hbusy hnext
          (ih (hon.busy.trans hbusy) ((markerReader_congr hon.cmdL).trans hreader) hw hfuel')

/-- SOI is found, or an error is raised and nothing changes (45 R600). -/
theorem expectSoiMarker_cases (s : State) :
    expectSoiMarker s = .ok () (setPstate .readingTables (advanceReader 2 s))
      ∨ ∃ e, expectSoiMarker s = .error e s ∧ e ≠ .command := by
  rw [expectSoiMarker, run_checkState_bind]
  split
  swap
  · exact .inr ⟨_, rfl, by decide⟩
  rw [run_get_bind]
  rcases memRead_cases s.br.ptr.toNat s with hr | hr
  swap
  · exact .inr ⟨_, run_bind_error s hr, by decide⟩
  rw [run_bind_ok s hr, run_check_bind]
  split
  swap
  · exact .inr ⟨_, rfl, by decide⟩
  rcases memRead_cases (s.br.ptr.toNat + 1) s with hr | hr
  swap
  · exact .inr ⟨_, run_bind_error s hr, by decide⟩
  rw [run_bind_ok s hr, run_check_bind]
  split
  swap
  · exact .inr ⟨_, rfl, by decide⟩
  exact .inl rfl

theorem setPstate_self {p : ParserState} {s : State} (h : s.pstate = p) : setPstate p s = s := by
  rw [← h]
  rfl

/-- Before SOI the next marker is SOI itself, or the error of its absence. -/
theorem fetchMarker_expectSoi_ok {s t : State} (hp : s.pstate = .expectSoi)
    (h : expectSoiMarker s = .ok () (setPstate .readingTables t)) (ht : t.pstate = s.pstate) :
    fetchMarker .header s = .ok 0xD8#8 t := by
  simp only [fetchMarker, if_pos hp, h]
  exact congrArg _ (setPstate_self (ht.trans hp))

theorem fetchMarker_expectSoi_error {s t : State} {e : ErrCode} (hp : s.pstate = .expectSoi)
    (h : expectSoiMarker s = .error e t) : fetchMarker .header s = .error e t := by
  simp only [fetchMarker, if_pos hp, h]

/-- PARSEHDR is its start and then its markers, SOI the first of them (45 R600). -/
theorem doParsehdr_parsesTo {s : State} (hbusy : s.status.busy = true) (hword : decodeCommand s.cmdL = .ok .parsehdr) :
    ParsesTo (parseStart s) (finish (doParsehdr s)) := by
  have hreader : markerReader (parseStart s) = some .header := by simp only [markerReader, parseStart_cmdL, hword]
  have hnext := nextMarkerRun_eq hreader
  rw [doParsehdr, finish_onError, run_update_bind]
  rcases expectSoiMarker_cases (parseStart s) with hsoi | ⟨e, hsoi, he⟩
  · rw [fetchMarker_expectSoi_ok rfl hsoi rfl] at hnext
    rw [run_bind_ok _ hsoi, run_get_bind]
    exact parsesTo_next hbusy hnext (headerLoop_parsesTo _ hbusy hreader (.inl rfl) (Nat.lt_succ_self _))
  · rw [fetchMarker_expectSoi_error rfl hsoi, fetchedMarkerRun, endMarker_error he] at hnext
    rw [run_bind_error _ hsoi]
    exact parsesTo_complete hbusy hnext

/-! ### The marker of a checkpoint (45 R610, R615) -/

/-- A checkpoint: the fetch `m` of its marker behind the dropped padding bits, and what it does with the code byte. -/
theorem checkpoint_fetchedMarkerRun {r : MarkerReader} {m : Eng Byte} {k : Byte → Eng Unit} (hm : SparesCommand m)
    (hstate : ∀ p, Keeps (fun u => u.pstate = p) m) (hk : ∀ c, SparesCommand (k c))
    (hevent : ∀ c, markerEvent r c = (do
      checkInScan
      k c
      pure true)) (s : State) :
    finish ((do
      checkInScan
      onError (setPstate .failed) do
        update dropPadding
        let c ← m
        k c : Eng Unit) s)
      = fetchedMarkerRun r ((do
        checkInScan
        update dropPadding
        m : Eng Byte) s) := by
  by_cases hscan : s.pstate = .inScan
  swap
  · have hfail : decide (s.pstate = .inScan) = false := decide_eq_false hscan
    rw [checkInScan, run_checkState_fail s hfail, run_checkState_fail s hfail]
    rfl
  have hpass : decide (s.pstate = .inScan) = true := decide_eq_true hscan
  rw [checkInScan, run_checkState_pass s hpass, run_checkState_pass s hpass, finish_onError, run_update_bind, run_update_bind]
  cases hr : m (dropPadding s) with
  | error e t =>
    rw [run_bind_error _ hr, fetchedMarkerRun, endMarker_error (hm.ne hr)]
    rfl
  | ok c t =>
    have ht : decide (t.pstate = .inScan) = true :=
      decide_eq_true ((hstate .inScan).of_ok (s := dropPadding s) hscan hr)
    rw [run_bind_ok _ hr, fetchedMarkerRun, hevent, checkInScan, run_checkState_pass t ht]
    cases hc : k c t with
    | ok _ v =>
      rw [run_bind_ok t hc]
      rfl
    | error e v =>
      rw [run_bind_error t hc, endMarker_error ((hk c).ne hc)]
      rfl

/-- RSTCHK is the one marker it reads (45 R610). -/
theorem doRstchk_nextMarkerRun {s : State} (hr : markerReader s = some .restart) :
    finish (doRstchk s) = nextMarkerRun s :=
  (checkpoint_fetchedMarkerRun spares_nextMarker (fun p => keeps_nextMarker (bytesClosed_pstate p)) spares_restartCase
    (fun _ => rfl) s).trans (nextMarkerRun_eq hr).symm

/-- EOICHK is the one marker it reads (45 R615). -/
theorem doEoichk_nextMarkerRun {s : State} (hr : markerReader s = some .imageEnd) :
    finish (doEoichk s) = nextMarkerRun s :=
  (checkpoint_fetchedMarkerRun (spares_replaceError (by decide) _)
    (fun p => keeps_replaceError (keeps_nextMarker (bytesClosed_pstate p))) spares_endCase
    (fun _ => rfl) s).trans (nextMarkerRun_eq hr).symm

/-! ### A marker that stands at BR_PTR (45 R581, R600) -/

theorem run_nextByte {s : State} (e : ErrCode) (hlt : s.br.ptr.toNat < s.br.lim.toNat) (hl : s.br.lim.toNat ≤ s.memBytes) :
    nextByte e s = .ok (readByte s s.br.ptr.toNat) (advanceReader 1 s) := by
  rw [nextByte, run_checkState_pass s (decide_eq_true hlt), run_get_bind, run_bind_ok s (run_memRead s (by omega))]
  rfl

theorem advanceReader_advanceReader (m n : Nat) (s : State) :
    advanceReader n (advanceReader m s) = advanceReader (m + n) s := by
  simp only [advanceReader, BitVec.add_assoc, BitVec.ofNat_add]

/-- The two bytes of a marker stand at BR_PTR, inside the input. -/
structure MarkerAt (s : State) (c : Byte) : Prop where
  room : s.br.ptr.toNat + 2 ≤ s.br.lim.toNat
  lim : s.br.lim.toNat ≤ s.memBytes
  first : readByte s s.br.ptr.toNat = 0xFF#8
  code : readByte s (s.br.ptr.toNat + 1) = c

/-- NEXTMARKER on a marker without fill bytes (45 R581). -/
theorem run_nextMarker {s : State} {c : Byte} (h : MarkerAt s c) (hc : c ≠ 0xFF#8) :
    nextMarker s = .ok c (advanceReader 2 s) := by
  obtain ⟨hroom, hl, hfirst, hcode⟩ := h
  have hptr : (advanceReader 1 s).br.ptr.toNat = s.br.ptr.toNat + 1 := pointer_add_ofNat_toNat (lim := s.br.lim) (by omega)
  have hsecond : nextByte .noEoi (advanceReader 1 s) = .ok c (advanceReader 2 s) := by
    rw [run_nextByte (s := advanceReader 1 s) .noEoi (by rw [hptr]; exact hroom) hl, hptr, advanceReader_advanceReader]
    exact congrArg (fun b => EStateM.Result.ok b (advanceReader 2 s)) hcode
  obtain ⟨n, hn⟩ : ∃ n, bytesLeft (advanceReader 1 s) = n + 1 := by
    refine ⟨s.br.lim.toNat - s.br.ptr.toNat - 2, ?_⟩
    unfold bytesLeft
    rw [hptr]
    change s.br.lim.toNat - _ = _
    omega
  rw [nextMarker, run_bind_ok s (run_nextByte .noEoi (by omega) hl), hfirst, decide_eq_true rfl, run_check_true, run_get_bind, hn,
    codeAfterFill, run_bind_ok _ hsecond, if_neg hc]
  rfl

/-- SOI at BR_PTR (45 R600). -/
theorem run_expectSoiMarker {s : State} (h : MarkerAt s 0xD8#8) :
    expectSoiMarker s = .ok () (setPstate .readingTables (advanceReader 2 s)) := by
  obtain ⟨hroom, hl, hfirst, hcode⟩ := h
  rw [expectSoiMarker, run_checkState_pass s (decide_eq_true hroom), run_get_bind,
    run_bind_ok s (run_memRead s (by omega)), hfirst, decide_eq_true rfl, run_check_true,
    run_bind_ok s (run_memRead s (by omega)), hcode, decide_eq_true rfl, run_check_true]
  rfl

/-- FF is no code byte of a marker (30 R240). -/
theorem ne_ff_of_decodeMarkerCode {c : Byte} {i : Instr} (h : decodeMarkerCode c = .ok i) : c ≠ 0xFF#8 := by
  rintro rfl
  cases h

/-- The marker at BR_PTR is what a header parse fetches. -/
theorem fetchMarker_header {s : State} {c : Byte} (h : MarkerAt s c) (hc : c ≠ 0xFF#8)
    (hs : ReadsTables s ∨ (s.pstate = .expectSoi ∧ c = 0xD8#8)) : fetchMarker .header s = .ok c (advanceReader 2 s) := by
  rcases hs with hs | ⟨hp, rfl⟩
  · rw [fetchMarker_readsTables hs, run_nextMarker h hc]
  · exact fetchMarker_expectSoi_ok hp (run_expectSoiMarker h) rfl

/-- The marker at BR_PTR is what a checkpoint fetches, behind the dropped padding bits. -/
theorem fetchMarker_checkpoint {r : MarkerReader} {s : State} {c : Byte} (hr : r = .restart ∨ r = .imageEnd)
    (h : MarkerAt s c) (hc : c ≠ 0xFF#8) (hp : s.pstate = .inScan) :
    fetchMarker r s = .ok c (advanceReader 2 (dropPadding s)) := by
  have hnext : nextMarker (dropPadding s) = .ok c (advanceReader 2 (dropPadding s)) :=
    run_nextMarker (s := dropPadding s) ⟨h.room, h.lim, h.first, h.code⟩ hc
  have hpass : decide (s.pstate = .inScan) = true := decide_eq_true hp
  rcases hr with rfl | rfl
  · simp only [fetchMarker]
    rw [checkInScan, run_checkState_pass s hpass, run_update_bind, hnext]
  · simp only [fetchMarker]
    rw [checkInScan, run_checkState_pass s hpass, run_update_bind, run_replaceError, hnext]

/-- Settles O7: the loop of PARSEHDR marker by marker, the one marker of each checkpoint, and what is fetched where a marker
stands at BR_PTR. -/
theorem stepRunsTheMarkersOfAParse : Obligations.StepRunsTheMarkersOfAParse := by
  intro s rest hbusy hok
  obtain ⟨-, hlim, -⟩ := hok
  have hstep {i : Instr} (hi : decodeCommand s.cmdL = .ok i) :
      step { s with agenda := .engine :: rest } = exec i { s with agenda := rest } :=
    engineMove_busy (s := { s with agenda := rest }) hbusy hi
  refine ⟨fun hi => ?_, fun hi => ?_, fun c i hroom hfirst hcode hdec => ⟨?_, ?_⟩⟩
  · obtain ⟨n, hn, hend⟩ := doParsehdr_parsesTo (s := { s with agenda := rest }) hbusy hi
    exact ⟨n, hn, (hstep hi).trans (congrArg _ hend)⟩
  · rcases hi with hi | hi
    · have hr : markerReader { s with agenda := rest } = some .restart := by simp only [markerReader, hi]
      exact (hstep hi).trans (congrArg _ (doRstchk_nextMarkerRun hr))
    · have hr : markerReader { s with agenda := rest } = some .imageEnd := by simp only [markerReader, hi]
      exact (hstep hi).trans (congrArg _ (doEoichk_nextMarkerRun hr))
  · intro hhead
    obtain ⟨hr, hs⟩ : markerReader s = some .header ∧ (ReadsTables s ∨ (s.pstate = .expectSoi ∧ c = 0xD8#8)) := by
      rcases hhead with ⟨hr, hs⟩ | ⟨hr, hs⟩
      · exact ⟨hr, .inl hs⟩
      · exact ⟨hr, .inr hs⟩
    exact exec_fetched hr (fetchMarker_header ⟨hroom, hlim, hfirst, hcode⟩ (ne_ff_of_decodeMarkerCode hdec) hs) hdec
  · rintro ⟨hr, hp⟩
    obtain ⟨r, hr, hr'⟩ : ∃ r, markerReader s = some r ∧ (r = .restart ∨ r = .imageEnd) := by
      rcases hr with hr | hr
      · exact ⟨_, hr, .inl rfl⟩
      · exact ⟨_, hr, .inr rfl⟩
    exact exec_fetched hr (fetchMarker_checkpoint hr' ⟨hroom, hlim, hfirst, hcode⟩ (ne_ff_of_decodeMarkerCode hdec) hp) hdec

end Sys2Proof.Machine
end

section
/-! The encodings: a command word and its fields, the two directions of the round trip, the encoding examples (30 R200 to
R204, R240, R241, R252). -/

namespace Sys2Proof.Machine
open Sys2Proof.Laws

/-! ### A command word and its fields (30 R200) -/

section CommandWord
variable (op : Byte) (d src : Slot) (t c : BitVec 2) (x : BitVec 4)

@[simp] theorem fieldOp_commandWord : fieldOp (commandWord op d src t c x) = op := BitVec.extractLsb'_append_eq_right

@[simp] theorem fieldD_commandWord : fieldD (commandWord op d src t c x) = d := by
  unfold fieldD commandWord
  rw [BitVec.extractLsb'_append_eq_of_le (by decide)]
  exact BitVec.extractLsb'_append_eq_right

@[simp] theorem fieldS_commandWord : fieldS (commandWord op d src t c x) = src := by
  unfold fieldS commandWord
  iterate 3 rw [BitVec.extractLsb'_append_eq_of_le (by decide)]
  exact BitVec.extractLsb'_append_eq_right

@[simp] theorem fieldT_commandWord : fieldT (commandWord op d src t c x) = t := by
  unfold fieldT commandWord
  iterate 5 rw [BitVec.extractLsb'_append_eq_of_le (by decide)]
  exact BitVec.extractLsb'_append_eq_right

@[simp] theorem fieldC_commandWord : fieldC (commandWord op d src t c x) = c := by
  unfold fieldC commandWord
  iterate 6 rw [BitVec.extractLsb'_append_eq_of_le (by decide)]
  exact BitVec.extractLsb'_append_eq_right

@[simp] theorem fieldX_commandWord : fieldX (commandWord op d src t c x) = x := by
  unfold fieldX commandWord
  iterate 7 rw [BitVec.extractLsb'_append_eq_of_le (by decide)]
  exact BitVec.extractLsb'_append_eq_right

/-- A word is its fields with its reserved bits between and above them. -/
theorem word_eq_fields (w : Word) :
    w.extractLsb' 24 8 ++ fieldX w ++ fieldC w ++ fieldT w ++ w.extractLsb' 15 1 ++ fieldS w ++ w.extractLsb' 11 1
      ++ fieldD w ++ fieldOp w = w := by
  simp only [fieldX, fieldC, fieldT, fieldS, fieldD, fieldOp, BitVec.extractLsb'_append_extractLsb'_eq_extractLsb']
  exact BitVec.extractLsb'_eq_self

end CommandWord

/-- A part of a word that a mask covers is 0 where the masked word is. -/
theorem extract_eq_zero_of_and_eq_zero {w m : Word} (k n : Nat) (h : w &&& m = 0#32)
    (hm : m.extractLsb' k n = BitVec.allOnes n) : w.extractLsb' k n = 0#n := by
  have hk := congrArg (BitVec.extractLsb' k n) h
  rwa [BitVec.extractLsb'_and, hm, BitVec.and_allOnes, BitVec.extractLsb'_zero] at hk

/-- A word whose reserved bits are 0 is the command word of its fields. -/
theorem commandWord_fields {w : Word} (h : w &&& reservedMask = 0#32) :
    commandWord (fieldOp w) (fieldD w) (fieldS w) (fieldT w) (fieldC w) (fieldX w) = w := by
  conv_rhs => rw [← word_eq_fields w]
  rw [extract_eq_zero_of_and_eq_zero 24 8 h rfl, extract_eq_zero_of_and_eq_zero 15 1 h rfl,
    extract_eq_zero_of_and_eq_zero 11 1 h rfl]
  rfl

/-- A word whose reserved bits are 0 is 0 under a mask when each of its fields is. -/
theorem and_eq_zero_iff_fields {w m : Word} (h : w &&& reservedMask = 0#32) :
    w &&& m = 0#32 ↔ fieldOp w &&& fieldOp m = 0#8 ∧ fieldD w &&& fieldD m = 0#3 ∧ fieldS w &&& fieldS m = 0#3
      ∧ fieldT w &&& fieldT m = 0#2 ∧ fieldC w &&& fieldC m = 0#2 ∧ fieldX w &&& fieldX m = 0#4 := by
  simp only [fieldOp, fieldD, fieldS, fieldT, fieldC, fieldX, ← BitVec.extractLsb'_and]
  constructor
  · intro hz
    simp only [hz, BitVec.extractLsb'_zero, and_self]
  · rintro ⟨hop, hd, hs, ht, hc, hx⟩
    have hres : (w &&& m) &&& reservedMask = 0#32 := by
      rw [BitVec.and_assoc, BitVec.and_comm m, ← BitVec.and_assoc, h, BitVec.zero_and]
    rw [← commandWord_fields hres, fieldOp, hop, fieldD, hd, fieldS, hs, fieldT, ht, fieldC, hc, fieldX, hx]
    rfl

/-! ### The fields a command leaves unused (30 R201, R203) -/

section Masks

theorem and_seven (y : Slot) : y &&& 7#3 = y := BitVec.and_allOnes

theorem and_three (y : BitVec 2) : y &&& 3#2 = y := BitVec.and_allOnes

theorem and_fifteen (y : BitVec 4) : y &&& 15#4 = y := BitVec.and_allOnes

variable {w : Word} (h : w &&& reservedMask = 0#32)
include h

theorem unusedAll_iff :
    w &&& unusedAll = 0#32 ↔ fieldD w = 0#3 ∧ fieldS w = 0#3 ∧ fieldT w = 0#2 ∧ fieldC w = 0#2 ∧ fieldX w = 0#4 := by
  rw [and_eq_zero_iff_fields h]
  simp [unusedAll, fieldOp, fieldD, fieldS, fieldT, fieldC, fieldX, and_seven, and_three, and_fifteen]

theorem unusedDS_iff : w &&& unusedDS = 0#32 ↔ fieldT w = 0#2 ∧ fieldC w = 0#2 ∧ fieldX w = 0#4 := by
  rw [and_eq_zero_iff_fields h]
  simp [unusedDS, fieldOp, fieldD, fieldS, fieldT, fieldC, fieldX, and_three, and_fifteen]

theorem unusedDST_iff : w &&& unusedDST = 0#32 ↔ fieldC w = 0#2 ∧ fieldX w = 0#4 := by
  rw [and_eq_zero_iff_fields h]
  simp [unusedDST, fieldOp, fieldD, fieldS, fieldT, fieldC, fieldX, and_three, and_fifteen]

theorem unusedT_iff : w &&& unusedT = 0#32 ↔ fieldD w = 0#3 ∧ fieldS w = 0#3 ∧ fieldC w = 0#2 ∧ fieldX w = 0#4 := by
  rw [and_eq_zero_iff_fields h]
  simp [unusedT, fieldOp, fieldD, fieldS, fieldT, fieldC, fieldX, and_seven, and_three, and_fifteen]

theorem unusedTX_iff : w &&& unusedTX = 0#32 ↔ fieldD w = 0#3 ∧ fieldS w = 0#3 ∧ fieldC w = 0#2 := by
  rw [and_eq_zero_iff_fields h]
  simp [unusedTX, fieldOp, fieldD, fieldS, fieldT, fieldC, fieldX, and_seven, and_three]

theorem unusedSCT_iff : w &&& unusedSCT = 0#32 ↔ fieldD w = 0#3 ∧ fieldX w = 0#4 := by
  rw [and_eq_zero_iff_fields h]
  simp [unusedSCT, fieldOp, fieldD, fieldS, fieldT, fieldC, fieldX, and_seven, and_fifteen]

theorem unusedDCT_iff : w &&& unusedDCT = 0#32 ↔ fieldS w = 0#3 ∧ fieldX w = 0#4 := by
  rw [and_eq_zero_iff_fields h]
  simp [unusedDCT, fieldOp, fieldD, fieldS, fieldT, fieldC, fieldX, and_seven, and_fifteen]

end Masks

/-! ### The two directions of the round trip (30 R200, R203, R240, R241) -/

theorem accept_eq_ok_iff {w unused : Word} {i j : Instr} : accept w unused i = .ok j ↔ w &&& unused = 0#32 ∧ i = j := by
  unfold accept
  split <;> simp [*]

/-- The words that give a command are its words: its opcode, its fields, and 0 in the others (30 R203). -/
theorem encode_eq_of_decodeCommand {w : Word} {i : Instr} (h : decodeCommand w = .ok i) : encode i = .command w := by
  unfold decodeCommand at h
  split at h
  case isFalse => cases h
  next hres =>
    unfold decodeByOpcode at h
    split at h
    case h_27 => cases h
    all_goals
      next hop =>
      obtain ⟨hm, rfl⟩ := accept_eq_ok_iff.1 h
      simp only [unusedAll_iff hres, unusedDS_iff hres, unusedDST_iff hres, unusedT_iff hres, unusedTX_iff hres,
        unusedSCT_iff hres, unusedDCT_iff hres] at hm
      simpa only [encode, hop, hm] using congrArg Encoding.command (commandWord_fields hres)

/-- A command word's fields alone decide whether it decodes. -/
theorem decodeCommand_commandWord (op : Byte) (d src : Slot) (t c : BitVec 2) (x : BitVec 4) :
    decodeCommand (commandWord op d src t c x) = decodeByOpcode (commandWord op d src t c x) :=
  if_pos (commandWord_reserved op d src t c x)

/-- The code bytes that give a marker are its code byte (30 R241). -/
theorem encode_eq_of_decodeMarkerCode {c : Byte} {i : Instr} (h : decodeMarkerCode c = .ok i) :
    encode i = .marker (0xFF#8 ++ c) := by
  have byCode {b : Byte} (hb : b = c) : Encoding.marker (0xFF#8 ++ b) = .marker (0xFF#8 ++ c) := by rw [hb]
  unfold decodeMarkerCode at h
  split at h
  case h_27 =>
    iterate 12
      obtain ⟨hc, h⟩ | h := ok_of_ite h
      · cases h
        exact byCode (append_low_of_high hc)
    cases h
  all_goals
    cases h
    rfl

/-- Two bytes decode where the first is FF and the second is a code byte (30 R240). -/
theorem decode_marker_eq_ok_iff {w : Half} {i : Instr} :
    decode (.marker w) = .ok i ↔ w.extractLsb' 8 8 = 0xFF#8 ∧ decodeMarkerCode (w.extractLsb' 0 8) = .ok i := by
  simp only [decode, decodeMarkerBytes]
  split
  · next hff => cases decodeMarkerCode (w.extractLsb' 0 8) <;> simp [hff, Except.map]
  · next hff => simp [hff, Except.map]

/-- FF and a code byte decode to the marker of the code byte. -/
theorem decode_marker {c : Byte} {i : Instr} (h : decodeMarkerCode c = .ok i) : decode (.marker (0xFF#8 ++ c)) = .ok i := by
  refine decode_marker_eq_ok_iff.2 ⟨BitVec.extractLsb'_append_eq_left, ?_⟩
  rw [BitVec.extractLsb'_append_eq_right]
  exact h

/-- Settles O2, by the opcode's row of the map for a word, by the code byte's row for a marker. -/
theorem encodeOfDecodeIsIdentity : Obligations.EncodeOfDecodeIsIdentity := by
  intro e i h
  cases e with
  | command w => exact encode_eq_of_decodeCommand h
  | marker w =>
    obtain ⟨hff, hc⟩ := decode_marker_eq_ok_iff.1 h
    rw [encode_eq_of_decodeMarkerCode hc, append_low_of_high hff]

/-- Settles O1: a command word gives back its fields, and is 0 under the mask of the fields its opcode leaves unused; a
marker's code byte falls under its own row and no earlier one. -/
theorem decodeOfEncodeIsIdentity : Obligations.DecodeOfEncodeIsIdentity := by
  intro i
  cases i
  case nop | predclr | bwinit | bwflush | close | brinit | bralign | fdct | idct | quant | dequant | zigzag | unzigzag
      | qbuild | qload | henc | hdec | hload | cconv | upscc | hdrw | parsehdr | rstchk | eoichk | encode | decode =>
    simp [decode, encode, decodeCommand_commandWord, decodeByOpcode, accept, commandWord_reserved, unusedAll_iff,
      unusedDS_iff, unusedDST_iff, unusedT_iff, unusedTX_iff, unusedSCT_iff, unusedDCT_iff]
  case rstn n | appn n | jpgnF0 n | jpgnF8 n | jpgnFC n | res02 n | res04 n | res08 n | res10 n | res20 n | res40 n
      | res80 n =>
    refine decode_marker ?_
    revert n
    decide
  all_goals exact decode_marker rfl

/-- Settles O3: each word is evaluated. -/
theorem sampleWordsDecode : Obligations.SampleWordsDecode := by
  unfold Obligations.SampleWordsDecode
  decide

end Sys2Proof.Machine
end

section
/-! Illegal command words and illegal fields complete with ERR_COMMAND (30 R201, R204, R205, R210, R215). -/

namespace Sys2Proof.Machine
open Sys2Proof.Laws

/-! ### Illegal fields (30 R201, R205, R210, R215) -/

/-- A body that raises an error completes with it, its changes kept (60 R755). -/
theorem runCommand_error {x : Eng Unit} {s t : State} {e : ErrCode} (h : x s = .error e t) :
    runCommand x s = .next (complete (some e) t) := by
  simp only [runCommand, h, finish]

section IllegalFields
variable (s : State)

theorem run_doQbuild_illegal {x : BitVec 4} (h : decide (x.toNat < 4) = false) (t : BitVec 2) (a : Word) :
    doQbuild t x a s = .error .command s := by
  simp only [doQbuild, h, run_check_false]

theorem run_doHenc_illegal {c t : BitVec 2} (h : (c ≠ 3#2 && decide (t.toNat < 2)) = false) (src : Slot) :
    doHenc src c t s = .error .command s := by
  unfold doHenc
  by_cases hc : c = 3#2
  · subst hc
    rfl
  · have ht : decide (t.toNat < 2) = false := by simpa [hc] using h
    cases componentOf c with
    | none => rfl
    | some k => simp only [ht, run_check_false]

theorem run_doHdec_illegal (d : Slot) (t : BitVec 2) : doHdec d 3#2 t s = .error .command s := rfl

theorem run_doHload_illegal {t : BitVec 2} {x : BitVec 4} (h : (decide (t.toNat < 2) && decide (x.toNat < 2)) = false)
    (a : Word) : doHload t x a s = .error .command s := by
  unfold doHload
  rw [Bool.and_comm, h, run_check_false]

theorem run_doCconv_illegal {t : BitVec 2} {x : BitVec 4} (h : legalFormat x (subsamplingOf t) = none)
    (base dims pos : Word) : doCconv t x base dims pos s = .error .command s := by
  simp only [doCconv, h, run_raise]

theorem run_doUpscc_illegal {t : BitVec 2} {x : BitVec 4}
    (h : ((decide (t = 1#2) || decide (t = 2#2)) && decide (x.toNat < 2)) = false) (out dims pos : Word) :
    doUpscc t x out dims pos s = .error .command s := by
  unfold doUpscc
  rw [run_check_bind, run_check_bind]
  split
  · next hx =>
    have ht : (decide (t = 1#2) || decide (t = 2#2)) = false := by simpa only [hx, Bool.and_true] using h
    simp only [ht, Bool.false_eq_true, if_false]
  · rfl

end IllegalFields

/-- A command with an illegal field completes with ERR_COMMAND, the state as it was otherwise. -/
theorem exec_illegalField {i : Instr} (h : i.wf = false) (s : State) :
    exec i s = .next (complete (some .command) s) := by
  cases i
  case qbuild t x => exact runCommand_error (run_doQbuild_illegal s h t _)
  case henc src c t => exact runCommand_error (run_doHenc_illegal s h src)
  case hdec d c t =>
    obtain rfl : c = 3#2 := by simpa [Instr.wf] using h
    exact runCommand_error (run_doHdec_illegal s d t)
  case hload t x => exact runCommand_error (run_doHload_illegal s h _)
  case cconv t x =>
    have hnone : legalFormat x (subsamplingOf t) = none := by simpa [Instr.wf] using h
    exact runCommand_error (run_doCconv_illegal s hnone _ _ _)
  case upscc t x => exact runCommand_error (run_doUpscc_illegal s h _ _ _)
  all_goals cases h

/-- Settles O5: the command's own check of the field is its first. -/
theorem illegalFieldsRaiseErrCommand : Obligations.IllegalFieldsRaiseErrCommand := fun _ s h => exec_illegalField h s

/-! ### Illegal words (30 R201, R204) -/

theorem getLsbD_eq_false_of_and_eq_zero {w m : Word} {k : Nat} (h : w &&& m = 0#32) (hm : m.getLsbD k = true) :
    w.getLsbD k = false := by
  have hk := congrArg (BitVec.getLsbD · k) h
  simpa only [BitVec.getLsbD_and, hm, Bool.and_true, BitVec.getLsbD_zero] using hk

/-- An opcode stands in one row of the map (30 R203). -/
theorem opcodeMap_row_unique : ∀ r ∈ opcodeMap, ∀ q ∈ opcodeMap, q.op = r.op → q = r := by decide

/-- What makes a command word with an assigned opcode illegal: a field its row leaves unused, or C = 3. -/
theorem illegalField_of_illegalWord {r : OpcodeRow} {op : Byte} {d src : Slot} {t c : BitVec 2} {x : BitVec 4}
    (h : illegalWord (commandWord op d src t c x))
    (hrow : opcodeMap.find? (fun q => decide (q.op = op)) = some r) :
    (r.d = false ∧ d ≠ 0#3) ∨ (r.s = false ∧ src ≠ 0#3) ∨ (r.t = false ∧ t ≠ 0#2) ∨ (r.c = false ∧ c ≠ 0#2)
      ∨ (r.x = false ∧ x ≠ 0#4) ∨ (r.c = true ∧ c = 3#2) := by
  have hr := List.mem_of_find?_eq_some hrow
  obtain rfl : r.op = op := of_decide_eq_true (List.find?_some (p := fun q : OpcodeRow => decide (q.op = op)) hrow)
  have hres := commandWord_reserved r.op d src t c x
  rcases h with h11 | h15 | h24 | hnone | ⟨q, hq, hop, hfield⟩
  · rw [getLsbD_eq_false_of_and_eq_zero hres rfl] at h11
    cases h11
  · rw [getLsbD_eq_false_of_and_eq_zero hres rfl] at h15
    cases h15
  · exact absurd (extract_eq_zero_of_and_eq_zero 24 8 hres rfl) h24
  · exact absurd (fieldOp_commandWord ..).symm (hnone r hr)
  · obtain rfl := opcodeMap_row_unique r hr q hq (hop.trans (fieldOp_commandWord ..))
    have hd : BitVec.extractLsb' 8 3 (commandWord q.op d src t c x) = d := fieldD_commandWord ..
    have hs : BitVec.extractLsb' 12 3 (commandWord q.op d src t c x) = src := fieldS_commandWord ..
    have ht : BitVec.extractLsb' 16 2 (commandWord q.op d src t c x) = t := fieldT_commandWord ..
    have hc : BitVec.extractLsb' 18 2 (commandWord q.op d src t c x) = c := fieldC_commandWord ..
    have hx : BitVec.extractLsb' 20 4 (commandWord q.op d src t c x) = x := fieldX_commandWord ..
    rwa [hd, hs, ht, hc, hx] at hfield

/-- An illegal word that decodes has an illegal field: C = 3 (30 R201). -/
theorem wf_eq_false_of_illegalWord {w : Word} {i : Instr} (hdec : decodeCommand w = .ok i) (hw : illegalWord w) :
    i.wf = false := by
  obtain ⟨v, hv⟩ := encode_of_decodeCommand hdec
  have hw : ∀ u, encode i = .command u → illegalWord u := fun u hu =>
    Encoding.command.inj ((encode_eq_of_decodeCommand hdec).symm.trans hu) ▸ hw
  cases i
  case henc src c t =>
    have hc : c = 3#2 := by simpa using illegalField_of_illegalWord (hw _ rfl) rfl
    simp [Instr.wf, hc]
  case hdec d c t =>
    have hc : c = 3#2 := by simpa using illegalField_of_illegalWord (hw _ rfl) rfl
    simp [Instr.wf, hc]
  case nop | predclr | bwinit | bwflush | close | brinit | bralign | fdct | idct | quant | dequant | zigzag | unzigzag
      | qbuild | qload | hload | cconv | upscc | hdrw | parsehdr | rstchk | eoichk | encode | decode =>
    exact absurd (illegalField_of_illegalWord (hw _ rfl) rfl) (by simp)
  all_goals cases hv

/-- Settles O4: the word does not decode, or it decodes to a command whose field C is illegal. -/
theorem illegalWordsRaiseErrCommand : Obligations.IllegalWordsRaiseErrCommand := by
  intro s hagenda hbusy hw
  have hstep : step s = engineMove s := by simp only [step, hagenda]
  rw [hstep]
  cases hdec : decodeCommand s.cmdL with
  | ok i =>
    rw [engineMove_busy hbusy hdec]
    exact exec_illegalField (wf_eq_false_of_illegalWord hdec hw) s
  | error e =>
    simp only [engineMove, hbusy, if_true, hdec]
    rfl

end Sys2Proof.Machine
end

section
/-! The codes of a valid Huffman table (43 R451, R452, R473). -/

namespace Sys2Proof.Machine

/-! ### A bit string that starts another, as a fact about numbers -/

/-- A bit string of m bits that starts one of n bits is the quotient of the longer one's number. -/
theorem eq_add_of_bitsMsb_isStart {a b m n : Nat} (ha : a < 2 ^ m) (hb : b < 2 ^ n) (h : bitsMsb a m <+: bitsMsb b n) :
    m ≤ n ∧ ∃ r, r < 2 ^ (n - m) ∧ b = a * 2 ^ (n - m) + r := by
  obtain ⟨rest, h⟩ := h
  have hlen : rest.length = n - m := by
    have := congrArg List.length h
    simp only [List.length_append, bitsMsb_length] at this
    omega
  have hmn : m ≤ n := by
    simpa only [bitsMsb_length] using List.IsPrefix.length_le ⟨rest, h⟩
  refine ⟨hmn, bitsValue 0 rest, hlen ▸ bitsValue_lt rest, ?_⟩
  have hval := congrArg (bitsValue 0) h
  rwa [bitsValue_append, bitsValue_eq, bitsValue_bitsMsb, bitsValue_bitsMsb, Nat.mod_eq_of_lt ha, Nat.mod_eq_of_lt hb, hlen,
    eq_comm] at hval

/-! ### The order of the canonical codes -/

/-- Code word `c` stands before `d`: `d` is not shorter, and its code lies behind every continuation of `c`'s to its length. -/
def CodeBefore (c d : CodeWord) : Prop :=
  c.len ≤ d.len ∧ (c.code + 1) * 2 ^ (d.len - c.len) ≤ d.code ∧ d.code < 2 ^ d.len

theorem CodeBefore.code_lt {c d : CodeWord} (h : CodeBefore c d) : c.code < 2 ^ c.len := by
  obtain ⟨hlen, hle, hlt⟩ := h
  have : (c.code + 1) * 2 ^ (d.len - c.len) < 2 ^ c.len * 2 ^ (d.len - c.len) := by
    rw [← Nat.pow_add, Nat.add_sub_cancel' hlen]
    exact Nat.lt_of_le_of_lt hle hlt
  have := Nat.lt_of_mul_lt_mul_right this
  omega

theorem CodeBefore.not_isStart {c d : CodeWord} (h : CodeBefore c d) : ¬ bitsMsb c.code c.len <+: bitsMsb d.code d.len := by
  intro hp
  obtain ⟨-, r, hr, hd⟩ := eq_add_of_bitsMsb_isStart h.code_lt h.2.2 hp
  obtain ⟨-, hle, -⟩ := h
  rw [Nat.add_mul] at hle
  omega

theorem CodeBefore.not_isStart_symm {c d : CodeWord} (h : CodeBefore c d) :
    ¬ bitsMsb d.code d.len <+: bitsMsb c.code c.len := by
  intro hp
  have hcl := h.code_lt
  obtain ⟨hlen, hle, hlt⟩ := h
  obtain ⟨hlen', r, hr, hc⟩ := eq_add_of_bitsMsb_isStart hlt hcl hp
  have heq : c.len = d.len := Nat.le_antisymm hlen hlen'
  simp only [heq, Nat.sub_self, Nat.pow_zero, Nat.mul_one] at hle hr hc
  omega

/-- The codes of one length are consecutive from the first on (43 R451). -/
theorem mem_codesOfLength {len code : Nat} {vs : List Byte} {c : CodeWord} (h : c ∈ codesOfLength len code vs) :
    c.len = len ∧ code ≤ c.code ∧ c.code < code + vs.length := by
  induction vs generalizing code with
  | nil => cases h
  | cons v vs ih =>
    rw [List.length_cons]
    rcases List.mem_cons.1 h with rfl | h
    · exact ⟨rfl, Nat.le_refl _, by simp only; omega⟩
    · obtain ⟨hlen, hle, hlt⟩ := ih h
      exact ⟨hlen, by omega, by omega⟩

theorem codesOfLength_pairwise {len code : Nat} {vs : List Byte} (h : code + vs.length ≤ 2 ^ len) :
    (codesOfLength len code vs).Pairwise CodeBefore := by
  induction vs generalizing code with
  | nil => exact List.Pairwise.nil
  | cons v vs ih =>
    rw [List.length_cons] at h
    refine List.Pairwise.cons (fun d hd => ?_) (ih (by omega))
    obtain ⟨rfl, hle, hlt⟩ := mem_codesOfLength hd
    exact ⟨Nat.le_refl _, by simpa only [Nat.sub_self, Nat.pow_zero, Nat.mul_one] using hle, by omega⟩

/-- One length of the walk: its codes fit, and the walk goes on behind them (43 R451, R473). -/
theorem walkFrom_cons {len code n : Nat} {ns : List Nat} :
    walkFrom len code (n :: ns) = true ↔ code + n ≤ 2 ^ len ∧ walkFrom (len + 1) (2 * (code + n)) ns = true := by
  simp only [walkFrom, Bool.and_eq_true, decide_eq_true_eq]

/-- Every code of the walk from (len, code) on lies at or behind the continuations of `code` to its length. -/
theorem mem_canonicalFrom {len code : Nat} {ns : List Nat} {vs : List Byte} {c : CodeWord}
    (hw : walkFrom len code ns = true) (h : c ∈ canonicalFrom len code ns vs) :
    len ≤ c.len ∧ code * 2 ^ (c.len - len) ≤ c.code ∧ c.code < 2 ^ c.len := by
  induction ns generalizing len code vs with
  | nil => cases h
  | cons n ns ih =>
    obtain ⟨hfit, hw⟩ := walkFrom_cons.1 hw
    rcases List.mem_append.1 h with h | h
    · obtain ⟨rfl, hle, hlt⟩ := mem_codesOfLength h
      have := List.length_take_le n vs
      exact ⟨Nat.le_refl _, by simpa only [Nat.sub_self, Nat.pow_zero, Nat.mul_one] using hle, by omega⟩
    · obtain ⟨hlen, hle, hlt⟩ := ih hw h
      refine ⟨by omega, ?_, hlt⟩
      calc code * 2 ^ (c.len - len) = 2 * code * 2 ^ (c.len - (len + 1)) := by
            rw [show c.len - len = c.len - (len + 1) + 1 by omega, Nat.pow_succ]; ring
        _ ≤ 2 * (code + n) * 2 ^ (c.len - (len + 1)) := Nat.mul_le_mul_right _ (by omega)
        _ ≤ c.code := hle

theorem canonicalFrom_pairwise {len code : Nat} {ns : List Nat} {vs : List Byte} (hw : walkFrom len code ns = true) :
    (canonicalFrom len code ns vs).Pairwise CodeBefore := by
  induction ns generalizing len code vs with
  | nil => exact List.Pairwise.nil
  | cons n ns ih =>
    obtain ⟨hfit, hw⟩ := walkFrom_cons.1 hw
    have htake := List.length_take_le n vs
    refine List.pairwise_append.2 ⟨codesOfLength_pairwise (by omega), ih hw, fun c hc d hd => ?_⟩
    obtain ⟨rfl, -, hlt⟩ := mem_codesOfLength hc
    obtain ⟨hlen, hle, hd⟩ := mem_canonicalFrom hw hd
    refine ⟨by omega, ?_, hd⟩
    calc (c.code + 1) * 2 ^ (d.len - c.len) ≤ (code + n) * 2 ^ (d.len - c.len) := Nat.mul_le_mul_right _ (by omega)
      _ = 2 * (code + n) * 2 ^ (d.len - (c.len + 1)) := by
          rw [show d.len - c.len = d.len - (c.len + 1) + 1 by omega, Nat.pow_succ]; ring
      _ ≤ d.code := hle

/-- Settles O41: the codes stand in the order of `CodeBefore`, by induction over the walk's lengths, and no code
starts one behind it or before it. -/
theorem validTablesArePrefixFree : Obligations.ValidTablesArePrefixFree := by
  intro t hvalid _ i j hij
  have hwalk : walkFrom 1 0 t.bits = true := (Bool.and_eq_true_iff.1 hvalid).2
  have hord := List.pairwise_iff_getElem.1 (canonicalFrom_pairwise (vs := t.vals) hwalk)
  rcases Nat.lt_or_gt_of_ne (Fin.val_ne_of_ne hij) with h | h
  · exact (hord i j i.isLt j.isLt h).not_isStart
  · exact (hord j i j.isLt i.isLt h).not_isStart_symm

end Sys2Proof.Machine
end

section
/-! Markers by the place they stand in: those a header parse does not accept, and SOI, RSTn and EOI where the parse expects them
(30 R241; 45 R570, R600, R610, R615). -/

namespace Sys2Proof.Machine

/-! ### The codes a header parse rejects (30 R241, 45 R600) -/

/-- No code of the non-baseline markers is one of those the header parse asks for before them. -/
theorem accepts_none_of_nonBaseline : ∀ c : Byte, isNonBaseline c = true →
    isSkipped c = false ∧ c ≠ 0xDB#8 ∧ c ≠ 0xC4#8 ∧ c ≠ 0xDD#8 ∧ c ≠ 0xC0#8 := by decide

/-- A code byte of which 45 R600 has no case: no segment, not non-baseline, not SOS. -/
def isUnlisted (c : Byte) : Bool :=
  !isSkipped c && !isNonBaseline c && !decide (c ∈ [0xDB#8, 0xC4#8, 0xDD#8, 0xC0#8, 0xDA#8])

theorem headerCase_nonBaseline {c : Byte} (h : isNonBaseline c = true) (s : State) :
    headerCase c s = .error .notBaseline s := by
  obtain ⟨hskip, hdqt, hdht, hdri, hsof⟩ := accepts_none_of_nonBaseline c h
  simp [headerCase, hskip, hdqt, hdht, hdri, hsof, h]

theorem headerCase_unlisted {c : Byte} (h : isUnlisted c = true) (s : State) :
    headerCase c s = .error .unexpectedMarker s := by
  simp only [isUnlisted, Bool.and_eq_true, Bool.not_eq_true', decide_eq_false_iff_not, List.mem_cons, List.not_mem_nil, not_or,
    or_false] at h
  obtain ⟨⟨hskip, hbase⟩, hdqt, hdht, hdri, hsof, hsos⟩ := h
  simp [headerCase, hskip, hbase, hdqt, hdht, hdri, hsof, hsos]

theorem headerCase_secondSof0 {s : State} (h : s.pstate = .sof0Seen) :
    headerCase 0xC0#8 s = .error .unexpectedMarker s :=
  run_checkState_fail s (p := fun u => decide (u.pstate ≠ .sof0Seen)) (by simp only [h]; rfl) .unexpectedMarker _

theorem headerCase_sosBeforeSof0 {s : State} (h : s.pstate = .readingTables) :
    headerCase 0xDA#8 s = .error .unexpectedMarker s :=
  run_checkState_fail s (p := fun u => decide (u.pstate = .sof0Seen)) (by simp only [h]; rfl) .unexpectedMarker _

/-- A marker's exec is the event of the code byte of its words. -/
theorem exec_marker {i : Instr} {c : Byte} (hi : encode i = .marker (0xFF#8 ++ c)) (s : State) : exec i s = runMarker c s := by
  have hdec : decode (.marker (0xFF#8 ++ c)) = .ok i := hi ▸ decodeOfEncodeIsIdentity i
  obtain ⟨-, hc⟩ := decode_marker_eq_ok_iff.1 hdec
  rw [BitVec.extractLsb'_append_eq_right] at hc
  exact exec_of_decodeMarkerCode hc s

/-- A marker whose case in the header parse raises an error at once ends the parse with it, FAILED. -/
theorem exec_rejected {s : State} {i : Instr} {c : Byte} {e : ErrCode} (hs : readingHeader s)
    (hi : encode i = .marker (0xFF#8 ++ c)) (h : headerCase c s = .error e s) :
    exec i s = .next (complete (some e) (setPstate .failed s)) := by
  obtain ⟨hreader, hread⟩ := hs
  have he : e ≠ .command := (spares_headerCase c).ne h
  rw [exec_marker hi, runMarker_eq hreader]
  simp only [markerEvent, headerEvent_readsTables hread, h, endMarker_error he]

/-- Settles O56: the marker's case in the loop of PARSEHDR raises the error before it reads anything. -/
theorem headerParseRejectsOtherMarkers : Obligations.HeaderParseRejectsOtherMarkers := by
  intro s hs
  constructor
  · have reject {c : Byte} {i : Instr} (hi : encode i = .marker (0xFF#8 ++ c)) (hc : isNonBaseline c = true) :=
      exec_rejected hs hi (headerCase_nonBaseline hc s)
    intro i hi
    simp only [List.mem_cons, List.not_mem_nil, or_false] at hi
    rcases hi with rfl | rfl | rfl | rfl | rfl | rfl | rfl | rfl | rfl | rfl | rfl | rfl | rfl | rfl | rfl | rfl
    all_goals exact reject rfl rfl
  · have reject {c : Byte} {i : Instr} (hi : encode i = .marker (0xFF#8 ++ c)) (hc : isUnlisted c = true) :=
      exec_rejected hs hi (headerCase_unlisted hc s)
    rintro i (rfl | rfl | rfl | rfl | ⟨n, rfl⟩ | ⟨n, rfl⟩ | ⟨n, rfl⟩ | ⟨n, rfl⟩ | ⟨n, rfl⟩ | ⟨n, rfl⟩ | ⟨n, rfl⟩ | ⟨n, rfl⟩
      | ⟨n, rfl⟩ | ⟨n, rfl⟩ | ⟨n, rfl⟩ | ⟨rfl, hp⟩ | ⟨rfl, hp⟩)
    iterate 4
      · exact reject rfl rfl
    iterate 11
      · refine reject rfl ?_
        revert n
        decide
    · exact exec_rejected hs rfl (headerCase_secondSof0 hp)
    · exact exec_rejected hs rfl (headerCase_sosBeforeSof0 hp)

/-! ### SOI, RSTn and EOI in their place (30 R241; 45 R600, R610, R615) -/

/-- RSTn's code byte is D0 + n (30 R241). -/
theorem rstCode_toNat : ∀ n : BitVec 3, (0b11010#5 ++ n : Byte).toNat = 0xD0 + n.toNat := by decide

/-- RSTn's code byte is the one a restart check expects where n is RST_NEXT (45 R610). -/
theorem rstCode_expected_iff (n m : BitVec 3) : (0b11010#5 ++ n : Byte).toNat = 0xD0 + m.toNat ↔ n = m := by
  rw [rstCode_toNat, Nat.add_left_cancel_iff, BitVec.toNat_inj]

/-- In a scan the check for it passes (45 R610, R615). -/
theorem run_checkInScan_bind {α : Type} {s : State} (h : s.pstate = .inScan) (k : Unit → Eng α) :
    (checkInScan >>= k) s = k () s :=
  run_checkState_pass s (p := fun u => decide (u.pstate = .inScan)) (decide_eq_true h) _ k

/-- A restart check's marker event (45 R610). -/
theorem run_restartEvent {s : State} (h : s.pstate = .inScan) (c : Byte) :
    restartEvent c s = if c.toNat = 0xD0 + s.rstNext.toNat then .ok true (clearPreds { s with rstNext := s.rstNext + 1#3 })
      else .error .unexpectedMarker s := by
  unfold restartEvent
  rw [run_checkInScan_bind h, run_bind]
  unfold restartCase
  rw [run_checkState_bind]
  by_cases hc : c.toNat = 0xD0 + s.rstNext.toNat <;> simp [hc]

/-- EOI's event at the end check (45 R615). -/
theorem run_endEvent_eoi {s : State} (h : s.pstate = .inScan) : endEvent 0xD9#8 s = .ok true (setPstate .terminal s) :=
  run_checkInScan_bind h _

/-- Settles O49: each marker's event under the command that reads it. -/
theorem soiRstnAndEoiWhereExpected : Obligations.SoiRstnAndEoiWhereExpected := by
  intro s
  refine ⟨fun hr hp => ?_, fun hr hp n => ?_, fun hr hp => ?_⟩
  · rw [exec_marker (i := .soi) rfl, runMarker_eq hr]
    simp only [markerEvent, headerEvent, hp, if_true, endMarker]
    rfl
  · rw [exec_marker (i := .rstn n) rfl, runMarker_eq hr]
    simp only [markerEvent, run_restartEvent hp, rstCode_expected_iff]
    split <;> rfl
  · rw [exec_marker (i := .eoi) rfl, runMarker_eq hr]
    simp only [markerEvent, run_endEvent_eoi hp, endMarker]
    rfl

end Sys2Proof.Machine
end

section
/-! The block slots, and CCONV: its checks in their order, and the block each slot of the MCU gets (40 R306 to R308, R320). -/

namespace Sys2Proof.Machine

/-! ### Block slots (10 R55) -/

@[simp] theorem getBlk_setBlk_same (d : Slot) (b : Block) (s : State) : getBlk (setBlk d b s) d = b := by
  simp [getBlk]

@[simp] theorem getBlk_complete (e : Option ErrCode) (s : State) (d : Slot) : getBlk (complete e s) d = getBlk s d := rfl

theorem getBlk_setBlk_other {d d' : Slot} (h : d' ≠ d) (b : Block) (s : State) : getBlk (setBlk d b s) d' = getBlk s d' := by
  have hne : d.toNat ≠ d'.toNat := fun he => h (BitVec.eq_of_toNat_eq he.symm)
  simp [getBlk, Vector.getElem_set_ne _ _ hne]

/-- The (slot, component) pairs of an MCU use each slot once (10 R56). -/
theorem mcuBlocks_slots_nodup (ss : Subsampling) : ((mcuBlocks ss).map Prod.fst).Nodup := by cases ss <;> decide

/-- Luma block b stands in slot b (10 R56). -/
theorem luma_mem_mcuBlocks {ss : Subsampling} {b : Nat} (h : b < lumaH ss * lumaV ss) :
    (BitVec.ofNat 3 b, (0 : Fin 3)) ∈ mcuBlocks ss :=
  List.mem_append_left _ (List.mem_map.mpr ⟨b, List.mem_range.mpr h, rfl⟩)

/-- Cb stands in slot 4 and Cr in slot 5, unless the layout is 4:0:0 (10 R56). -/
theorem chroma_mem_mcuBlocks {ss : Subsampling} (h : ss ≠ .s400) :
    (4#3, (1 : Fin 3)) ∈ mcuBlocks ss ∧ (5#3, (2 : Fin 3)) ∈ mcuBlocks ss := by
  revert h
  cases ss <;> decide

/-- The number of a luma block fits a slot number. -/
theorem lumaSlot_toNat {ss : Subsampling} {b : Nat} (h : b < lumaH ss * lumaV ss) : (BitVec.ofNat 3 b).toNat = b := by
  have hle : lumaH ss * lumaV ss ≤ 4 := by cases ss <;> decide
  rw [BitVec.toNat_ofNat, Nat.mod_eq_of_lt (by omega)]

/-! ### The blocks CCONV writes (40 R320) -/

section WriteMcu
variable (s0 : State) (f : PixelFormat) (ss : Subsampling) (base w h mx my : Nat)

/-- CCONV changes slots only. -/
theorem writeMcu_eq (ps : List (Slot × Fin 3)) (s : State) :
    writeMcu s0 f ss base w h mx my ps s = { s with blk := (writeMcu s0 f ss base w h mx my ps s).blk } := by
  induction ps generalizing s with
  | nil => rfl
  | cons p ps ih => rw [writeMcu, ih]; rfl

theorem getBlk_writeMcu_other {ps : List (Slot × Fin 3)} {d : Slot} (hd : d ∉ ps.map Prod.fst) (s : State) :
    getBlk (writeMcu s0 f ss base w h mx my ps s) d = getBlk s d := by
  induction ps generalizing s with
  | nil => rfl
  | cons p ps ih =>
    rw [List.map_cons, List.mem_cons, not_or] at hd
    rw [writeMcu, ih hd.2, getBlk_setBlk_other hd.1]

/-- Where no slot is written twice, each one gets the block of its pair. -/
theorem getBlk_writeMcu {ps : List (Slot × Fin 3)} (hps : (ps.map Prod.fst).Nodup) {p : Slot × Fin 3} (hp : p ∈ ps)
    (s : State) : getBlk (writeMcu s0 f ss base w h mx my ps s) p.1 = mcuBlock s0 f ss base w h mx my p := by
  induction ps generalizing s with
  | nil => cases hp
  | cons q ps ih =>
    rw [List.map_cons, List.nodup_cons] at hps
    rcases List.mem_cons.mp hp with rfl | hp
    · rw [writeMcu, getBlk_writeMcu_other _ _ _ _ _ _ _ _ hps.1, getBlk_setBlk_same]
    · exact ih hps.2 hp _

/-- Entry 8·j + i of a luma block is its sample in column i and row j, less 128 (40 R308). -/
theorem lumaBlock_getElem (b : Nat) (i j : Fin 8) :
    (lumaBlock s0 f ss base w h mx my b)[8 * j.val + i.val]'(by omega)
      = wrap32 (lumaSample s0 f base w h (mcuW ss * mx + 8 * (b % lumaH ss) + i.val)
          (mcuH ss * my + 8 * (b / lumaH ss) + j.val) - 128) := by
  simp only [lumaBlock, Vector.getElem_ofFn, show (8 * j.val + i.val) % 8 = i.val by omega,
    show (8 * j.val + i.val) / 8 = j.val by omega]

theorem cbBlock_getElem (i j : Fin 8) :
    (cbBlock s0 f ss base w h mx my)[8 * j.val + i.val]'(by omega)
      = wrap32 ((chromaSample s0 f ss base w h mx my i.val j.val).y - 128) := by
  simp only [cbBlock, Vector.getElem_ofFn, show (8 * j.val + i.val) % 8 = i.val by omega,
    show (8 * j.val + i.val) / 8 = j.val by omega]

theorem crBlock_getElem (i j : Fin 8) :
    (crBlock s0 f ss base w h mx my)[8 * j.val + i.val]'(by omega)
      = wrap32 ((chromaSample s0 f ss base w h mx my i.val j.val).z - 128) := by
  simp only [crBlock, Vector.getElem_ofFn, show (8 * j.val + i.val) % 8 = i.val by omega,
    show (8 * j.val + i.val) / 8 = j.val by omega]

/-- The slot of luma block b after CCONV. -/
theorem getBlk_writeMcu_luma {b : Nat} (hb : b < lumaH ss * lumaV ss) (s : State) :
    getBlk (writeMcu s0 f ss base w h mx my (mcuBlocks ss) s) (BitVec.ofNat 3 b) = lumaBlock s0 f ss base w h mx my b := by
  rw [getBlk_writeMcu (p := (BitVec.ofNat 3 b, 0)) _ _ _ _ _ _ _ _ (mcuBlocks_slots_nodup ss) (luma_mem_mcuBlocks hb),
    mcuBlock, if_pos rfl, lumaSlot_toNat hb]

/-- The chroma slots after CCONV. -/
theorem getBlk_writeMcu_chroma (hss : ss ≠ .s400) (s : State) :
    getBlk (writeMcu s0 f ss base w h mx my (mcuBlocks ss) s) 4#3 = cbBlock s0 f ss base w h mx my
      ∧ getBlk (writeMcu s0 f ss base w h mx my (mcuBlocks ss) s) 5#3 = crBlock s0 f ss base w h mx my := by
  obtain ⟨hcb, hcr⟩ := chroma_mem_mcuBlocks hss
  exact ⟨getBlk_writeMcu _ _ _ _ _ _ _ _ (mcuBlocks_slots_nodup ss) hcb s,
    getBlk_writeMcu _ _ _ _ _ _ _ _ (mcuBlocks_slots_nodup ss) hcr s⟩

end WriteMcu

/-! ### CCONV -/

theorem exec_cconv (t : BitVec 2) (x : BitVec 4) (s : State) :
    exec (.cconv t x) s = runCommand (doCconv t x s.argL[0] s.argL[1] s.argL[2]) s := rfl

/-- The checks of an MCU position, in their order (60 R760). -/
theorem run_checkMcu_bind {α : Type} (ss : Subsampling) (w h mx my : Nat) (k : Unit → Eng α) (s : State) :
    (checkMcu ss w h mx my >>= k) s =
      if w = 0 ∨ h = 0 then .error .dimensions s
      else if w ≤ mx * mcuW ss ∨ h ≤ my * mcuH ss then .error .command s
      else k () s := by
  simp only [checkMcu, bind_assoc, run_check_bind, Bool.and_eq_true, decide_eq_true_eq]
  by_cases h0 : w = 0 ∨ h = 0
  · rw [if_pos h0, if_neg (by omega)]
  · rw [if_neg h0, if_pos (by omega)]
    by_cases hout : w ≤ mx * mcuW ss ∨ h ≤ my * mcuH ss
    · rw [if_pos hout, if_neg (by omega)]
    · rw [if_neg hout, if_pos (by omega)]

/-- CCONV of a legal pair: the checks in their order, then the blocks of the MCU (40 R320, 60 R760). -/
theorem run_doCconv {t : BitVec 2} {x : BitVec 4} {f : PixelFormat} (hf : legalFormat x (subsamplingOf t) = some f)
    (base dims pos : Word) (s : State) :
    doCconv t x base dims pos s =
      if lowHalf dims = 0 ∨ highHalf dims = 0 then .error .dimensions s
      else if lowHalf dims ≤ lowHalf pos * mcuW (subsamplingOf t)
          ∨ highHalf dims ≤ highHalf pos * mcuH (subsamplingOf t) then .error .command s
      else if s.memBytes < base.toNat + srcSize f (lowHalf dims) (highHalf dims) then .error .bounds s
      else .ok () (writeMcu s f (subsamplingOf t) base.toNat (lowHalf dims) (highHalf dims) (lowHalf pos) (highHalf pos)
        (mcuBlocks (subsamplingOf t)) s) := by
  simp only [doCconv, hf, run_checkMcu_bind]
  congr 2
  by_cases hx : s.memBytes < base.toNat + srcSize f (lowHalf dims) (highHalf dims)
  · rw [if_pos hx, run_bind_error s (run_checkExtent_outside s _ _ hx)]
  · rw [if_neg hx, run_bind_ok s (run_checkExtent s _ _ (by omega)), run_update]

theorem succeeded_complete_none (s : State) : succeeded (complete none s) := ⟨rfl, rfl⟩

/-- Settles O43: `run_doCconv` branch by branch, and the block each slot gets. -/
theorem cconvExtractsTheMcu : Obligations.CconvExtractsTheMcu := by
  intro tt x s ss base w h mx my
  constructor
  · intro hf
    rw [exec_cconv, runCommand_error (run_doCconv_illegal s hf _ _ _)]
  intro f hf
  have hrun : doCconv tt x s.argL[0] s.argL[1] s.argL[2] s =
      if w = 0 ∨ h = 0 then .error .dimensions s
      else if w ≤ mx * mcuW ss ∨ h ≤ my * mcuH ss then .error .command s
      else if s.memBytes < base + srcSize f w h then .error .bounds s
      else .ok () (writeMcu s f ss base w h mx my (mcuBlocks ss) s) := run_doCconv hf _ _ _ s
  rw [exec_cconv, runCommand, hrun]
  refine ⟨fun h0 => ?_, fun ⟨hw, hh, hin⟩ => ?_, fun ⟨hx, hy, hsize⟩ => ?_, fun ⟨hx, hy, hsize⟩ => ?_⟩
  · rw [if_pos h0, finish]
  · rw [if_neg (by omega), if_pos hin, finish]
  · rw [if_neg (by omega), if_neg (by omega), if_pos hsize, finish]
  · rw [if_neg (by omega), if_neg (by omega), if_neg (by omega), finish]
    refine ⟨_, rfl, succeeded_complete_none _, fun b i j hb => ?_, fun hss i j => ?_⟩
    · simp only [getBlk_complete, getBlk_writeMcu_luma _ _ _ _ _ _ _ _ hb, lumaBlock_getElem]
    · simp only [getBlk_complete, getBlk_writeMcu_chroma _ _ _ _ _ _ _ _ hss, cbBlock_getElem, crBlock_getElem, and_self]

end Sys2Proof.Machine
end

section
/-! CCONV reads the source image only: the blocks of an MCU are the same in two states that hold the same image (40 R304, R306,
R320). -/

namespace Sys2Proof.Machine

/-- The image at `src` is the same in `u` as in `s`. -/
def SameImage (f : PixelFormat) (src w h : Nat) (s u : State) : Prop :=
  ∀ a, src ≤ a → a < src + srcSize f w h → ReadsAs s a u

/-- The place of column x in row y of a w × h plane lies in the plane. -/
theorem planeIndex_lt {w h x y : Nat} (hx : x < w) (hy : y < h) : y * w + x < w * h := by
  have : (y + 1) * w ≤ h * w := Nat.mul_le_mul_right w hy
  rw [Nat.succ_mul] at this
  rw [Nat.mul_comm w h]
  omega

/-- The same with the clamping of 40 R306. -/
theorem clampedIndex_lt {w h : Nat} (hw : 0 < w) (hh : 0 < h) (x y : Nat) : min y (h - 1) * w + min x (w - 1) < w * h :=
  planeIndex_lt (by omega) (by omega)

section Congr
variable {f : PixelFormat} {src w h : Nat} {s u : State} (hsame : SameImage f src w h s u)
include hsame

theorem sampleAt_congr {a : Nat} (h1 : src ≤ a) (h2 : a < src + srcSize f w h) : sampleAt u a = sampleAt s a := by
  rw [sampleAt, sampleAt, hsame a h1 h2]

/-- A packed pixel's bytes lie in the image (40 R300 to R304). -/
theorem packedPixel_congr {i : Nat} (hi : i < w * h) : packedPixel u f src i = packedPixel s f src i := by
  have hb {a : Nat} (h1 : src ≤ a) (h2 : a < src + srcSize f w h) := hsame a h1 h2
  have hs {a : Nat} (h1 : src ≤ a) (h2 : a < src + srcSize f w h) := sampleAt_congr hsame h1 h2
  have h2 : 2 * w * h = 2 * (w * h) := Nat.mul_assoc ..
  have h3 : 3 * w * h = 3 * (w * h) := Nat.mul_assoc ..
  have h4 : 4 * w * h = 4 * (w * h) := Nat.mul_assoc ..
  cases f with
  | rgb24 | bgr24 | rgb32 =>
    simp only [srcSize] at hs
    simp only [packedPixel]
    congr 1 <;> exact hs (by omega) (by omega)
  | rgb565 =>
    simp only [srcSize] at hb
    simp only [packedPixel]
    rw [hb (a := src + 2 * i) (by omega) (by omega), hb (a := src + 2 * i + 1) (by omega) (by omega)]
  | yuv420p | yuv422p | yuv444p => rfl

variable (hw : 0 < w) (hh : 0 < h)
include hw hh

theorem pixelAt_congr (x y : Nat) : pixelAt u f src w h x y = pixelAt s f src w h x y :=
  packedPixel_congr hsame (clampedIndex_lt hw hh x y)

theorem clusterPixels_congr (ss : Subsampling) (x y : Nat) :
    clusterPixels u f ss src w h x y = clusterPixels s f ss src w h x y := by
  simp only [clusterPixels, pixelAt_congr hsame hw hh]

/-- The first plane of a planar image, of w × h bytes (40 R301). -/
theorem lumaSample_congr (x y : Nat) : lumaSample u f src w h x y = lumaSample s f src w h x y := by
  unfold lumaSample
  split
  · rw [pixelAt_congr hsame hw hh]
  · next hf =>
    have hlt := clampedIndex_lt hw hh x y
    have hsize : w * h ≤ srcSize f w h := by
      cases f with
      | rgb24 | bgr24 | rgb565 | rgb32 => exact absurd rfl hf
      | yuv420p | yuv422p | yuv444p => exact Nat.le_add_right _ _
    exact sampleAt_congr hsame (by omega) (by omega)

/-- The two chroma planes behind it (40 R301). -/
theorem chromaSample_congr (ss : Subsampling) (mx my i j : Nat) :
    chromaSample u f ss src w h mx my i j = chromaSample s f ss src w h mx my i j := by
  unfold chromaSample
  split
  · rw [clusterPixels_congr hsame hw hh]
  · next hf =>
    have hplanes : 0 < chromaW f w ∧ 0 < chromaH f h
        ∧ srcSize f w h = w * h + 2 * (chromaW f w * chromaH f h) := by
      cases f with
      | rgb24 | bgr24 | rgb565 | rgb32 => exact absurd rfl hf
      | yuv420p | yuv422p | yuv444p =>
        simp only [chromaW, chromaH, srcSize, and_true]
        omega
    obtain ⟨hcw, hch, hsize⟩ := hplanes
    have hlt := clampedIndex_lt hcw hch (8 * mx + i) (8 * my + j)
    dsimp only
    congr 1 <;> exact sampleAt_congr hsame (by omega) (by omega)

/-- The blocks of an MCU from the image. -/
theorem mcuBlock_congr (ss : Subsampling) (mx my : Nat) (p : Slot × Fin 3) :
    mcuBlock u f ss src w h mx my p = mcuBlock s f ss src w h mx my p := by
  simp only [mcuBlock, lumaBlock, cbBlock, crBlock, lumaSample_congr hsame hw hh, chromaSample_congr hsame hw hh]

end Congr

end Sys2Proof.Machine
end

section
/-! How many bits a block takes, and the room the bit writer needs for them (43 R450, R455, R460, R480). -/

namespace Sys2Proof.Machine

/-! ### The length of a block's bits (43 R480) -/

theorem len_lt_of_mem_canonicalFrom {len code : Nat} {ns : List Nat} {vs : List Byte} {c : CodeWord}
    (h : c ∈ canonicalFrom len code ns vs) : c.len < len + ns.length := by
  induction ns generalizing len code vs with
  | nil => cases h
  | cons n ns ih =>
    rw [List.length_cons]
    rcases List.mem_append.1 h with h | h
    · have hlen := (mem_codesOfLength h).1
      omega
    · have hlt := ih h
      omega

/-- A code is no longer than the longest length of its table (43 R451). -/
theorem codeBits_length_le (t : HuffSpec) (sym : Byte) : (codeBits t sym).length ≤ t.bits.length := by
  unfold codeBits
  split
  · next c hc =>
    have hlt := len_lt_of_mem_canonicalFrom (List.mem_of_find?_eq_some hc)
    rw [bitsMsb_length]
    omega
  · exact Nat.zero_le _

theorem dcCode_length_le (chroma : Bool) (sym : Byte) : (codeBits (dcTable chroma) sym).length ≤ 16 := by
  cases chroma <;> exact codeBits_length_le _ sym

theorem acCode_length_le (chroma : Bool) (sym : Byte) : (codeBits (acTable chroma) sym).length ≤ 16 := by
  cases chroma <;> exact codeBits_length_le _ sym

theorem category_le {v : Int} {n : Nat} (h : v.natAbs < 2 ^ n) : category v ≤ n := by
  unfold category bitlen
  split
  · exact Nat.zero_le n
  · next h0 => exact (Nat.log2_lt h0).mpr h

@[simp] theorem magnitudeBits_length (v : Int) (n : Nat) : (magnitudeBits v n).length = n := bitsMsb_length _ _

theorem clamp_natAbs_le (x : Int) (n : Nat) : (clamp x (-n) n).natAbs ≤ n := by
  unfold clamp
  split
  · omega
  · split <;> omega

theorem dcBits_length_le (chroma : Bool) (diff : Int) : (dcBits chroma (clamp diff (-2047) 2047)).length ≤ 27 := by
  have hcode := dcCode_length_le chroma (BitVec.ofNat 8 (category (clamp diff (-2047) 2047)))
  have habs : (clamp diff (-2047) 2047).natAbs ≤ 2047 := clamp_natAbs_le diff 2047
  have hcat := category_le (n := 11) (Nat.lt_of_le_of_lt habs (by decide))
  rw [dcBits, List.length_append, magnitudeBits_length]
  omega

theorem zrlBits_length_le (chroma : Bool) (n : Nat) : (zrlBits chroma n).length ≤ 16 * n := by
  induction n with
  | zero => exact Nat.le_refl 0
  | succ n ih =>
    have hcode := acCode_length_le chroma 0xF0#8
    rw [zrlBits, List.length_append]
    omega

theorem acItemBits_length_le (chroma : Bool) (run : Nat) (v : Int) :
    (acItemBits chroma run (clamp v (-1023) 1023)).length ≤ run + 26 := by
  have hzrl := zrlBits_length_le chroma (run / 16)
  have hcode := acCode_length_le chroma (rsByte (run % 16) (category (clamp v (-1023) 1023)))
  have habs : (clamp v (-1023) 1023).natAbs ≤ 1023 := clamp_natAbs_le v 1023
  have hcat := category_le (n := 10) (Nat.lt_of_le_of_lt habs (by decide))
  rw [acItemBits, List.length_append, List.length_append, magnitudeBits_length]
  omega

/-- 26 bits per coefficient are enough: the run of zeros before one counts 16 bits each until it is coded. -/
theorem acBits_length_le (chroma : Bool) (run : Nat) (vs : List Int) :
    (acBits chroma run vs).length ≤ 16 * run + 26 * vs.length := by
  induction vs generalizing run with
  | nil =>
    have hcode := acCode_length_le chroma 0x00#8
    unfold acBits
    split
    · omega
    · exact Nat.zero_le _
  | cons v vs ih =>
    rw [acBits, List.length_cons]
    split
    · have hrest := ih (run + 1)
      omega
    · have hitem := acItemBits_length_le chroma run v
      have hrest := ih 0
      rw [List.length_append]
      omega

theorem acCoefficients_length (b : Block) : (acCoefficients b).length = 63 := by simp [acCoefficients]

/-- The longest a block can be: 27 bits for the DC difference, 26 for each AC coefficient. -/
theorem blockBits_length_le (chroma : Bool) (p : Int) (b : Block) : (blockBits chroma p b).length ≤ 1665 := by
  have hdc := dcBits_length_le chroma (b[0].toInt - p)
  have hac := acBits_length_le chroma 0 (acCoefficients b)
  rw [acCoefficients_length] at hac
  rw [blockBits, List.length_append]
  omega

theorem scanBits_length_le (p : Fin 3 → Int) (xs : List (Fin 3 × Block)) :
    (scanBits p xs).length ≤ 1665 * xs.length := by
  induction xs generalizing p with
  | nil => exact Nat.le_refl 0
  | cons x xs ih =>
    have hblock := blockBits_length_le (isChroma x.1) (p x.1) x.2
    have hrest := ih (fun c => if c = x.1 then (wrap16 x.2[0].toInt).toInt else p c)
    rw [scanBits, List.length_append, List.length_cons]
    omega

/-! ### The predictors behind the blocks of a scan (43 R480) -/

/-- The predictors after the blocks `xs` were coded. -/
def predsAfter : (Fin 3 → Int) → List (Fin 3 × Block) → Fin 3 → Int
  | p, [] => p
  | p, x :: xs => predsAfter (fun c => if c = x.1 then (wrap16 x.2[0].toInt).toInt else p c) xs

theorem scanBits_append (p : Fin 3 → Int) (xs ys : List (Fin 3 × Block)) :
    scanBits p (xs ++ ys) = scanBits p xs ++ scanBits (predsAfter p xs) ys := by
  induction xs generalizing p with
  | nil => rfl
  | cons x xs ih => rw [List.cons_append, scanBits, scanBits, ih, predsAfter, List.append_assoc]

theorem predsAfter_append (p : Fin 3 → Int) (xs ys : List (Fin 3 × Block)) :
    predsAfter p (xs ++ ys) = predsAfter (predsAfter p xs) ys := by
  induction xs generalizing p with
  | nil => rfl
  | cons x xs ih => rw [List.cons_append, predsAfter, predsAfter, ih]

/-! ### Room in bits (43 R460, R465) -/

theorem wholeBytes_length (bs : List Bool) : (wholeBytes bs).length = bs.length / 8 := by
  have h := congrArg List.length (wholeBytes_leftBits bs)
  rw [List.length_append, List.length_flatMap, leftBits_length] at h
  simp only [bitsMsb_length, List.map_const', List.sum_replicate, smul_eq_mul] at h
  omega

/-- Stuffing at most doubles the whole bytes. -/
theorem emittedBytes_length_le (w : BitWriter) (bs : List Bool) :
    (emittedBytes w bs).length ≤ 2 * ((w.cnt.toNat + bs.length) / 8) := by
  have h := stuffed_length_le (wholeBytes (pendingBits w ++ bs))
  rwa [wholeBytes_length, List.length_append, pendingBits_length] at h

theorem appended_cnt (bs : List Bool) (s : State) :
    (appended bs s).bw.cnt.toNat = (s.bw.cnt.toNat + bs.length) % 8 := by
  rw [appended, emitted_bw, BitVec.toNat_ofNat, leftBits_length, List.length_append, pendingBits_length]
  omega

/-- The bit writer is in order and has room for n more bits, each of them a quarter of a byte at most. -/
structure BitRoom (s : State) (n : Nat) : Prop where
  room : 4 * s.bw.ptr.toNat + s.bw.cnt.toNat + n ≤ 4 * s.bw.lim.toNat
  lim : s.bw.lim.toNat ≤ s.memBytes
  acc : s.bw.acc.toNat < 2 ^ s.bw.cnt.toNat

section BitRoom
variable {s : State} {n : Nat}

theorem BitRoom.mono (h : BitRoom s n) {m : Nat} (hm : m ≤ n) : BitRoom s m :=
  ⟨by have := h.room; omega, h.lim, h.acc⟩

theorem BitRoom.congr (h : BitRoom s n) {t : State} (hb : t.bw = s.bw) (hm : t.memBytes = s.memBytes) : BitRoom t n := by
  obtain ⟨hroom, hlim, hacc⟩ := h
  rw [← hb] at hroom hlim hacc
  exact ⟨hroom, hm ▸ hlim, hacc⟩

/-- Room for the bytes of a bit string and for k bytes more. -/
theorem hasRoom_of_bitRoom_add {bs : List Bool} {k : Nat} (h : BitRoom s (bs.length + 4 * k)) :
    hasRoom s ((emittedBytes s.bw bs).length + k) := by
  have hroom := h.room
  have hlen := emittedBytes_length_le s.bw bs
  exact ⟨by omega, h.lim⟩

theorem hasRoom_of_bitRoom {bs : List Bool} (h : BitRoom s bs.length) : hasRoom s (emittedBytes s.bw bs).length :=
  hasRoom_of_bitRoom_add (k := 0) h

/-- Appending bits takes their room. -/
theorem bitRoom_appended {bs : List Bool} (h : BitRoom s (bs.length + n)) : BitRoom (appended bs s) n := by
  have hroom := h.room
  have hlen := emittedBytes_length_le s.bw bs
  have hptr : (appended bs s).bw.ptr.toNat = s.bw.ptr.toNat + (emittedBytes s.bw bs).length :=
    ptr_add (hasRoom_of_bitRoom (h.mono (Nat.le_add_right _ _)))
  have hcnt := appended_cnt bs s
  refine ⟨?_, h.lim, appended_acc_lt bs s⟩
  rw [appended_bw_lim]
  omega

end BitRoom

end Sys2Proof.Machine
end

section
/-! Coding the blocks of a scan: one slot, one MCU, all MCUs of ENCODE (43 R480, 47 R680). -/

namespace Sys2Proof.Machine

/-! ### Bytes written at BW_PTR -/

/-- `v` is `u` after the bytes `out` were written at BW_PTR; BW_LIM, the quantization tables and the rest of LMEM are the
same. -/
structure Emits (u : State) (out : List Byte) (v : State) : Prop where
  mem : v.mem = (writeBytes u.bw.ptr.toNat out u).mem
  ptr : v.bw.ptr = u.bw.ptr + BitVec.ofNat 32 out.length
  lim : v.bw.lim = u.bw.lim
  memBytes : v.memBytes = u.memBytes
  undef : v.undef = u.undef
  qt : v.qt = u.qt
  rq : v.rq = u.rq
  qvalid : v.qvalid = u.qvalid

theorem emits_rawWritten (out : List Byte) (u : State) : Emits u out (rawWritten out u) :=
  ⟨rfl, rfl, rfl, rfl, rfl, rfl, rfl, rfl⟩

section Emits
variable {u v w : State} {out out' : List Byte} (h : Emits u out v)
include h

theorem Emits.getRq_eq : getRq v = getRq u := by
  funext t
  rw [getRq, getRq]
  simp only [h.rq]

theorem Emits.getQt_eq : getQt v = getQt u := by
  funext t
  rw [getQt, getQt]
  simp only [h.qt]

theorem Emits.qtValid_eq : qtValid v = qtValid u := by
  funext t
  rw [qtValid, qtValid]
  simp only [h.qvalid]

theorem Emits.readByte_eq (a : Nat) : readByte v a = readByte (writeBytes u.bw.ptr.toNat out u) a :=
  readByte_congr h.mem (h.undef.trans (writeBytes_undef ..).symm) a

/-- The bytes written are read back. -/
theorem Emits.readBytes_eq : readBytes v u.bw.ptr.toNat out.length = out :=
  (readBytes_congr _ _ fun a _ _ => h.readByte_eq a).trans (readBytes_writeBytes out _ u)

variable (hr : hasRoom u out.length)
include hr

/-- Bytes written after others stand behind them. -/
theorem Emits.trans (h' : Emits v out' w) : Emits u (out ++ out') w where
  mem := by
    rw [h'.mem, h.ptr, ptr_add hr, writeBytes_append]
    exact writeBytes_mem_congr _ _ h.mem
  ptr := by rw [h'.ptr, h.ptr, List.length_append, BitVec.ofNat_add, BitVec.add_assoc]
  lim := h'.lim.trans h.lim
  memBytes := h'.memBytes.trans h.memBytes
  undef := h'.undef.trans h.undef
  qt := h'.qt.trans h.qt
  rq := h'.rq.trans h.rq
  qvalid := h'.qvalid.trans h.qvalid

/-- Only addresses from BW_PTR up to BW_LIM are written, and BW_PTR moves up. -/
theorem Emits.outside {a : Nat} (ha : Outside a (writerFootprint u)) :
    ReadsAs u a v ∧ Outside a (writerFootprint v) := by
  have hfits := hr.1
  have hptr : v.bw.ptr.toNat = u.bw.ptr.toNat + out.length := by rw [h.ptr, ptr_add hr]
  simp only [Outside, writerFootprint, hptr, h.lim] at ha ⊢
  refine ⟨?_, by omega⟩
  rw [ReadsAs, h.readByte_eq]
  exact readByte_writeBytes_outside u (by omega)

end Emits

/-- The image and what the bit writer can still write do not overlap. -/
def ImageApart (f : PixelFormat) (src dims : Word) (u : State) : Prop :=
  ∀ a, src.toNat ≤ a → a < src.toNat + srcSize f (lowHalf dims) (highHalf dims) → Outside a (writerFootprint u)

/-- An image apart from the output stays, and stays apart. -/
theorem Emits.imageApart {u v : State} {out : List Byte} (h : Emits u out v) (hr : hasRoom u out.length) {f : PixelFormat}
    {src dims : Word} (ha : ImageApart f src dims u) :
    SameImage f src.toNat (lowHalf dims) (highHalf dims) u v ∧ ImageApart f src dims v :=
  ⟨fun a h1 h2 => (h.outside hr (ha a h1 h2)).1, fun a h1 h2 => (h.outside hr (ha a h1 h2)).2⟩

/-! ### Blocks coded one after another -/

/-- `v` is `u` after the blocks `xs` were coded: their bits are appended and the predictors moved on, and the slots may have
changed. -/
structure Coded (u : State) (xs : List (Fin 3 × Block)) (v : State) : Prop where
  state : v = { appended (scanBits (getPred u) xs) u with blk := v.blk, pred := v.pred }
  preds : getPred v = predsAfter (getPred u) xs

/-- Appending bits does not look at the slots and the predictors. -/
theorem appended_slots (bs : List Bool) (s : State) (b : Vector Block 8) (p : Vector Half 3) :
    appended bs { s with blk := b, pred := p } = { appended bs s with blk := b, pred := p } := by
  simp only [appended, emitted]
  rw [writeBytes_mem_congr (t := s)]
  rfl

/-- The bytes of the blocks are emitted. -/
theorem Coded.emits {u v : State} {xs : List (Fin 3 × Block)} (h : Coded u xs v) :
    Emits u (emittedBytes u.bw (scanBits (getPred u) xs)) v := by
  rw [h.state]
  exact ⟨rfl, rfl, rfl, rfl, rfl, rfl, rfl, rfl⟩

section Coded
variable {u v w : State} {xs ys : List (Fin 3 × Block)} (h : Coded u xs v)
include h

theorem Coded.bw : v.bw = (appended (scanBits (getPred u) xs) u).bw := by rw [h.state]

/-- What the blocks take of the room. -/
theorem Coded.bitRoom {n : Nat} (hr : BitRoom u (1665 * xs.length + n)) : BitRoom v n := by
  have hlen := scanBits_length_le (getPred u) xs
  exact (bitRoom_appended (hr.mono (by omega))).congr h.bw h.emits.memBytes

/-- What was coded after the blocks `xs` makes one scan with them. -/
theorem Coded.trans (hr : BitRoom u (1665 * xs.length)) (h' : Coded v ys w) : Coded u (xs ++ ys) w := by
  have hroom := hasRoom_of_bitRoom (hr.mono (scanBits_length_le (getPred u) xs))
  constructor
  · rw [h'.state, h.preds, h.state, appended_slots, appended_appended hroom, ← scanBits_append]
  · rw [h'.preds, h.preds, predsAfter_append]

end Coded

/-- Coding no block. -/
theorem coded_nil {u : State} (hr : BitRoom u 0) : Coded u [] u := by
  constructor
  · rw [scanBits, appended_nil hr.acc]
  · rfl

/-- The slots before do not matter. -/
theorem Coded.of_slots {u v : State} {b : Vector Block 8} {xs : List (Fin 3 × Block)}
    (h : Coded { u with blk := b } xs v) : Coded u xs v := by
  refine ⟨?_, h.preds⟩
  rw [h.state]
  exact congrArg (fun s : State => { s with blk := v.blk, pred := v.pred })
    (appended_slots (scanBits (getPred u) xs) u b u.pred)

/-! ### One block (43 R480) -/

theorem componentOf_val (c : Fin 3) : componentOf (BitVec.ofNat 2 c.val) = some c := by
  revert c
  decide

/-- The encoder set of a component's table is the chroma one for Cb and Cr (47 R680). -/
theorem componentTable_isChroma (c : Fin 3) :
    (componentTable c).toNat < 2 ∧ (componentTable c).getLsbD 0 = isChroma c := by
  revert c
  decide

theorem getPred_setPred (c : Fin 3) (v : Half) (s : State) :
    getPred (setPred c v s) = fun k => if k = c then v.toInt else getPred s k := by
  funext k
  by_cases hk : k = c
  · subst hk
    simp [getPred]
  · have hne : c.val ≠ k.val := fun he => hk (Fin.ext he.symm)
    simp [getPred, hk, Vector.getElem_set_ne _ _ hne]

/-- HENC with room codes the block of its slot. -/
theorem run_doHenc {u : State} (d : Slot) (c : Fin 3) (hr : BitRoom u 1665) :
    ∃ v, doHenc d (BitVec.ofNat 2 c.val) (componentTable c) u = .ok () v ∧ Coded u [(c, getBlk u d)] v ∧ v.blk = u.blk := by
  obtain ⟨ht, hchroma⟩ := componentTable_isChroma c
  have hbits : scanBits (getPred u) [(c, getBlk u d)] = blockBits (isChroma c) (getPred u c) (getBlk u d) :=
    List.append_nil _
  have hr' := hr.mono (blockBits_length_le (isChroma c) (getPred u c) (getBlk u d))
  have hput := run_putBits _ hr'.acc (hasRoom_of_bitRoom hr')
  refine ⟨setPred c (wrap16 (getBlk u d)[0].toInt)
    (appended (blockBits (isChroma c) (getPred u c) (getBlk u d)) u), ?_, ⟨?_, ?_⟩, rfl⟩
  · simp only [doHenc, componentOf_val, ht, decide_true, run_check_true, encodeBlock, run_get_bind, hchroma]
    rw [run_bind_ok u hput, run_update]
  · rw [hbits]
    rfl
  · rw [getPred_setPred]
    rfl

/-! ### One slot and one MCU (47 R680) -/

/-- A block of samples as ENCODE codes it (41 R362, R364; 42 R410). -/
def codedBlock (r : Vector Half 64) (b : Block) : Block := zigzagBlock (quantBlock r (fdctBlock b))

/-- Both tables of ENCODE are installed. -/
def TablesReady (s : State) : Prop := ∀ c : Fin 3, qtValid s (componentTable c) = true

theorem Emits.tablesReady {u v : State} {out : List Byte} (h : Emits u out v) (hu : TablesReady u) : TablesReady v := by
  rw [TablesReady, h.qtValid_eq]
  exact hu

theorem run_doQuant {s : State} (d src : Slot) {t : BitVec 2} (ht : qtValid s t = true) :
    doQuant d src t s = .ok () (setBlk d (quantBlock (getRq s t) (getBlk s src)) s) := by
  rw [doQuant, run_checkState_pass s ht, run_update]

theorem setBlk_setBlk (d : Slot) (b b' : Block) (s : State) : setBlk d b' (setBlk d b s) = setBlk d b' s := by
  simp [setBlk]

/-- A slot's block is transformed, quantized, put in zigzag order and coded. -/
theorem run_encodeSlot {u : State} (p : Slot × Fin 3) (hq : TablesReady u) (hr : BitRoom u 1665) :
    ∃ v, encodeSlot p u = .ok () v ∧ Coded u [(p.2, codedBlock (getRq u (componentTable p.2)) (getBlk u p.1))] v
      ∧ ∀ d, d ≠ p.1 → getBlk v d = getBlk u d := by
  obtain ⟨v, hrun, hcoded, hblk⟩ :=
    run_doHenc (u := setBlk p.1 (codedBlock (getRq u (componentTable p.2)) (getBlk u p.1)) u) p.1 p.2 (hr.congr rfl rfl)
  rw [getBlk_setBlk_same] at hcoded
  refine ⟨v, ?_, hcoded.of_slots, fun d hd => ?_⟩
  · have hquant := run_doQuant (s := setBlk p.1 (fdctBlock (getBlk u p.1)) u) p.1 p.1 (hq p.2)
    rw [getBlk_setBlk_same, setBlk_setBlk] at hquant
    rw [encodeSlot, doFdct, run_update_bind, run_bind_ok _ hquant, doZigzag, run_update_bind, getBlk_setBlk_same,
      setBlk_setBlk]
    exact hrun
  · rw [← getBlk_setBlk_other hd _ u, getBlk, hblk]
    rfl

/-- The slots of an MCU, each with its own block, one after another. -/
theorem run_encodeSlots {u : State} {qs : List (Slot × Fin 3)} (hqs : (qs.map Prod.fst).Nodup) (hq : TablesReady u)
    (hr : BitRoom u (1665 * qs.length)) :
    ∃ v, forEach qs encodeSlot u = .ok () v
      ∧ Coded u (qs.map fun q => (q.2, codedBlock (getRq u (componentTable q.2)) (getBlk u q.1))) v := by
  induction qs generalizing u with
  | nil => exact ⟨u, rfl, coded_nil hr⟩
  | cons q qs ih =>
    rw [List.map_cons, List.nodup_cons] at hqs
    rw [List.length_cons] at hr
    obtain ⟨v, hrun, hcoded, hblk⟩ := run_encodeSlot q hq (hr.mono (by omega))
    obtain ⟨w, hrun', hcoded'⟩ := ih hqs.2 (hcoded.emits.tablesReady hq)
      (hcoded.bitRoom (hr.mono (by rw [List.length_singleton]; omega)))
    refine ⟨w, by rw [run_forEach_cons, run_bind_ok u hrun, hrun'], ?_⟩
    have hsame : (qs.map fun q => (q.2, codedBlock (getRq v (componentTable q.2)) (getBlk v q.1)))
        = qs.map fun q => (q.2, codedBlock (getRq u (componentTable q.2)) (getBlk u q.1)) := by
      refine List.map_congr_left fun r hmem => ?_
      have hne : r.1 ≠ q.1 := fun he => hqs.1 (he ▸ List.mem_map_of_mem hmem)
      rw [hcoded.emits.getRq_eq, hblk r.1 hne]
    rw [hsame] at hcoded'
    exact hcoded.trans (hr.mono (by rw [List.length_singleton]; omega)) hcoded'

/-- An MCU has at most six blocks. -/
theorem mcuBlocks_length_le (ss : Subsampling) : (mcuBlocks ss).length ≤ 6 := by cases ss <;> decide

/-- The blocks ENCODE codes for the MCU at column p.1 and row p.2 of the image in `s` (47 R680). -/
def mcuSource (s : State) (f : PixelFormat) (ss : Subsampling) (src w h : Nat) (r : BitVec 2 → Vector Half 64)
    (p : Nat × Nat) : List (Fin 3 × Block) :=
  (mcuBlocks ss).map fun q => (q.2, codedBlock (r (componentTable q.2)) (mcuBlock s f ss src w h p.1 p.2 q))

/-- They are those of `sourceBlocks`, MCU by MCU. -/
theorem sourceBlocks_eq (s : State) (f : PixelFormat) (ss : Subsampling) (src w h : Nat) (r : BitVec 2 → Vector Half 64) :
    sourceBlocks s f ss src w h r
      = (mcuGrid (ceilDiv w (mcuW ss)) (ceilDiv h (mcuH ss))).flatMap (mcuSource s f ss src w h r) := rfl

theorem mcuSource_components (s : State) (f : PixelFormat) (ss : Subsampling) (src w h : Nat)
    (r : BitVec 2 → Vector Half 64) (p : Nat × Nat) :
    (mcuSource s f ss src w h r p).map Prod.fst = (mcuBlocks ss).map Prod.snd := by
  simp [mcuSource]

theorem mcuSource_congr {s u : State} {f : PixelFormat} {src w h : Nat} (hsame : SameImage f src w h s u) (hw : 0 < w)
    (hh : 0 < h) (ss : Subsampling) (r : BitVec 2 → Vector Half 64) :
    mcuSource u f ss src w h r = mcuSource s f ss src w h r := by
  funext p
  simp only [mcuSource, mcuBlock_congr hsame hw hh]

/-- Reading the same image, ENCODE codes the same blocks. -/
theorem sourceBlocks_congr {s u : State} {f : PixelFormat} {src w h : Nat} (hsame : SameImage f src w h s u) (hw : 0 < w)
    (hh : 0 < h) (ss : Subsampling) (r : BitVec 2 → Vector Half 64) :
    sourceBlocks u f ss src w h r = sourceBlocks s f ss src w h r := by
  rw [sourceBlocks_eq, sourceBlocks_eq, mcuSource_congr hsame hw hh]

theorem mcuSource_length_le (s : State) (f : PixelFormat) (ss : Subsampling) (src w h : Nat)
    (r : BitVec 2 → Vector Half 64) (p : Nat × Nat) : (mcuSource s f ss src w h r p).length ≤ 6 := by
  rw [mcuSource, List.length_map]
  exact mcuBlocks_length_le ss

theorem lowHalf_packHalves {a : Nat} (ha : a < 65536) (b : Nat) : lowHalf (packHalves a b) = a := by
  rw [lowHalf, packHalves, BitVec.toNat_ofNat]
  omega

theorem highHalf_packHalves {a b : Nat} (ha : a < 65536) (hb : b < 65536) : highHalf (packHalves a b) = b := by
  rw [highHalf, packHalves, BitVec.toNat_ofNat]
  omega

theorem lowHalf_lt (w : Word) : lowHalf w < 65536 := Nat.mod_lt _ (by decide)

theorem highHalf_lt (w : Word) : highHalf w < 65536 := by
  have := w.isLt
  unfold highHalf
  omega

theorem mcuW_pos (ss : Subsampling) : 0 < mcuW ss := by cases ss <;> decide

theorem mcuH_pos (ss : Subsampling) : 0 < mcuH ss := by cases ss <;> decide

section Mcus
variable {t : BitVec 2} {x : BitVec 4} {f : PixelFormat} {src dims : Word}

/-- The MCU position lies in the image (40 R320). -/
def McuInside (ss : Subsampling) (dims : Word) (p : Nat × Nat) : Prop :=
  p.1 * mcuW ss < lowHalf dims ∧ p.2 * mcuH ss < highHalf dims

/-- CCONV at a position in the image, as ENCODE gives it. -/
theorem run_doCconv_inside (hf : legalFormat x (subsamplingOf t) = some f) {p : Nat × Nat}
    (hp : McuInside (subsamplingOf t) dims p) {u : State}
    (hsrc : src.toNat + srcSize f (lowHalf dims) (highHalf dims) ≤ u.memBytes) :
    doCconv t x src dims (packHalves p.1 p.2) u
      = .ok () (writeMcu u f (subsamplingOf t) src.toNat (lowHalf dims) (highHalf dims) p.1 p.2
        (mcuBlocks (subsamplingOf t)) u) := by
  obtain ⟨hx, hy⟩ := hp
  have hx' := Nat.lt_of_le_of_lt (Nat.le_mul_of_pos_right p.1 (mcuW_pos (subsamplingOf t))) hx
  have hy' := Nat.lt_of_le_of_lt (Nat.le_mul_of_pos_right p.2 (mcuH_pos (subsamplingOf t))) hy
  have hw := lowHalf_lt dims
  have hh := highHalf_lt dims
  rw [run_doCconv hf, lowHalf_packHalves (by omega), highHalf_packHalves (by omega) (by omega),
    if_neg (by omega), if_neg (by omega), if_neg (by omega)]

/-- One MCU of ENCODE with room codes the blocks of its samples. -/
theorem run_encodeMcu (hf : legalFormat x (subsamplingOf t) = some f) {p : Nat × Nat}
    (hp : McuInside (subsamplingOf t) dims p) {u : State}
    (hsrc : src.toNat + srcSize f (lowHalf dims) (highHalf dims) ≤ u.memBytes) (hq : TablesReady u)
    (hr : BitRoom u 9990) :
    ∃ v, encodeMcu t x src dims p u = .ok () v
      ∧ Coded u (mcuSource u f (subsamplingOf t) src.toNat (lowHalf dims) (highHalf dims) (getRq u) p) v := by
  have hcconv := run_doCconv_inside hf hp hsrc
  have hnodup := mcuBlocks_slots_nodup (subsamplingOf t)
  have hlen := mcuBlocks_length_le (subsamplingOf t)
  have heq := writeMcu_eq u f (subsamplingOf t) src.toNat (lowHalf dims) (highHalf dims) p.1 p.2
    (mcuBlocks (subsamplingOf t)) u
  have hblk {q : Slot × Fin 3} (hmem : q ∈ mcuBlocks (subsamplingOf t)) :=
    getBlk_writeMcu u f (subsamplingOf t) src.toNat (lowHalf dims) (highHalf dims) p.1 p.2 hnodup hmem u
  generalize writeMcu u f (subsamplingOf t) src.toNat (lowHalf dims) (highHalf dims) p.1 p.2
    (mcuBlocks (subsamplingOf t)) u = u' at hcconv heq hblk
  have hq' : TablesReady u' := by rw [heq]; exact hq
  have hr' : BitRoom u' 9990 := hr.congr (by rw [heq]) (by rw [heq])
  obtain ⟨v, hrun, hcoded⟩ := run_encodeSlots hnodup hq' (hr'.mono (by omega))
  refine ⟨v, by rw [encodeMcu, run_bind_ok u hcconv, hrun], ?_⟩
  have hsame : ((mcuBlocks (subsamplingOf t)).map fun q =>
      (q.2, codedBlock (getRq u' (componentTable q.2)) (getBlk u' q.1)))
      = mcuSource u f (subsamplingOf t) src.toNat (lowHalf dims) (highHalf dims) (getRq u) p := by
    refine List.map_congr_left fun q hmem => ?_
    rw [hblk hmem, show getRq u' = getRq u by rw [heq]; rfl]
  rw [hsame, heq] at hcoded
  exact hcoded.of_slots

/-- The MCUs of ENCODE, one after another: their number and order are always the same; where the image is apart from the output,
their blocks are the image's. -/
theorem run_encodeMcus (hf : legalFormat x (subsamplingOf t) = some f) {ps : List (Nat × Nat)}
    (hps : ∀ p ∈ ps, McuInside (subsamplingOf t) dims p) {u : State}
    (hsrc : src.toNat + srcSize f (lowHalf dims) (highHalf dims) ≤ u.memBytes) (hq : TablesReady u)
    (hr : BitRoom u (9990 * ps.length)) :
    ∃ v xs, forEach ps (encodeMcu t x src dims) u = .ok () v ∧ Coded u xs v
      ∧ xs.map Prod.fst = scanComponents (subsamplingOf t) ps.length ∧ xs.length ≤ 6 * ps.length
      ∧ (ImageApart f src dims u →
        xs = ps.flatMap (mcuSource u f (subsamplingOf t) src.toNat (lowHalf dims) (highHalf dims) (getRq u))) := by
  induction ps generalizing u with
  | nil => exact ⟨u, [], rfl, coded_nil hr, rfl, Nat.le_refl 0, fun _ => rfl⟩
  | cons p ps ih =>
    rw [List.length_cons] at hr ⊢
    have hp := hps p (List.mem_cons_self ..)
    have hlen := mcuSource_length_le u f (subsamplingOf t) src.toNat (lowHalf dims) (highHalf dims) (getRq u) p
    obtain ⟨v, hrun, hcoded⟩ := run_encodeMcu hf hp hsrc hq (hr.mono (by omega))
    have hroom := hr.mono (m := 1665 * _) (Nat.le_trans (Nat.mul_le_mul_left 1665 hlen) (by omega))
    obtain ⟨w, xs, hrun', hcoded', hcomp, hxs, hapart⟩ := ih (u := v) (fun q hmem => hps q (List.mem_cons_of_mem p hmem))
      (hcoded.emits.memBytes ▸ hsrc) (hcoded.emits.tablesReady hq) (hcoded.bitRoom (hr.mono (by omega)))
    refine ⟨w, _, by rw [run_forEach_cons, run_bind_ok u hrun, hrun'], hcoded.trans hroom hcoded', ?_, ?_, fun ha => ?_⟩
    · rw [List.map_append, mcuSource_components, hcomp, scanComponents, scanComponents, List.replicate_succ, List.flatten_cons]
    · rw [List.length_append]
      omega
    · obtain ⟨hsame, ha'⟩ :=
        hcoded.emits.imageApart (hasRoom_of_bitRoom (hroom.mono (scanBits_length_le _ _))) ha
      obtain ⟨hx, hy⟩ := hp
      rw [hapart ha', hcoded.emits.getRq_eq, mcuSource_congr hsame (by omega) (by omega), List.flatMap_cons]

end Mcus

end Sys2Proof.Machine
end

section
/-! The frame of ENCODE: the header, the scan, EOI (44 R530 to R546; 47 R680). -/

namespace Sys2Proof.Machine

/-! ### The header (44 R530, R540) -/

@[simp] theorem zigzagBytes_length (e : Vector Byte 64) : (zigzagBytes e).length = 64 := by simp [zigzagBytes]

theorem dqtBytes_length (q0 q1 : Vector Byte 64) : (dqtBytes q0 q1).length = 134 := by
  simp [dqtBytes, be16Bytes]

theorem dhtBytes_length : dhtBytes.length = 420 := by decide +kernel

theorem headerBytes_length (ss : Subsampling) (w h : Nat) (q0 q1 : Vector Byte 64) :
    (headerBytes ss w h q0 q1).length = headerLength ss := by
  have hsegments : (sofBytes ss w h).length + (sosBytes ss).length = headerLength ss - 556 := by cases ss <;> rfl
  have hbound : 556 ≤ headerLength ss := by cases ss <;> decide
  rw [headerBytes, List.length_append, List.length_append, List.length_append, List.length_append, dqtBytes_length,
    dhtBytes_length]
  simp only [List.length_cons, List.length_nil]
  omega

theorem headerLength_le (ss : Subsampling) : headerLength ss ≤ 589 := by cases ss <;> decide

/-- HDRW with room at a byte boundary, both tables installed, the size not 0 (44 R540). -/
theorem run_doHdrw {u : State} (t : BitVec 2) {dims : Word} (hcnt : u.bw.cnt = 0#3) (hq : TablesReady u)
    (hw : lowHalf dims ≠ 0) (hh : highHalf dims ≠ 0) (hr : hasRoom u (headerLength (subsamplingOf t))) :
    doHdrw t dims u = .ok () (setRes0 (BitVec.ofNat 32 (headerLength (subsamplingOf t)))
      (rawWritten (headerBytes (subsamplingOf t) (lowHalf dims) (highHalf dims) (getQt u 0#2) (getQt u 1#2)) u)) := by
  have h0 : qtValid u 0#2 = true := hq 0
  have h1 : qtValid u 1#2 = true := hq 1
  rw [← headerBytes_length (subsamplingOf t) (lowHalf dims) (highHalf dims) (getQt u 0#2) (getQt u 1#2)] at hr
  rw [doHdrw, run_checkState_pass u (by simp [hcnt]), run_checkState_pass u (by simp [h0, h1]), run_check_bind,
    if_pos (by simp [hw, hh]), run_get_bind, run_bind_ok u (run_rawBytes _ hcnt hr), run_update]

/-! ### The end of the stream (43 R463; 44 R545) -/

/-- FLUSH leaves the bit writer at a byte boundary. -/
theorem appended_padBits_cnt (u : State) : (appended (padBits u.bw) u).bw.cnt = 0#3 := by
  apply BitVec.eq_of_toNat_eq
  have hlt := u.bw.cnt.isLt
  rw [appended_cnt, padBits, List.length_replicate]
  simp only [BitVec.toNat_ofNat]
  omega

/-- CLOSE with room: the pending bits padded, then FF D9 (44 R545). -/
theorem run_doClose {u : State} (ha : u.bw.acc.toNat < 2 ^ u.bw.cnt.toNat)
    (hr : hasRoom u ((emittedBytes u.bw (padBits u.bw)).length + 2)) :
    doClose u = .ok () (rawWritten [0xFF#8, 0xD9#8] (appended (padBits u.bw) u)) := by
  have hflush := run_flush ha ⟨by have := hr.1; omega, hr.2⟩
  have hraw := run_rawBytes [0xFF#8, 0xD9#8] (appended_padBits_cnt u) (hasRoom_appended hr)
  have hclose : doClose = (flush >>= fun _ => forEach [0xFF#8, 0xD9#8] rawByte) := by
    simp only [doClose, forEach, bind_pure_unit]
  rw [hclose, run_bind_ok u hflush, hraw]

/-- The bits of a scan and their padding from a byte boundary are its entropy-coded bytes (43 R463, R465). -/
theorem emittedBytes_scan (bs : List Bool) {u : State} (hcnt : u.bw.cnt = 0#3) :
    emittedBytes u.bw (bs ++ padBits (appended bs u).bw) = entropyBytes bs := by
  have hpending : pendingBits u.bw = [] := by
    rw [pendingBits, hcnt]
    rfl
  have hpad : (appended bs u).bw.cnt.toNat = bs.length % 8 := by simp [appended_cnt, hcnt]
  rw [emittedBytes, hpending, List.nil_append, padBits, hpad, entropyBytes]

/-- The blocks of a scan from a byte boundary with predictors 0, flushed and closed. -/
theorem Coded.close {u v : State} {xs : List (Fin 3 × Block)} (h : Coded u xs v) (hcnt : u.bw.cnt = 0#3)
    (hpred : getPred u = fun _ => 0) (hr : BitRoom u (1665 * xs.length + 15)) :
    ∃ t, doClose v = .ok () t ∧ Emits u (entropyBytes (scanBits (fun _ => 0) xs) ++ [0xFF#8, 0xD9#8]) t
      ∧ hasRoom u ((entropyBytes (scanBits (fun _ => 0) xs)).length + 2) := by
  have hlen := scanBits_length_le (getPred u) xs
  have hpadlen : (padBits v.bw).length ≤ 7 := by
    rw [padBits, List.length_replicate]
    omega
  have hbits := emittedBytes_scan (scanBits (getPred u) xs) hcnt
  rw [← h.bw, hpred] at hbits
  have hroom := hasRoom_of_bitRoom_add (bs := scanBits (fun _ => 0) xs ++ padBits v.bw) (k := 2)
    (hr.mono (by rw [List.length_append, ← hpred]; omega))
  rw [hbits] at hroom
  have hflushed : Emits u (entropyBytes (scanBits (fun _ => 0) xs)) (appended (padBits v.bw) v) := by
    have heq : appended (padBits v.bw) v
        = { appended (scanBits (fun _ => 0) xs ++ padBits v.bw) u with blk := v.blk, pred := v.pred } := by
      rw [← hpred, ← appended_appended (hasRoom_of_bitRoom (hr.mono (by omega))), ← appended_slots, ← h.state]
    rw [heq, ← hbits]
    exact ⟨rfl, rfl, rfl, rfl, rfl, rfl, rfl, rfl⟩
  have hv := h.bitRoom hr
  refine ⟨_, run_doClose hv.acc (hasRoom_of_bitRoom_add (hv.mono (by omega))),
    hflushed.trans ⟨by have := hroom.1; omega, hroom.2⟩ (emits_rawWritten _ _), hroom⟩

/-! ### ENCODE (47 R680) -/

/-- The positions ENCODE visits lie in the image (40 R321). -/
theorem mcuGrid_inside {ss : Subsampling} {dims : Word} {p : Nat × Nat}
    (hp : p ∈ mcuGrid (ceilDiv (lowHalf dims) (mcuW ss)) (ceilDiv (highHalf dims) (mcuH ss))) : McuInside ss dims p := by
  have hlt {a n m : Nat} (hm : 0 < m) (ha : a < ceilDiv n m) : a * m < n := by
    have h1 := Nat.mul_le_of_le_div m (a + 1) (n + m - 1) ha
    rw [Nat.succ_mul] at h1
    omega
  simp only [mcuGrid, List.mem_flatMap, List.mem_map, List.mem_range] at hp
  obtain ⟨my, hmy, mx, hmx, rfl⟩ := hp
  exact ⟨hlt (mcuW_pos ss) hmx, hlt (mcuH_pos ss) hmy⟩

theorem mcuGrid_length (nx ny : Nat) : (mcuGrid nx ny).length = nx * ny := by
  simp [mcuGrid, List.length_flatMap, Nat.mul_comm]

theorem run_doQbuild {x : BitVec 4} (hx : x.toNat < 4) (t : BitVec 2) (a : Word) (s : State) :
    doQbuild t x a s = .ok () (setRes0 (BitVec.ofNat 32 (buildScale (x.getLsbD 1) a))
      (installQt t (builtTable (x.getLsbD 0) (buildScale (x.getLsbD 1) a)) s)) := by
  rw [doQbuild, run_check_bind, if_pos (decide_eq_true hx), run_update_bind, run_update]

theorem run_doBwinit {s : State} {a n : Word} (h : a.toNat + n.toNat ≤ s.memBytes) :
    doBwinit a n s = .ok () { s with bw := { ptr := a, lim := a + n, acc := 0#8, cnt := 0#3 } } := by
  rw [doBwinit, run_bind_ok s (run_checkExtent s _ _ h), run_update]

/-- The setup of ENCODE: both tables installed, an empty bit writer on the output buffer, LMEM as before (47 R680). -/
theorem run_encodeSetup {s : State} {dst cap : Word} (scale : Nat) (h : dst.toNat + cap.toNat ≤ s.memBytes) :
    ∃ u, encodeSetup dst cap scale s = .ok () u ∧ TablesReady u
      ∧ u.bw = { ptr := dst, lim := dst + cap, acc := 0#8, cnt := 0#3 }
      ∧ u.mem = s.mem ∧ u.undef = s.undef ∧ u.memBytes = s.memBytes := by
  rw [encodeSetup, run_bind_ok s (run_doQbuild (by decide) _ _ _), run_bind_ok _ (run_doQbuild (by decide) _ _ _),
    run_update_bind, run_doBwinit (by exact h)]
  refine ⟨_, rfl, fun c => ?_, rfl, rfl, rfl, rfl⟩
  fin_cases c <;> simp [componentTable, qtValid]

/-- The state in which ENCODE's scan begins, behind the header `hdr` (47 R680). -/
def scanStart (hdr : List Byte) (u : State) : State := clearPreds (setRes0 (BitVec.ofNat 32 hdr.length) (rawWritten hdr u))

theorem emits_scanStart (hdr : List Byte) (u : State) : Emits u hdr (scanStart hdr u) :=
  ⟨rfl, rfl, rfl, rfl, rfl, rfl, rfl, rfl⟩

theorem getPred_scanStart (hdr : List Byte) (u : State) : getPred (scanStart hdr u) = fun _ => 0 := by
  funext c
  simp [scanStart, getPred, clearPreds]

/-- k bytes behind the header are room for 4·k bits of the scan. -/
theorem bitRoom_scanStart {hdr : List Byte} {u : State} {k : Nat} (hr : hasRoom u (hdr.length + k)) (hcnt : u.bw.cnt = 0#3)
    (hacc : u.bw.acc = 0#8) : BitRoom (scanStart hdr u) (4 * k) := by
  obtain ⟨hfits, hlim⟩ := hasRoom_rawWritten hr
  have hcnt' : (scanStart hdr u).bw.cnt = 0#3 := hcnt
  have hacc' : (scanStart hdr u).bw.acc = 0#8 := hacc
  refine ⟨?_, hlim, by rw [hcnt', hacc']; decide⟩
  rw [hcnt']
  change 4 * (rawWritten hdr u).bw.ptr.toNat + 0 + 4 * k ≤ 4 * (rawWritten hdr u).bw.lim.toNat
  omega

section EncodeFrame
variable {t : BitVec 2} {x : BitVec 4} {f : PixelFormat} {src dims : Word} {u : State}

/-- ENCODE from the header on, with room for the longest output, emits a complete frame (44 R546; 47 R680). -/
theorem run_encodeFrame (hf : legalFormat x (subsamplingOf t) = some f) (hw : lowHalf dims ≠ 0) (hh : highHalf dims ≠ 0)
    (hsrc : src.toNat + srcSize f (lowHalf dims) (highHalf dims) ≤ u.memBytes) (hq : TablesReady u)
    (hcnt : u.bw.cnt = 0#3) (hacc : u.bw.acc = 0#8) {n : Nat}
    (hn : n = ceilDiv (lowHalf dims) (mcuW (subsamplingOf t)) * ceilDiv (highHalf dims) (mcuH (subsamplingOf t)))
    (hr : hasRoom u (600 + 2500 * n)) :
    ∃ v xs, encodeFrame t x src dims u = .ok () v
      ∧ Emits u (frameBytes (subsamplingOf t) (lowHalf dims) (highHalf dims) (getQt u 0#2) (getQt u 1#2) xs) v
      ∧ hasRoom u (frameBytes (subsamplingOf t) (lowHalf dims) (highHalf dims) (getQt u 0#2) (getQt u 1#2) xs).length
      ∧ xs.map Prod.fst = scanComponents (subsamplingOf t) n
      ∧ (ImageApart f src dims u →
        xs = sourceBlocks u f (subsamplingOf t) src.toNat (lowHalf dims) (highHalf dims) (getRq u)) := by
  obtain ⟨hfits, hlim⟩ := hr
  have hbound := headerLength_le (subsamplingOf t)
  have hdrw := run_doHdrw t hcnt hq hw hh ⟨by omega, hlim⟩
  have hlen := headerBytes_length (subsamplingOf t) (lowHalf dims) (highHalf dims) (getQt u 0#2) (getQt u 1#2)
  simp only [frameBytes, List.append_assoc]
  rw [← hlen] at hdrw hbound
  generalize headerBytes (subsamplingOf t) (lowHalf dims) (highHalf dims) (getQt u 0#2) (getQt u 1#2) = hdr at hdrw hbound ⊢
  have hhdr := emits_scanStart hdr u
  have hhdrRoom : hasRoom u hdr.length := ⟨by omega, hlim⟩
  have hroom := bitRoom_scanStart (hdr := hdr) (k := 4 + 2500 * n) ⟨by omega, hlim⟩ hcnt hacc
  have hgrid := hn ▸ mcuGrid_length (ceilDiv (lowHalf dims) (mcuW (subsamplingOf t)))
    (ceilDiv (highHalf dims) (mcuH (subsamplingOf t)))
  obtain ⟨v, xs, hrun, hcoded, hcomp, hxs, hblocks⟩ := run_encodeMcus (u := scanStart hdr u) hf
    (fun _ => mcuGrid_inside (ss := subsamplingOf t)) hsrc (hhdr.tablesReady hq) (hroom.mono (by rw [hgrid]; omega))
  rw [hgrid] at hcomp hxs
  obtain ⟨w, hclose, hscan, hscanRoom⟩ := hcoded.close hcnt (getPred_scanStart hdr u) (hroom.mono (by omega))
  refine ⟨w, xs, ?_, hhdr.trans hhdrRoom hscan, ?_, hcomp, fun ha => ?_⟩
  · rw [encodeFrame, run_bind_ok u hdrw, run_update_bind]
    exact (run_bind_ok _ hrun).trans hclose
  · have hptr : (scanStart hdr u).bw.ptr.toNat = u.bw.ptr.toNat + hdr.length := ptr_add hhdrRoom
    have hend := hscanRoom.1
    rw [hptr] at hend
    refine ⟨?_, hlim⟩
    rw [List.length_append, List.length_append]
    exact Nat.add_assoc _ _ _ ▸ hend
  · obtain ⟨hsame, ha'⟩ := hhdr.imageApart hhdrRoom ha
    rw [hblocks ha', hhdr.getRq_eq, ← sourceBlocks_eq, sourceBlocks_congr hsame (by omega) (by omega)]

end EncodeFrame

theorem exec_encode (s : State) : exec .encode s =
    runCommand (doEncode s.argL[0] s.argL[1] s.argL[2] s.argL[3] s.argL[4] s.argL[5]) s := rfl

/-- RES0 counts the bytes emitted since BW_PTR was `dst` (47 R680). -/
theorem Emits.countBytes {u v : State} {out : List Byte} (h : Emits u out v) (hr : hasRoom u out.length) :
    (Machine.countBytes u.bw.ptr v).res0.toNat = out.length := by
  have hfits := hr.1
  have hlim := u.bw.lim.isLt
  change (v.bw.ptr - u.bw.ptr).toNat = out.length
  rw [h.ptr, add_sub_cancel_left, BitVec.toNat_ofNat, Nat.mod_eq_of_lt (by omega)]

/-- Behind its head checks and its setup ENCODE is its frame and the count of its bytes (47 R680). -/
theorem run_doEncode {src dst cap dims opts raw : Word} {f : PixelFormat} {s : State}
    (hf : legalFormat (opts.extractLsb' 0 4) (subsamplingOf (opts.extractLsb' 4 2)) = some f) (hw : lowHalf dims ≠ 0)
    (hh : highHalf dims ≠ 0) (hsrc : src.toNat + srcSize f (lowHalf dims) (highHalf dims) ≤ s.memBytes)
    (hdst : dst.toNat + cap.toNat ≤ s.memBytes) {u v : State}
    (hsetup : encodeSetup dst cap (encodeScale opts raw) (setRes0 0#32 s) = .ok () u)
    (hframe : encodeFrame (opts.extractLsb' 4 2) (opts.extractLsb' 0 4) src dims u = .ok () v) :
    doEncode src dst cap dims opts raw s = .ok () (countBytes dst v) := by
  have honError : onError (countBytes dst) (encodeFrame (opts.extractLsb' 4 2) (opts.extractLsb' 0 4) src dims) u
      = .ok () v := by rw [run_onError, hframe]
  simp only [doEncode, hf]
  rw [run_update_bind, run_check_bind, if_pos (by simp [hw, hh]), run_bind_ok _ (run_checkExtent _ _ _ (by exact hsrc)),
    run_bind_ok _ (run_checkExtent _ _ _ (by exact hdst)), run_bind_ok _ hsetup, run_bind_ok _ honError, run_update]

/-- Settles O58: the setup, then `run_encodeFrame`; where the buffers are apart, neither changes the image. -/
theorem encodeWritesACompleteFrame : Obligations.EncodeWritesACompleteFrame := by
  intro s hs hargs ss src dst w h n hn
  obtain ⟨f, hf, hw, hh, hsrc, hdst⟩ := hargs
  obtain ⟨u, hsetup, hq, hbw, hmem, hundef, hbytes⟩ :=
    run_encodeSetup (s := setRes0 0#32 s) (dst := s.argL[1]) (encodeScale s.argL[4] s.argL[5]) hdst
  have hend := extent_end_toNat hs hdst
  have hroom : hasRoom u (600 + 2500 * n) := by
    rw [hasRoom, hbw, hbytes]
    exact ⟨by simp only [hend]; omega, hend ▸ hdst⟩
  obtain ⟨v, xs, hframe, hemits, hlen, hcomp, hblocks⟩ := run_encodeFrame (n := n) hf hw hh (hbytes ▸ hsrc) hq
    (by rw [hbw]) (by rw [hbw]) rfl hroom
  have hrun := run_doEncode hf hw hh hsrc hdst hsetup hframe
  have hptr : u.bw.ptr = s.argL[1] := by rw [hbw]
  have hcount := hemits.countBytes hlen
  have hread := hemits.readBytes_eq
  rw [hptr] at hcount hread
  rw [← hemits.getQt_eq] at hcount hread
  refine ⟨complete none (countBytes s.argL[1] v), by rw [exec_encode, runCommand, hrun, finish],
    succeeded_complete_none _, xs, hcomp, hcount, ?_, fun g hg hapart => ?_⟩
  · rw [← hcount] at hread
    exact (readBytes_mem_congr (s := v) (t := complete none (countBytes s.argL[1] v)) rfl rfl _ _).trans hread
  · obtain rfl : f = g := Option.some.inj (hf.symm.trans hg)
    have hsame : SameImage f src w h s u := fun a _ _ => readByte_congr hmem hundef a
    have ha : ImageApart f s.argL[0] s.argL[3] u := by
      intro a (h1 : src ≤ a) (h2 : a < src + srcSize f w h)
      simp only [Outside, writerFootprint, hbw, hend]
      omega
    rw [hblocks ha, sourceBlocks_congr hsame (by omega) (by omega), ← hemits.getRq_eq]
    rfl

end Sys2Proof.Machine
end

section
/-! The quantizer, its tables and the zigzag scanner (41 R352 to R365). -/

namespace Sys2Proof.Machine

/-! ### Zigzag order (41 R352, R353, R364, R365) -/

/-- The position of the k-th index of ZZ is k (41 R353). -/
@[simp] theorem izz_zz : ∀ k : Fin 64, izz[zz[k]] = k := by decide

/-- The index at the position of i is i (41 R353). -/
@[simp] theorem zz_izz : ∀ i : Fin 64, zz[izz[i]] = i := by decide

theorem zigzagBlock_getElem (b : Block) (k : Fin 64) : (zigzagBlock b)[k] = b[zz[k]] := Vector.getElem_ofFn ..

theorem unzigzagBlock_getElem (b : Block) (i : Fin 64) : (unzigzagBlock b)[i] = b[izz[i]] := Vector.getElem_ofFn ..

theorem unzigzagBlock_zigzagBlock (b : Block) : unzigzagBlock (zigzagBlock b) = b := by
  refine Vector.ext fun i hi => ?_
  have h : (unzigzagBlock (zigzagBlock b))[(⟨i, hi⟩ : Fin 64)] = b[(⟨i, hi⟩ : Fin 64)] := by
    simp only [unzigzagBlock_getElem, zigzagBlock_getElem, zz_izz]
  exact h

theorem exec_zigzag (d src : Slot) (s : State) :
    exec (.zigzag d src) s = .next (complete none (setBlk d (zigzagBlock (getBlk s src)) s)) := rfl

theorem exec_unzigzag (d src : Slot) (s : State) :
    exec (.unzigzag d src) s = .next (complete none (setBlk d (unzigzagBlock (getBlk s src)) s)) := rfl

/-- Settles O33: the two orders are inverse, entry by entry, so the two commands are too. -/
theorem unzigzagUndoesZigzag : Obligations.UnzigzagUndoesZigzag := by
  refine ⟨fun d src s => ⟨⟨_, exec_zigzag d src s, zigzagBlock_getElem _⟩, _, exec_unzigzag d src s, fun k => ?_⟩,
    fun k => ⟨izz_zz k, zz_izz k⟩, ?_⟩
  · simp only [unzigzagBlock_getElem, izz_zz]
  · intro d e src s t u ht hu
    rw [exec_zigzag] at ht
    cases ht
    rw [exec_unzigzag] at hu
    cases hu
    rw [getBlk_complete, getBlk_setBlk_same, getBlk_complete, getBlk_setBlk_same, unzigzagBlock_zigzagBlock]

/-! ### QUANT and DEQUANT (41 R362, R363) -/

theorem quantBlock_getElem (r : Vector Half 64) (b : Block) (i : Fin 64) :
    (quantBlock r b)[i] = wrap32 ((b[i].toInt * (r[i].toNat : Int) + 0x4000) >>> 15) := Vector.getElem_ofFn ..

theorem dequantBlock_getElem (q : Vector Byte 64) (b : Block) (i : Fin 64) :
    (dequantBlock q b)[i] = wrap32 (b[i].toInt * (q[i].toNat : Int)) := Vector.getElem_ofFn ..

/-- A body that ends well completes without error (60 R756). -/
theorem runCommand_ok {x : Eng Unit} {s t : State} (h : x s = .ok () t) : runCommand x s = .next (complete none t) := by
  simp only [runCommand, h, finish]

section Installed
variable {s : State} {t : BitVec 2}

theorem run_doDequant (d src : Slot) (ht : qtValid s t = true) :
    doDequant d src t s = .ok () (setBlk d (dequantBlock (getQt s t) (getBlk s src)) s) := by
  rw [doDequant, run_checkState_pass s ht, run_update]

theorem run_doQuant_missing (d src : Slot) (ht : qtValid s t = false) : doQuant d src t s = .error .command s :=
  run_checkState_fail s ht _ _

theorem run_doDequant_missing (d src : Slot) (ht : qtValid s t = false) : doDequant d src t s = .error .command s :=
  run_checkState_fail s ht _ _

end Installed

/-- Settles O32: the check of the table, then each entry's product. -/
theorem quantAndDequantResults : Obligations.QuantAndDequantResults := by
  refine fun d src tt s => ⟨fun ht => ⟨?_, ?_⟩, fun ht => ⟨?_, ?_⟩⟩
  · exact ⟨_, runCommand_ok (run_doQuant d src ht), quantBlock_getElem _ _⟩
  · exact ⟨_, runCommand_ok (run_doDequant d src ht), dequantBlock_getElem _ _⟩
  · exact runCommand_error (run_doQuant_missing d src ht)
  · exact runCommand_error (run_doDequant_missing d src ht)

/-! ### The tables QBUILD builds (41 R355 to R360) -/

theorem clamp_eq_max_min {lo hi : Int} (h : lo ≤ hi) (x : Int) : clamp x lo hi = max lo (min hi x) := by
  unfold clamp
  split
  · omega
  · split <;> omega

/-- QSCALE in the spec's own terms (41 R355). -/
theorem qScale_eq (q : Int) :
    qScale q = ((if (max 1 (min 100 q)).toNat < 50 then 5000 / (max 1 (min 100 q)).toNat
      else 200 - 2 * (max 1 (min 100 q)).toNat) * 1024 + 50) / 100 := by
  rw [qScale, clamp_eq_max_min (by decide)]

/-- QENTRY in the spec's own terms; it fits a byte (41 R356). -/
theorem qEntry_toNat (base scale : Nat) :
    (qEntry base scale).toNat = max 1 (min 255 ((base * scale + 0x200) / 1024)) := by
  rw [qEntry, byteOf, Nat.shiftRight_eq_div_pow, clamp_eq_max_min (by decide), BitVec.toNat_ofInt]
  omega

theorem builtTable_getElem (seed : Bool) (scale : Nat) (i : Fin 64) :
    (builtTable seed scale)[i] = qEntry (seedTable seed)[i] scale := Vector.getElem_ofFn ..

/-! What the tables of a state hold after an install (41 R358). -/

@[simp] theorem getQt_complete (e : Option ErrCode) (s : State) (t : BitVec 2) : getQt (complete e s) t = getQt s t := rfl

@[simp] theorem getQt_setRes0 (v : Word) (s : State) (t : BitVec 2) : getQt (setRes0 v s) t = getQt s t := rfl

section InstallQt
variable (t : BitVec 2) (e : Vector Byte 64) (s : State)

@[simp] theorem qtValid_installQt_same : qtValid (installQt t e s) t = true := by simp [qtValid]

@[simp] theorem getQt_installQt_same : getQt (installQt t e s) t = e := by simp [getQt]

theorem getRq_installQt_same (i : Fin 64) :
    (getRq (installQt t e s) t)[i].toNat = 32768 / (getQt (installQt t e s) t)[i].toNat := by
  simp [getRq, reciprocal_toNat]

end InstallQt

/-- Settles O34: the state QBUILD leaves, and what its table holds. -/
theorem qbuildInstallsTheScaledTable : Obligations.QbuildInstallsTheScaledTable := by
  intro tt x s hx q scale base
  have hscale : buildScale (x.getLsbD 1) s.argL[0] = scale := by rw [buildScale, qScale_eq]
  have hbase : seedTable (x.getLsbD 0) = base := rfl
  have hentry (i : Fin 64) :
      (builtTable (x.getLsbD 0) scale)[i].toNat = max 1 (min 255 ((base[i] * scale + 0x200) / 1024)) := by
    rw [builtTable_getElem, hbase, qEntry_toNat]
  have hrun := run_doQbuild hx tt s.argL[0] s
  rw [hscale] at hrun
  refine ⟨_, runCommand_ok hrun, succeeded_complete_none _, rfl,
    qtValid_installQt_same tt (builtTable (x.getLsbD 0) scale) s, fun i => ⟨?_, getRq_installQt_same tt _ s i⟩⟩
  rw [getQt_complete, getQt_setRes0, getQt_installQt_same, hentry i]

/-! ### Tables in zigzag order: QLOAD (41 R361) -/

/-- Entry ZZ[k] of the natural-order table is byte k (41 R361). -/
theorem naturalTable_zz (bs : List Byte) (k : Fin 64) : (naturalTable bs)[zz[k]] = bs.getD k.val 0#8 := by
  have h (i : Fin 64) : (naturalTable bs)[i] = bs.getD izz[i].val 0#8 := Vector.getElem_ofFn ..
  rw [h, izz_zz]

theorem readBytes_getD (s : State) {a n k : Nat} (hk : k < n) : (readBytes s a n).getD k 0#8 = readByte s (a + k) := by
  rw [List.getD_eq_getElem?_getD, readBytes_getElem?, if_pos hk]
  rfl

/-- The check of a table's entries refuses an entry 0 (41 R361, 45 R583). -/
theorem run_checkEntries_bind {α : Type} (bs : List Byte) (k : Unit → Eng α) (s : State) :
    (checkEntries bs >>= k) s = if 0#8 ∈ bs then .error .badTable s else k () s := by
  have hall : (bs.all fun b => decide (b ≠ 0#8)) = !decide (0#8 ∈ bs) := by
    rw [Bool.eq_iff_iff]
    simp only [List.all_eq_true, decide_eq_true_eq, Bool.not_eq_true', decide_eq_false_iff_not]
    exact ⟨fun h hm => h _ hm rfl, fun h b hb h0 => h (h0 ▸ hb)⟩
  rw [checkEntries, run_check_bind, hall]
  by_cases h : 0#8 ∈ bs <;> simp [h]

/-- QLOAD of 64 bytes inside LMEM (41 R361). -/
theorem run_doQload {s : State} {a : Word} (t : BitVec 2) (h : a.toNat + 64 ≤ s.memBytes) :
    doQload t a s = if 0#8 ∈ readBytes s a.toNat 64 then .error .badTable s
      else .ok () (installQt t (naturalTable (readBytes s a.toNat 64)) s) := by
  rw [doQload, run_bind_ok s (run_checkExtent s _ _ h), run_bind_ok s (run_memReads s _ _ h), run_checkEntries_bind,
    run_update]

/-- Settles O35: `run_doQload` branch by branch, and the entries of the table. -/
theorem qloadInstallsTheWireTable : Obligations.QloadInstallsTheWireTable := by
  refine fun tt s => ⟨fun ⟨hin, hbytes⟩ => ?_, fun hout => ?_, fun ⟨hin, hbytes⟩ => ?_⟩
  · have hrun := run_doQload tt hin
    rw [if_neg hbytes] at hrun
    refine ⟨_, runCommand_ok hrun, succeeded_complete_none _,
      qtValid_installQt_same tt (naturalTable (readBytes s s.argL[0].toNat 64)) s, fun k => ?_,
      getRq_installQt_same tt _ s⟩
    rw [getQt_complete, getQt_installQt_same, naturalTable_zz, readBytes_getD s k.isLt]
  · exact runCommand_error (run_bind_error s (run_checkExtent_outside s _ _ hout))
  · have hrun := run_doQload tt hin
    rw [if_pos hbytes] at hrun
    exact runCommand_error hrun
end Sys2Proof.Machine
end

section
/-! The segments of a header: their length field, and DQT (45 R582, R583; 41 R358). -/

namespace Sys2Proof.Machine

/-! ### SEGLEN (45 R582) -/

/-- A segment that stands whole in the input: SEGLEN gives its length. -/
theorem run_segLen {s : State} {len : Nat} (hs : ReaderOk s) (h : segmentAt s len) : segLen s = .ok len s := by
  obtain ⟨-, hlim, -⟩ := hs
  obtain ⟨hfield, hlen, hmin, hfits⟩ := h
  have hread : memRead16 s.br.ptr.toNat s = .ok len s := hlen ▸ run_memRead16 s _ (by omega)
  rw [segLen, run_checkState_pass s (by simp [hfield]), run_get_bind, run_bind_ok s hread, run_check_bind,
    if_pos (by simp [hmin, hfits])]
  rfl

/-- A marker whose case in the header parse ends well leaves the parse to go on. -/
theorem exec_marker_goesOn {s t : State} {i : Instr} {c : Byte} (hs : readingHeader s)
    (hi : encode i = .marker (0xFF#8 ++ c)) (h : headerCase c s = .ok false t) : exec i s = .next t := by
  obtain ⟨hreader, hread⟩ := hs
  rw [exec_marker hi, runMarker_eq hreader]
  simp only [markerEvent, headerEvent_readsTables hread, h, endMarker]

/-- A marker whose case in the header parse raises an error ends the parse with it, FAILED, the changes before it kept. -/
theorem exec_marker_fails {s t : State} {i : Instr} {c : Byte} {e : ErrCode} (hs : readingHeader s)
    (hi : encode i = .marker (0xFF#8 ++ c)) (h : headerCase c s = .error e t) :
    exec i s = .next (complete (some e) (setPstate .failed t)) := by
  obtain ⟨hreader, hread⟩ := hs
  have he : e ≠ .command := (spares_headerCase c).ne h
  rw [exec_marker hi, runMarker_eq hreader]
  simp only [markerEvent, headerEvent_readsTables hread, h, endMarker_error he]

/-! ### The tables of a DQT segment (45 R583) -/

/-- The bytes of a DQT table: its id, then its entries in zigzag order. -/
theorem dqtImage_cons (x : BitVec 2 × List Byte) (ts : List (BitVec 2 × List Byte)) :
    dqtImage (x :: ts) = (x.1.setWidth 8 :: x.2) ++ dqtImage ts := rfl

theorem installQts_cons (x : BitVec 2 × List Byte) (ts : List (BitVec 2 × List Byte)) (s : State) :
    installQts (x :: ts) s = installQts ts (installQt x.1 (naturalTable x.2) s) := rfl

/-- Installing tables leaves everything but them alone: what the parser still reads is the same. -/
theorem installQts_eq (ts : List (BitVec 2 × List Byte)) (s : State) :
    installQts ts s
      = { s with qt := (installQts ts s).qt, rq := (installQts ts s).rq, qvalid := (installQts ts s).qvalid } := by
  induction ts generalizing s with
  | nil => rfl
  | cons x ts ih =>
    rw [installQts_cons, ih]
    rfl

@[simp] theorem installQts_br (ts : List (BitVec 2 × List Byte)) (s : State) : (installQts ts s).br = s.br := by
  rw [installQts_eq]

@[simp] theorem installQts_memBytes (ts : List (BitVec 2 × List Byte)) (s : State) :
    (installQts ts s).memBytes = s.memBytes := by
  rw [installQts_eq]

theorem readBytes_installQt (t : BitVec 2) (e : Vector Byte 64) (s : State) (a n : Nat) :
    readBytes (installQt t e s) a n = readBytes s a n :=
  readBytes_mem_congr (s := s) (t := installQt t e s) rfl rfl a n

theorem readBytes_installQts (ts : List (BitVec 2 × List Byte)) (s : State) (a n : Nat) :
    readBytes (installQts ts s) a n = readBytes s a n :=
  readBytes_mem_congr (by rw [installQts_eq]) (by rw [installQts_eq]) a n

/-- The id byte of a table passes its check and gives the id back (45 R583). -/
theorem tableId_ok : ∀ x : BitVec 2, (x.setWidth 8 : Byte).toNat / 16 = 0 ∧ (x.setWidth 8 : Byte).toNat % 16 ≤ 3
    ∧ (x.setWidth 8 : Byte).setWidth 2 = x := by decide

section Tables
variable {u : State} {stop p fuel : Nat} (hstop : stop ≤ u.memBytes)
include hstop

/-- One round: a table is installed, and the next one stands 65 bytes further on. -/
theorem run_dqtTables_table {x : BitVec 2 × List Byte} (hne : 0#8 ∉ x.2) (hfits : p + 65 ≤ stop)
    (hbytes : readBytes u p 65 = x.1.setWidth 8 :: x.2) :
    dqtTables stop (fuel + 1) p u = dqtTables stop fuel (p + 65) (installQt x.1 (naturalTable x.2) u) := by
  obtain ⟨hid, hentries⟩ := List.cons.inj hbytes
  obtain ⟨hhigh, hlow, hwidth⟩ := tableId_ok x.1
  have hread : memReads (p + 1) 64 u = .ok x.2 u := hentries ▸ run_memReads u _ _ (by omega)
  rw [dqtTables, if_neg (by omega), run_bind_ok u (run_memRead u (by omega)), hid, run_check_bind,
    if_pos (by simp only [hhigh, hlow, decide_true, Bool.and_self]), run_check_bind, if_pos (decide_eq_true (by omega)),
    run_bind_ok u hread, run_checkEntries_bind, if_neg hne, run_update_bind, hwidth]

/-- Bytes that are no table: ERR_BAD_TABLE, nothing installed. -/
theorem run_dqtTables_bad {bad : List Byte} (hbad : badDqtTable bad) (hend : p + bad.length = stop)
    (hbytes : readBytes u p bad.length = bad) : dqtTables stop (fuel + 1) p u = .error .badTable u := by
  obtain ⟨pt, rest, rfl, hcase⟩ := hbad
  rw [List.length_cons] at hend hbytes
  obtain ⟨hid, hrest⟩ := List.cons.inj hbytes
  rw [dqtTables, if_neg (by omega), run_bind_ok u (run_memRead u (by omega)), hid, run_check_bind]
  split
  case isFalse => rfl
  case isTrue hok =>
    rw [run_check_bind]
    split
    case isFalse => rfl
    case isTrue hroom =>
      simp only [Bool.and_eq_true, decide_eq_true_eq] at hok hroom
      have hentries : readBytes u (p + 1) 64 = rest.take 64 := by
        have happ := readBytes_append u (p + 1) 64 (rest.length - 64)
        rw [Nat.add_sub_cancel' (by omega), hrest] at happ
        rw [happ, List.take_left' (readBytes_length ..)]
      have hzero : 0#8 ∈ rest.take 64 := hcase.resolve_left (by omega) |>.resolve_left (by omega)
      rw [run_bind_ok u (run_memReads u _ _ (by omega)), hentries, run_checkEntries_bind, if_pos hzero]

end Tables

/-- The tables of the segment one after another, up to what stands behind them. -/
theorem run_dqtTables {ts : List (BitVec 2 × List Byte)} {stop p fuel : Nat} {u : State} (hts : dqtImageOk ts)
    (hstop : stop ≤ u.memBytes) (hfits : p + (dqtImage ts).length ≤ stop)
    (hbytes : readBytes u p (dqtImage ts).length = dqtImage ts) :
    dqtTables stop (fuel + ts.length) p u = dqtTables stop fuel (p + (dqtImage ts).length) (installQts ts u) := by
  induction ts generalizing p u with
  | nil => rfl
  | cons x ts ih =>
    obtain ⟨hlen, hne⟩ := hts x (List.mem_cons_self ..)
    have htable : (x.1.setWidth 8 :: x.2 : List Byte).length = 65 := by rw [List.length_cons, hlen]
    rw [dqtImage_cons, List.length_append, htable] at hfits hbytes ⊢
    rw [readBytes_append] at hbytes
    obtain ⟨hfirst, hrest⟩ := List.append_inj hbytes (by rw [readBytes_length, htable])
    rw [List.length_cons, ← Nat.add_assoc, run_dqtTables_table hstop hne (by omega) hfirst,
      ih (u := installQt x.1 (naturalTable x.2) u) (p := p + 65) (fun y hy => hts y (List.mem_cons_of_mem x hy)) hstop
        (by omega) ((readBytes_installQt ..).trans hrest), installQts_cons, Nat.add_assoc]

/-- The tables of a DQT segment take no more rounds than they have bytes. -/
theorem length_le_dqtImage (ts : List (BitVec 2 × List Byte)) : ts.length ≤ (dqtImage ts).length := by
  induction ts with
  | nil => exact Nat.le_refl 0
  | cons x ts ih =>
    rw [dqtImage_cons, List.length_append, List.length_cons, List.length_cons]
    omega

/-- Behind the last table the segment ends. -/
theorem run_dqtTables_end {stop p : Nat} (h : stop ≤ p) (fuel : Nat) (u : State) :
    dqtTables stop (fuel + 1) p u = .ok () u := by
  rw [dqtTables, if_pos h, run_pure]

theorem run_parseDqt {s : State} {len : Nat} (hs : ReaderOk s) (h : segmentAt s len) :
    parseDqt s = (dqtTables (s.br.ptr.toNat + len) len (s.br.ptr.toNat + 2) >>= fun _ => update (advanceReader len)) s := by
  rw [parseDqt, run_bind_ok s (run_segLen hs h), run_get_bind]

/-- Settles O50: the tables of the segment by `run_dqtTables`, then its end or the bytes that are no table. -/
theorem dqtInstallsItsTables : Obligations.DqtInstallsItsTables := by
  intro ts bad s hheader hs hts hseg hcontent
  have hparse := run_parseDqt hs hseg
  rw [segmentContent, Nat.add_sub_cancel_left, List.length_append, readBytes_append] at hcontent
  obtain ⟨himage, hbad⟩ := List.append_inj hcontent (readBytes_length ..)
  obtain ⟨-, hlim, -⟩ := hs
  obtain ⟨-, -, -, hfits⟩ := hseg
  have hrounds := length_le_dqtImage ts
  rw [List.length_append] at hparse hfits ⊢
  generalize hlen : 2 + ((dqtImage ts).length + bad.length) = len at hparse hfits ⊢
  obtain ⟨fuel, hfuel⟩ : ∃ fuel, fuel + 1 + ts.length = len := ⟨len - ts.length - 1, by omega⟩
  have htables := run_dqtTables (stop := s.br.ptr.toNat + len) (fuel := fuel + 1) hts (by omega) (by omega) himage
  rw [hfuel] at htables
  constructor
  · rintro rfl
    rw [List.length_nil] at hlen
    rw [run_dqtTables_end (by omega)] at htables
    rw [run_bind_ok s htables, run_update] at hparse
    rw [exec_marker_goesOn hheader rfl (run_bind_ok s hparse)]
    simp only [advanceReader, installQts_br]
  · intro hnone
    rw [run_dqtTables_bad (by rw [installQts_memBytes]; omega) hnone (by omega)
      ((readBytes_installQts ..).trans hbad)] at htables
    rw [run_bind_error s htables] at hparse
    exact exec_marker_fails hheader rfl (run_bind_error s hparse)

end Sys2Proof.Machine
end

section
/-! What can fail in ENCODE: the three checks at its head, and behind them the room for its output alone (47 R680, R682). -/

namespace Sys2Proof.Machine

/-! ### Running out of room (43 R460) -/

/-- The error of a full output buffer: ERR_BOUNDS, BW_PTR at BW_LIM. -/
def OutOfRoom (e : ErrCode) (v : State) : Prop := e = .bounds ∧ v.bw.ptr = v.bw.lim

/-- Where P holds, `x` can fail only for want of room. -/
def OnlyOverflows {α : Type} (P : State → Prop) (x : Eng α) : Prop := ∀ u, P u → Ends u x (fun _ _ => True) OutOfRoom

section Rules
variable {α β : Type} {P : State → Prop}

/-- What survives a piece holds however it ends. -/
theorem Keeps.ends {x : Eng α} {u : State} {Q : α → State → Prop} {E : ErrCode → State → Prop} (hk : Keeps P x)
    (hu : P u) (h : Ends u x Q E) : Ends u x (fun a t => Q a t ∧ P t) (fun e t => E e t ∧ P t) := by
  have hP := hk u hu
  unfold Ends at h ⊢
  cases hr : x u <;> (rw [hr] at h hP; exact ⟨h, hP⟩)

theorem ends_of_ok {x : Eng α} {u t : State} {a : α} (h : x u = .ok a t) : Ends u x (fun _ _ => True) OutOfRoom := by
  unfold Ends
  rw [h]
  trivial

theorem ends_get {u : State} {Q : State → State → Prop} {E : ErrCode → State → Prop} : Ends u get Q E ↔ Q u u := Iff.rfl

theorem onlyOverflows_update (f : State → State) : OnlyOverflows P (update f) := fun _ _ => trivial

theorem onlyOverflows_bind {x : Eng β} {f : β → Eng α} (hk : Keeps P x) (hx : OnlyOverflows P x)
    (hf : ∀ b, OnlyOverflows P (f b)) : OnlyOverflows P (x >>= f) := fun u hu =>
  ends_bind.mpr (ends_mono (hk.ends hu (hx u hu)) (fun b t ht => hf b t ht.2) fun _ _ h => h.1)

theorem onlyOverflows_forEach {as : List α} {f : α → Eng Unit} (hk : ∀ a, Keeps P (f a))
    (hf : ∀ a ∈ as, OnlyOverflows P (f a)) : OnlyOverflows P (forEach as f) := by
  induction as with
  | nil => exact fun _ _ => trivial
  | cons a as ih =>
    exact onlyOverflows_bind (hk a) (hf a (List.mem_cons_self ..)) fun _ => ih fun b hb => hf b (List.mem_cons_of_mem a hb)

end Rules

section Writer
variable {u : State} (hw : WriterInRange u)
include hw

/-- PUTBITS appends its bits, or runs out of room. -/
theorem putBits_cases (bs : List Bool) : putBits bs u = .ok () (appended bs u)
    ∨ putBits bs u = .error .bounds (overflowed (emittedBytes u.bw bs) u) := by
  obtain ⟨-, hptr, hlim, hacc⟩ := hw
  by_cases hroom : hasRoom u (emittedBytes u.bw bs).length
  · exact .inl (run_putBits bs hacc hroom)
  · have hfull : ¬ u.bw.ptr.toNat + (emittedBytes u.bw bs).length ≤ u.bw.lim.toNat := fun h => hroom ⟨h, hlim⟩
    exact .inr (run_putBits_full bs hptr hlim hacc (by omega))

theorem ends_putBits (bs : List Bool) :
    Ends u (putBits bs) (fun _ t => t = appended bs u) OutOfRoom := by
  unfold Ends
  rcases putBits_cases hw bs with h | h
  · rw [h]
  · rw [h]
    exact ⟨rfl, rfl⟩

/-- FLUSH leaves a byte boundary, or runs out of room (43 R463). -/
theorem ends_flush : Ends u flush (fun _ t => t.bw.cnt = 0#3) OutOfRoom := by
  rw [flush, ends_get_bind]
  split
  case isTrue hcnt => exact hcnt
  case isFalse =>
    refine ends_mono (ends_putBits hw _) (fun _ t ht => ?_) fun _ _ h => h
    have hlt := u.bw.cnt.isLt
    apply BitVec.eq_of_toNat_eq
    rw [ht, appended_cnt, bitsMsb_length]
    simp only [BitVec.toNat_ofNat]
    omega

/-- Raw bytes at a byte boundary are written, or run out of room (43 R464). -/
theorem ends_rawBytes (hcnt : u.bw.cnt = 0#3) (bs : List Byte) :
    Ends u (forEach bs rawByte) (fun _ _ => True) OutOfRoom := by
  induction bs generalizing u with
  | nil => trivial
  | cons b bs ih =>
    have hlim := hw.2.2.1
    unfold Ends
    rw [run_forEach_cons]
    by_cases hroom : u.bw.ptr.toNat < u.bw.lim.toNat
    · rw [run_bind_ok u (run_rawByte b hcnt ⟨hroom, hlim⟩)]
      exact ih (writerInRange_emit b u hw hroom) hcnt
    · have hfull : rawByte b u = .error .bounds u := by
        rw [rawByte, run_checkState_pass u (by simp [hcnt]), run_emit_full b (by omega)]
      rw [run_bind_error u hfull]
      exact ⟨rfl, BitVec.eq_of_toNat_eq (by have := hw.2.1; omega)⟩

/-- CLOSE ends the stream, or runs out of room (44 R545). -/
theorem ends_doClose : Ends u doClose (fun _ _ => True) OutOfRoom := by
  have hclose : doClose = (flush >>= fun _ => forEach [0xFF#8, 0xD9#8] rawByte) := by
    simp only [doClose, forEach, bind_pure_unit]
  rw [hclose, ends_bind]
  exact ends_mono ((keeps_flush writerClosed_writerInRange).ends hw (ends_flush hw))
    (fun _ t ht => ends_rawBytes ht.2 ht.1 _) fun _ _ h => h.1

/-- HDRW at a byte boundary with its tables and a size writes the header, or runs out of room (44 R540). -/
theorem ends_doHdrw (t : BitVec 2) {dims : Word} (hcnt : u.bw.cnt = 0#3) (hq : TablesReady u) (hdw : lowHalf dims ≠ 0)
    (hdh : highHalf dims ≠ 0) : Ends u (doHdrw t dims) (fun _ _ => True) OutOfRoom := by
  have h0 : qtValid u 0#2 = true := hq 0
  have h1 : qtValid u 1#2 = true := hq 1
  have hdims : (decide (lowHalf dims ≠ 0) && decide (highHalf dims ≠ 0)) = true := by simp [hdw, hdh]
  simp only [doHdrw, ends_bind, ends_checkState, ends_check, ends_get, hcnt, h0, h1, hdims, decide_true, Bool.and_self,
    if_true]
  exact ends_rawBytes hw hcnt _

end Writer

/-! ### The frame ENCODE writes (47 R680) -/

/-- What ENCODE keeps, from the state `u0` its setup leaves, while it writes its frame. -/
structure FrameOn (u0 u : State) : Prop where
  inRange : WriterInRange u
  ptr : u0.bw.ptr.toNat ≤ u.bw.ptr.toNat
  lim : u.bw.lim = u0.bw.lim
  memBytes : u.memBytes = u0.memBytes
  qvalid : u.qvalid = u0.qvalid
  res1 : u.res1 = u0.res1

theorem frameOn_refl {u0 : State} (h : WriterInRange u0) : FrameOn u0 u0 := ⟨h, Nat.le_refl _, rfl, rfl, rfl, rfl⟩

theorem FrameOn.tablesReady {u0 u : State} (h : FrameOn u0 u) (hq : TablesReady u0) : TablesReady u := by
  intro c
  have hc := hq c
  rw [qtValid] at hc ⊢
  simp only [h.qvalid, hc]

theorem encodeFrameClosed_frameOn (u0 : State) : EncodeFrameClosed (FrameOn u0) where
  writer :=
    { emit := fun v u hu hlt _ =>
        { hu with
          inRange := writerInRange_emit v u hu.inRange hlt
          ptr := by
            have hnext : (u.bw.ptr + 1#32).toNat = u.bw.ptr.toNat + 1 := pointer_add_ofNat_toNat hlt
            have hptr := hu.ptr
            change u0.bw.ptr.toNat ≤ (u.bw.ptr + 1#32).toNat
            omega }
      clear := fun u hu hc => { hu with inRange := writerClosed_writerInRange.clear u hu.inRange hc }
      push := fun b u hu hc => { hu with inRange := writerInRange_push b u hu.inRange hc } }
  blk _ _ _ hu := ⟨hu.inRange, hu.ptr, hu.lim, hu.memBytes, hu.qvalid, hu.res1⟩
  pred _ _ _ hu := ⟨hu.inRange, hu.ptr, hu.lim, hu.memBytes, hu.qvalid, hu.res1⟩
  preds _ hu := ⟨hu.inRange, hu.ptr, hu.lim, hu.memBytes, hu.qvalid, hu.res1⟩
  res0 _ _ hu := ⟨hu.inRange, hu.ptr, hu.lim, hu.memBytes, hu.qvalid, hu.res1⟩

section Count
variable {u0 v : State} (h : FrameOn u0 v) {dst cap : Word}
  (hbw : u0.bw = { ptr := dst, lim := dst + cap, acc := 0#8, cnt := 0#3 })
include h hbw

/-- The bytes counted fit the buffer. -/
theorem FrameOn.count_le (hend : (dst + cap).toNat = dst.toNat + cap.toNat) :
    (countBytes dst v).res0.toNat ≤ cap.toNat := by
  have hptr := h.ptr
  have hlim := h.inRange.2.1
  rw [h.lim] at hlim
  simp only [hbw] at hptr hlim
  change (v.bw.ptr - dst).toNat ≤ cap.toNat
  rw [BitVec.toNat_sub_of_le hptr]
  omega

/-- In a full buffer its whole capacity is counted. -/
theorem FrameOn.count_full (hfull : v.bw.ptr = v.bw.lim) : (countBytes dst v).res0 = cap := by
  change v.bw.ptr - dst = cap
  rw [hfull, h.lim, hbw, add_sub_cancel_left]

end Count

section Frame
variable {u0 : State} (hq : TablesReady u0)

theorem onlyOverflows_doHenc (d : Slot) (c : Fin 3) :
    OnlyOverflows (FrameOn u0) (doHenc d (BitVec.ofNat 2 c.val) (componentTable c)) := by
  intro u hu
  obtain ⟨ht, -⟩ := componentTable_isChroma c
  simp only [doHenc, componentOf_val, ht, decide_true, encodeBlock, ends_bind, ends_check, ends_get, if_true]
  exact ends_mono (ends_putBits hu.inRange _) (fun _ _ _ => trivial) fun _ _ h => h

include hq

theorem onlyOverflows_doQuant (d : Slot) (c : Fin 3) : OnlyOverflows (FrameOn u0) (doQuant d d (componentTable c)) :=
  fun _ hu => ends_of_ok (run_doQuant d d (hu.tablesReady hq c))

theorem onlyOverflows_encodeSlot (p : Slot × Fin 3) : OnlyOverflows (FrameOn u0) (encodeSlot p) :=
  have hblk := (encodeFrameClosed_frameOn u0).blk p.1
  onlyOverflows_bind (keeps_doFdct _ _ hblk) (onlyOverflows_update _) fun _ =>
    onlyOverflows_bind (keeps_doQuant _ _ _ hblk) (onlyOverflows_doQuant hq p.1 p.2) fun _ =>
    onlyOverflows_bind (keeps_doZigzag _ _ hblk) (onlyOverflows_update _) fun _ => onlyOverflows_doHenc p.1 p.2

variable {t : BitVec 2} {x : BitVec 4} {f : PixelFormat} {src dims : Word}
  (hf : legalFormat x (subsamplingOf t) = some f)
  (hsrc : src.toNat + srcSize f (lowHalf dims) (highHalf dims) ≤ u0.memBytes)
include hf hsrc

theorem onlyOverflows_encodeMcu {p : Nat × Nat} (hp : McuInside (subsamplingOf t) dims p) :
    OnlyOverflows (FrameOn u0) (encodeMcu t x src dims p) :=
  have hclosed := encodeFrameClosed_frameOn u0
  onlyOverflows_bind (keeps_doCconv _ _ _ _ _ fun q _ => hclosed.blk q.1)
    (fun _ hu => ends_of_ok (run_doCconv_inside hf hp (hu.memBytes ▸ hsrc))) fun _ =>
    onlyOverflows_forEach hclosed.encodeSlot fun q _ => onlyOverflows_encodeSlot hq q

/-- ENCODE from the header on: it writes its frame, or runs out of room. -/
theorem ends_encodeFrame (hw : WriterInRange u0) (hcnt : u0.bw.cnt = 0#3) (hdw : lowHalf dims ≠ 0) (hdh : highHalf dims ≠ 0) :
    Ends u0 (encodeFrame t x src dims) (fun _ v => FrameOn u0 v) (fun e v => OutOfRoom e v ∧ FrameOn u0 v) := by
  have hclosed := encodeFrameClosed_frameOn u0
  have hon := frameOn_refl hw
  refine ends_mono ((hclosed.encodeFrame t x src dims).ends hon (Q := fun _ _ => True) (E := OutOfRoom) ?_)
    (fun _ _ h => h.2) fun _ _ h => h
  have hmcu (p : Nat × Nat) : Keeps (FrameOn u0) (encodeMcu t x src dims p) :=
    keeps_bind (keeps_doCconv _ _ _ _ _ fun q _ => hclosed.blk q.1) fun _ => keeps_forEach fun q _ => hclosed.encodeSlot q
  have hscan : OnlyOverflows (FrameOn u0) (do
      update clearPreds
      forEach (mcuGrid (ceilDiv (lowHalf dims) (mcuW (subsamplingOf t))) (ceilDiv (highHalf dims) (mcuH (subsamplingOf t))))
        (encodeMcu t x src dims)
      doClose) :=
    onlyOverflows_bind hclosed.preds (onlyOverflows_update _) fun _ =>
      onlyOverflows_bind (keeps_forEach fun p _ => hmcu p)
        (onlyOverflows_forEach hmcu fun _ hp => onlyOverflows_encodeMcu hq hf hsrc (mcuGrid_inside hp)) fun _ _ hu =>
        ends_doClose hu.inRange
  exact ends_bind.mpr (ends_mono ((keeps_doHdrw hclosed.writer t dims hclosed.res0).ends hon
    (ends_doHdrw hw t hcnt hq hdw hdh)) (fun _ v hv => hscan v hv.2) fun _ _ h => h.1)

end Frame

/-! ### The head of ENCODE (47 R680) -/

section Head
variable {src dst cap dims opts raw : Word}

/-- An illegal pair of format and layout is the first error. -/
theorem run_doEncode_illegal
    (h : legalFormat (opts.extractLsb' 0 4) (subsamplingOf (opts.extractLsb' 4 2)) = none) (s : State) :
    doEncode src dst cap dims opts raw s = .error .command (setRes0 0#32 s) := by
  simp only [doEncode, h, run_update_bind, run_raise]

/-- The other checks in their order, and what stands behind them. -/
theorem run_doEncode_legal {f : PixelFormat}
    (hf : legalFormat (opts.extractLsb' 0 4) (subsamplingOf (opts.extractLsb' 4 2)) = some f) (s : State) :
    doEncode src dst cap dims opts raw s =
      if lowHalf dims = 0 ∨ highHalf dims = 0 then .error .dimensions (setRes0 0#32 s)
      else if s.memBytes < src.toNat + srcSize f (lowHalf dims) (highHalf dims)
          ∨ s.memBytes < dst.toNat + cap.toNat then .error .bounds (setRes0 0#32 s)
      else (do
        encodeSetup dst cap (encodeScale opts raw)
        onError (countBytes dst) (encodeFrame (opts.extractLsb' 4 2) (opts.extractLsb' 0 4) src dims)
        update (countBytes dst)) (setRes0 0#32 s) := by
  simp only [doEncode, hf]
  rw [run_update_bind, run_check_bind]
  by_cases hdims : lowHalf dims = 0 ∨ highHalf dims = 0
  · rw [if_pos hdims, if_neg]
    rcases hdims with h | h <;> simp [h]
  rw [if_neg hdims, if_pos (by simpa using hdims)]
  by_cases hsrc : s.memBytes < src.toNat + srcSize f (lowHalf dims) (highHalf dims)
  · rw [if_pos (.inl hsrc), run_bind_error _ (run_checkExtent_outside _ _ _ (by exact hsrc))]
  rw [run_bind_ok _ (run_checkExtent _ _ _ (Nat.le_of_not_lt (by exact hsrc)))]
  by_cases hdst : s.memBytes < dst.toNat + cap.toNat
  · rw [if_pos (.inr hdst), run_bind_error _ (run_checkExtent_outside _ _ _ (by exact hdst))]
  · rw [if_neg (not_or.mpr ⟨hsrc, hdst⟩), run_bind_ok _ (run_checkExtent _ _ _ (Nat.le_of_not_lt (by exact hdst)))]

/-- The scale ENCODE uses, in the spec's own terms (41 R355; 47 R680). -/
theorem encodeScale_eq (opts raw : Word) :
    encodeScale opts raw = if opts.getLsbD 16 then raw.toNat
      else ((if max 1 (min 100 (opts.extractLsb' 8 8).toNat) < 50 then 5000 / max 1 (min 100 (opts.extractLsb' 8 8).toNat)
        else 200 - 2 * max 1 (min 100 (opts.extractLsb' 8 8).toNat)) * 1024 + 50) / 100 := by
  have hq : (max 1 (min 100 ((opts.extractLsb' 8 8).toNat : Int))).toNat = max 1 (min 100 (opts.extractLsb' 8 8).toNat) := by
    omega
  rw [encodeScale, qScale_eq, hq]

/-- The setup of ENCODE reports the scale in RES1. -/
theorem encodeSetup_ok_res1 {scale : Nat} {u v : State} (h : encodeSetup dst cap scale u = .ok () v) :
    v.res1 = BitVec.ofNat 32 scale := by
  rw [encodeSetup] at h
  obtain ⟨_, _, -, h⟩ := ok_of_bind _ h
  obtain ⟨_, _, -, h⟩ := ok_of_bind _ h
  rw [run_update_bind] at h
  exact (keeps_doBwinit (P := fun w => w.res1 = BitVec.ofNat 32 scale) dst cap fun _ hw _ => hw).of_ok rfl h

end Head

/-- Behind its checks ENCODE reports the scale in RES1 and the bytes written in RES0; it succeeds, or it fills its buffer and
raises ERR_BOUNDS (47 R680, R682). -/
theorem run_doEncode_legal_cases {src dst cap dims opts raw : Word} {f : PixelFormat} {s : State} (hs : ParamOk s)
    (hf : legalFormat (opts.extractLsb' 0 4) (subsamplingOf (opts.extractLsb' 4 2)) = some f) (hw : lowHalf dims ≠ 0)
    (hh : highHalf dims ≠ 0) (hsrc : src.toNat + srcSize f (lowHalf dims) (highHalf dims) ≤ s.memBytes)
    (hdst : dst.toNat + cap.toNat ≤ s.memBytes) :
    ∃ v, v.res1 = BitVec.ofNat 32 (encodeScale opts raw) ∧ v.res0 = v.bw.ptr - dst ∧ v.res0.toNat ≤ cap.toNat
      ∧ (doEncode src dst cap dims opts raw s = .ok () v
        ∨ doEncode src dst cap dims opts raw s = .error .bounds v ∧ v.res0 = cap) := by
  obtain ⟨u, hsetup, hq, hbw, -, -, hbytes⟩ :=
    run_encodeSetup (s := setRes0 0#32 s) (dst := dst) (encodeScale opts raw) hdst
  have hres1 := encodeSetup_ok_res1 hsetup
  have hend := extent_end_toNat hs hdst
  have hrange : WriterInRange u := by
    rw [WriterInRange, ParamOk, WriterOk, hbw, hbytes]
    exact ⟨hs, by simp only [hend]; omega, hend ▸ hdst, Nat.zero_lt_one⟩
  have hends := ends_encodeFrame hq hf (hbytes ▸ hsrc) hrange (by rw [hbw]) hw hh
  have hrun := run_doEncode_legal (src := src) (dst := dst) (cap := cap) (dims := dims) (raw := raw) hf s
  rw [if_neg (by omega), if_neg (by omega), run_bind_ok _ hsetup, run_bind, run_onError] at hrun
  unfold Ends at hends
  cases hframe : encodeFrame (opts.extractLsb' 4 2) (opts.extractLsb' 0 4) src dims u with
  | ok _ v =>
    rw [hframe] at hends hrun
    exact ⟨countBytes dst v, hends.res1.trans hres1, rfl, hends.count_le hbw hend, .inl hrun⟩
  | error e v =>
    rw [hframe] at hends hrun
    obtain ⟨⟨rfl, hfull⟩, hon⟩ := hends
    exact ⟨countBytes dst v, hon.res1.trans hres1, rfl, hon.count_le hbw hend, .inr ⟨hrun, hon.count_full hbw hfull⟩⟩

/-- Settles O57: the head check by check, then `run_doEncode_legal_cases`. -/
theorem encodePreconditionsAreItsHeadChecks : Obligations.EncodePreconditionsAreItsHeadChecks := by
  intro s hs pair w h q scale
  refine ⟨fun hpair => runCommand_error (run_doEncode_illegal hpair s), fun f hf => ?_, fun hargs => ?_⟩
  · have hrun := run_doEncode_legal (src := s.argL[0]) (dst := s.argL[1]) (cap := s.argL[2]) (dims := s.argL[3])
      (raw := s.argL[5]) hf s
    refine ⟨fun hdims => ?_, fun ⟨hw, hh, hext⟩ => ?_⟩
    · rw [if_pos hdims] at hrun
      exact runCommand_error hrun
    · rw [if_neg (not_or.mpr ⟨hw, hh⟩), if_pos hext] at hrun
      exact runCommand_error hrun
  · obtain ⟨f, hf, hw, hh, hsrc, hdst⟩ := hargs
    obtain ⟨v, hres1, hres0, hcap, hrun⟩ := run_doEncode_legal_cases (raw := s.argL[5]) hs hf hw hh hsrc hdst
    rw [encodeScale_eq] at hres1
    rcases hrun with hok | ⟨herr, hfull⟩
    · exact ⟨_, runCommand_ok hok, .inl rfl, hres1, hres0, hcap, fun hcode => absurd hcode (by decide : 0#8 ≠ 17#8)⟩
    · exact ⟨_, runCommand_error herr, .inr rfl, hres1, hres0, hcap, fun _ => hfull⟩

end Sys2Proof.Machine
end

section
/-! FDCT and IDCT: the two passes entry by entry, and the kernels on the inputs whose outputs are known: the sum in the
DC output, constant rows, DC-only rows (42 R401, R402, R410, R420, R421). -/

namespace Sys2Proof.Machine

/-! ### Natural order (42 R410) -/

/-- The index 8·r + c of row r and column c in natural order (42 R410). -/
def naturalIndex (r c : Fin 8) : Fin 64 := ⟨8 * r.val + c.val, by omega⟩

theorem exists_naturalIndex (i : Fin 64) : ∃ r c : Fin 8, naturalIndex r c = i :=
  ⟨⟨i.val / 8, by omega⟩, ⟨i.val % 8, by omega⟩, Fin.ext (Nat.div_add_mod i.val 8)⟩

/-- Only row 0 and column 0 meet in entry 0. -/
theorem naturalIndex_ne_zero {r c : Fin 8} (h : r ≠ 0 ∨ c ≠ 0) : naturalIndex r c ≠ 0 := by
  intro hi
  have hval : 8 * r.val + c.val = 0 := congrArg Fin.val hi
  omega

theorem sum_naturalIndex (f : Fin 64 → Int) : ∑ i, f i = ∑ r, ∑ c, f (naturalIndex r c) := by
  have hidx (p : Fin 8 × Fin 8) : (finProdFinEquiv p : Fin (8 * 8)) = naturalIndex p.1 p.2 :=
    Fin.ext (Nat.add_comm p.2.val (8 * p.1.val))
  calc ∑ i, f i = ∑ p : Fin 8 × Fin 8, f (finProdFinEquiv p) := 
        (Equiv.sum_comp (finProdFinEquiv (m := 8) (n := 8)) f).symm
    _ = ∑ r, ∑ c, f (naturalIndex r c) := by simp only [hidx, Fintype.sum_prod_type]

/-- The sum of a block's entries, row by row. -/
theorem sum_toList_toInt (b : Block) : (b.toList.map BitVec.toInt).sum = ∑ r, ∑ c, b[naturalIndex r c].toInt := by
  have hlist : b.toList = List.ofFn fun i : Fin 64 => b[i] := by
    rw [← Vector.toList_ofFn]
    exact congrArg _ (Vector.ext fun _ hi => (Vector.getElem_ofFn (f := fun i : Fin 64 => b[i]) hi).symm)
  rw [hlist, List.map_ofFn, List.sum_ofFn, ← sum_naturalIndex fun i => b[i].toInt]
  rfl

/-! ### The two passes, entry by entry (42 R410, R420) -/

theorem blockRow_eq (b : Block) (r : Fin 8) : blockRow b r = Vector.ofFn fun c => b[naturalIndex r c].toInt := rfl

/-- Entry r of column c after both passes. -/
theorem twoPasses_getElem (f g : Vector Int 8 → Vector Int 8) (b : Block) (r c : Fin 8) :
    (twoPasses f g b)[c][r] = (g (Vector.ofFn fun i => (f (blockRow b i))[c]))[r] := by
  simp [twoPasses, column]

theorem blockOfColumns_getElem (h : Int → Word) (cols : Vector (Vector Int 8) 8) (r c : Fin 8) :
    (blockOfColumns h cols)[naturalIndex r c] = h cols[c][r] := by
  have hcol : (8 * r.val + c.val) % 8 = c.val := by omega
  have hrow : (8 * r.val + c.val) / 8 = r.val := by omega
  simp only [blockOfColumns, naturalIndex, Fin.getElem_fin, Vector.getElem_ofFn, hcol, hrow]

theorem fdctBlock_getElem (b : Block) (u v : Fin 8) :
    (fdctBlock b)[naturalIndex u v]
      = wrap32 (forward1 (Vector.ofFn fun r => (forward1 (blockRow b r) 0 10)[v]) 3 13)[u] := by
  rw [fdctBlock, blockOfColumns_getElem, twoPasses_getElem]

theorem idctBlock_getElem (b : Block) (r c : Fin 8) :
    (idctBlock b)[naturalIndex r c]
      = wrap32 (clip (rnd (inverse1 (Vector.ofFn fun i => (inverse1 (blockRow b i))[c]))[r] 3 + 128)) := by
  rw [idctBlock, blockOfColumns_getElem, twoPasses_getElem]

/-- A column of FDCT from what the row pass leaves in it. -/
theorem fdctBlock_getElem_of_rows {b : Block} {v : Fin 8} {f : Fin 8 → Int}
    (hrow : ∀ r, (forward1 (blockRow b r) 0 10)[v] = f r) (u : Fin 8) :
    (fdctBlock b)[naturalIndex u v] = wrap32 (forward1 (Vector.ofFn f) 3 13)[u] := by
  rw [fdctBlock_getElem, funext hrow]

/-- A column of IDCT from what the row pass leaves in it. -/
theorem idctBlock_getElem_of_rows {b : Block} {c : Fin 8} {f : Fin 8 → Int}
    (hrow : ∀ i, (inverse1 (blockRow b i))[c] = f i) (r : Fin 8) :
    (idctBlock b)[naturalIndex r c] = wrap32 (clip (rnd (inverse1 (Vector.ofFn f))[r] 3 + 128)) := by
  rw [idctBlock_getElem, funext hrow]

theorem exec_fdct (d src : Slot) (s : State) :
    exec (.fdct d src) s = .next (complete none (setBlk d (fdctBlock (getBlk s src)) s)) := rfl

theorem exec_idct (d src : Slot) (s : State) :
    exec (.idct d src) s = .next (complete none (setBlk d (idctBlock (getBlk s src)) s)) := rfl

/-- FDCT leaves the transform of the source in the destination. -/
theorem getBlk_of_exec_fdct {d src : Slot} {s t : State} (h : exec (.fdct d src) s = .next t) :
    getBlk t d = fdctBlock (getBlk s src) := by
  rw [exec_fdct] at h
  cases h
  rw [getBlk_complete, getBlk_setBlk_same]

/-- IDCT leaves the inverse transform of the source in the destination. -/
theorem getBlk_of_exec_idct {d src : Slot} {s t : State} (h : exec (.idct d src) s = .next t) :
    getBlk t d = idctBlock (getBlk s src) := by
  rw [exec_idct] at h
  cases h
  rw [getBlk_complete, getBlk_setBlk_same]

/-- Settles O29: each command writes its block, whose entries are those of the two passes. -/
theorem dctCommandsFollowTheGraph : Obligations.DctCommandsFollowTheGraph := fun d src s =>
  ⟨⟨_, exec_fdct d src s, fdctBlock_getElem _⟩, _, exec_idct d src s, idctBlock_getElem _⟩

/-! ### The forward kernel (42 R401, R410) -/

theorem rnd_zero {n : Nat} (hn : 0 < n) : rnd 0 n = 0 := by
  have hlt : (2 : Int) ^ (n - 1) < 2 ^ n := pow_lt_pow_right₀ (by decide) (by omega)
  rw [rnd, Int.zero_add, Int.shiftRight_eq_div_pow]
  exact Int.ediv_eq_zero_of_lt (by positivity) (by exact_mod_cast hlt)

/-- The rounding of R421, which shifts by an integer 3, is `rnd` by 3 bits. -/
theorem rnd_three (x : Int) : rnd x 3 = (x + 4) >>> (3 : Int) := (Int.shiftRight_natCast_right (x + 4) 3).symm

theorem evenShift_zero (se : Nat) : evenShift 0 se = 0 := by
  unfold evenShift
  split
  · rfl
  · exact rnd_zero (by omega)

/-- The DC output adds all eight inputs: the even part never subtracts on its way (42 R401). -/
theorem forward1_getElem_zero (f : Fin 8 → Int) (se so : Nat) :
    (forward1 (Vector.ofFn f) se so)[(0 : Fin 8)] = evenShift (∑ i, f i) se := by
  have hsum : f 0 + f 7 + (f 3 + f 4) + (f 1 + f 6 + (f 2 + f 5)) = ∑ i, f i := by
    rw [Fin.sum_univ_eight]
    ring
  exact congrArg (evenShift · se) hsum

/-- A constant input has no AC: every difference the kernel forms is 0 (42 R410). -/
theorem forward1_const_getElem_of_ne_zero (x : Int) (se : Nat) {so : Nat} (hso : 0 < so) {k : Fin 8} (hk : k ≠ 0) :
    (forward1 (Vector.ofFn fun _ => x) se so)[k] = 0 := by
  fin_cases k
  · exact absurd rfl hk
  all_goals simp [forward1, rnd_zero hso, evenShift_zero]

/-- The DC output of FDCT is the rounded sum of the entries (42 R410). -/
theorem fdctBlock_getElem_zero (b : Block) : (fdctBlock b)[0] = wrap32 (rnd (b.toList.map BitVec.toInt).sum 3) := by
  have hrow (r : Fin 8) : (forward1 (blockRow b r) 0 10)[(0 : Fin 8)] = ∑ c, b[naturalIndex r c].toInt := by
    rw [blockRow_eq, forward1_getElem_zero, evenShift, if_pos rfl]
  have hdc := fdctBlock_getElem_of_rows hrow 0
  rwa [forward1_getElem_zero, evenShift, if_neg (by decide), ← sum_toList_toInt] at hdc

section Constant
variable {b : Block} {x : Word} (h : ∀ i : Fin 64, b[i] = x)
include h

/-- The rounding of the sum is exact on a constant block (42 R410). -/
theorem fdctBlock_const_getElem_zero : (fdctBlock b)[0] = wrap32 (8 * x.toInt) := by
  have hsum : (b.toList.map BitVec.toInt).sum = 64 * x.toInt := by
    simp only [sum_toList_toInt, h, Finset.sum_const, Finset.card_univ, Fintype.card_fin, nsmul_eq_mul]
    omega
  have hrnd : rnd (64 * x.toInt) 3 = 8 * x.toInt := by
    rw [rnd, Int.shiftRight_eq_div_pow]
    omega
  rw [fdctBlock_getElem_zero, hsum, hrnd]

/-- The row pass makes every column constant, and every column but the first 0 (42 R410). -/
theorem fdctBlock_const_getElem_of_ne_zero {i : Fin 64} (hi : i ≠ 0) : (fdctBlock b)[i] = 0#32 := by
  obtain ⟨u, v, rfl⟩ := exists_naturalIndex i
  have hrow (r : Fin 8) : blockRow b r = Vector.ofFn fun _ => x.toInt := by simp only [blockRow_eq, h]
  by_cases hu : u = 0
  · have hv : v ≠ 0 := fun hv => hi (by rw [hu, hv]; rfl)
    have hcol (r : Fin 8) : (forward1 (blockRow b r) 0 10)[v] = 0 := by
      rw [hrow, forward1_const_getElem_of_ne_zero _ _ (by decide) hv]
    rw [fdctBlock_getElem_of_rows hcol, hu, forward1_getElem_zero, Finset.sum_const_zero, evenShift_zero]
    rfl
  · have hcol (r : Fin 8) : (forward1 (blockRow b r) 0 10)[v] = (forward1 (Vector.ofFn fun _ => x.toInt) 0 10)[v] := by
      rw [hrow]
    rw [fdctBlock_getElem_of_rows hcol, forward1_const_getElem_of_ne_zero _ _ (by decide) hu]
    rfl

end Constant

/-- Settles O30: the kernel's DC output is a sum, and a constant row or column has no other. -/
theorem fdctDcIsTheRoundedSum : Obligations.FdctDcIsTheRoundedSum := by
  intro d src s t h
  rw [getBlk_of_exec_fdct h]
  exact ⟨fdctBlock_getElem_zero _, fun x hx =>
    ⟨fdctBlock_const_getElem_zero hx, fun i hi => fdctBlock_const_getElem_of_ne_zero hx hi⟩⟩

/-! ### The inverse kernel (42 R402, R420, R421) -/

/-- On a DC-only input every rounded product is 0, and the DC reaches each output once (42 R421). -/
theorem inverse1_dcOnly {x : Vector Int 8} (h : ∀ k : Fin 8, k ≠ 0 → x[k] = 0) (k : Fin 8) :
    (inverse1 x)[k] = x[(0 : Fin 8)] := by
  have h1 : x[1] = 0 := h 1 (by decide)
  have h2 : x[2] = 0 := h 2 (by decide)
  have h3 : x[3] = 0 := h 3 (by decide)
  have h4 : x[4] = 0 := h 4 (by decide)
  have h5 : x[5] = 0 := h 5 (by decide)
  have h6 : x[6] = 0 := h 6 (by decide)
  have h7 : x[7] = 0 := h 7 (by decide)
  fin_cases k <;> simp [inverse1, h1, h2, h3, h4, h5, h6, h7, rnd_zero]

/-- The row pass leaves the DC in all of row 0 and nothing in the other rows, so every column is DC-only (42 R421). -/
theorem idctBlock_dcOnly {b : Block} (h : ∀ i : Fin 64, i ≠ 0 → b[i] = 0#32) (i : Fin 64) :
    (idctBlock b)[i] = wrap32 (clip (((b[0].toInt + 4) >>> 3) + 128)) := by
  obtain ⟨r, c, rfl⟩ := exists_naturalIndex i
  have hentry (j k : Fin 8) (hne : j ≠ 0 ∨ k ≠ 0) : (blockRow b j)[k] = 0 :=
    (Vector.getElem_ofFn _).trans (congrArg BitVec.toInt (h _ (naturalIndex_ne_zero hne)))
  have hrow (j : Fin 8) : (inverse1 (blockRow b j))[c] = (blockRow b j)[(0 : Fin 8)] :=
    inverse1_dcOnly (fun k hk => hentry j k (.inr hk)) c
  have hcol := inverse1_dcOnly (x := Vector.ofFn fun j => (blockRow b j)[(0 : Fin 8)])
    (fun k hk => (Vector.getElem_ofFn _).trans (hentry k 0 (.inl hk))) r
  have hdc : (Vector.ofFn fun j => (blockRow b j)[(0 : Fin 8)])[(0 : Fin 8)] = b[0].toInt :=
    (Vector.getElem_ofFn _).trans (Vector.getElem_ofFn _)
  rw [idctBlock_getElem_of_rows hrow, hcol, hdc, rnd_three]

theorem clip_bounds (x : Int) : 0 ≤ clip x ∧ clip x ≤ 255 := by
  rw [clip, clamp_eq_max_min (by decide)]
  omega

theorem toInt_wrap32_clip (x : Int) : (wrap32 (clip x)).toInt = clip x := by
  have hb := clip_bounds x
  rw [wrap32, BitVec.toInt_ofInt, Int.bmod_eq_of_le] <;> omega

theorem idctBlock_bounds (b : Block) (i : Fin 64) : 0 ≤ (idctBlock b)[i].toInt ∧ (idctBlock b)[i].toInt ≤ 255 := by
  obtain ⟨r, c, rfl⟩ := exists_naturalIndex i
  rw [idctBlock_getElem, toInt_wrap32_clip]
  exact clip_bounds _

/-- Settles O31: a DC-only block stays so in both passes, and the last step clamps every sample. -/
theorem idctOfDcOnlyIsFlat : Obligations.IdctOfDcOnlyIsFlat := by
  intro d src s t h
  rw [getBlk_of_exec_idct h]
  exact ⟨idctBlock_dcOnly, idctBlock_bounds _⟩

end Sys2Proof.Machine
end

section
/-! The set-up of the streams, and the decoder tables HLOAD and DHT install (43 R461, R467, R468, R473 to R475; 45 R584). -/

namespace Sys2Proof.Machine

/-! ### BWINIT, BRINIT, BRALIGN (43 R461, R467, R468) -/

theorem run_doBrinit {s : State} {a n : Word} (h : a.toNat + n.toNat ≤ s.memBytes) :
    doBrinit a n s = .ok () { s with br := { ptr := a, lim := a + n, cur := 0#8, cnt := 0#4, mark := false } } := by
  rw [doBrinit, run_bind_ok s (run_checkExtent s _ _ h), run_update]

/-- Settles O28: each command with its buffer inside LMEM, and outside it. -/
theorem streamBuffersAreSetUp : Obligations.StreamBuffersAreSetUp := fun s =>
  ⟨fun hin => ⟨runCommand_ok (run_doBwinit hin), runCommand_ok (run_doBrinit hin), fun hs => extent_end_toNat hs hin⟩,
    fun hout => ⟨runCommand_error (run_bind_error s (run_checkExtent_outside s _ _ hout)),
      runCommand_error (run_bind_error s (run_checkExtent_outside s _ _ hout))⟩,
    rfl⟩

/-! ### The check of a table (43 R473) -/

theorem run_checkTable_bind {α : Type} (bits : List Byte) (k : Unit → Eng α) (s : State) :
    (checkTable bits >>= k) s
      = if bitsValid (bits.map BitVec.toNat) = true then k () s else .error .badTable s :=
  run_check_bind s _ _ k

theorem bitsSum_le_of_bitsValid {bits : List Byte} (h : bitsValid (bits.map BitVec.toNat) = true) : bitsSum bits ≤ 256 :=
  of_decide_eq_true (Bool.and_eq_true_iff.1 h).1

/-! ### An installed table (43 R474) -/

section InstallHt
variable (tc th : BitVec 1) (e : HuffTable) (s : State)

@[simp] theorem htValid_installHt_same : htValid (installHt tc th e s) tc th = true := by simp [htValid]

@[simp] theorem getHt_installHt_same : getHt (installHt tc th e s) tc th = e := by simp [getHt]

end InstallHt

@[simp] theorem htValid_complete (o : Option ErrCode) (s : State) (tc th : BitVec 1) :
    htValid (complete o s) tc th = htValid s tc th := rfl

@[simp] theorem htValid_setRes0 (v : Word) (s : State) (tc th : BitVec 1) : htValid (setRes0 v s) tc th = htValid s tc th := rfl

@[simp] theorem getHt_complete (o : Option ErrCode) (s : State) (tc th : BitVec 1) :
    getHt (complete o s) tc th = getHt s tc th := rfl

@[simp] theorem getHt_setRes0 (v : Word) (s : State) (tc th : BitVec 1) : getHt (setRes0 v s) tc th = getHt s tc th := rfl

theorem huffTableOf_bits_getElem (bits vals : List Byte) (i : Fin 16) :
    (huffTableOf bits vals).bits[i] = bits.getD i.val 0#8 := Vector.getElem_ofFn ..

theorem huffTableOf_vals_getElem (bits vals : List Byte) (k : Fin 256) :
    (huffTableOf bits vals).vals[k] = vals.getD k.val 0#8 := Vector.getElem_ofFn ..

theorem readBytes_getD_ite (s : State) (a n k : Nat) :
    (readBytes s a n).getD k 0#8 = if k < n then readByte s (a + k) else 0#8 := by
  rw [List.getD_eq_getElem?_getD, readBytes_getElem?]
  split <;> rfl

/-! ### HLOAD (43 R475) -/

/-- HLOAD of a legal table id: its checks in their order, then the table and the image's length. -/
theorem run_doHload {t : BitVec 2} {x : BitVec 4} (ht : t.toNat < 2) (hx : x.toNat < 2) (a : Word) (s : State) :
    doHload t x a s =
      if s.memBytes < a.toNat + 16 then .error .bounds s
      else if 256 < bitsSum (readBytes s a.toNat 16) then .error .badTable s
      else if s.memBytes < a.toNat + (16 + bitsSum (readBytes s a.toNat 16)) then .error .bounds s
      else if bitsValid ((readBytes s a.toNat 16).map BitVec.toNat) = true then
        .ok () (setRes0 (BitVec.ofNat 32 (16 + bitsSum (readBytes s a.toNat 16)))
          (installHt (x.setWidth 1) (t.setWidth 1)
            (huffTableOf (readBytes s a.toNat 16)
              (readBytes s (a.toNat + 16) (bitsSum (readBytes s a.toNat 16)))) s))
      else .error .badTable s := by
  rw [doHload, run_check_bind, if_pos (by simp [hx, ht])]
  split
  case isTrue hout => exact run_bind_error s (run_checkExtent_outside s _ _ hout)
  case isFalse hin =>
    rw [run_bind_ok s (run_checkExtent s _ _ (by omega)), run_bind_ok s (run_memReads s _ _ (by omega)), run_check_bind]
    generalize readBytes s a.toNat 16 = bits
    split
    case isFalse hmany => rw [if_pos (by simpa using hmany)]
    case isTrue hfew =>
      rw [if_neg (by simpa using hfew)]
      split
      case isTrue hout => exact run_bind_error s (run_checkExtent_outside s _ _ hout)
      case isFalse hin =>
        rw [run_bind_ok s (run_checkExtent s _ _ (by omega)), run_bind_ok s (run_memReads s _ _ (by omega)),
          run_checkTable_bind, run_update_bind, run_update]

/-- Settles O36: `run_doHload` branch by branch, and the entries of the table. -/
theorem hloadInstallsTheImage : Obligations.HloadInstallsTheImage := by
  intro tt x s ht hx a bits n
  have hrun := run_doHload ht hx s.argL[0] s
  refine ⟨fun hout => ?_, fun ⟨hin, hmany⟩ => ?_, fun ⟨hin, hfew, hout⟩ => ?_, fun ⟨hin, hfew, hbad⟩ => ?_,
    fun ⟨hin, hvalid⟩ => ?_⟩
  · rw [if_pos hout] at hrun
    exact runCommand_error hrun
  · rw [if_neg (Nat.not_lt.2 hin), if_pos hmany] at hrun
    exact runCommand_error hrun
  · rw [if_neg (Nat.not_lt.2 hin), if_neg (Nat.not_lt.2 hfew), if_pos (Nat.add_assoc .. ▸ hout)] at hrun
    exact runCommand_error hrun
  · rw [if_neg (by omega), if_neg (Nat.not_lt.2 hfew), if_neg (Nat.not_lt.2 (Nat.add_assoc .. ▸ hin)),
      if_neg (ne_true_of_eq_false hbad)] at hrun
    exact runCommand_error hrun
  · rw [if_neg (by omega), if_neg (Nat.not_lt.2 (bitsSum_le_of_bitsValid hvalid)),
      if_neg (Nat.not_lt.2 (Nat.add_assoc .. ▸ hin)), if_pos hvalid] at hrun
    refine ⟨_, runCommand_ok hrun, succeeded_complete_none _, (complete_res0 ..).trans (setRes0_res0 ..), ?_, fun i => ?_,
      fun k => ?_⟩
    · rw [htValid_complete, htValid_setRes0, htValid_installHt_same]
    · rw [getHt_complete, getHt_setRes0, getHt_installHt_same, huffTableOf_bits_getElem, readBytes_getD s i.isLt]
    · rw [getHt_complete, getHt_setRes0, getHt_installHt_same, huffTableOf_vals_getElem, readBytes_getD_ite]

/-! ### The tables of a DHT segment (45 R584) -/

/-- The bytes of a DHT table: its id, BITS, HUFFVAL. -/
theorem dhtImage_cons (x : DhtEntry) (ts : List DhtEntry) :
    dhtImage (x :: ts) = ((0#3 ++ x.tc ++ 0#3 ++ x.th) :: (x.bits ++ x.vals)) ++ dhtImage ts := rfl

theorem installHts_cons (x : DhtEntry) (ts : List DhtEntry) (s : State) :
    installHts (x :: ts) s = installHts ts (installHt x.tc x.th (huffTableOf x.bits x.vals) s) := rfl

/-- Installing tables leaves everything but them alone: what the parser still reads is the same. -/
theorem installHts_eq (ts : List DhtEntry) (s : State) :
    installHts ts s = { s with ht := (installHts ts s).ht, hvalid := (installHts ts s).hvalid } := by
  induction ts generalizing s with
  | nil => rfl
  | cons x ts ih =>
    rw [installHts_cons, ih]
    rfl

@[simp] theorem installHts_br (ts : List DhtEntry) (s : State) : (installHts ts s).br = s.br := by
  rw [installHts_eq]

@[simp] theorem installHts_memBytes (ts : List DhtEntry) (s : State) : (installHts ts s).memBytes = s.memBytes := by
  rw [installHts_eq]

theorem readBytes_installHt (tc th : BitVec 1) (e : HuffTable) (s : State) (a n : Nat) :
    readBytes (installHt tc th e s) a n = readBytes s a n :=
  readBytes_mem_congr (s := s) (t := installHt tc th e s) rfl rfl a n

theorem readBytes_installHts (ts : List DhtEntry) (s : State) (a n : Nat) :
    readBytes (installHts ts s) a n = readBytes s a n :=
  readBytes_mem_congr (by rw [installHts_eq]) (by rw [installHts_eq]) a n

/-- The id byte of a table passes its check and gives Tc and Th back (45 R584). -/
theorem huffTableId_ok : ∀ tc th : BitVec 1, (0#3 ++ tc ++ 0#3 ++ th : Byte).toNat / 16 ≤ 1
    ∧ (0#3 ++ tc ++ 0#3 ++ th : Byte).toNat % 16 ≤ 1 ∧ (0#3 ++ tc ++ 0#3 ++ th : Byte).extractLsb' 4 1 = tc
    ∧ (0#3 ++ tc ++ 0#3 ++ th : Byte).extractLsb' 0 1 = th := by decide

/-- The start of what is read is read at the same place. -/
theorem readBytes_take {s : State} {a m n : Nat} (h : m ≤ n) : (readBytes s a n).take m = readBytes s a m := by
  rw [← Nat.add_sub_cancel' h, readBytes_append, List.take_left' (readBytes_length ..)]

section DhtTables
variable {u : State} {stop p fuel : Nat} (hstop : stop ≤ u.memBytes)
include hstop

/-- One round: a table is installed, and the next one stands behind its symbols. -/
theorem run_dhtTables_table {x : DhtEntry} (hlen : x.bits.length = 16)
    (hvalid : bitsValid (x.bits.map BitVec.toNat) = true) (hvals : x.vals.length = bitsSum x.bits)
    (hfits : p + (17 + bitsSum x.bits) ≤ stop)
    (hbytes : readBytes u p (17 + bitsSum x.bits) = (0#3 ++ x.tc ++ 0#3 ++ x.th) :: (x.bits ++ x.vals)) :
    dhtTables stop (fuel + 1) p u
      = dhtTables stop fuel (p + (17 + bitsSum x.bits)) (installHt x.tc x.th (huffTableOf x.bits x.vals) u) := by
  obtain ⟨htc, hth, hwc, hwh⟩ := huffTableId_ok x.tc x.th
  have hsum := bitsSum_le_of_bitsValid hvalid
  rw [show 17 + bitsSum x.bits = (16 + bitsSum x.bits) + 1 by omega, readBytes] at hbytes
  obtain ⟨hid, hrest⟩ := List.cons.inj hbytes
  rw [readBytes_append] at hrest
  obtain ⟨hbits, hsyms⟩ := List.append_inj hrest (by rw [readBytes_length, hlen])
  have hread : memReads (p + 1) 16 u = .ok x.bits u := hbits ▸ run_memReads u _ _ (by omega)
  have hreadSyms : memReads (p + 17) (bitsSum x.bits) u = .ok x.vals u :=
    (run_memReads u (bitsSum x.bits) (p + 17) (by omega)).trans (congrArg (EStateM.Result.ok · u) hsyms)
  rw [dhtTables, if_neg (by omega), run_bind_ok u (run_memRead u (by omega)), hid, run_check_bind,
    if_pos (by simp only [htc, hth, decide_true, Bool.and_self]), run_check_bind, if_pos (decide_eq_true (by omega)),
    run_bind_ok u hread, run_check_bind, if_pos, run_bind_ok u hreadSyms, run_checkTable_bind, if_pos hvalid,
    run_update_bind, hwc, hwh, Nat.add_assoc]
  rw [Bool.and_eq_true, decide_eq_true_eq, decide_eq_true_eq]
  omega

/-- Bytes that are no table: ERR_BAD_TABLE, nothing installed. -/
theorem run_dhtTables_bad {bad : List Byte} (hbad : badDhtTable bad) (hend : p + bad.length = stop)
    (hbytes : readBytes u p bad.length = bad) : dhtTables stop (fuel + 1) p u = .error .badTable u := by
  obtain ⟨tt, rest, rfl, hcase⟩ := hbad
  rw [List.length_cons] at hend hbytes
  obtain ⟨hid, hrest⟩ := List.cons.inj hbytes
  rw [dhtTables, if_neg (by omega), run_bind_ok u (run_memRead u (by omega)), hid, run_check_bind]
  split
  case isFalse => rfl
  case isTrue hok =>
    rw [run_check_bind]
    split
    case isFalse => rfl
    case isTrue hroom =>
      simp only [Bool.and_eq_true, decide_eq_true_eq] at hok hroom
      have hbits : readBytes u (p + 1) 16 = rest.take 16 := by
        rw [← hrest, readBytes_take (by omega)]
      rw [run_bind_ok u (run_memReads u _ _ (by omega)), hbits, run_check_bind]
      split
      case isFalse => rfl
      case isTrue hsum =>
        simp only [Bool.and_eq_true, decide_eq_true_eq] at hsum
        have hinvalid : bitsValid ((rest.take 16).map BitVec.toNat) = false :=
          hcase.resolve_left (by omega) |>.resolve_left (by omega) |>.resolve_left (by omega) |>.resolve_left (by omega)
        rw [run_bind_ok u (run_memReads u _ _ (by omega)), run_checkTable_bind, hinvalid, if_neg (by decide)]

end DhtTables

/-- The tables of the segment one after another, up to what stands behind them. -/
theorem run_dhtTables {ts : List DhtEntry} {stop p fuel : Nat} {u : State} (hts : dhtImageOk ts)
    (hstop : stop ≤ u.memBytes) (hfits : p + (dhtImage ts).length ≤ stop)
    (hbytes : readBytes u p (dhtImage ts).length = dhtImage ts) :
    dhtTables stop (fuel + ts.length) p u = dhtTables stop fuel (p + (dhtImage ts).length) (installHts ts u) := by
  induction ts generalizing p u with
  | nil => rfl
  | cons x ts ih =>
    obtain ⟨hlen, hvalid, hvals⟩ := hts x (List.mem_cons_self ..)
    have htable : ((0#3 ++ x.tc ++ 0#3 ++ x.th) :: (x.bits ++ x.vals) : List Byte).length = 17 + bitsSum x.bits := by
      rw [List.length_cons, List.length_append, hlen, hvals]
      omega
    rw [dhtImage_cons, List.length_append, htable] at hfits hbytes ⊢
    rw [readBytes_append] at hbytes
    obtain ⟨hfirst, hrest⟩ := List.append_inj hbytes (by rw [readBytes_length, htable])
    rw [List.length_cons, ← Nat.add_assoc, run_dhtTables_table hstop hlen hvalid hvals (by omega) hfirst,
      ih (u := installHt x.tc x.th (huffTableOf x.bits x.vals) u) (p := p + (17 + bitsSum x.bits))
        (fun y hy => hts y (List.mem_cons_of_mem x hy)) hstop (by omega) ((readBytes_installHt ..).trans hrest),
      installHts_cons, Nat.add_assoc]

/-- The tables of a DHT segment take no more rounds than they have bytes. -/
theorem length_le_dhtImage (ts : List DhtEntry) : ts.length ≤ (dhtImage ts).length := by
  induction ts with
  | nil => exact Nat.le_refl 0
  | cons x ts ih =>
    rw [dhtImage_cons, List.length_append, List.length_cons, List.length_cons]
    omega

/-- Behind the last table the segment ends. -/
theorem run_dhtTables_end {stop p : Nat} (h : stop ≤ p) (fuel : Nat) (u : State) :
    dhtTables stop (fuel + 1) p u = .ok () u := by
  rw [dhtTables, if_pos h, run_pure]

theorem run_parseDht {s : State} {len : Nat} (hs : ReaderOk s) (h : segmentAt s len) :
    parseDht s = (dhtTables (s.br.ptr.toNat + len) len (s.br.ptr.toNat + 2) >>= fun _ => update (advanceReader len)) s := by
  rw [parseDht, run_bind_ok s (run_segLen hs h), run_get_bind]

/-- Settles O51: the tables of the segment by `run_dhtTables`, then its end or the bytes that are no table. -/
theorem dhtInstallsItsTables : Obligations.DhtInstallsItsTables := by
  intro ts bad s hheader hs hts hseg hcontent
  have hparse := run_parseDht hs hseg
  rw [segmentContent, Nat.add_sub_cancel_left, List.length_append, readBytes_append] at hcontent
  obtain ⟨himage, hbad⟩ := List.append_inj hcontent (readBytes_length ..)
  obtain ⟨-, hlim, -⟩ := hs
  obtain ⟨-, -, -, hfits⟩ := hseg
  have hrounds := length_le_dhtImage ts
  rw [List.length_append] at hparse hfits ⊢
  generalize hlen : 2 + ((dhtImage ts).length + bad.length) = len at hparse hfits ⊢
  obtain ⟨fuel, hfuel⟩ : ∃ fuel, fuel + 1 + ts.length = len := ⟨len - ts.length - 1, by omega⟩
  have htables := run_dhtTables (stop := s.br.ptr.toNat + len) (fuel := fuel + 1) hts (by omega) (by omega) himage
  rw [hfuel] at htables
  constructor
  · rintro rfl
    rw [List.length_nil] at hlen
    rw [run_dhtTables_end (by omega)] at htables
    rw [run_bind_ok s htables, run_update] at hparse
    rw [exec_marker_goesOn hheader rfl (run_bind_ok s hparse)]
    simp only [advanceReader, installHts_br]
  · intro hnone
    rw [run_dhtTables_bad (by rw [installHts_memBytes]; omega) hnone (by omega)
      ((readBytes_installHts ..).trans hbad)] at htables
    rw [run_bind_error s htables] at hparse
    exact exec_marker_fails hheader rfl (run_bind_error s hparse)

end Sys2Proof.Machine
end

section
/-! What the bit writer's commands append: the bits of a block, the padding, EOI, the header; with and without room (43 R460 to
R465, R480; 44 R530 to R545). -/

namespace Sys2Proof.Machine

/-! ### Raw bytes without room (43 R460, R464) -/

/-- Bytes that overflow behind bytes that fit: both overflow together. -/
theorem overflowed_append {s : State} {out cs : List Byte} {w : BitWriter} (hroom : hasRoom s out.length)
    (hptr : w.ptr = s.bw.ptr + BitVec.ofNat 32 out.length) (hlim : w.lim = s.bw.lim) :
    overflowed cs { s with mem := (writeBytes s.bw.ptr.toNat out s).mem, bw := w } = overflowed (out ++ cs) s := by
  have hfit := hroom.1
  have hnat : w.ptr.toNat = s.bw.ptr.toNat + out.length := hptr ▸ ptr_add hroom
  have htake : (out ++ cs).take (s.bw.lim.toNat - s.bw.ptr.toNat)
      = out ++ cs.take (s.bw.lim.toNat - (s.bw.ptr.toNat + out.length)) := by
    rw [List.take_append, List.take_of_length_le (by omega), Nat.sub_add_eq]
  rw [overflowed, overflowed, htake, writeBytes_append, hlim, hnat]
  congr 1
  exact writeBytes_mem_congr _ _ rfl

/-- At BW_LIM with no bit pending an overflow changes nothing. -/
theorem overflowed_full {s : State} (hfull : s.bw.ptr = s.bw.lim) (hcnt : s.bw.cnt = 0#3) (hacc : s.bw.acc = 0#8)
    (out : List Byte) : overflowed out s = s := by
  have hbw : (⟨s.bw.lim, s.bw.lim, 0#8, 0#3⟩ : BitWriter) = s.bw := by rw [← hcnt, ← hacc]; congr; exact hfull.symm
  rw [overflowed, hbw, hfull, Nat.sub_self, List.take_zero, writeBytes]

/-- At a byte boundary no bit is pending. -/
theorem WriterOk.acc_eq_zero {s : State} (hs : WriterOk s) (hcnt : s.bw.cnt = 0#3) : s.bw.acc = 0#8 := by
  obtain ⟨-, -, hacc⟩ := hs
  rw [hcnt] at hacc
  exact BitVec.eq_of_toNat_eq (Nat.lt_one_iff.1 hacc)

/-- RAWBYTEs that do not all fit: ERR_BOUNDS; the bytes that fit are in LMEM and BW_PTR is BW_LIM. -/
theorem run_rawBytes_full {s : State} (bs : List Byte) (hs : WriterOk s) (hcnt : s.bw.cnt = 0#3)
    (hr : s.bw.lim.toNat < s.bw.ptr.toNat + bs.length) :
    forEach bs rawByte s = .error .bounds (overflowed bs s) := by
  obtain ⟨hptr, hlim, hacc⟩ := hs
  induction bs generalizing s with
  | nil => exact absurd hr (Nat.not_lt.2 hptr)
  | cons b bs ih =>
    rw [run_forEach_cons]
    by_cases hroom : hasRoom s 1
    · have hnext : (rawWritten [b] s).bw.ptr.toNat = s.bw.ptr.toNat + 1 := ptr_add hroom
      have hrest := ih (s := rawWritten [b] s) hcnt
        (by rw [hnext, Nat.add_right_comm]; exact hr) (hnext ▸ hroom.1) hlim hacc
      rw [run_bind_ok s (run_rawByte b hcnt hroom)]
      exact hrest.trans (congrArg _ (overflowed_append (out := [b]) hroom rfl rfl))
    · have hfull : s.bw.ptr = s.bw.lim := BitVec.eq_of_toNat_eq (by
        have : ¬ s.bw.ptr.toNat + 1 ≤ s.bw.lim.toNat := fun h => hroom ⟨h, hlim⟩
        omega)
      have hraw : rawByte b s = .error .bounds s := by
        rw [rawByte, run_checkState_pass s (by simp [hcnt]), run_emit_full b (by rw [hfull])]
      rw [run_bind_error s hraw, overflowed_full hfull hcnt (WriterOk.acc_eq_zero ⟨hptr, hlim, hacc⟩ hcnt)]

/-! ### HENC (43 R480) -/

theorem exec_henc {src : Slot} {c t : BitVec 2} {k : Fin 3} (hc : componentOf c = some k) (ht : t.toNat < 2) (s : State) :
    exec (.henc src c t) s = runCommand (encodeBlock src k (t.getLsbD 0)) s := by
  have hbody : doHenc src c t = encodeBlock src k (t.getLsbD 0) := by
    funext u
    simp only [doHenc, hc, ht, decide_true, run_check_true]
  exact congrArg (runCommand · s) hbody

/-- Settles O37: PUTBITS of the block's bits with room and without it, then the predictor. -/
theorem hencAppendsTheBlockBits : Obligations.HencAppendsTheBlockBits := by
  intro src c tt k s hc ht hs bits out
  obtain ⟨hptr, hlim, hacc⟩ := hs
  rw [exec_henc hc ht]
  refine ⟨fun hroom => runCommand_ok ?_, fun hfull => runCommand_error ?_⟩
  · rw [encodeBlock, run_get_bind, run_bind_ok s (run_putBits bits hacc ⟨hroom, hlim⟩), run_update]
  · rw [encodeBlock, run_get_bind, run_bind_error s (run_putBits_full bits hptr hlim hacc hfull)]

/-! ### BWFLUSH and CLOSE (43 R463; 44 R545) -/

/-- FLUSH appends the padding bits; at a byte boundary there are none (43 R463). -/
theorem flush_eq_putBits (s : State) : flush s = putBits (padBits s.bw) s := by
  rw [flush, run_get_bind, padBits]
  split
  case isTrue hcnt => simp only [hcnt]; rfl
  case isFalse hcnt =>
    have hpos : s.bw.cnt.toNat ≠ 0 := fun h => hcnt (BitVec.eq_of_toNat_eq h)
    rw [bitsMsb_ones, Nat.mod_eq_of_lt (by omega)]

theorem run_flush_full {s : State} (hs : WriterOk s)
    (hr : s.bw.lim.toNat < s.bw.ptr.toNat + (emittedBytes s.bw (padBits s.bw)).length) :
    flush s = .error .bounds (overflowed (emittedBytes s.bw (padBits s.bw)) s) := by
  obtain ⟨hptr, hlim, hacc⟩ := hs
  rw [flush_eq_putBits, run_putBits_full _ hptr hlim hacc hr]

theorem writerOk_appended {s : State} {bs : List Bool} (hroom : hasRoom s (emittedBytes s.bw bs).length) :
    WriterOk (appended bs s) :=
  ⟨(hasRoom_appended (n := 0) hroom).1, hroom.2, appended_acc_lt bs s⟩

theorem doClose_eq : doClose = (flush >>= fun _ => forEach [0xFF#8, 0xD9#8] rawByte) := by
  simp only [doClose, forEach, bind_pure_unit]

/-- CLOSE without room: in the padding, or in EOI behind it (44 R545). -/
theorem run_doClose_full {s : State} (hs : WriterOk s)
    (hr : s.bw.lim.toNat < s.bw.ptr.toNat + (emittedBytes s.bw (padBits s.bw)).length + 2) :
    doClose s = .error .bounds (overflowed (emittedBytes s.bw (padBits s.bw) ++ [0xFF#8, 0xD9#8]) s) := by
  have ⟨_, hlim, hacc⟩ := hs
  rw [doClose_eq]
  by_cases hroom : s.bw.ptr.toNat + (emittedBytes s.bw (padBits s.bw)).length ≤ s.bw.lim.toNat
  · have hpad : hasRoom s (emittedBytes s.bw (padBits s.bw)).length := ⟨hroom, hlim⟩
    have hptr : (appended (padBits s.bw) s).bw.ptr.toNat = s.bw.ptr.toNat + (emittedBytes s.bw (padBits s.bw)).length :=
      ptr_add hpad
    rw [run_bind_ok s (run_flush hacc hpad),
      run_rawBytes_full _ (writerOk_appended hpad) (appended_padBits_cnt s) (by rw [hptr]; exact hr)]
    exact congrArg _ (overflowed_append hpad rfl rfl)
  · have hfull := Nat.lt_of_not_le hroom
    rw [run_bind_error s (run_flush_full hs hfull), overflowed, overflowed,
      List.take_append_of_le_length (by omega)]

/-- Settles O38: FLUSH and CLOSE, each with room and without it. -/
theorem flushAndCloseEndTheStream : Obligations.FlushAndCloseEndTheStream := by
  intro s hs out
  have ⟨_, hlim, hacc⟩ := hs
  exact ⟨fun hroom => ⟨runCommand_ok (run_flush hacc ⟨hroom, hlim⟩), appended_padBits_cnt s⟩,
    fun hfull => runCommand_error (run_flush_full hs hfull),
    fun hroom => runCommand_ok (run_doClose hacc ⟨hroom, hlim⟩),
    fun hfull => runCommand_error (run_doClose_full hs hfull)⟩

/-! ### HDRW (44 R540) -/

/-- HDRW's checks in their order, then the header. -/
theorem run_doHdrw_checks (t : BitVec 2) (dims : Word) (s : State) :
    doHdrw t dims s =
      if s.bw.cnt ≠ 0#3 then .error .command s
      else if qtValid s 0#2 = false ∨ qtValid s 1#2 = false then .error .command s
      else if lowHalf dims = 0 ∨ highHalf dims = 0 then .error .dimensions s
      else (do
        forEach (headerBytes (subsamplingOf t) (lowHalf dims) (highHalf dims) (getQt s 0#2) (getQt s 1#2)) rawByte
        update (setRes0 (BitVec.ofNat 32 (headerLength (subsamplingOf t))))) s := by
  rw [doHdrw, run_checkState_bind]
  by_cases hcnt : s.bw.cnt = 0#3
  · rw [if_pos (decide_eq_true hcnt), if_neg (not_not.2 hcnt), run_checkState_bind]
    by_cases hq : qtValid s 0#2 = false ∨ qtValid s 1#2 = false
    · rw [if_pos hq, if_neg]
      rcases hq with h | h <;> simp [h]
    · rw [if_neg hq, if_pos (by simpa using hq), run_check_bind]
      by_cases hdims : lowHalf dims = 0 ∨ highHalf dims = 0
      · rw [if_pos hdims, if_neg]
        rcases hdims with h | h <;> simp [h]
      · rw [if_neg hdims, if_pos (by simpa using hdims), run_get_bind]
  · rw [if_pos hcnt, if_neg (by simpa using hcnt)]

/-- Settles O45: the checks by `run_doHdrw_checks`, then the header's bytes with room and without it. -/
theorem hdrwWritesTheHeader : Obligations.HdrwWritesTheHeader := by
  intro tt s ss w h header
  have hlen : header.length = headerLength ss := headerBytes_length ..
  have hrun := run_doHdrw_checks tt s.argL[0] s
  refine ⟨fun hcnt => ?_, fun ⟨hcnt, hq⟩ => ?_, fun ⟨hcnt, hq0, hq1⟩ => ?_, hlen⟩
  · rw [if_pos hcnt] at hrun
    exact runCommand_error hrun
  · rw [if_neg (not_not.2 hcnt), if_pos hq] at hrun
    exact runCommand_error hrun
  · rw [if_neg (not_not.2 hcnt), if_neg (by simp [hq0, hq1])] at hrun
    refine ⟨fun hdims => ?_, fun ⟨hw, hh, hroom⟩ => ?_, fun ⟨hw, hh, hs, hfull⟩ => ?_⟩
    · rw [if_pos hdims] at hrun
      exact runCommand_error hrun
    · rw [if_neg (not_or.2 ⟨hw, hh⟩), run_bind_ok s (run_rawBytes header hcnt (hlen ▸ hroom)), run_update] at hrun
      exact runCommand_ok hrun
    · rw [if_neg (not_or.2 ⟨hw, hh⟩), run_bind_error s (run_rawBytes_full header hs hcnt (hlen ▸ hfull))] at hrun
      exact runCommand_error hrun

end Sys2Proof.Machine
end

section
/-! What the bit writer's commands and ENCODE store, and what HDEC keeps where it fails (43 R460, R490; 47 R680; 70 R803). -/

namespace Sys2Proof.Machine

/-- The end of a command is the completion of the state its body leaves (60 R756). -/
theorem finish_eq_complete (x : EStateM.Result ErrCode State Unit) : ∃ e, finish x = complete e (stateAfter x) := by
  cases x with
  | ok _ t => exact ⟨none, rfl⟩
  | error e t => exact ⟨some e, rfl⟩

/-! ### The stores of the bit writer (43 R460) -/

/-- From `s0` on, the bit writer has stored only the bytes BW_PTR moved over, within BW_LIM. -/
structure StoredBehindPtr (s0 u : State) : Prop where
  lim : u.bw.lim = s0.bw.lim
  ptr : s0.bw.ptr.toNat ≤ u.bw.ptr.toNat
  within : u.bw.ptr.toNat ≤ s0.bw.lim.toNat
  same : ∀ a, a < s0.bw.ptr.toNat ∨ u.bw.ptr.toNat ≤ a → readByte u a = readByte s0 a

theorem storedBehindPtr_refl {s : State} (h : s.bw.ptr.toNat ≤ s.bw.lim.toNat) : StoredBehindPtr s s :=
  ⟨rfl, Nat.le_refl _, h, fun _ _ => rfl⟩

/-- EMIT stores at BW_PTR and moves it past the byte (43 R460). -/
theorem storedBehindPtr_emit {s0 : State} (v : Byte) (u : State) (hu : StoredBehindPtr s0 u)
    (hlt : u.bw.ptr.toNat < u.bw.lim.toNat) :
    StoredBehindPtr s0 (advanceWriter 1 (writeByte u.bw.ptr.toNat v u)) := by
  obtain ⟨hlim, hptr, -, hsame⟩ := hu
  have hnext : (u.bw.ptr + BitVec.ofNat 32 1).toNat = u.bw.ptr.toNat + 1 := pointer_add_ofNat_toNat hlt
  refine ⟨hlim, ?_, ?_, fun a ha => ?_⟩
  · exact Nat.le_trans hptr (Nat.le_trans (Nat.le_succ _) hnext.ge)
  · exact hnext.le.trans (hlim ▸ hlt)
  · replace ha : a < s0.bw.ptr.toNat ∨ u.bw.ptr.toNat + 1 ≤ a := ha.imp_right hnext.ge.trans
    have hread := readByte_writeByte u u.bw.ptr.toNat a v
    rw [if_neg (by omega)] at hread
    exact hread.trans (hsame a (by omega))

theorem encodeFrameClosed_storedBehindPtr (s0 : State) : EncodeFrameClosed (StoredBehindPtr s0) where
  writer :=
    { emit := fun v u hu hlt _ => storedBehindPtr_emit v u hu hlt
      clear := fun _ hu _ => ⟨hu.lim, hu.ptr, hu.within, hu.same⟩
      push := fun _ _ hu _ => ⟨hu.lim, hu.ptr, hu.within, hu.same⟩ }
  blk _ _ _ hu := ⟨hu.lim, hu.ptr, hu.within, hu.same⟩
  pred _ _ _ hu := ⟨hu.lim, hu.ptr, hu.within, hu.same⟩
  preds _ hu := ⟨hu.lim, hu.ptr, hu.within, hu.same⟩
  res0 _ _ hu := ⟨hu.lim, hu.ptr, hu.within, hu.same⟩

/-- A command whose every change is one of the bit writer's or none of LMEM's. -/
theorem storedBehindPtr_runCommand {x : Eng Unit} {s t : State} (hs : s.bw.ptr.toNat ≤ s.bw.lim.toNat)
    (h : runCommand x s = .next t) (hx : EncodeFrameClosed (StoredBehindPtr s) → Keeps (StoredBehindPtr s) x) :
    StoredBehindPtr s t := by
  rw [runCommand_next h]
  exact finish_keeps (hx (encodeFrameClosed_storedBehindPtr s)) (fun _ _ hu => ⟨hu.lim, hu.ptr, hu.within, hu.same⟩)
    (storedBehindPtr_refl hs)

/-! ### The stores of ENCODE (47 R680) -/

/-- RES0 counts the bytes from dst to BW_PTR (47 R680). -/
theorem StoredBehindPtr.countBytes_eq {u v : State} (h : StoredBehindPtr u v) :
    u.bw.ptr.toNat + (countBytes u.bw.ptr v).res0.toNat = v.bw.ptr.toNat := by
  change u.bw.ptr.toNat + (v.bw.ptr - u.bw.ptr).toNat = _
  rw [BitVec.toNat_sub_of_le (BitVec.le_def.2 h.ptr)]
  exact Nat.add_sub_cancel' h.ptr

/-- A count taken at the end and at an error is a count of the state the body leaves. -/
theorem stateAfter_onError_update (g : State → State) (x : Eng Unit) (u : State) :
    stateAfter ((onError g x >>= fun _ => update g) u) = g (stateAfter (x u)) := by
  rw [run_bind, run_onError]
  cases x u <;> rfl

/-- ENCODE stores nothing before dst and nothing at or beyond dst + RES0 (47 R680). -/
theorem readByte_doEncode {src dst cap dims opts raw : Word} {s : State} (hs : ParamOk s) {a : Nat}
    (ha : a < dst.toNat ∨ dst.toNat + (stateAfter (doEncode src dst cap dims opts raw s)).res0.toNat ≤ a) :
    readByte (stateAfter (doEncode src dst cap dims opts raw s)) a = readByte s a := by
  cases hf : legalFormat (opts.extractLsb' 0 4) (subsamplingOf (opts.extractLsb' 4 2)) with
  | none => rw [run_doEncode_illegal hf]; rfl
  | some f =>
    rw [run_doEncode_legal hf] at ha ⊢
    split at ha
    case isTrue hdims => rw [if_pos hdims]; rfl
    case isFalse hdims =>
      rw [if_neg hdims]
      split at ha
      case isTrue hout => rw [if_pos hout]; rfl
      case isFalse hin =>
        rw [if_neg hin]
        have hdst : dst.toNat + cap.toNat ≤ s.memBytes := Nat.le_of_not_lt fun h => hin (.inr h)
        obtain ⟨u, hsetup, -, hbw, hmem, hundef, -⟩ :=
          run_encodeSetup (s := setRes0 0#32 s) (dst := dst) (encodeScale opts raw) hdst
        have hptr : u.bw.ptr = dst := by rw [hbw]
        have hfit : u.bw.ptr.toNat ≤ u.bw.lim.toNat := by
          rw [hbw]
          simp only [extent_end_toNat hs hdst]
          omega
        have hframe := (encodeFrameClosed_storedBehindPtr u).encodeFrame (opts.extractLsb' 4 2) (opts.extractLsb' 0 4) src
          dims u (storedBehindPtr_refl hfit)
        have hcount := hframe.countBytes_eq
        rw [hptr] at hcount
        rw [run_bind_ok _ hsetup, stateAfter_onError_update] at ha ⊢
        rw [hcount, ← hptr] at ha
        exact (hframe.same a ha).trans (readByte_congr hmem hundef a)

/-- Settles O26: what the bit writer's commands keep, command by command, and `readByte_doEncode`. -/
theorem writerStoresOnlyEmittedBytes : Obligations.WriterStoresOnlyEmittedBytes := by
  refine ⟨fun i s t hi hs h => ?_, fun s t hs h a ha => ?_⟩
  · suffices hbehind : StoredBehindPtr s t from ⟨hbehind.lim, hbehind.ptr, hbehind.within, hbehind.same⟩
    rcases hi with ⟨src, c, tt, rfl⟩ | rfl | rfl | ⟨tt, rfl⟩
    · exact storedBehindPtr_runCommand hs h fun hP => keeps_doHenc hP.writer src c tt fun k _ => hP.pred k
    · exact storedBehindPtr_runCommand hs h fun hP => keeps_flush hP.writer
    · exact storedBehindPtr_runCommand hs h fun hP => keeps_doClose hP.writer
    · exact storedBehindPtr_runCommand hs h fun hP => keeps_doHdrw hP.writer tt _ hP.res0
  · rw [exec_encode] at h
    rw [runCommand_next h] at ha ⊢
    obtain ⟨e, hend⟩ := finish_eq_complete
      (doEncode s.argL[0] s.argL[1] s.argL[2] s.argL[3] s.argL[4] s.argL[5] s)
    rw [hend] at ha ⊢
    exact readByte_doEncode hs ha

/-! ### HDEC without success (43 R490, 70 R803) -/

/-- Every slot and every predictor is as in `s`. -/
def KeepsBlocks (s u : State) : Prop := u.blk = s.blk ∧ u.pred = s.pred

theorem readerClosed_keepsBlocks (s : State) : ReaderClosed (KeepsBlocks s) :=
  ⟨fun _ _ _ hu _ _ => hu, fun _ hu => hu, fun _ hu _ => hu⟩

theorem Keeps.ends_keeps {α : Type} {P : State → Prop} {x : Eng α} {u : State} (hk : Keeps P x) (hu : P u) :
    Ends u x (fun _ => P) (fun _ => P) := by
  have h := hk u hu
  unfold Ends
  cases hr : x u <;> (rw [hr] at h; exact h)

/-- HDEC can fail only before its two updates (43 R490). -/
theorem ends_doHdec (d : Slot) (c t : BitVec 2) (s : State) :
    Ends s (doHdec d c t) (fun _ _ => True) (fun _ u => KeepsBlocks s u) := by
  have hs : KeepsBlocks s s := ⟨rfl, rfl⟩
  have hreader := readerClosed_keepsBlocks s
  rw [doHdec]
  split
  · exact hs
  · simp only [decodeBlock, ends_bind, ends_checkState, ends_get, ends_update]
    split
    case isFalse => exact hs
    case isTrue =>
      refine ends_mono ((keeps_decodeDc hreader _ _).ends_keeps hs) (fun p u hu => ?_) fun _ _ h => h
      exact ends_mono ((keeps_decodeAc hreader _ _ _ _).ends_keeps hu) (fun _ _ _ => trivial) fun _ _ h => h

theorem exec_hdec (d : Slot) (c t : BitVec 2) (s : State) : exec (.hdec d c t) s = runCommand (doHdec d c t) s := rfl

/-- A table that is not installed: ERR_COMMAND, nothing read (43 R490). -/
theorem run_doHdec_missing (d : Slot) (c t : BitVec 2) {s : State}
    (h : htValid s 0#1 (t.extractLsb' 0 1) = false ∨ htValid s 1#1 (t.extractLsb' 1 1) = false) :
    doHdec d c t s = .error .command s := by
  rw [doHdec]
  cases componentOf c with
  | none => rfl
  | some k => exact run_checkState_fail s (Bool.and_eq_false_iff.2 h) _ _

/-- Settles O40: `ends_doHdec` and `run_doHdec_missing`. -/
theorem hdecErrorKeepsSlotsAndPredictors : Obligations.HdecErrorKeepsSlotsAndPredictors := by
  refine fun d c tt s => ⟨fun t h herr => ?_, fun hmissing => runCommand_error (run_doHdec_missing d c tt hmissing)⟩
  have hends := ends_doHdec d c tt s
  rw [exec_hdec] at h
  rw [runCommand_next h] at herr ⊢
  unfold Ends at hends
  cases hr : doHdec d c tt s with
  | ok _ u =>
    rw [hr] at herr
    exact absurd herr (by decide : ¬ false = true)
  | error e u =>
    rw [hr] at hends
    exact hends

end Sys2Proof.Machine
end

section
/-! The canonical decode of a bit string: what DECODE_SYM, the canonical codes and the dense lookup have in common (43 R451,
R470 to R472). -/

namespace Sys2Proof.Machine

/-! ### One length of the decode (43 R470, R471) -/

section Levels
variable (t : HuffTable)

/-- The first level of a walk: the codes below its last are its own. -/
theorem decodeBitsFrom_levelsFrom_cons (first ptr n : Nat) (ns : List Nat) (len code : Nat) (b : Bool) (bs : List Bool) :
    decodeBitsFrom t (levelsFrom first ptr (n :: ns)) len code (b :: bs)
      = if 0 < n ∧ 2 * code + b.toNat < first + n then
          some (t.vals.toList.getD (ptr + (2 * code + b.toNat) - first) 0#8, len + 1)
        else decodeBitsFrom t (levelsFrom (2 * (first + n)) (ptr + n) ns) (len + 1) (2 * code + b.toNat) bs := by
  rw [levelsFrom, decodeBitsFrom]
  generalize 2 * code + b.toNat = code'
  by_cases hn : n = 0
  · rw [if_pos hn, if_neg (by omega)]
    rfl
  · rw [if_neg hn]
    by_cases hlt : code' < first + n
    · have hsym : levelSym t ⟨first, ((first + n - 1 : Nat) : Int), ptr⟩ code'
          = some (t.vals.toList.getD (ptr + code' - first) 0#8) :=
        if_pos ⟨Int.natCast_nonneg _, Int.ofNat_le.2 (by omega)⟩
      rw [hsym, if_pos ⟨by omega, hlt⟩]
    · have hsym : levelSym t ⟨first, ((first + n - 1 : Nat) : Int), ptr⟩ code' = none :=
        if_neg fun h => hlt (by have := Int.ofNat_le.1 h.2; omega)
      rw [hsym, if_neg (by omega)]

/-- A decode takes at least one bit. -/
theorem lt_of_decodeBitsFrom {ls : List Level} {len code : Nat} {bs : List Bool} {v : Byte} {m : Nat}
    (h : decodeBitsFrom t ls len code bs = some (v, m)) : len < m := by
  induction ls generalizing len code bs with
  | nil => cases h
  | cons l ls ih =>
    cases bs with
    | nil => cases h
    | cons b bs =>
      rw [decodeBitsFrom] at h
      split at h
      · cases h
        exact Nat.lt_succ_self len
      · exact Nat.lt_of_succ_lt (ih h)

/-- The decode of a bit string is that of a longer one, where it takes no more than the shorter one has. -/
theorem decodeBitsFrom_append {ls : List Level} {len code : Nat} {bs rest : List Bool} {v : Byte} {m : Nat} :
    decodeBitsFrom t ls len code bs = some (v, m)
      ↔ decodeBitsFrom t ls len code (bs ++ rest) = some (v, m) ∧ m ≤ len + bs.length := by
  induction ls generalizing len code bs with
  | nil => simp [decodeBitsFrom]
  | cons l ls ih =>
    cases bs with
    | nil => exact ⟨(nomatch ·), fun ⟨h, hm⟩ => absurd (lt_of_decodeBitsFrom t h) (Nat.not_lt.2 hm)⟩
    | cons b bs =>
      rw [List.cons_append, decodeBitsFrom, decodeBitsFrom, List.length_cons]
      cases levelSym t l (2 * code + b.toNat) with
      | none => rw [ih, Nat.add_right_comm, Nat.add_assoc len]
      | some w =>
        refine ⟨fun h => ⟨h, ?_⟩, And.left⟩
        cases h
        omega

/-- As many levels as there are bits are all that a decode can use. -/
theorem decodeBitsFrom_take (ls : List Level) (len code : Nat) (bs : List Bool) :
    decodeBitsFrom t (ls.take bs.length) len code bs = decodeBitsFrom t ls len code bs := by
  induction ls generalizing len code bs with
  | nil => rw [List.take_nil]
  | cons l ls ih =>
    cases bs with
    | nil => rfl
    | cons b bs => rw [List.length_cons, List.take_succ_cons, decodeBitsFrom, decodeBitsFrom, ih]

/-- LUT is the decode of its ten bits (43 R472). -/
theorem lut_eq (p : Fin 1024) : lut t p = decodeBitsFrom t (levels t) 0 0 (bitsMsb p.val 10) := by
  rw [← decodeBitsFrom_take, bitsMsb_length, lut]

end Levels

/-! ### The decode and the canonical codes (43 R451, R471) -/

theorem mem_codesOfLength_iff {len first : Nat} {vs : List Byte} {c : CodeWord} :
    c ∈ codesOfLength len first vs ↔ c.len = len ∧ first ≤ c.code ∧ vs[c.code - first]? = some c.sym := by
  induction vs generalizing first with
  | nil => simp [codesOfLength]
  | cons v vs ih =>
    rw [codesOfLength, List.mem_cons, ih]
    constructor
    · rintro (rfl | ⟨hlen, hle, hsym⟩)
      · simp
      · refine ⟨hlen, by omega, ?_⟩
        rwa [show c.code - first = c.code - (first + 1) + 1 by omega, List.getElem?_cons_succ]
    · rintro ⟨hlen, hle, hsym⟩
      rcases Nat.eq_or_lt_of_le hle with heq | hlt
      · rw [← heq, Nat.sub_self, List.getElem?_cons_zero, Option.some.injEq] at hsym
        obtain ⟨sym, clen, code⟩ := c
        exact .inl (by simp only at hlen hsym heq; rw [hlen, hsym, heq])
      · rw [show c.code - first = c.code - (first + 1) + 1 by omega, List.getElem?_cons_succ] at hsym
        exact .inr ⟨hlen, hlt, hsym⟩

section Starts
variable {a b m n : Nat} {bs : List Bool} (ha : a < 2 ^ m) (hb : b < 2 ^ n)
include ha hb

/-- A number whose bits start a bit string as long as its own. -/
theorem eq_of_bitsMsb_isStart_append (hmn : m = n) (h : bitsMsb a m <+: bitsMsb b n ++ bs) : a = b := by
  have hstart := (List.isPrefix_append_of_length (by simp only [bitsMsb_length, hmn, Nat.le_refl])).1 h
  obtain ⟨-, r, hr, hba⟩ := eq_add_of_bitsMsb_isStart ha hb hstart
  rw [hmn, Nat.sub_self, Nat.pow_zero] at hr hba
  omega

/-- A number whose bits start a bit string, and the number of that string's first bits. -/
theorem mul_le_of_bitsMsb_isStart_append {f : Nat} (hnm : n ≤ m) (h : bitsMsb a m <+: bitsMsb b n ++ bs)
    (hf : f * 2 ^ (m - n) ≤ a) : f ≤ b := by
  obtain ⟨rest, h⟩ := h
  have hstart := (List.isPrefix_append_of_length (by simpa only [bitsMsb_length] using hnm)).1 ⟨bs, h.symm⟩
  obtain ⟨-, r, hr, hab⟩ := eq_add_of_bitsMsb_isStart hb ha hstart
  have hlt : f * 2 ^ (m - n) < (b + 1) * 2 ^ (m - n) := by
    rw [Nat.succ_mul]
    omega
  exact Nat.lt_succ_iff.1 (Nat.lt_of_mul_lt_mul_right hlt)

end Starts

section Walk
variable {len code : Nat} {vs : List Byte} {bs : List Bool} {c : CodeWord} (hcode : code < 2 ^ len)
include hcode

/-- A code of the level the bits have reached is the number read. -/
theorem code_eq_of_mem_codesOfLength {first : Nat} (hfit : first + vs.length ≤ 2 ^ len)
    (hc : c ∈ codesOfLength len first vs) (hstart : bitsMsb c.code c.len <+: bitsMsb code len ++ bs) : c.code = code := by
  obtain ⟨hlen, -, hlt⟩ := mem_codesOfLength hc
  exact eq_of_bitsMsb_isStart_append (by rw [hlen]; omega) hcode hlen hstart

/-- A longer code starts the bits only where the number read lies behind the codes of its level. -/
theorem le_of_mem_canonicalFrom {last : Nat} {ns : List Nat} (hw : walkFrom (len + 1) (2 * last) ns = true)
    (hc : c ∈ canonicalFrom (len + 1) (2 * last) ns vs) (hstart : bitsMsb c.code c.len <+: bitsMsb code len ++ bs) :
    last ≤ code := by
  obtain ⟨hlen, hle, hlt⟩ := mem_canonicalFrom hw hc
  refine mul_le_of_bitsMsb_isStart_append hlt hcode (by omega) hstart ?_
  rwa [show c.len - len = c.len - (len + 1) + 1 by omega, Nat.pow_succ, Nat.mul_comm _ 2, ← Nat.mul_assoc,
    Nat.mul_comm last 2]

end Walk

/-- The decode from a level on finds the code of the walk from there that starts the bits, and nothing else. -/
theorem decodeBitsFrom_eq_some_iff (t : HuffTable) {ns : List Nat} {first ptr len code : Nat} {vs : List Byte}
    {bs : List Bool} {v : Byte} {m : Nat} (hw : walkFrom (len + 1) first ns = true) (hfirst : first ≤ 2 * code)
    (hcode : code < 2 ^ len) (hvs : ∀ i < ns.sum, vs[i]? = some (t.vals.toList.getD (ptr + i) 0#8)) :
    decodeBitsFrom t (levelsFrom first ptr ns) len code bs = some (v, m)
      ↔ ∃ c ∈ canonicalFrom (len + 1) first ns vs, c.sym = v ∧ c.len = m
          ∧ bitsMsb c.code c.len <+: bitsMsb code len ++ bs := by
  induction ns generalizing first ptr len code vs bs with
  | nil => simp [levelsFrom, decodeBitsFrom, canonicalFrom]
  | cons n ns ih =>
    cases bs with
    | nil =>
      refine ⟨fun h => by simp [levelsFrom, decodeBitsFrom] at h, ?_⟩
      rintro ⟨c, hc, -, -, hstart⟩
      have hlen := (mem_canonicalFrom hw hc).1
      have := hstart.length_le
      simp only [List.append_nil, bitsMsb_length] at this
      omega
    | cons b bs =>
      obtain ⟨hfit, hw'⟩ := walkFrom_cons.1 hw
      rw [List.sum_cons] at hvs
      have hbits : bitsMsb code len ++ b :: bs = bitsMsb (2 * code + b.toNat) (len + 1) ++ bs := by
        rw [bitsMsb_double, List.append_assoc, List.singleton_append]
      have hb := b.toNat_lt
      have hcode' : 2 * code + b.toNat < 2 ^ (len + 1) := by rw [Nat.pow_succ]; omega
      have hfirst' : first ≤ 2 * code + b.toNat := by omega
      rw [decodeBitsFrom_levelsFrom_cons, hbits]
      generalize 2 * code + b.toNat = code' at hcode' hfirst'
      have htake : first + (vs.take n).length ≤ first + n := Nat.add_le_add_left (List.length_take_le n vs) _
      split
      case isTrue hown =>
        simp only [Option.some.injEq, Prod.mk.injEq]
        have hsym : (vs.take n)[code' - first]? = some (t.vals.toList.getD (ptr + code' - first) 0#8) := by
          rw [List.getElem?_take_of_lt (by omega), hvs _ (by omega), Nat.add_sub_assoc hfirst']
        constructor
        · rintro ⟨rfl, rfl⟩
          exact ⟨⟨_, len + 1, code'⟩, List.mem_append_left _ (mem_codesOfLength_iff.2 ⟨rfl, hfirst', hsym⟩), rfl, rfl, bs, rfl⟩
        · rintro ⟨c, hc, rfl, rfl, hstart⟩
          rcases List.mem_append.1 hc with hc | hc
          · obtain rfl := code_eq_of_mem_codesOfLength hcode' (htake.trans hfit) hc hstart
            obtain ⟨hlen, -, hget⟩ := mem_codesOfLength_iff.1 hc
            exact ⟨Option.some.inj (hsym.symm.trans hget), hlen.symm⟩
          · exact absurd (le_of_mem_canonicalFrom hcode' hw' hc hstart) (Nat.not_le.2 hown.2)
      case isFalse hother =>
        rw [ih (vs := vs.drop n) hw' (by omega) hcode' fun i hi => by
          rw [List.getElem?_drop, hvs _ (by omega), Nat.add_assoc]]
        refine exists_congr fun c => and_congr_left fun ⟨_, _, hstart⟩ => ⟨List.mem_append_right _, fun hc => ?_⟩
        refine (List.mem_append.1 hc).resolve_left fun hc => hother ?_
        obtain rfl := code_eq_of_mem_codesOfLength hcode' (htake.trans hfit) hc hstart
        obtain ⟨-, hle, hlt⟩ := mem_codesOfLength hc
        omega

/-! ### A whole table (43 R473, R474) -/

/-- A table that fits a decoder table and passes its check: 16 counts of a byte each, as many symbols as they count. -/
structure HuffSpec.Installable (t : HuffSpec) : Prop where
  length : t.bits.length = 16
  counts : ∀ n ∈ t.bits, n < 256
  valid : bitsValid t.bits = true
  vals : t.vals.length = t.bits.sum

section Installable
variable {t : HuffSpec} (ht : t.Installable)
include ht

theorem HuffSpec.Installable.walk : walkFrom 1 0 t.bits = true := (Bool.and_eq_true_iff.1 ht.valid).2

theorem HuffSpec.Installable.vals_length_le : t.vals.length ≤ 256 :=
  ht.vals ▸ of_decide_eq_true (Bool.and_eq_true_iff.1 ht.valid).1

theorem levels_toTable : levels t.toTable = levelsFrom 0 0 t.bits := by
  have hbits : t.toTable.bits.toList = t.bits.map (BitVec.ofNat 8) :=
    huffTableOf_bits_toList (by rw [List.length_map, ht.length])
  have hcounts : (t.bits.map (BitVec.ofNat 8)).map BitVec.toNat = t.bits := by
    rw [List.map_map, List.map_congr_left (g := id) fun n hn => ?_, List.map_id]
    exact Nat.mod_eq_of_lt (ht.counts n hn)
  rw [levels, hbits, hcounts]

theorem getElem?_vals_toTable {i : Nat} (hi : i < t.bits.sum) :
    t.vals[i]? = some (t.toTable.vals.toList.getD i 0#8) := by
  have hle := ht.vals_length_le
  have hvals := ht.vals
  have hsym : t.toTable.vals[i] = t.vals.getD i 0#8 := huffTableOf_vals_getElem _ t.vals ⟨i, by omega⟩
  rw [List.getElem?_eq_getElem (by omega), List.getD_eq_getElem?_getD, Vector.getElem?_toList,
    Vector.getElem?_eq_getElem (by omega), Option.getD_some]
  rw [hsym, List.getD_eq_getElem?_getD, List.getElem?_eq_getElem (by omega), Option.getD_some]

/-- The canonical decode of a bit string is the one code that starts it. -/
theorem decodeBits_eq_some_iff {bs : List Bool} {v : Byte} {m : Nat} :
    decodeBitsFrom t.toTable (levels t.toTable) 0 0 bs = some (v, m)
      ↔ ∃ c ∈ canonicalCodes t, c.sym = v ∧ c.len = m ∧ bitsMsb c.code c.len <+: bs := by
  rw [levels_toTable ht]
  exact decodeBitsFrom_eq_some_iff t.toTable ht.walk (Nat.le_refl 0) Nat.one_pos fun i hi => by
    rw [Nat.zero_add, getElem?_vals_toTable ht hi]

end Installable

/-! ### DECODE_SYM (43 R471) -/

/-- Without a bit to give GETBIT raises an error (43 R466). -/
theorem getBit_error {s : State} (hs : ReaderOk s) (h : readerBits s = []) : ∃ e u, getBit s = .error e u := by
  obtain ⟨-, hlim, -⟩ := hs
  obtain ⟨hcur, hinput⟩ := List.append_eq_nil_iff.1 h
  have hcnt : s.br.cnt = 0#4 := by
    have := congrArg List.length hcur
    rw [bitsMsb_length] at this
    exact BitVec.eq_of_toNat_eq this
  suffices hfill : ∃ e u, fill s = .error e u by
    obtain ⟨e, u, hfill⟩ := hfill
    exact ⟨e, u, by rw [getBit, run_get_bind, if_pos hcnt, run_bind_error s hfill]⟩
  cases hmark : s.br.mark with
  | true => exact ⟨_, _, run_fill_marked hmark⟩
  | false =>
    by_cases hend : s.br.lim.toNat ≤ s.br.ptr.toNat
    · exact ⟨_, _, run_fill_end hmark hend⟩
    · rw [hmark, if_neg (by decide), inputBytes_cons (Nat.lt_of_not_le hend)] at hinput
      by_cases hff : readByte s s.br.ptr.toNat = 0xFF#8
      · rcases Nat.eq_or_lt_of_le (Nat.lt_of_not_le hend) with hlast | hnext
        · exact ⟨_, _, run_fill_last hmark hlast hlim hff⟩
        · refine ⟨_, _, run_fill_marker hmark hnext hlim hff fun hzero => ?_⟩
          obtain ⟨n, hn⟩ : ∃ n, s.br.lim.toNat - (s.br.ptr.toNat + 1) = n + 1 :=
            ⟨_, (Nat.sub_add_cancel (by omega)).symm⟩
          rw [hn, readBytes, hff, hzero, unstuffedBits_stuffed_ff] at hinput
          exact absurd hinput (by simp [bitsMsb])
      · rw [unstuffedBits_cons hff] at hinput
        exact absurd hinput (by simp [bitsMsb])

/-- DECODE_SYM gives a symbol only where the canonical decode of the bits that come next does, and takes its bits. -/
theorem decodeBitsFrom_of_decodeSymFrom (t : HuffTable) {ls : List Level} {code : Nat} {s u : State} {v : Byte} (len : Nat)
    (hs : ReaderOk s) (h : decodeSymFrom t ls code s = .ok v u) :
    ∃ n, decodeBitsFrom t ls len code (readerBits s) = some (v, len + n)
      ∧ readerBits s = (readerBits s).take n ++ readerBits u ∧ n ≤ (readerBits s).length := by
  induction ls generalizing s code len with
  | nil => cases h
  | cons l ls ih =>
    obtain ⟨b, w, hbit, hrest⟩ := ok_of_bind s h
    cases hbits : readerBits s with
    | nil =>
      obtain ⟨e, w', herr⟩ := getBit_error hs hbits
      rw [herr] at hbit
      cases hbit
    | cons b' bs =>
      obtain ⟨r, hget, hok, hleft, -, -⟩ := run_getBit hs hbits
      rw [hget] at hbit
      cases hbit
      rw [decodeBitsFrom]
      cases hsym : levelSym t l (2 * code + b.toNat) with
      | some x =>
        rw [hsym] at hrest
        cases hrest
        exact ⟨1, rfl, by rw [hleft]; rfl, by simp⟩
      | none =>
        rw [hsym] at hrest
        obtain ⟨n, hdec, htake, hle⟩ := ih (len + 1) hok hrest
        rw [hleft] at hdec htake hle
        refine ⟨n + 1, ?_, ?_, by simpa using hle⟩
        · simpa only [Nat.add_assoc, Nat.add_comm 1 n] using hdec
        · rw [List.take_succ_cons, List.cons_append, ← htake]

/-- Settles O42: DECODE_SYM and LUT are both the canonical decode of the bits that come next, and that decode is the one code
that starts them. -/
theorem lutAgreesWithCanonicalDecode : Obligations.LutAgreesWithCanonicalDecode := by
  refine ⟨fun t p rest s hs hbits => ⟨fun v n hlut => ?_, fun hlut v u hsym => ?_⟩,
    fun t p hlen hcounts hvalid hvals v n => ?_⟩
  · rw [lut_eq, decodeBitsFrom_append t (rest := rest), bitsMsb_length] at hlut
    obtain ⟨hdec, hle⟩ := hlut
    rw [Nat.zero_add] at hle
    obtain ⟨r, hrun, -, hleft, -, -⟩ := run_decodeSymFrom t (levels t) 0 0 _ hs hbits (n := n) (by rwa [Nat.zero_add])
    exact ⟨hle, _, hrun, hleft⟩
  · obtain ⟨n, hdec, htake, hle⟩ := decodeBitsFrom_of_decodeSymFrom t 0 hs hsym
    have hmore : 10 < n := by
      by_contra hfew
      have hshort : lut t p = some (v, 0 + n) := by
        rw [lut_eq, decodeBitsFrom_append t (rest := rest), ← hbits, bitsMsb_length]
        exact ⟨hdec, by omega⟩
      rw [hlut] at hshort
      cases hshort
    have hlength := congrArg List.length htake
    rw [List.length_append, List.length_take, Nat.min_eq_left hle] at hlength
    omega
  · rw [lut_eq, decodeBits_eq_some_iff ⟨hlen, hcounts, hvalid, hvals⟩]

end Sys2Proof.Machine
end

section
/-! HDEC recovers the block HENC coded: each piece of HDEC reads the bits the piece of HENC appended (43 R455, R456, R480, R490,
R491). -/

namespace Sys2Proof.Machine

/-! ### A piece that reads given bits -/

/-- On the reader of `s`, wherever it stands, `x` takes the bits `bits`, gives `a`, and changes nothing else. -/
def Reads {α : Type} (s : State) (x : Eng α) (bits : List Bool) (a : α) : Prop :=
  ∀ r rest, ReaderOk (withReader r s) → readerBits (withReader r s) = bits ++ rest →
    ∃ q, x (withReader r s) = .ok a (withReader q s) ∧ ReaderOk (withReader q s) ∧ readerBits (withReader q s) = rest

section Reads
variable {α β : Type} {s : State}

theorem reads_pure (a : α) : Reads s (pure a) [] a := fun r _ hr hbits => ⟨r, rfl, hr, hbits⟩

theorem Reads.bind {x : Eng α} {f : α → Eng β} {bs cs : List Bool} {a : α} {b : β} (hx : Reads s x bs a)
    (hf : Reads s (f a) cs b) : Reads s (x >>= f) (bs ++ cs) b := by
  intro r rest hr hbits
  obtain ⟨q, hrun, hq, hleft⟩ := hx r (cs ++ rest) hr (by rw [hbits, List.append_assoc])
  obtain ⟨p, hrun', hp, hleft'⟩ := hf q rest hq hleft
  exact ⟨p, (run_bind_ok _ hrun).trans hrun', hp, hleft'⟩

theorem Reads.check {c : Bool} {e : ErrCode} {k : Unit → Eng α} {bits : List Bool} {a : α} (hc : c = true)
    (hk : Reads s (k ()) bits a) : Reads s (check c e >>= k) bits a := hc ▸ hk

theorem Reads.get {f : State → Eng α} {bits : List Bool} {a : α} (hf : ∀ r, Reads s (f (withReader r s)) bits a) :
    Reads s (get >>= f) bits a := fun r rest hr hbits => hf r r rest hr hbits

end Reads

/-! ### A code and its symbol (43 R451, R471) -/

theorem codesOfLength_map_sym (len code : Nat) (vs : List Byte) : (codesOfLength len code vs).map CodeWord.sym = vs := by
  induction vs generalizing code with
  | nil => rfl
  | cons v vs ih => rw [codesOfLength, List.map_cons, ih]

theorem canonicalFrom_map_sym (len code : Nat) (ns : List Nat) (vs : List Byte) :
    (canonicalFrom len code ns vs).map CodeWord.sym = vs.take ns.sum := by
  induction ns generalizing len code vs with
  | nil => rw [List.sum_nil, List.take_zero]; rfl
  | cons n ns ih => rw [canonicalFrom, List.map_append, codesOfLength_map_sym, ih, List.sum_cons, List.take_add]

section Code
variable {t : HuffSpec} (ht : t.Installable) {sym : Byte} (hsym : sym ∈ t.vals)
include ht hsym

/-- The bits of a listed symbol are those of one of its code words. -/
theorem codeBits_eq_of_mem_vals : ∃ c ∈ canonicalCodes t, c.sym = sym ∧ codeBits t sym = bitsMsb c.code c.len := by
  have hsyms : (canonicalCodes t).map CodeWord.sym = t.vals := by
    rw [canonicalCodes, canonicalFrom_map_sym, ← ht.vals, List.take_length]
  rw [← hsyms, List.mem_map] at hsym
  obtain ⟨d, hd, hdsym⟩ := hsym
  unfold codeBits
  cases hfind : (canonicalCodes t).find? (fun c => c.sym = sym) with
  | none => exact absurd (decide_eq_true hdsym) (List.find?_eq_none.1 hfind d hd)
  | some c =>
    have hcsym := List.find?_some hfind
    exact ⟨c, List.mem_of_find?_eq_some hfind, of_decide_eq_true hcsym, rfl⟩

/-- DECODE_SYM reads the code of a listed symbol. -/
theorem reads_decodeSym (s : State) : Reads s (decodeSym t.toTable) (codeBits t sym) sym := by
  intro r rest hr hbits
  obtain ⟨c, hc, hcsym, hcode⟩ := codeBits_eq_of_mem_vals ht hsym
  rw [hcode] at hbits
  have hdec : decodeBitsFrom t.toTable (levels t.toTable) 0 0 (bitsMsb c.code c.len ++ rest) = some (sym, 0 + c.len) :=
    (decodeBits_eq_some_iff ht).2 ⟨c, hc, hcsym, (Nat.zero_add _).symm, rest, rfl⟩
  obtain ⟨q, hrun, hq, hleft, -, -⟩ := run_decodeSymFrom t.toTable _ 0 0 _ hr hbits hdec
  exact ⟨q, hrun, hq, hleft.trans (List.drop_left' (bitsMsb_length ..))⟩

end Code

/-! ### The ROM tables (43 R450) -/

theorem installable_dcTable (chroma : Bool) : (dcTable chroma).Installable := by
  cases chroma <;> exact ⟨rfl, by decide, by decide, by decide⟩

theorem installable_acTable (chroma : Bool) : (acTable chroma).Installable := by
  cases chroma <;> exact ⟨rfl, by decide, by decide, by decide +kernel⟩

/-- A category of a DC difference has a code. -/
theorem category_mem_dcTable : ∀ (chroma : Bool), ∀ n < 12, BitVec.ofNat 8 n ∈ (dcTable chroma).vals := by decide

/-- EOB and ZRL have codes. -/
theorem endAndZrl_mem_acTable (chroma : Bool) : 0x00#8 ∈ (acTable chroma).vals ∧ 0xF0#8 ∈ (acTable chroma).vals := by
  cases chroma <;> decide +kernel

/-- Every pair of a run below 16 and a category from 1 to 10 has a code. -/
theorem rsByte_mem_acTable (chroma : Bool) : ∀ run < 16, ∀ sz < 10, rsByte run (sz + 1) ∈ (acTable chroma).vals := by
  cases chroma <;> decide +kernel

/-! ### Magnitudes (43 R455, R456) -/

/-- The category of a value is the length of its magnitude. -/
theorem natAbs_bounds_category {v : Int} (hv : v ≠ 0) :
    0 < category v ∧ 2 ^ (category v - 1) ≤ v.natAbs ∧ v.natAbs < 2 ^ category v := by
  have hpos : v.natAbs ≠ 0 := Int.natAbs_ne_zero.2 hv
  rw [category, bitlen, if_neg hpos, Nat.add_sub_cancel]
  exact ⟨Nat.succ_pos _, Nat.log2_self_le hpos, Nat.lt_log2_self⟩

/-- EXTEND of a value's magnitude bits is the value. -/
theorem extend_magnitudeBits (v : Int) : extend (bitsValue 0 (magnitudeBits v (category v))) (category v) = v := by
  by_cases hv : v = 0
  · rw [hv]; rfl
  · obtain ⟨hn, hlo, hhi⟩ := natAbs_bounds_category hv
    rw [magnitudeBits, bitsValue_bitsMsb, extend, if_neg (Nat.ne_of_gt hn)]
    generalize category v = n at hn hlo hhi
    obtain ⟨m, rfl⟩ : ∃ m, n = m + 1 := ⟨n - 1, by omega⟩
    rw [Nat.add_sub_cancel] at hlo ⊢
    have hcast : ((2 : Int) ^ (m + 1)) = ((2 ^ (m + 1) : Nat) : Int) := by push_cast; rfl
    rw [Nat.pow_succ] at hhi hcast ⊢
    generalize 2 ^ m = p at hlo hhi hcast ⊢
    rw [hcast]
    split
    case isTrue hpos =>
      rw [Nat.mod_eq_of_lt (by omega), if_neg (by omega)]
      omega
    case isFalse hneg =>
      rw [Nat.mod_eq_of_lt (by omega), if_pos (by omega)]
      omega

/-- GETBITS reads the magnitude bits of a value, and EXTEND gives the value back. -/
theorem reads_magnitude (v : Int) (s : State) :
    Reads s (getBits (category v)) (magnitudeBits v (category v)) (bitsValue 0 (magnitudeBits v (category v))) := by
  intro r rest hr hbits
  obtain ⟨q, hrun, hq, hleft, -, -⟩ := run_getBits _ rest hr hbits
  rw [magnitudeBits_length] at hrun
  exact ⟨q, hrun, hq, hleft⟩

/-! ### The DC coefficient (43 R480, R490) -/

/-- The DC part of HDEC reads the bits of a difference and gives the predictor plus the difference. -/
theorem reads_decodeDc (chroma : Bool) {diff : Int} (hdiff : diff.natAbs ≤ 2047) (c : Fin 3) (s : State) :
    Reads s (decodeDc (dcTable chroma).toTable c) (dcBits chroma diff) (wrap16 (getPred s c + diff)) := by
  have hcat : category diff ≤ 11 := category_le (by omega)
  have hnat : (BitVec.ofNat 8 (category diff)).toNat = category diff := by
    rw [BitVec.toNat_ofNat, Nat.mod_eq_of_lt (by omega)]
  refine (reads_decodeSym (installable_dcTable chroma) (category_mem_dcTable chroma _ (by omega)) s).bind ?_
  refine Reads.check (by rw [hnat]; exact decide_eq_true hcat) ?_
  rw [hnat, ← List.append_nil (magnitudeBits diff _)]
  refine (reads_magnitude diff s).bind (Reads.get fun r => ?_)
  rw [extend_magnitudeBits]
  exact reads_pure _

/-! ### The AC coefficients (43 R480, R490) -/

/-- The first k entries of a block, the others 0: what HDEC has decoded of it. -/
def firstEntries (b : Block) (k : Nat) : Block := Vector.ofFn fun i : Fin 64 => if i.val < k then b[i] else 0#32

/-- The entries of a block from k up to n are 0. -/
def ZeroFrom (b : Block) (k n : Nat) : Prop := ∀ i : Fin 64, k ≤ i.val → i.val < n → b[i] = 0#32

section Entries
variable {b : Block} {k n : Nat}

theorem firstEntries_getElem (b : Block) (k : Nat) (i : Fin 64) :
    (firstEntries b k)[i] = if i.val < k then b[i] else 0#32 := Vector.getElem_ofFn ..

theorem block_ext {a b : Block} (h : ∀ i : Fin 64, a[i] = b[i]) : a = b := Vector.ext fun i hi => h ⟨i, hi⟩

theorem firstEntries_all (b : Block) : firstEntries b 64 = b :=
  block_ext fun i => by rw [firstEntries_getElem, if_pos i.isLt]

/-- Zeros are decoded by decoding nothing. -/
theorem firstEntries_skip (hkn : k ≤ n) (hzero : ZeroFrom b k n) : firstEntries b n = firstEntries b k :=
  block_ext fun i => by
    rw [firstEntries_getElem, firstEntries_getElem]
    by_cases hik : i.val < k
    · rw [if_pos hik, if_pos (Nat.lt_of_lt_of_le hik hkn)]
    · rw [if_neg hik]
      split
      · next hin => exact hzero i (Nat.le_of_not_lt hik) hin
      · rfl

/-- One more entry. -/
theorem firstEntries_set (hn : n < 64) :
    (firstEntries b n).setIfInBounds n (wrap32 b[n].toInt) = firstEntries b (n + 1) :=
  block_ext fun i => by
    have hset : ((firstEntries b n).setIfInBounds n b[n])[i] = if n = i.val then b[n] else (firstEntries b n)[i] :=
      Vector.getElem_setIfInBounds ..
    rw [wrap32, BitVec.ofInt_toInt, hset, firstEntries_getElem, firstEntries_getElem]
    by_cases hin : n = i.val
    · rw [if_pos hin, if_pos (by omega)]
      simp only [hin]
      rfl
    · rw [if_neg hin]
      exact if_congr (by omega) rfl rfl

end Entries

/-- The AC coefficients from index k on (43 R480). -/
def coefficientsFrom (b : Block) (k : Nat) : List Int := (b.toList.drop k).map BitVec.toInt

theorem coefficientsFrom_cons {b : Block} {k : Nat} {v : Int} {vs : List Int} (h : coefficientsFrom b k = v :: vs) :
    ∃ hk : k < 64, b[k].toInt = v ∧ coefficientsFrom b (k + 1) = vs := by
  have hk : k < 64 := by
    have := congrArg List.length h
    simp only [coefficientsFrom, List.length_map, List.length_drop, Vector.length_toList, List.length_cons] at this
    omega
  rw [coefficientsFrom, List.drop_eq_getElem_cons (by simpa using hk), List.map_cons] at h
  obtain ⟨hv, hvs⟩ := List.cons.inj h
  exact ⟨hk, hv, hvs⟩

theorem coefficientsFrom_nil {b : Block} {k : Nat} (h : coefficientsFrom b k = []) : 64 ≤ k := by
  have := congrArg List.length h
  simp only [coefficientsFrom, List.length_map, List.length_drop, Vector.length_toList, List.length_nil] at this
  omega

section Ac
variable (chroma : Bool) {b : Block} (s : State)

/-- HDEC reads the ZRL codes before a coefficient, each 16 zeros. -/
theorem reads_decodeAc_zrl {z : Block} {bits : List Bool} {a : Block} {fuel k : Nat} (m : Nat) (hk : k + 16 * m ≤ 63)
    (hrest : Reads s (decodeAc (acTable chroma).toTable fuel (k + 16 * m) z) bits a) :
    Reads s (decodeAc (acTable chroma).toTable (fuel + m) k z) (zrlBits chroma m ++ bits) a := by
  induction m generalizing k with
  | zero => exact hrest
  | succ m ih =>
    have hnext := ih (k := k + 16) (by omega) (by rwa [show k + 16 + 16 * m = k + 16 * (m + 1) by omega])
    rw [← Nat.add_assoc, zrlBits, List.append_assoc, decodeAc, if_neg (by omega)]
    refine (reads_decodeSym (installable_acTable chroma) (endAndZrl_mem_acTable chroma).2 s).bind ?_
    exact Reads.check (decide_eq_true (by omega)) hnext

/-- HDEC reads the code of a coefficient behind a run of less than 16 zeros. -/
theorem reads_decodeAc_item {z : Block} {bits : List Bool} {a : Block} {fuel k run : Nat} {v : Int} (hv : v ≠ 0)
    (hbound : v.natAbs ≤ 1023) (hrun : run < 16) (hk : k + run ≤ 63)
    (hrest : Reads s (decodeAc (acTable chroma).toTable fuel (k + run + 1) (z.setIfInBounds (k + run) (wrap32 v))) bits a) :
    Reads s (decodeAc (acTable chroma).toTable (fuel + 1) k z)
      (codeBits (acTable chroma) (rsByte run (category v)) ++ magnitudeBits v (category v) ++ bits) a := by
  obtain ⟨hpos, -, -⟩ := natAbs_bounds_category hv
  have hcat : category v ≤ 10 := category_le (by omega)
  have hmem := rsByte_mem_acTable chroma run hrun (category v - 1) (by omega)
  rw [Nat.sub_add_cancel hpos] at hmem
  have hnat : (rsByte run (category v)).toNat = 16 * run + category v := by
    rw [rsByte, BitVec.toNat_ofNat, Nat.mod_eq_of_lt (by omega)]
  have hhigh : (rsByte run (category v)).toNat / 16 = run := by omega
  have hlow : (rsByte run (category v)).toNat % 16 = category v := by omega
  rw [List.append_assoc, decodeAc, if_neg (by omega)]
  refine (reads_decodeSym (installable_acTable chroma) hmem s).bind ?_
  simp only [hhigh, hlow]
  rw [if_neg (Nat.ne_of_gt hpos)]
  refine Reads.check (decide_eq_true hk) (Reads.check (decide_eq_true hcat) ((reads_magnitude v s).bind ?_))
  rw [extend_magnitudeBits]
  exact hrest

/-- HDEC reads the EOB code before the zeros at the end. -/
theorem reads_decodeAc_end {z : Block} {fuel k : Nat} (hk : k ≤ 63) :
    Reads s (decodeAc (acTable chroma).toTable (fuel + 1) k z) (codeBits (acTable chroma) 0x00#8) z := by
  rw [← List.append_nil (codeBits _ _), decodeAc, if_neg (by omega)]
  exact (reads_decodeSym (installable_acTable chroma) (endAndZrl_mem_acTable chroma).1 s).bind (reads_pure z)

theorem decodeAc_done (t : HuffTable) (fuel : Nat) (z : Block) : decodeAc t fuel 64 z = pure z := by
  cases fuel <;> rfl

/-- The AC part of HDEC reads the bits of the coefficients that are left, behind a run of zeros, and completes the block. -/
theorem reads_decodeAc {vs : List Int} {fuel k run : Nat} (hvs : coefficientsFrom b (k + run) = vs)
    (hbound : ∀ v ∈ vs, -1023 ≤ v ∧ v ≤ 1023) (hzero : ZeroFrom b k (k + run)) (hk : k + run ≤ 64)
    (hfuel : 64 ≤ fuel + k) :
    Reads s (decodeAc (acTable chroma).toTable fuel k (firstEntries b k)) (acBits chroma run vs) b := by
  induction vs generalizing fuel k run with
  | nil =>
    have hend : k + run = 64 := Nat.le_antisymm hk (coefficientsFrom_nil hvs)
    have hall : firstEntries b k = b := by
      rw [← firstEntries_skip (Nat.le_add_right k run) hzero, hend, firstEntries_all]
    rw [hall, acBits]
    split
    case isTrue hrun =>
      obtain ⟨f, rfl⟩ : ∃ f, fuel = f + 1 := ⟨fuel - 1, by omega⟩
      exact reads_decodeAc_end chroma s (by omega)
    case isFalse hrun =>
      obtain rfl : k = 64 := by omega
      rw [decodeAc_done]
      exact reads_pure b
  | cons v vs ih =>
    obtain ⟨hlt, hv, hrest⟩ := coefficientsFrom_cons hvs
    obtain ⟨hlo, hhi⟩ := hbound v (List.mem_cons_self ..)
    have hbound' : ∀ w ∈ vs, -1023 ≤ w ∧ w ≤ 1023 := fun w hw => hbound w (List.mem_cons_of_mem v hw)
    have hclamp : clamp v (-1023) 1023 = v := by rw [clamp, if_neg (by omega), if_neg (by omega)]
    rw [acBits, hclamp]
    split
    case isTrue hv0 =>
      refine ih (run := run + 1) hrest hbound' (fun i hki hi => ?_) hlt hfuel
      rcases Nat.lt_or_ge i.val (k + run) with hi' | hi'
      · exact hzero i hki hi'
      · obtain rfl : i = ⟨k + run, hlt⟩ := Fin.ext (by simp only; omega)
        exact BitVec.eq_of_toInt_eq (hv.trans hv0)
    case isFalse hv0 =>
      have hdiv := Nat.div_add_mod run 16
      obtain ⟨f, rfl⟩ : ∃ f, fuel = f + 1 + run / 16 := ⟨fuel - 1 - run / 16, by omega⟩
      rw [acItemBits, List.append_assoc]
      refine reads_decodeAc_zrl chroma s (run / 16) (by omega) ?_
      refine reads_decodeAc_item chroma s hv0 (by omega) (Nat.mod_lt run (by decide)) (by omega) ?_
      have hstep : k + 16 * (run / 16) + run % 16 = k + run := by omega
      rw [hstep, ← firstEntries_skip (Nat.le_add_right k run) hzero, ← hv, firstEntries_set hlt]
      exact ih (run := 0) hrest hbound' (fun i h1 h2 => absurd h2 (Nat.not_lt.2 h1)) hlt (by omega)

end Ac

/-! ### HDEC (43 R490, R491) -/

theorem readerBits_congr {s t : State} (hbr : t.br = s.br) (hmem : t.mem = s.mem) (hundef : t.undef = s.undef) :
    readerBits t = readerBits s := by
  rw [readerBits, readerBits, inputBytes, inputBytes, hbr, readBytes_mem_congr hmem hundef]

/-- An int16 survives the predictor's 16 bits (43 R491, log 15). -/
theorem toInt_wrap16 {v : Int} (hlo : -32768 ≤ v) (hhi : v ≤ 32767) : (wrap16 v).toInt = v :=
  BitVec.toInt_ofInt_eq_self (by decide) (by exact hlo) (by exact Int.lt_add_one_of_le hhi)

/-- HDEC's start: the DC coefficient alone. -/
theorem dcOnly_eq_firstEntries {b : Block} : ((Vector.replicate 64 0#32).set 0 b[0] : Block) = firstEntries b 1 :=
  block_ext fun i => by
    have hset : ((Vector.replicate 64 0#32).set 0 b[0] : Block)[i]
        = if 0 = i.val then b[0] else (Vector.replicate 64 0#32)[i] := Vector.getElem_set ..
    have hzero : (Vector.replicate 64 0#32 : Block)[i] = 0#32 := Vector.getElem_replicate ..
    rw [hset, hzero, firstEntries_getElem]
    by_cases hi : 0 = i.val
    · rw [if_pos hi, if_pos (by omega)]
      simp only [hi]
      rfl
    · rw [if_neg hi, if_neg (by omega)]

/-- HDEC with the ROM tables on the bits of a codable block. -/
theorem run_decodeBlock (d : Slot) (k : Fin 3) {td ta : BitVec 1} {chroma : Bool} {b : Block} {rest : List Bool} {s : State}
    (hs : ReaderOk s) (htd : htValid s 0#1 td = true) (hta : htValid s 1#1 ta = true)
    (hdc : getHt s 0#1 td = (dcTable chroma).toTable) (hac : getHt s 1#1 ta = (acTable chroma).toTable)
    (hb : codable (getPred s k) b) (hbits : readerBits s = blockBits chroma (getPred s k) b ++ rest) :
    ∃ q, decodeBlock d k td ta s = .ok () (setPred k (wrap16 b[0].toInt) (setBlk d b (withReader q s)))
      ∧ readerBits (withReader q s) = rest := by
  obtain ⟨⟨hdlo, hdhi⟩, ⟨hlo, hhi⟩, hacs⟩ := hb
  have hclamp : clamp (b[0].toInt - getPred s k) (-2047) 2047 = b[0].toInt - getPred s k := by
    rw [clamp, if_neg (by omega), if_neg (by omega)]
  have hsum : getPred s k + (b[0].toInt - getPred s k) = b[0].toInt := by omega
  rw [blockBits, hclamp, List.append_assoc] at hbits
  obtain ⟨r, hrunDc, hr, hleft⟩ := reads_decodeDc chroma (by omega) k s s.br _ hs hbits
  have hfirst : wrap32 (wrap16 b[0].toInt).toInt = b[0] := by
    rw [toInt_wrap16 hlo hhi]
    exact BitVec.ofInt_toInt
  have hreads := reads_decodeAc chroma (b := b) s (k := 1) (run := 0) (fuel := 64) rfl hacs
    (fun i h1 h2 => absurd h2 (Nat.not_lt.2 h1)) (by decide) (by decide)
  obtain ⟨q, hrunAc, -, hrest⟩ := hreads r rest hr hleft
  refine ⟨q, ?_, hrest⟩
  rw [hsum] at hrunDc
  rw [decodeBlock, run_checkState_pass s (by rw [htd, hta]; rfl), run_get_bind, hdc, hac, run_bind_ok s hrunDc, hfirst,
    dcOnly_eq_firstEntries, run_bind_ok _ hrunAc, run_update_bind, run_update]

/-- Settles O39: `run_decodeBlock`, and what its end state holds. -/
theorem hdecRecoversTheCodedBlock : Obligations.HdecRecoversTheCodedBlock := by
  intro d c tt k chroma b rest s hc hs htd hta hdc hac hb hbits
  have ⟨_, ⟨hlo, hhi⟩, _⟩ := hb
  obtain ⟨q, hrun, hrest⟩ := run_decodeBlock d k hs htd hta hdc hac hb hbits
  have hbody : doHdec d c tt s = .ok () (setPred k (wrap16 b[0].toInt) (setBlk d b (withReader q s))) := by
    rw [doHdec, hc]
    exact hrun
  refine ⟨_, runCommand_ok hbody, succeeded_complete_none _, ?_, ?_, ?_⟩
  · exact getBlk_setBlk_same d b (withReader q s)
  · have hpred := congrFun (getPred_setPred k (wrap16 b[0].toInt) (setBlk d b (withReader q s))) k
    rw [if_pos rfl, toInt_wrap16 hlo hhi] at hpred
    exact hpred
  · exact (readerBits_congr (s := withReader q s) (by rfl) (by rfl) (by rfl)).trans hrest

end Sys2Proof.Machine
end

section
/-! The header HDRW writes, as PARSEHDR reads it: the input that stands at BR_PTR, and each segment by its marker's round of
the loop (44 R530 to R534; 45 R581 to R600). -/

namespace Sys2Proof.Machine

/-! ### Bytes that stand in the input (45 R580, R582) -/

/-- The next bytes of the input, at BR_PTR, are `bs`. -/
structure InputAt (bs : List Byte) (s : State) : Prop where
  ok : ReaderOk s
  room : s.br.ptr.toNat + bs.length ≤ s.br.lim.toNat
  bytes : readBytes s s.br.ptr.toNat bs.length = bs

section InputAt
variable {as bs : List Byte} {s : State}

/-- The input does not change where the reader stays in place and LMEM is the same. -/
theorem InputAt.congr (h : InputAt bs s) {t : State} (hptr : t.br.ptr = s.br.ptr) (hlim : t.br.lim = s.br.lim)
    (hcnt : t.br.cnt.toNat ≤ 8) (hmem : t.mem = s.mem) (hundef : t.undef = s.undef) (hbytes : t.memBytes = s.memBytes) :
    InputAt bs t := by
  obtain ⟨⟨hle, hin, -⟩, hroom, hread⟩ := h
  refine ⟨⟨by rw [hptr, hlim]; exact hle, by rw [hlim, hbytes]; exact hin, hcnt⟩, by rw [hptr, hlim]; exact hroom, ?_⟩
  rw [hptr, readBytes_mem_congr hmem hundef, hread]

theorem InputAt.left (h : InputAt (as ++ bs) s) : InputAt as s := by
  obtain ⟨hok, hroom, hread⟩ := h
  rw [List.length_append] at hroom hread
  rw [readBytes_append] at hread
  exact ⟨hok, by omega, (List.append_inj hread (readBytes_length ..)).1⟩

/-- Behind the bytes `as` stand the bytes `bs`. -/
theorem InputAt.advance (h : InputAt (as ++ bs) s) {n : Nat} (hn : as.length = n) : InputAt bs (advanceReader n s) := by
  obtain ⟨⟨-, hlim, hcnt⟩, hroom, hread⟩ := h
  rw [List.length_append, hn] at hroom hread
  rw [readBytes_append] at hread
  have hptr : (advanceReader n s).br.ptr.toNat = s.br.ptr.toNat + n :=
    pointer_add_ofNat_toNat (lim := s.br.lim) (by omega)
  refine ⟨⟨?_, hlim, hcnt⟩, ?_, ?_⟩
  · rw [hptr]
    exact Nat.le_trans (by omega) hroom
  · rw [hptr]
    exact Nat.le_trans (by omega) hroom
  · rw [hptr]
    exact (readBytes_mem_congr (s := s) (t := advanceReader n s) rfl rfl _ _).trans
      (List.append_inj hread (by rw [readBytes_length, hn])).2

/-- The input behind the bytes `as`, of which the state was made `t`. -/
theorem InputAt.behind (h : InputAt (as ++ bs) s) {t : State} {n : Nat} (hn : as.length = n) (hbr : t.br = s.br)
    (hmem : t.mem = s.mem) (hundef : t.undef = s.undef) (hbytes : t.memBytes = s.memBytes) :
    InputAt bs (advanceReader n t) :=
  InputAt.advance (h.congr (by rw [hbr]) (by rw [hbr]) (by rw [hbr]; exact h.ok.2.2) hmem hundef hbytes) hn

/-- A byte of the input. -/
theorem InputAt.byte (h : InputAt bs s) (i : Nat) (hi : i < bs.length) : readByte s (s.br.ptr.toNat + i) = bs[i] := by
  have hget := congrArg (·[i]?) h.bytes
  simp only [readBytes_getElem?, if_pos hi, List.getElem?_eq_getElem hi, Option.some.injEq] at hget
  exact hget

theorem InputAt.markerAt {c : Byte} (h : InputAt (0xFF#8 :: c :: bs) s) : MarkerAt s c := by
  have hroom := h.room
  simp only [List.length_cons] at hroom
  exact ⟨by omega, h.ok.2.1, h.byte 0 (by simp), h.byte 1 (by simp)⟩

/-- The two bytes of a 16-bit field are its value. -/
theorem be16_value {n : Nat} (hn : n < 65536) : (BitVec.ofNat 8 (n / 256)).toNat * 256 + (BitVec.ofNat 8 n).toNat = n := by
  simp only [BitVec.toNat_ofNat]
  omega

/-- A segment that stands in the input: its length field and its content. -/
theorem InputAt.segment {len : Nat} (h : InputAt (be16Bytes len ++ as ++ bs) s) (hlen : as.length + 2 = len)
    (hlt : len < 65536) : segmentAt s len ∧ segmentContent s len = as := by
  have hroom := h.left.room
  have hread := h.left.bytes
  have h0 := h.byte 0 (by simp [be16Bytes])
  have h1 := h.byte 1 (by simp [be16Bytes])
  simp only [be16Bytes, List.cons_append, List.nil_append, List.getElem_cons_zero, List.getElem_cons_succ,
    Nat.add_zero] at h0 h1
  have hlength : (be16Bytes len ++ as).length = 2 + as.length := by rw [List.length_append]; rfl
  rw [hlength] at hroom hread
  rw [readBytes_append] at hread
  refine ⟨⟨by omega, ?_, by omega, by omega⟩, ?_⟩
  · rw [segmentLength, h0, h1, be16_value hlt]
  · rw [segmentContent, show len - 2 = as.length by omega]
    exact (List.append_inj hread (readBytes_length ..)).2

end InputAt

/-! ### A round of the loop (45 R600) -/

/-- A round of the loop on a marker at BR_PTR is the marker's case behind it. -/
theorem run_headerRound {s : State} {c : Byte} {bs : List Byte} (h : InputAt (0xFF#8 :: c :: bs) s) (hc : c ≠ 0xFF#8) :
    headerRound s = headerCase c (advanceReader 2 s) := by
  rw [headerRound, run_bind_ok s (run_nextMarker h.markerAt hc)]

/-! ### DQT (44 R531; 45 R583) -/

/-- The two tables of HDRW's DQT segment. -/
def writtenQts (q0 q1 : Vector Byte 64) : List (BitVec 2 × List Byte) := [(0#2, zigzagBytes q0), (1#2, zigzagBytes q1)]

theorem dqtBytes_eq (q0 q1 : Vector Byte 64) :
    dqtBytes q0 q1 = [0xFF#8, 0xDB#8] ++ (be16Bytes 132 ++ dqtImage (writtenQts q0 q1)) := by
  simp [dqtBytes, writtenQts, dqtImage]

/-- A table without an entry 0 is written without a byte 0. -/
theorem zero_notMem_zigzagBytes {q : Vector Byte 64} (hq : ∀ i : Fin 64, q[i] ≠ 0#8) : 0#8 ∉ zigzagBytes q := by
  intro h
  rw [zigzagBytes, Vector.mem_toList_iff, Vector.mem_ofFn] at h
  obtain ⟨k, hk⟩ := h
  exact hq _ hk

theorem dqtImageOk_writtenQts {q0 q1 : Vector Byte 64} (hq : ∀ i : Fin 64, q0[i] ≠ 0#8 ∧ q1[i] ≠ 0#8) :
    dqtImageOk (writtenQts q0 q1) := by
  simp only [dqtImageOk, writtenQts, List.mem_cons, List.not_mem_nil, or_false, forall_eq_or_imp, forall_eq,
    zigzagBytes_length, true_and]
  exact ⟨zero_notMem_zigzagBytes fun i => (hq i).1, zero_notMem_zigzagBytes fun i => (hq i).2⟩

/-- Reading a table's zigzag bytes gives the table back (41 R353, R361). -/
theorem naturalTable_zigzagBytes (q : Vector Byte 64) : naturalTable (zigzagBytes q) = q := by
  refine Vector.ext fun i hi => ?_
  have hbyte : (zigzagBytes q).getD (izz[(⟨i, hi⟩ : Fin 64)]).val 0#8 = q[zz[izz[(⟨i, hi⟩ : Fin 64)]]] := by
    rw [zigzagBytes, List.getD_eq_getElem?_getD, List.getElem?_eq_getElem (by simp)]
    simp
  simp only [zz_izz] at hbyte
  exact (Vector.getElem_ofFn ..).trans hbyte

theorem installQts_advanceReader (ts : List (BitVec 2 × List Byte)) (n : Nat) (s : State) :
    installQts ts (advanceReader n s) = advanceReader n (installQts ts s) := by
  induction ts generalizing s with
  | nil => rfl
  | cons x ts ih => exact ih (installQt x.1 (naturalTable x.2) s)

/-- The input behind a DQT segment whose tables were installed. -/
theorem InputAt.behindQts {as bs : List Byte} {s : State} (h : InputAt (as ++ bs) s) {n : Nat} (hn : as.length = n)
    (ts : List (BitVec 2 × List Byte)) : InputAt bs (advanceReader n (installQts ts s)) :=
  h.behind hn (installQts_br ts s) (by rw [installQts_eq]) (by rw [installQts_eq]) (installQts_memBytes ts s)

/-- DQT without bytes behind its tables, at BR_PTR (45 R583). -/
theorem run_parseDqt_image {ts : List (BitVec 2 × List Byte)} {len : Nat} {bs : List Byte} {s : State} (hts : dqtImageOk ts)
    (hlen : (dqtImage ts).length + 2 = len) (hlt : len < 65536) (h : InputAt (be16Bytes len ++ dqtImage ts ++ bs) s) :
    parseDqt s = .ok () (advanceReader len (installQts ts s)) := by
  obtain ⟨hseg, hcontent⟩ := h.segment hlen hlt
  have hrounds := length_le_dqtImage ts
  have ⟨_, _, _, hroom⟩ := hseg
  obtain ⟨-, hlim, -⟩ := h.ok
  obtain ⟨fuel, hfuel⟩ : ∃ fuel, fuel + 1 + ts.length = len := ⟨len - ts.length - 1, by omega⟩
  rw [segmentContent, show len - 2 = (dqtImage ts).length by omega] at hcontent
  have htables := run_dqtTables (u := s) (stop := s.br.ptr.toNat + len) (p := s.br.ptr.toNat + 2) (fuel := fuel + 1) hts
    (by omega) (by omega) hcontent
  rw [hfuel, run_dqtTables_end (by omega)] at htables
  rw [run_parseDqt h.ok hseg, run_bind_ok s htables, run_update]

theorem run_headerRound_dqt {q0 q1 : Vector Byte 64} {bs : List Byte} {s : State}
    (hq : ∀ i : Fin 64, q0[i] ≠ 0#8 ∧ q1[i] ≠ 0#8) (h : InputAt (dqtBytes q0 q1 ++ bs) s) :
    headerRound s = .ok false (advanceReader 134 (installQts (writtenQts q0 q1) s)) := by
  rw [dqtBytes_eq, List.append_assoc] at h
  have hparse := run_parseDqt_image (dqtImageOk_writtenQts hq) (by simp [dqtImage, writtenQts]) (by decide)
    (h.advance (n := 2) rfl)
  rw [installQts_advanceReader, advanceReader_advanceReader] at hparse
  rw [run_headerRound h (by decide)]
  exact run_bind_ok _ hparse

/-! ### DHT (44 R532; 45 R584) -/

/-- A ROM table as it stands in HDRW's DHT segment. -/
def writtenHt (tc th : BitVec 1) (t : HuffSpec) : DhtEntry :=
  { tc := tc, th := th, bits := t.bits.map (BitVec.ofNat 8), vals := t.vals }

/-- The four tables of HDRW's DHT segment. -/
def writtenHts : List DhtEntry :=
  [writtenHt 0#1 0#1 romDc0, writtenHt 1#1 0#1 romAc0, writtenHt 0#1 1#1 romDc1, writtenHt 1#1 1#1 romAc1]

theorem dhtBytes_eq : dhtBytes = [0xFF#8, 0xC4#8] ++ (be16Bytes 418 ++ dhtImage writtenHts) := by
  simp [dhtBytes, dhtTable, writtenHts, writtenHt, dhtImage]

theorem dhtImage_writtenHts_length : (dhtImage writtenHts).length = 416 := by decide +kernel

theorem dhtImageOk_writtenHts : dhtImageOk writtenHts := by
  have hbits (t : HuffSpec) (ht : t.Installable) (tc th : BitVec 1) :
      (writtenHt tc th t).bits.length = 16 ∧ bitsValid ((writtenHt tc th t).bits.map BitVec.toNat) = true
        ∧ (writtenHt tc th t).vals.length = bitsSum (writtenHt tc th t).bits := by
    have hcounts : (t.bits.map (BitVec.ofNat 8)).map BitVec.toNat = t.bits := by
      rw [List.map_map]
      refine (List.map_congr_left fun n hn => ?_).trans (List.map_id _)
      exact (BitVec.toNat_ofNat ..).trans (Nat.mod_eq_of_lt (ht.counts n hn))
    refine ⟨by simp [writtenHt, ht.length], ?_, ?_⟩
    · rw [writtenHt, hcounts, ht.valid]
    · rw [writtenHt, bitsSum, hcounts, ht.vals]
  simp only [dhtImageOk, writtenHts, List.mem_cons, List.not_mem_nil, or_false, forall_eq_or_imp, forall_eq]
  exact ⟨hbits _ (installable_dcTable false) _ _, hbits _ (installable_acTable false) _ _,
    hbits _ (installable_dcTable true) _ _, hbits _ (installable_acTable true) _ _⟩

theorem installHts_advanceReader (ts : List DhtEntry) (n : Nat) (s : State) :
    installHts ts (advanceReader n s) = advanceReader n (installHts ts s) := by
  induction ts generalizing s with
  | nil => rfl
  | cons x ts ih => exact ih (installHt x.tc x.th (huffTableOf x.bits x.vals) s)

/-- The input behind a DHT segment whose tables were installed. -/
theorem InputAt.behindHts {as bs : List Byte} {s : State} (h : InputAt (as ++ bs) s) {n : Nat} (hn : as.length = n)
    (ts : List DhtEntry) : InputAt bs (advanceReader n (installHts ts s)) :=
  h.behind hn (installHts_br ts s) (by rw [installHts_eq]) (by rw [installHts_eq]) (installHts_memBytes ts s)

/-- DHT without bytes behind its tables, at BR_PTR (45 R584). -/
theorem run_parseDht_image {ts : List DhtEntry} {len : Nat} {bs : List Byte} {s : State} (hts : dhtImageOk ts)
    (hlen : (dhtImage ts).length + 2 = len) (hlt : len < 65536) (h : InputAt (be16Bytes len ++ dhtImage ts ++ bs) s) :
    parseDht s = .ok () (advanceReader len (installHts ts s)) := by
  obtain ⟨hseg, hcontent⟩ := h.segment hlen hlt
  have hrounds := length_le_dhtImage ts
  have ⟨_, _, _, hroom⟩ := hseg
  obtain ⟨-, hlim, -⟩ := h.ok
  obtain ⟨fuel, hfuel⟩ : ∃ fuel, fuel + 1 + ts.length = len := ⟨len - ts.length - 1, by omega⟩
  rw [segmentContent, show len - 2 = (dhtImage ts).length by omega] at hcontent
  have htables := run_dhtTables (u := s) (stop := s.br.ptr.toNat + len) (p := s.br.ptr.toNat + 2) (fuel := fuel + 1) hts
    (by omega) (by omega) hcontent
  rw [hfuel, run_dhtTables_end (by omega)] at htables
  rw [run_parseDht h.ok hseg, run_bind_ok s htables, run_update]

theorem run_headerRound_dht {bs : List Byte} {s : State} (h : InputAt (dhtBytes ++ bs) s) :
    headerRound s = .ok false (advanceReader 420 (installHts writtenHts s)) := by
  rw [dhtBytes_eq, List.append_assoc] at h
  have hparse := run_parseDht_image dhtImageOk_writtenHts (by rw [dhtImage_writtenHts_length]) (by decide)
    (h.advance (n := 2) rfl)
  rw [installHts_advanceReader, advanceReader_advanceReader] at hparse
  rw [run_headerRound h (by decide)]
  exact run_bind_ok _ hparse

/-! ### DRI (45 R586) -/

/-- The DRI segment of a frame with the restart interval `ri`. -/
def driBytes (ri : Nat) : List Byte := [0xFF#8, 0xDD#8] ++ be16Bytes 4 ++ be16Bytes ri

theorem run_headerRound_dri {ri : Nat} (hri : ri < 65536) {bs : List Byte} {s : State} (h : InputAt (driBytes ri ++ bs) s) :
    headerRound s = .ok false (advanceReader 6 { s with dri := BitVec.ofNat 16 ri }) := by
  have hsegment : InputAt (be16Bytes 4 ++ be16Bytes ri ++ bs) (advanceReader 2 s) :=
    InputAt.advance (as := [0xFF#8, 0xDD#8]) h rfl
  rw [run_headerRound h (by decide)]
  generalize hu : advanceReader 2 s = u at hsegment
  have hseg := (hsegment.segment rfl (by decide)).1
  have ⟨_, _, _, hroom⟩ := hseg
  have hlim := hsegment.ok.2.1
  have hread : memRead16 (u.br.ptr.toNat + 2) u = .ok ri u := by
    have hhigh := hsegment.byte 2 (by simp [be16Bytes])
    have hlow := hsegment.byte 3 (by simp [be16Bytes])
    simp only [be16Bytes, List.cons_append, List.nil_append, List.getElem_cons_succ, List.getElem_cons_zero] at hhigh hlow
    rw [run_memRead16 u _ (by omega), hhigh, Nat.add_assoc, hlow, be16_value hri]
  have hparse : parseDri u = .ok () (advanceReader 4 { u with dri := BitVec.ofNat 16 ri }) := by
    rw [parseDri, run_bind_ok u (run_segLen hsegment.ok hseg), run_check_bind, if_pos (by decide), run_get_bind,
      run_bind_ok u hread, run_update]
  rw [← hu] at hparse ⊢
  have hplace : advanceReader 4 { advanceReader 2 s with dri := BitVec.ofNat 16 ri }
      = advanceReader 6 { s with dri := BitVec.ofNat 16 ri } :=
    advanceReader_advanceReader 2 4 { s with dri := BitVec.ofNat 16 ri }
  rw [hplace] at hparse
  exact run_bind_ok _ hparse

/-! ### SOF0 (44 R533; 45 R590) -/

/-- The quantization selectors HDRW writes: table 0 for Y, table 1 for Cb and Cr. -/
def writtenTq : Vector (BitVec 2) 3 := #v[0#2, 1#2, 1#2]

/-- The precision, the size and the number of components in HDRW's SOF0 segment. -/
def sofSize (w h : Nat) : List Byte := [0x08#8] ++ be16Bytes h ++ be16Bytes w ++ [0x03#8]

/-- A frame HDRW's header describes and SOF0 accepts: 4:2:2 or 4:2:0, not empty, of whole MCUs, its size in 16-bit fields. -/
structure FrameOk (tt : BitVec 2) (w h : Nat) : Prop where
  layout : tt = 1#2 ∨ tt = 2#2
  width_pos : 0 < w
  width_lt : w < 65536
  width_mcu : w % 16 = 0
  height_pos : 0 < h
  height_lt : h < 65536
  height_mcu : h % mcuH (subsamplingOf tt) = 0

section Sof0
variable {tt : BitVec 2} {w h : Nat} {bs : List Byte} {s : State}

theorem sofBytes_eq (htt : tt = 1#2 ∨ tt = 2#2) (w h : Nat) :
    sofBytes (subsamplingOf tt) w h
      = [0xFF#8, 0xC0#8] ++ (be16Bytes 17 ++ (sofSize w h ++ sofComponents (subsamplingOf tt))) := by
  rcases htt with rfl | rfl <;> rfl

/-- SOF0 of a whole-MCU frame with HDRW's components, at BR_PTR: every check passes (45 R590). -/
theorem run_parseSof0_written (hf : FrameOk tt w h)
    (hin : InputAt (be16Bytes 17 ++ (sofSize w h ++ sofComponents (subsamplingOf tt)) ++ bs) s) :
    parseSof0 s = .ok () (advanceReader 17 (acceptFrame w h tt writtenTq s)) := by
  obtain ⟨htt, hw0, hw, hw16, hh0, hh, hmcu⟩ := hf
  have hlength : (sofComponents (subsamplingOf tt)).length = 9 := by rcases htt with rfl | rfl <;> rfl
  obtain ⟨hseg, hcontent⟩ := hin.segment (by rw [List.length_append, hlength]; rfl) (by decide)
  have ⟨_, _, _, hroom⟩ := hseg
  obtain ⟨-, hlim, -⟩ := hin.ok
  rw [segmentContent, show 17 - 2 = 6 + 9 from rfl, readBytes_append] at hcontent
  obtain ⟨hsize, hcomponents⟩ := List.append_inj hcontent (by rw [readBytes_length]; rfl)
  simp only [sofSize, be16Bytes, readBytes, List.cons_append, List.nil_append, List.cons.injEq, and_true,
    Nat.add_assoc, Nat.reduceAdd] at hsize
  obtain ⟨hp, hh1, hh2, hw1, hw2, hn⟩ := hsize
  have hheight : memRead16 (s.br.ptr.toNat + 2 + 1) s = .ok h s := by
    rw [run_memRead16 s _ (by omega), hh1, hh2, be16_value hh]
  have hwidth : memRead16 (s.br.ptr.toNat + 2 + 3) s = .ok w s := by
    rw [run_memRead16 s _ (by omega), hw1, hw2, be16_value hw]
  have hread : memReads (s.br.ptr.toNat + 2 + 6) 9 s = .ok (sofComponents (subsamplingOf tt)) s :=
    hcomponents ▸ run_memReads s _ _ (by omega)
  rw [parseSof0, run_bind_ok s (run_segLen hin.ok hseg), run_check_bind, if_pos (by decide), run_get_bind,
    run_bind_ok s (run_memRead s (by omega)), run_bind_ok s hheight, run_bind_ok s hwidth,
    run_bind_ok s (run_memRead s (by omega)), hp, hn, run_check_bind, if_pos (by decide), run_check_bind,
    if_pos (by simp; omega), run_check_bind, if_pos (by decide), run_check_bind, if_pos (by decide), run_check_bind,
    if_pos (by decide), run_bind_ok s hread]
  rcases htt with rfl | rfl
  all_goals
    rw [run_check_bind, if_pos (by decide), run_check_bind, if_pos (by decide), run_check_bind, if_pos (by decide),
      run_check_bind, if_pos]
    · rfl
    · simp; exact ⟨hw16, hmcu⟩

theorem run_headerRound_sof0 (hf : FrameOk tt w h) (hstate : s.pstate = .readingTables)
    (hin : InputAt (sofBytes (subsamplingOf tt) w h ++ bs) s) :
    headerRound s = .ok false (advanceReader 19 (setPstate .sof0Seen (acceptFrame w h tt writtenTq s))) := by
  rw [sofBytes_eq hf.layout, List.append_assoc] at hin
  have hparse := run_parseSof0_written hf (hin.advance (n := 2) rfl)
  have hcase : headerCase 0xC0#8 = (do
      checkState (fun s => decide (s.pstate ≠ .sof0Seen)) .unexpectedMarker
      parseSof0
      update (setPstate .sof0Seen)
      pure false) := rfl
  rw [run_headerRound hin (by decide), hcase, run_checkState_pass _ (by simp [hstate]), run_bind_ok _ hparse,
    run_update_bind]
  exact congrArg (EStateM.Result.ok false)
    (advanceReader_advanceReader 2 17 (setPstate .sof0Seen (acceptFrame w h tt writtenTq s)))

end Sof0

/-! ### SOS (44 R534; 45 R595) -/

/-- The Huffman selectors HDRW writes: the luma tables for Y, the chroma tables for Cb and Cr. -/
def writtenSelectors : Vector (BitVec 1) 3 := #v[0#1, 1#1, 1#1]

/-- All four decoder tables are installed, and quantization tables 0 and 1. -/
structure TablesInstalled (s : State) : Prop where
  huff : ∀ tc th : BitVec 1, htValid s tc th = true
  luma : qtValid s 0#2 = true
  chroma : qtValid s 1#2 = true

section Sos
variable {tt : BitVec 2} {bs : List Byte} {s : State}

/-- A scan component whose bytes are read and whose Huffman tables are installed (45 R595). -/
theorem run_scanComponent {a i : Nat} {t : Byte} (hroom : a + 2 + 2 * i < s.memBytes) (hht : TablesInstalled s)
    (hcs : (readByte s (a + 1 + 2 * i)).toNat = i + 1) (ht : readByte s (a + 2 + 2 * i) = t)
    (hsel : t.toNat / 16 ≤ 1 ∧ t.toNat % 16 ≤ 1) :
    scanComponent a i s = .ok (t.extractLsb' 4 1, t.extractLsb' 0 1) s := by
  rw [scanComponent, run_bind_ok s (run_memRead s (by omega)), run_bind_ok s (run_memRead s hroom), ht, run_check_bind,
    if_pos (decide_eq_true hcs), run_check_bind, if_pos (by simpa using hsel), run_checkState_pass s, run_pure]
  rw [hht.huff, hht.huff]
  rfl

/-- The content of HDRW's SOS segment for three components. -/
def sosContent : List Byte := [0x03#8, 0x01#8, 0x00#8, 0x02#8, 0x11#8, 0x03#8, 0x11#8, 0x00#8, 0x3F#8, 0x00#8]

theorem sosBytes_eq (htt : tt = 1#2 ∨ tt = 2#2) :
    sosBytes (subsamplingOf tt) = [0xFF#8, 0xDA#8] ++ (be16Bytes 12 ++ sosContent) := by
  rcases htt with rfl | rfl <;> rfl

/-- SOS with HDRW's selectors, at BR_PTR: every check passes (45 R595). -/
theorem run_parseSos_written (ht : TablesInstalled s) (htq : s.frmInfo.tq = writtenTq)
    (hin : InputAt (be16Bytes 12 ++ sosContent ++ bs) s) :
    parseSos s = .ok () (advanceReader 12 (acceptScan writtenSelectors writtenSelectors s)) := by
  obtain ⟨hseg, hcontent⟩ := hin.segment rfl (by decide)
  have ⟨_, _, _, hroom⟩ := hseg
  obtain ⟨-, hlim, -⟩ := hin.ok
  rw [segmentContent, show 12 - 2 = 7 + 3 from rfl, readBytes_append] at hcontent
  obtain ⟨hhead, htail⟩ := List.append_inj (s₂ := sosContent.take 7) (t₂ := sosContent.drop 7) hcontent
    (by rw [readBytes_length]; rfl)
  have hread : memReads (s.br.ptr.toNat + 2 + 7) 3 s = .ok (sosContent.drop 7) s := htail ▸ run_memReads s _ _ (by omega)
  simp only [sosContent, readBytes, List.take_succ_cons, List.take_zero, List.cons.injEq, and_true, Nat.add_assoc,
    Nat.reduceAdd] at hhead
  obtain ⟨hns, hc0, ht0, hc1, ht1, hc2, ht2⟩ := hhead
  have hvalid : frameTablesValid s = true := by
    rw [frameTablesValid, htq]
    simp [writtenTq, ht.luma, ht.chroma]
  rw [parseSos, run_bind_ok s (run_segLen hin.ok hseg), run_check_bind, if_pos (by decide), run_get_bind,
    run_bind_ok s (run_memRead s (by omega)), hns, run_check_bind, if_pos (by decide), run_check_bind, if_pos (by decide),
    run_bind_ok s (run_scanComponent (by omega) ht (by simp [Nat.add_assoc, hc0]) ht0 (by decide)),
    run_bind_ok s (run_scanComponent (by omega) ht (by simp [Nat.add_assoc, hc1]) ht1 (by decide)),
    run_bind_ok s (run_scanComponent (by omega) ht (by simp [Nat.add_assoc, hc2]) ht2 (by decide)),
    run_bind_ok s hread, run_check_bind, if_pos (by decide), run_checkState_pass s hvalid]
  rfl

theorem run_headerRound_sos (htt : tt = 1#2 ∨ tt = 2#2) (ht : TablesInstalled s) (htq : s.frmInfo.tq = writtenTq)
    (hstate : s.pstate = .sof0Seen) (hin : InputAt (sosBytes (subsamplingOf tt) ++ bs) s) :
    headerRound s = .ok true (setRes0 (s.br.ptr + 14#32)
      (setPstate .inScan (advanceReader 14 (acceptScan writtenSelectors writtenSelectors s)))) := by
  rw [sosBytes_eq htt, List.append_assoc] at hin
  have hparse := run_parseSos_written (s := advanceReader 2 s) ⟨ht.huff, ht.luma, ht.chroma⟩ htq
    (hin.advance (n := 2) rfl)
  have hplace := advanceReader_advanceReader 2 12 (acceptScan writtenSelectors writtenSelectors s)
  have hcase : headerCase 0xDA#8 = (do
      checkState (fun s => decide (s.pstate = .sof0Seen)) .unexpectedMarker
      parseSos
      update fun s => setRes0 s.br.ptr (setPstate .inScan s)
      pure true) := rfl
  rw [run_headerRound hin (by decide), hcase, run_checkState_pass _ (by simp [hstate]),
    run_bind_ok _ (hparse.trans (congrArg (EStateM.Result.ok ()) hplace)), run_update_bind]
  rfl

end Sos

/-! ### The header as a whole (44 R530; 45 R600) -/

/-- FRM_INFO behind HDRW's header. -/
def writtenInfo (tt : BitVec 2) : FrameInfo := { ss := tt, tq := writtenTq, td := writtenSelectors, ta := writtenSelectors }

/-- The state behind the header, its 587 bytes from DQT on being taken from `s`. -/
def scanEntered (tt : BitVec 2) (w h : Nat) (q0 q1 : Vector Byte 64) (s : State) : State :=
  setRes0 (s.br.ptr + 587#32) (setPstate .inScan (advanceReader 587 (acceptScan writtenSelectors writtenSelectors
    (acceptFrame w h tt writtenTq (installHts writtenHts (installQts (writtenQts q0 q1) s))))))

/-- What a scan behind HDRW's header works with: the frame, its selectors and its six tables. -/
structure ScanSetup (tt : BitVec 2) (w h : Nat) (q0 q1 : Vector Byte 64) (s : State) : Prop where
  state : s.pstate = .inScan
  dim : s.frmDim = packHalves w h
  info : s.frmInfo = writtenInfo tt
  installed : TablesInstalled s
  luma : getQt s 0#2 = q0
  chroma : getQt s 1#2 = q1
  dc : ∀ chroma : Bool, getHt s 0#1 (BitVec.ofBool chroma) = (dcTable chroma).toTable
  ac : ∀ chroma : Bool, getHt s 1#1 (BitVec.ofBool chroma) = (acTable chroma).toTable

theorem installHts_writtenHts (s : State) : installHts writtenHts s =
    installHt 1#1 1#1 romAc1.toTable (installHt 0#1 1#1 romDc1.toTable (installHt 1#1 0#1 romAc0.toTable
      (installHt 0#1 0#1 romDc0.toTable s))) := rfl

theorem installQts_writtenQts (q0 q1 : Vector Byte 64) (s : State) :
    installQts (writtenQts q0 q1) s = installQt 1#2 q1 (installQt 0#2 q0 s) := by
  rw [writtenQts, installQts_cons, installQts_cons, naturalTable_zigzagBytes, naturalTable_zigzagBytes]
  rfl

section Header
variable {tt : BitVec 2} {w h : Nat} {q0 q1 : Vector Byte 64} {bs : List Byte} {s : State}

/-- HDRW's tables are all that a scan needs. -/
theorem tablesInstalled_written : TablesInstalled (installHts writtenHts (installQts (writtenQts q0 q1) s)) where
  huff tc th := by
    rcases BitVec.eq_zero_or_eq_one tc with rfl | rfl <;> rcases BitVec.eq_zero_or_eq_one th with rfl | rfl <;>
      simp [installHts_writtenHts, htValid, htIndex]
  luma := by simp [installHts_writtenHts, installQts_writtenQts, qtValid]
  chroma := by simp [installHts_writtenHts, installQts_writtenQts, qtValid]

/-- Whether tables are installed is a matter of TVALID. -/
theorem TablesInstalled.congr (h : TablesInstalled s) {t : State} (hq : t.qvalid = s.qvalid) (hh : t.hvalid = s.hvalid) :
    TablesInstalled t := by
  obtain ⟨hhuff, hluma, hchroma⟩ := h
  simp only [htValid, qtValid] at hhuff hluma hchroma
  exact ⟨by simpa only [htValid, hh] using hhuff, by simpa only [qtValid, hq] using hluma,
    by simpa only [qtValid, hq] using hchroma⟩

theorem scanSetup_scanEntered : ScanSetup tt w h q0 q1 (scanEntered tt w h q0 q1 s) where
  state := by simp [scanEntered]
  dim := by simp [scanEntered]
  info := by simp [scanEntered, writtenInfo]
  installed := (tablesInstalled_written (q0 := q0) (q1 := q1) (s := s)).congr (by simp [scanEntered]) (by simp [scanEntered])
  luma := by simp [scanEntered, installHts_writtenHts, installQts_writtenQts, getQt]
  chroma := by simp [scanEntered, installHts_writtenHts, installQts_writtenQts, getQt]
  dc chroma := by cases chroma <;> simp [scanEntered, installHts_writtenHts, getHt, htIndex, dcTable]
  ac chroma := by cases chroma <;> simp [scanEntered, installHts_writtenHts, getHt, htIndex, acTable]

theorem headerBytes_eq (ss : Subsampling) : headerBytes ss w h q0 q1
    = [0xFF#8, 0xD8#8] ++ (dqtBytes q0 q1 ++ (dhtBytes ++ (sofBytes ss w h ++ sosBytes ss))) := by
  simp only [headerBytes, List.append_assoc]

/-- The loop of PARSEHDR on HDRW's header behind SOI: a round per segment (45 R600). -/
theorem run_headerLoop_written (hf : FrameOk tt w h) (hq : ∀ i : Fin 64, q0[i] ≠ 0#8 ∧ q1[i] ≠ 0#8)
    (hstate : s.pstate = .readingTables)
    (hin : InputAt ((headerBytes (subsamplingOf tt) w h q0 q1).drop 2) s) (fuel : Nat) :
    headerLoop (fuel + 4) s = .ok () (scanEntered tt w h q0 q1 s) := by
  rw [headerBytes_eq, List.drop_left' (by rfl)] at hin
  have htt := hf.layout
  have hsof : (sofBytes (subsamplingOf tt) w h).length = 19 := by rcases htt with rfl | rfl <;> rfl
  rw [headerLoop_succ, run_bind_ok s (run_headerRound_dqt hq hin)]
  replace hin := hin.behindQts (dqtBytes_length q0 q1) (writtenQts q0 q1)
  rw [if_neg (by decide), headerLoop_succ, run_bind_ok _ (run_headerRound_dht hin)]
  replace hin := hin.behindHts dhtBytes_length writtenHts
  rw [installHts_advanceReader, advanceReader_advanceReader, show 134 + 420 = 554 from rfl] at hin ⊢
  have htables := tablesInstalled_written (q0 := q0) (q1 := q1) (s := s)
  have hstate' : (installHts writtenHts (installQts (writtenQts q0 q1) s)).pstate = .readingTables := by
    rw [installHts_eq, installQts_eq]
    exact hstate
  have hptr : (installHts writtenHts (installQts (writtenQts q0 q1) s)).br = s.br := by rw [installHts_br, installQts_br]
  rw [scanEntered]
  generalize installHts writtenHts (installQts (writtenQts q0 q1) s) = u at hin htables hstate' hptr ⊢
  rw [if_neg (by decide), headerLoop_succ,
    run_bind_ok _ (run_headerRound_sof0 hf (s := advanceReader 554 u) (by simpa using hstate') hin)]
  replace hin := hin.behind (t := setPstate .sof0Seen (acceptFrame w h tt writtenTq (advanceReader 554 u))) hsof
    (by simp) (by simp) (by simp) (by simp)
  rw [← List.append_nil (sosBytes _)] at hin
  rw [if_neg (by decide), headerLoop_succ,
    run_bind_ok _ (run_headerRound_sos htt (htables.congr (by simp) (by simp)) (by simp) (by simp) hin), if_pos rfl, run_pure]
  simp [setRes0, setPstate, advanceReader, acceptScan, acceptFrame, hptr, BitVec.add_assoc]

theorem headerTail_length (htt : tt = 1#2 ∨ tt = 2#2) :
    ((headerBytes (subsamplingOf tt) w h q0 q1).drop 2).length = 587 := by
  rw [List.length_drop, headerBytes_length]
  rcases htt with rfl | rfl <;> rfl

/-- The start of a frame: SOI, and a DRI segment unless there is no restart interval. -/
def soiDriBytes (ri : Nat) : List Byte := [0xFF#8, 0xD8#8] ++ if ri = 0 then [] else driBytes ri

/-- The state behind them. -/
def tablesReading (ri : Nat) (s : State) : State :=
  advanceReader (soiDriBytes ri).length { setPstate .readingTables (parseStart s) with dri := BitVec.ofNat 16 ri }

/-- PARSEHDR on HDRW's header, with a DRI segment behind SOI or without: it enters the scan (45 R600). -/
theorem run_doParsehdr_written (hf : FrameOk tt w h) (hq : ∀ i : Fin 64, q0[i] ≠ 0#8 ∧ q1[i] ≠ 0#8) {ri : Nat}
    (hri : ri < 65536) (hin : InputAt (soiDriBytes ri ++ (headerBytes (subsamplingOf tt) w h q0 q1).drop 2) s) :
    doParsehdr s = .ok () (scanEntered tt w h q0 q1 (tablesReading ri s)) := by
  have hstart : InputAt (soiDriBytes ri ++ (headerBytes (subsamplingOf tt) w h q0 q1).drop 2) (parseStart s) :=
    hin.congr rfl rfl (Nat.zero_le 8) rfl rfl rfl
  have hsoi : expectSoiMarker (parseStart s) = .ok () (setPstate .readingTables (advanceReader 2 (parseStart s))) :=
    run_expectSoiMarker hstart.left.markerAt
  rw [doParsehdr, run_onError, run_update_bind, run_bind_ok _ hsoi, run_get_bind]
  have hcomm : setPstate .readingTables (advanceReader 2 (parseStart s))
      = advanceReader 2 (setPstate .readingTables (parseStart s)) := rfl
  rw [hcomm]
  generalize hu : setPstate .readingTables (parseStart s) = u
  have hstate : u.pstate = .readingTables := by rw [← hu]; rfl
  have hstart' : InputAt (soiDriBytes ri ++ (headerBytes (subsamplingOf tt) w h q0 q1).drop 2) u :=
    hu ▸ hstart.congr rfl rfl (Nat.zero_le 8) rfl rfl rfl
  rw [soiDriBytes, List.append_assoc] at hstart'
  have hbehind := hstart'.advance (n := 2) rfl
  have hroom := hbehind.room
  rw [List.length_append, headerTail_length hf.layout] at hroom
  by_cases h0 : ri = 0
  · obtain ⟨fuel, hfuel⟩ : ∃ fuel, bytesLeft (advanceReader 2 u) + 1 = fuel + 4 :=
      ⟨bytesLeft (advanceReader 2 u) - 3, by rw [bytesLeft]; omega⟩
    rw [if_pos h0, List.nil_append] at hbehind
    have hdri : tablesReading ri s = advanceReader 2 u := by subst h0; rw [← hu]; rfl
    rw [hfuel, run_headerLoop_written hf hq (by simpa using hstate) hbehind, hdri]
  · obtain ⟨fuel, hfuel⟩ : ∃ fuel, bytesLeft (advanceReader 2 u) + 1 = fuel + 4 + 1 :=
      ⟨bytesLeft (advanceReader 2 u) - 4, by rw [bytesLeft]; omega⟩
    rw [if_neg h0] at hbehind
    have hrest := hbehind.behind (t := { advanceReader 2 u with dri := BitVec.ofNat 16 ri }) (n := 6) rfl rfl rfl rfl rfl
    have hdri : tablesReading ri s = advanceReader 6 { advanceReader 2 u with dri := BitVec.ofNat 16 ri } := by
      rw [tablesReading, hu, soiDriBytes, if_neg h0]
      exact (advanceReader_advanceReader 2 6 { u with dri := BitVec.ofNat 16 ri }).symm
    rw [hfuel, headerLoop_succ, run_bind_ok _ (run_headerRound_dri hri hbehind), if_neg (by decide),
      run_headerLoop_written hf hq (by simpa using hstate) hrest, hdri]

end Header

/-! ### PARSEHDR on the header (44 R530, 45 R600) -/

/-- The slot of a decoder table in terms of its Tc and Th (10 R76). -/
theorem htIndex_halves : ∀ k : Fin 4, htIndex (BitVec.ofNat 1 (k.val / 2)) (BitVec.ofNat 1 (k.val % 2)) = k := by decide

theorem TablesInstalled.hvalid {s : State} (h : TablesInstalled s) (k : Fin 4) : s.hvalid[k] = true := by
  have hvalid := h.huff (BitVec.ofNat 1 (k.val / 2)) (BitVec.ofNat 1 (k.val % 2))
  simpa only [htValid, htIndex_halves] using hvalid

/-- Settles O46: the parse by `run_doParsehdr_written`, and what the header's scan works with. -/
theorem parsehdrAcceptsTheWrittenHeader : Obligations.ParsehdrAcceptsTheWrittenHeader := by
  intro tt w h q0 q1 s hs htt hw0 hw hw16 hh0 hh hmcu hq hroom hread
  have hlen : (headerBytes (subsamplingOf tt) w h q0 q1).length = 589 := by
    rw [headerBytes_length]
    rcases htt with rfl | rfl <;> rfl
  have hheader : headerBytes (subsamplingOf tt) w h q0 q1
      = soiDriBytes 0 ++ (headerBytes (subsamplingOf tt) w h q0 q1).drop 2 := by
    rw [headerBytes_eq]
    rfl
  have hin : InputAt (headerBytes (subsamplingOf tt) w h q0 q1) s :=
    ⟨hs, by rw [hlen]; exact hroom, by rw [hlen]; exact hread⟩
  rw [hheader] at hin
  have hrun := run_doParsehdr_written ⟨htt, hw0, hw, hw16, hh0, hh, hmcu⟩ hq (by decide) hin
  obtain ⟨hstate, hdim, hinfo, htables, hq0, hq1, hdc, hac⟩ :=
    scanSetup_scanEntered (tt := tt) (w := w) (h := h) (q0 := q0) (q1 := q1) (s := tablesReading 0 s)
  refine ⟨complete none (scanEntered tt w h q0 q1 (tablesReading 0 s)), runCommand_ok hrun, succeeded_complete_none _,
    hstate, ?_, ?_, ?_, ?_, hdim, hinfo, ?_, ?_, ?_, ?_, hq0, hq1, htables.luma, htables.chroma, hdc false, hac false,
    hdc true, hac true, htables.hvalid⟩
  · simp [scanEntered]
  · simp [scanEntered, tablesReading, installHts_writtenHts, installQts_writtenQts]
  · simp [scanEntered, tablesReading, soiDriBytes, BitVec.add_assoc]
  · simp [scanEntered]
  · simp [scanEntered, tablesReading, soiDriBytes, BitVec.add_assoc]
  · simp [scanEntered, tablesReading]
  · simp [scanEntered]
  · simp [scanEntered]

end Sys2Proof.Machine
end

section
/-! Where the bit reader stands in entropy-coded data: at a byte of it, never inside a stuffed pair, and at the marker behind
it once all whole bytes are taken (43 R465, R466). -/

namespace Sys2Proof.Machine

/-! ### What survives GETBIT survives HDEC (43 R466, R471, R490)

`ReaderClosed` lets FILL take any bytes; where the place of the reader matters, the property is asked to survive GETBIT
itself. -/

section KeepsGetBit
variable {P : State → Prop} (hbit : Keeps P getBit)
include hbit

theorem keeps_getBitList_of_getBit (n : Nat) : Keeps P (getBitList n) := by
  induction n with
  | zero => exact keeps_pure _
  | succ n ih => exact keeps_bind hbit fun _ => keeps_bind ih fun _ => keeps_pure _

theorem keeps_getBits_of_getBit (n : Nat) : Keeps P (getBits n) :=
  keeps_bind (keeps_getBitList_of_getBit hbit n) fun _ => keeps_pure _

theorem keeps_decodeSym_of_getBit (t : HuffTable) : Keeps P (decodeSym t) := by
  rw [decodeSym]
  generalize 0 = code
  induction levels t generalizing code with
  | nil => exact keeps_raise _
  | cons l ls ih =>
    refine keeps_bind hbit fun b => ?_
    split
    · exact keeps_pure _
    · exact ih _

theorem keeps_decodeDc_of_getBit (t : HuffTable) (c : Fin 3) : Keeps P (decodeDc t c) :=
  keeps_bind (keeps_decodeSym_of_getBit hbit t) fun _ => keeps_bind (keeps_check _ _) fun _ =>
    keeps_bind (keeps_getBits_of_getBit hbit _) fun _ => keeps_bind keeps_get fun _ => keeps_pure _

theorem keeps_decodeAc_of_getBit (t : HuffTable) (fuel k : Nat) (z : Block) : Keeps P (decodeAc t fuel k z) := by
  induction fuel generalizing k z with
  | zero => exact keeps_pure _
  | succ n ih =>
    refine keeps_ite (keeps_pure _) (keeps_bind (keeps_decodeSym_of_getBit hbit t) fun rs => ?_)
    refine keeps_ite (keeps_ite (keeps_bind (keeps_check _ _) fun _ => ih _ _) (keeps_ite (keeps_pure _) (keeps_raise _))) ?_
    exact keeps_bind (keeps_check _ _) fun _ => keeps_bind (keeps_check _ _) fun _ =>
      keeps_bind (keeps_getBits_of_getBit hbit _) fun _ => ih _ _

theorem keeps_decodeBlock_of_getBit (d : Slot) (c : Fin 3) (td ta : BitVec 1) (hb : ∀ b s, P s → P (setBlk d b s))
    (hp : ∀ v s, P s → P (setPred c v s)) : Keeps P (decodeBlock d c td ta) :=
  keeps_bind (keeps_checkState _ _) fun _ => keeps_bind keeps_get fun _ =>
    keeps_bind (keeps_decodeDc_of_getBit hbit _ _) fun _ => keeps_bind (keeps_decodeAc_of_getBit hbit _ _ _ _) fun _ =>
    keeps_bind (hb _) fun _ => hp _

end KeepsGetBit

/-! ### The reader in entropy-coded data (43 R465, R466) -/

/-- The bytes start with a marker. -/
def StartsWithMarker (bs : List Byte) : Prop := ∃ c rest, bs = 0xFF#8 :: c :: rest ∧ c ≠ 0x00#8

/-- The reader stands at or behind `src` in an input that ends at `lim`, before stuffed bytes and then `tail`; MARK is set
only where `tail` is next. -/
structure EntropyAhead (src : Nat) (lim : Word) (tail : List Byte) (s : State) : Prop where
  ok : ReaderOk s
  start : src ≤ s.br.ptr.toNat
  lim : s.br.lim = lim
  input : ∃ bs, (s.br.mark = true → bs = []) ∧ inputBytes s = stuffed bs ++ tail

/-- The input does not change where the reader stays in place and LMEM is the same. -/
theorem inputBytes_congr {s t : State} (hptr : t.br.ptr = s.br.ptr) (hlim : t.br.lim = s.br.lim) (hmem : t.mem = s.mem)
    (hundef : t.undef = s.undef) : inputBytes t = inputBytes s := by
  rw [inputBytes, inputBytes, hptr, hlim, readBytes_mem_congr hmem hundef]

/-- Where the reader moves up, the input is what it was without its first bytes. -/
theorem inputBytes_drop {s t : State} {n : Nat} (hptr : t.br.ptr.toNat = s.br.ptr.toNat + n) (hlim : t.br.lim = s.br.lim)
    (hn : s.br.ptr.toNat + n ≤ s.br.lim.toNat) (hmem : t.mem = s.mem) (hundef : t.undef = s.undef) :
    inputBytes t = (inputBytes s).drop n := by
  rw [inputBytes, inputBytes, hptr, hlim, readBytes_mem_congr hmem hundef,
    show s.br.lim.toNat - s.br.ptr.toNat = n + (s.br.lim.toNat - (s.br.ptr.toNat + n)) by omega, readBytes_append,
    List.drop_left' (readBytes_length ..)]

section EntropyAhead
variable {src : Nat} {lim : Word} {tail : List Byte} {s : State}

/-- A bit of CUR is taken, or CNT is set in any other way. -/
theorem EntropyAhead.setCount (h : EntropyAhead src lim tail s) {c : BitVec 4} (hc : c.toNat ≤ 8) :
    EntropyAhead src lim tail (setCount c s) := by
  obtain ⟨⟨hptr, hlim, -⟩, hstart, hend, hinput⟩ := h
  exact ⟨⟨hptr, hlim, hc⟩, hstart, hend, by rwa [inputBytes_setCount]⟩

/-- Loading the next byte, stuffed or not, goes on in the stuffed bytes. -/
theorem EntropyAhead.load (h : EntropyAhead src lim tail s) {n : Nat} {bs : List Byte} (hmark : s.br.mark = false)
    (hn : s.br.ptr.toNat + n ≤ s.br.lim.toNat) (hinput : (inputBytes s).drop n = stuffed bs ++ tail) (b : Byte) :
    EntropyAhead src lim tail (loadCurrent b (BitVec.ofNat 32 n) s) := by
  obtain ⟨⟨hptr, hlim, -⟩, hstart, hend, -⟩ := h
  have hptr' : (loadCurrent b (BitVec.ofNat 32 n) s).br.ptr.toNat = s.br.ptr.toNat + n := pointer_add_ofNat_toNat hn
  refine ⟨⟨?_, hlim, Nat.le_refl 8⟩, ?_, hend, bs, fun hm => ?_, ?_⟩
  · rw [hptr']
    exact hn
  · rw [hptr']
    omega
  · exact absurd (hmark.symm.trans hm) (by decide)
  · rw [inputBytes_drop hptr' rfl hn rfl rfl, hinput]

/-- Neither a slot nor a predictor is part of the input. -/
theorem EntropyAhead.congr (h : EntropyAhead src lim tail s) {t : State} (hbr : t.br = s.br) (hmem : t.mem = s.mem)
    (hundef : t.undef = s.undef) (hbytes : t.memBytes = s.memBytes) : EntropyAhead src lim tail t := by
  obtain ⟨⟨hptr, hlim, hcnt⟩, hstart, hend, hinput⟩ := h
  rw [← hbr] at hptr hlim hcnt hstart hend hinput
  refine ⟨⟨hptr, hbytes ▸ hlim, hcnt⟩, hstart, hend, ?_⟩
  rwa [inputBytes_congr (by rw [hbr]) (by rw [hbr]) hmem hundef]

variable (htail : StartsWithMarker tail)
include htail

/-- FILL loads the next of the stuffed bytes, or meets the marker behind them (43 R466). -/
theorem keeps_fill_entropyAhead : Keeps (EntropyAhead src lim tail) fill := by
  intro s hs
  have ⟨⟨_, hlim, _⟩, hstart, hend, bs, hbs, hinput⟩ := hs
  cases hmark : s.br.mark with
  | true =>
    rw [run_fill_marked hmark]
    exact hs
  | false =>
    obtain ⟨c, rest, rfl, hc⟩ := htail
    have hlength : s.br.lim.toNat - s.br.ptr.toNat = (inputBytes s).length := (readBytes_length ..).symm
    rw [hinput, List.length_append, List.length_cons, List.length_cons] at hlength
    have h0 : readByte s s.br.ptr.toNat = (inputBytes s).getD 0 0#8 := (readBytes_getD s (k := 0) (by omega)).symm
    have h1 : readByte s (s.br.ptr.toNat + 1) = (inputBytes s).getD 1 0#8 := (readBytes_getD s (k := 1) (by omega)).symm
    cases bs with
    | nil =>
      rw [hinput] at h0 h1
      rw [run_fill_marker hmark (by omega) hlim h0 (by rw [h1]; exact hc)]
      exact ⟨hs.ok, hstart, hend, [], fun _ => rfl,
        (inputBytes_congr (by simp) (by simp) (by simp) (by simp)).trans hinput⟩
    | cons b bs =>
      by_cases hb : b = 0xFF#8
      · rw [stuffed, if_pos hb] at hinput
        rw [hinput] at h0 h1
        rw [run_fill_stuffed hmark (by omega) hlim (h0.trans hb) h1]
        exact hs.load (n := 2) (bs := bs) hmark (by omega) (by rw [hinput]; rfl) _
      · rw [stuffed, if_neg hb] at hinput
        rw [hinput] at h0
        rw [run_fill_plain hmark (by omega) hlim (by rw [h0]; exact hb)]
        exact hs.load (n := 1) (bs := bs) hmark (by omega) (by rw [hinput]; rfl) _

theorem keeps_getBit_entropyAhead : Keeps (EntropyAhead src lim tail) getBit := by
  have hfill := keeps_fill_entropyAhead (src := src) (lim := lim) htail
  refine keeps_get_bind fun s hs => ?_
  split
  · have hfilled := hfill s hs
    rcases fill_cases s with ⟨c, n, h1, -⟩ | h1 | ⟨e, h1⟩ <;> rw [h1] at hfilled
    · rw [run_bind_ok s h1]
      exact EntropyAhead.setCount (c := 8#4 - 1#4) hfilled (by decide)
    · rw [run_bind_error s h1]
      exact hfilled
    · rw [run_bind_error s h1]
      exact hfilled
  · next hc =>
    have hlt := cnt_pred hc
    obtain ⟨-, -, hcnt⟩ := hs.ok
    exact hs.setCount (by omega)

/-- HDEC reads on in the stuffed bytes. -/
theorem keeps_decodeBlock_entropyAhead (d : Slot) (c : Fin 3) (td ta : BitVec 1) :
    Keeps (EntropyAhead src lim tail) (decodeBlock d c td ta) :=
  keeps_decodeBlock_of_getBit (keeps_getBit_entropyAhead htail) d c td ta (fun _ _ hs => hs.congr rfl rfl rfl rfl)
    fun _ _ hs => hs.congr rfl rfl rfl rfl

end EntropyAhead

end Sys2Proof.Machine
end

section
/-! The blocks of a scan as DECODE reads them: a slot, and the slots of an MCU (43 R490, R491; 47 R690). -/

namespace Sys2Proof.Machine

/-! ### One slot (47 R690) -/

/-- The entries of a block are within ±1023. -/
def SmallBlock (b : Block) : Prop := ∀ v ∈ b.toList, -1023 ≤ v.toInt ∧ v.toInt ≤ 1023

/-- The predictors are within ±1023. -/
def SmallPreds (s : State) : Prop := ∀ c : Fin 3, -1023 ≤ getPred s c ∧ getPred s c ≤ 1023

/-- A small block is coded exactly from small predictors (43 R491). -/
theorem codable_of_small {b : Block} (hb : SmallBlock b) {s : State} (hs : SmallPreds s) (c : Fin 3) :
    codable (getPred s c) b := by
  have hdc := hb b[0] (by simp)
  have hpred := hs c
  refine ⟨by omega, by omega, fun v hv => ?_⟩
  obtain ⟨w, hw, rfl⟩ := List.mem_map.1 hv
  exact hb w (List.mem_of_mem_drop hw)

/-- The selectors of HDRW's header, component by component. -/
theorem written_selectors (c : Fin 3) : writtenSelectors[c] = BitVec.ofBool (isChroma c) := by
  revert c
  decide

theorem written_tq (c : Fin 3) : writtenTq[c] = if c = 0 then 0#2 else 1#2 := by
  revert c
  decide

section Slot
variable {tt : BitVec 2} {w h : Nat} {q0 q1 : Vector Byte 64} {src : Nat} {lim : Word} {tail : List Byte} {s : State}

/-- The tables of a component. -/
theorem ScanSetup.tables (hs : ScanSetup tt w h q0 q1 s) (c : Fin 3) :
    qtValid s s.frmInfo.tq[c] = true ∧ getQt s s.frmInfo.tq[c] = if c = 0 then q0 else q1 := by
  rw [hs.info, writtenInfo, written_tq]
  split
  · exact ⟨hs.installed.luma, hs.luma⟩
  · exact ⟨hs.installed.chroma, hs.chroma⟩

/-- HDEC of a component with the tables FRM_INFO names (47 R690). -/
theorem run_doHdec_scan (hs : ScanSetup tt w h q0 q1 s) (d : Slot) (c : Fin 3) :
    doHdec d (BitVec.ofNat 2 c.val) (s.frmInfo.ta[c] ++ s.frmInfo.td[c])
      = decodeBlock d c (BitVec.ofBool (isChroma c)) (BitVec.ofBool (isChroma c)) := by
  rw [doHdec, componentOf_val, hs.info, writtenInfo]
  simp only [written_selectors]
  cases isChroma c <;> rfl

/-- The state after the block `x` was decoded into slot d, the reader moved to `q`. -/
def slotDecoded (q0 q1 : Vector Byte 64) (d : Slot) (x : Fin 3 × Block) (q : BitReader) (s : State) : State :=
  setPred x.1 (wrap16 x.2[0].toInt) (setBlk d (decodedBlock q0 q1 x) (withReader q s))

/-- A slot reads its block's bits and holds the block as DECODE reconstructs it. -/
theorem run_decodeSlot (htail : StartsWithMarker tail) (hs : ScanSetup tt w h q0 q1 s) (he : EntropyAhead src lim tail s)
    (hp : SmallPreds s) (d : Slot) {x : Fin 3 × Block} (hx : SmallBlock x.2) {rest : List Bool}
    (hbits : readerBits s = blockBits (isChroma x.1) (getPred s x.1) x.2 ++ rest) :
    ∃ q, decodeSlot (d, x.1) s = .ok () (slotDecoded q0 q1 d x q s)
      ∧ EntropyAhead src lim tail (slotDecoded q0 q1 d x q s) ∧ readerBits (slotDecoded q0 q1 d x q s) = rest := by
  obtain ⟨q, hrun, hrest⟩ := run_decodeBlock d x.1 he.ok (hs.installed.huff _ _) (hs.installed.huff _ _) (hs.dc _) (hs.ac _)
    (codable_of_small hx hp x.1) hbits
  have hread := (keeps_decodeBlock_entropyAhead htail d x.1 _ _).of_ok he hrun
  obtain ⟨hvalid, htable⟩ := hs.tables x.1
  generalize hv : setPred x.1 (wrap16 x.2[0].toInt) (setBlk d x.2 (withReader q s)) = v at hrun hread
  have hblk : getBlk v d = x.2 := by rw [← hv]; exact getBlk_setBlk_same d x.2 (withReader q s)
  have hdone : slotDecoded q0 q1 d x q s = setBlk d (decodedBlock q0 q1 x) v := by
    rw [← hv, slotDecoded, ← setBlk_setBlk d x.2]
    rfl
  have hdequant := run_doDequant (s := setBlk d (unzigzagBlock x.2) v) (t := s.frmInfo.tq[x.1]) d d
    (by rw [← hv]; exact hvalid)
  have htable' : getQt (setBlk d (unzigzagBlock x.2) v) s.frmInfo.tq[x.1] = if x.1 = 0 then q0 else q1 := by
    rw [← hv]
    exact htable
  rw [getBlk_setBlk_same, setBlk_setBlk, htable'] at hdequant
  refine ⟨q, ?_⟩
  rw [hdone]
  refine ⟨?_, hread.congr rfl rfl rfl rfl, ?_⟩
  · rw [decodeSlot, run_get_bind, run_doHdec_scan hs d x.1, run_bind_ok s hrun, doUnzigzag, run_update_bind, hblk,
      run_bind_ok _ hdequant, doIdct, run_update, getBlk_setBlk_same, setBlk_setBlk, decodedBlock]
  · exact (readerBits_congr (s := withReader q s) (by rw [← hv]; rfl) (by rw [← hv]; rfl) (by rw [← hv]; rfl)).trans hrest

end Slot

/-! ### The slots of an MCU (47 R690) -/

/-- `v` is `s` but for what a scan changes: the reader, the predictors, the slots, LMEM and the next restart marker. -/
def SameScan (s v : State) : Prop :=
  v = { s with br := v.br, pred := v.pred, blk := v.blk, mem := v.mem, rstNext := v.rstNext }

theorem sameScan_refl (s : State) : SameScan s s := rfl

theorem SameScan.trans {s v u : State} (h : SameScan s v) (h' : SameScan v u) : SameScan s u := by
  rw [SameScan] at h ⊢
  rw [h', h]

/-- A scan leaves the frame and the tables as they are. -/
theorem ScanSetup.sameScan {tt : BitVec 2} {w h : Nat} {q0 q1 : Vector Byte 64} {s v : State} (hs : ScanSetup tt w h q0 q1 s)
    (hv : SameScan s v) : ScanSetup tt w h q0 q1 v := by
  obtain ⟨hstate, hdim, hinfo, ⟨hhuff, hv0, hv1⟩, hq0, hq1, hdc, hac⟩ := hs
  rw [hv]
  exact ⟨hstate, hdim, hinfo, ⟨hhuff, hv0, hv1⟩, hq0, hq1, hdc, hac⟩

/-- The blocks `xs` are next in the input, small ones behind small predictors, then padding bits and `tail`. -/
structure BlocksAhead (src : Nat) (lim : Word) (tail : List Byte) (xs : List (Fin 3 × Block)) (s : State) : Prop where
  entropy : EntropyAhead src lim tail s
  preds : SmallPreds s
  small : ∀ x ∈ xs, SmallBlock x.2
  bits : ∃ pad : List Bool, pad.length < 8 ∧ readerBits s = scanBits (getPred s) xs ++ pad

/-- The state with the reconstructed blocks in the slots they are paired with. -/
def storedBlocks (q0 q1 : Vector Byte 64) (ps : List ((Slot × Fin 3) × (Fin 3 × Block))) (s : State) : State :=
  ps.foldl (fun u p => setBlk p.1.1 (decodedBlock q0 q1 p.2) u) s

theorem storedBlocks_cons (q0 q1 : Vector Byte 64) (p : (Slot × Fin 3) × (Fin 3 × Block))
    (ps : List ((Slot × Fin 3) × (Fin 3 × Block))) (s : State) :
    storedBlocks q0 q1 (p :: ps) s = storedBlocks q0 q1 ps (setBlk p.1.1 (decodedBlock q0 q1 p.2) s) := rfl

/-- The slots a block is stored in do not depend on the rest of the state. -/
theorem storedBlocks_blk_congr {q0 q1 : Vector Byte 64} (ps : List ((Slot × Fin 3) × (Fin 3 × Block))) {s t : State}
    (h : t.blk = s.blk) : (storedBlocks q0 q1 ps t).blk = (storedBlocks q0 q1 ps s).blk := by
  induction ps generalizing s t with
  | nil => exact h
  | cons p ps ih => exact ih (by simp [h])

section Slots
variable {tt : BitVec 2} {w h : Nat} {q0 q1 : Vector Byte 64} {src : Nat} {lim : Word} {tail : List Byte} {s : State}

theorem getPred_slotDecoded (d : Slot) (x : Fin 3 × Block) (q : BitReader) :
    getPred (slotDecoded q0 q1 d x q s) = fun c => if c = x.1 then (wrap16 x.2[0].toInt).toInt else getPred s c :=
  getPred_setPred ..

/-- A small DC leaves small predictors. -/
theorem smallPreds_slotDecoded (hp : SmallPreds s) (d : Slot) {x : Fin 3 × Block} (hx : SmallBlock x.2) (q : BitReader) :
    SmallPreds (slotDecoded q0 q1 d x q s) := by
  intro c
  have hdc := hx x.2[0] (by simp)
  simp only [getPred_slotDecoded]
  split
  · rw [toInt_wrap16 (by omega) (by omega)]
    exact hdc
  · exact hp c

/-- The slots of an MCU read the blocks of their components and hold them reconstructed. -/
theorem run_decodeSlots (htail : StartsWithMarker tail) {qs : List (Slot × Fin 3)} {xs ys : List (Fin 3 × Block)}
    (hcomp : xs.map Prod.fst = qs.map Prod.snd) (hs : ScanSetup tt w h q0 q1 s)
    (ha : BlocksAhead src lim tail (xs ++ ys) s) :
    ∃ v, forEach qs decodeSlot s = .ok () v ∧ BlocksAhead src lim tail ys v ∧ SameScan s v ∧ v.mem = s.mem
      ∧ v.rstNext = s.rstNext ∧ v.blk = (storedBlocks q0 q1 (qs.zip xs) s).blk := by
  induction qs generalizing xs s with
  | nil =>
    obtain rfl := List.map_eq_nil_iff.1 hcomp
    exact ⟨s, rfl, ha, sameScan_refl s, rfl, rfl, rfl⟩
  | cons q qs ih =>
    obtain ⟨d, c⟩ := q
    obtain ⟨x, xs, rfl, rfl, hcomp'⟩ := List.map_eq_cons_iff.1 hcomp
    obtain ⟨he, hp, hsmall, pad, hpad, hbits⟩ := ha
    rw [List.cons_append, scanBits, List.append_assoc] at hbits
    have hx := hsmall x (List.mem_cons_self ..)
    obtain ⟨r, hrun, he', hrest⟩ := run_decodeSlot htail hs he hp d hx hbits
    rw [← getPred_slotDecoded d x r (q0 := q0) (q1 := q1)] at hrest
    have hsame : SameScan s (slotDecoded q0 q1 d x r s) := rfl
    have hahead : BlocksAhead src lim tail (xs ++ ys) (slotDecoded q0 q1 d x r s) :=
      ⟨he', smallPreds_slotDecoded hp d hx r, fun y hy => hsmall y (List.mem_cons_of_mem x hy), pad, hpad, hrest⟩
    obtain ⟨v, hrun', hahead', hsame', hmem, hrst, hblk⟩ := ih hcomp' (hs.sameScan hsame) hahead
    refine ⟨v, by rw [run_forEach_cons, run_bind_ok s hrun, hrun'], hahead', hsame.trans hsame', hmem, hrst, ?_⟩
    rw [hblk, List.zip_cons_cons, storedBlocks_cons]
    exact storedBlocks_blk_congr _ rfl

end Slots

end Sys2Proof.Machine
end

section
/-! UPSCC: the pixels of an MCU in LMEM, each at its own three bytes (46 R640, R650). -/

namespace Sys2Proof.Machine

/-! ### Three bytes per pixel -/

/-- The pixel written is read back, another pixel reads as before. -/
theorem readBytes_writeBytes_pixel {bs : List Byte} (hbs : bs.length = 3) (out i j : Nat) (s : State) :
    readBytes (writeBytes (out + 3 * i) bs s) (out + 3 * j) 3 = if i = j then bs else readBytes s (out + 3 * j) 3 := by
  split
  · next hij =>
    rw [← hij, ← hbs, readBytes_writeBytes]
  · next hij =>
    exact readBytes_congr _ _ fun a h1 h2 => readByte_writeBytes_outside s (by omega)

/-- The number of the pixel (px, py) of the MCU (mx, my) in an image of width w. -/
def pixelIndex (ss : Subsampling) (w : Nat) (p q : Nat × Nat) : Nat := (mcuH ss * p.2 + q.2) * w + (mcuW ss * p.1 + q.1)

/-- The pixel (px, py) lies in an MCU. -/
def InMcu (ss : Subsampling) (q : Nat × Nat) : Prop := q.1 < mcuW ss ∧ q.2 < mcuH ss

theorem mem_mcuPixels {ss : Subsampling} {q : Nat × Nat} : q ∈ mcuPixels ss ↔ InMcu ss q := by
  obtain ⟨px, py⟩ := q
  simp only [mcuPixels, List.mem_flatMap, List.mem_map, List.mem_range, InMcu, Prod.mk.injEq]
  constructor
  · rintro ⟨y, hy, x, hx, rfl, rfl⟩
    exact ⟨hx, hy⟩
  · rintro ⟨hx, hy⟩
    exact ⟨py, hy, px, hx, rfl, rfl⟩

/-- An index in a row-major grid gives the row and the column. -/
theorem rowMajor_inj {n x y x' y' : Nat} (hx : x < n) (hx' : x' < n) (h : y * n + x = y' * n + x') : y = y' ∧ x = x' := by
  have hpos : 0 < n := by omega
  have hdiv := congrArg (· / n) h
  have hmod := congrArg (· % n) h
  simp only [Nat.mul_comm _ n, Nat.mul_add_div hpos, Nat.div_eq_of_lt hx, Nat.div_eq_of_lt hx', Nat.mul_add_mod,
    Nat.mod_eq_of_lt hx, Nat.mod_eq_of_lt hx'] at hdiv hmod
  exact ⟨by omega, hmod⟩

/-- Each pixel of the image belongs to one MCU and stands at one place in it. -/
theorem pixelIndex_inj {ss : Subsampling} {w : Nat} {p p' q q' : Nat × Nat} (hq : InMcu ss q) (hq' : InMcu ss q')
    (hp : mcuW ss * p.1 + q.1 < w) (hp' : mcuW ss * p'.1 + q'.1 < w)
    (h : pixelIndex ss w p q = pixelIndex ss w p' q') : p = p' ∧ q = q' := by
  obtain ⟨hy, hx⟩ := rowMajor_inj hp hp' h
  rw [Nat.mul_comm, Nat.mul_comm (mcuH ss)] at hy
  rw [Nat.mul_comm, Nat.mul_comm (mcuW ss)] at hx
  obtain ⟨hx1, hx2⟩ := rowMajor_inj hq.1 hq'.1 hx
  obtain ⟨hy1, hy2⟩ := rowMajor_inj hq.2 hq'.2 hy
  exact ⟨Prod.ext hx1 hy1, Prod.ext hx2 hy2⟩

/-! ### The pixels UPSCC writes (46 R650) -/

section Write
variable {s0 : State} {ss : Subsampling} {bgr : Bool} {out w h : Nat} {p : Nat × Nat}

/-- The MCU at p lies in the image. -/
def McuFits (ss : Subsampling) (w h : Nat) (p : Nat × Nat) : Prop := mcuW ss * p.1 + mcuW ss ≤ w ∧ mcuH ss * p.2 + mcuH ss ≤ h

theorem McuFits.column_lt (hp : McuFits ss w h p) {q : Nat × Nat} (hq : InMcu ss q) : mcuW ss * p.1 + q.1 < w := by
  obtain ⟨hx, -⟩ := hp
  obtain ⟨hqx, -⟩ := hq
  omega

theorem writePixel_inside (hp : McuFits ss w h p) {q : Nat × Nat} (hq : InMcu ss q) (s : State) :
    writePixel s0 ss bgr out w h p.1 p.2 q.1 q.2 s
      = writeBytes (out + 3 * pixelIndex ss w p q) (pixelBytes bgr (mcuPixel s0 ss q.1 q.2)) s := by
  have ⟨_, hy⟩ := hp
  have ⟨_, hqy⟩ := hq
  rw [writePixel, if_pos ⟨hp.column_lt hq, by omega⟩, pixelIndex]

/-- Writing some pixels of an MCU leaves every other pixel. -/
theorem readBytes_writePixels_other (hp : McuFits ss w h p) {qs : List (Nat × Nat)} (hqs : ∀ q ∈ qs, InMcu ss q) {j : Nat}
    (hj : ∀ q ∈ qs, pixelIndex ss w p q ≠ j) (s : State) :
    readBytes (writePixels s0 ss bgr out w h p.1 p.2 qs s) (out + 3 * j) 3 = readBytes s (out + 3 * j) 3 := by
  induction qs generalizing s with
  | nil => rfl
  | cons q qs ih =>
    rw [List.forall_mem_cons] at hqs hj
    rw [writePixels, ih hqs.2 hj.2, writePixel_inside hp hqs.1, readBytes_writeBytes_pixel (pixelBytes_length ..),
      if_neg hj.1]

/-- The pixels of an MCU that are written are read back. -/
theorem readBytes_writePixels_same (hp : McuFits ss w h p) {qs : List (Nat × Nat)} (hqs : ∀ q ∈ qs, InMcu ss q)
    {q : Nat × Nat} (hq : q ∈ qs) (s : State) :
    readBytes (writePixels s0 ss bgr out w h p.1 p.2 qs s) (out + 3 * pixelIndex ss w p q) 3
      = pixelBytes bgr (mcuPixel s0 ss q.1 q.2) := by
  induction qs generalizing s with
  | nil => cases hq
  | cons r qs ih =>
    rw [List.forall_mem_cons] at hqs
    rw [writePixels]
    by_cases hmem : q ∈ qs
    · exact ih hqs.2 hmem _
    · obtain rfl : q = r := (List.mem_cons.1 hq).resolve_right hmem
      have hother (r : Nat × Nat) (hr : r ∈ qs) : pixelIndex ss w p r ≠ pixelIndex ss w p q := fun he =>
        hmem ((pixelIndex_inj (hqs.2 r hr) hqs.1 (hp.column_lt (hqs.2 r hr)) (hp.column_lt hqs.1) he).2 ▸ hr)
      rw [readBytes_writePixels_other hp hqs.2 hother, writePixel_inside hp hqs.1,
        readBytes_writeBytes_pixel (pixelBytes_length ..), if_pos rfl]

/-- Writing pixels changes LMEM only. -/
theorem writePixels_eq (s0 : State) (qs : List (Nat × Nat)) (s : State) :
    writePixels s0 ss bgr out w h p.1 p.2 qs s
      = { s with mem := (writePixels s0 ss bgr out w h p.1 p.2 qs s).mem } := by
  induction qs generalizing s with
  | nil => rfl
  | cons q qs ih =>
    have hone : writePixel s0 ss bgr out w h p.1 p.2 q.1 q.2 s
        = { s with mem := (writePixel s0 ss bgr out w h p.1 p.2 q.1 q.2 s).mem } := by
      rw [writePixel]
      split
      · exact writeBytes_eq _ _ _
      · rfl
    rw [writePixels, ih]
    generalize writePixels s0 ss bgr out w h p.1 p.2 qs _ = v
    rw [hone]

/-- Bytes outside the image stay. -/
theorem readByte_writePixels_outside (s0 : State) (qs : List (Nat × Nat)) {a : Nat} (ha : a < out ∨ out + 3 * w * h ≤ a)
    (s : State) : readByte (writePixels s0 ss bgr out w h p.1 p.2 qs s) a = readByte s a :=
  writePixels_keeps (P := fun t => readByte t a = readByte s a) s0 ss bgr out w h p.1 p.2 qs
    (fun b v t ht h1 h2 => by rw [readByte_writeByte, if_neg (by omega), ht]) rfl

end Write

/-- UPSCC of a whole MCU inside the image: its pixels are written (46 R650). -/
theorem run_doUpscc_inside {tt : BitVec 2} {bgr : Bool} {dst : Word} {w h : Nat} {p : Nat × Nat} {s : State}
    (hf : FrameOk tt w h) (hp : McuFits (subsamplingOf tt) w h p) (hout : dst.toNat + 3 * w * h ≤ s.memBytes) :
    doUpscc tt (if bgr then 1#4 else 0#4) dst (packHalves w h) (packHalves p.1 p.2) s
      = .ok () (writePixels s (subsamplingOf tt) bgr dst.toNat w h p.1 p.2 (mcuPixels (subsamplingOf tt)) s) := by
  obtain ⟨htt, hw0, hw, -, hh0, hh, -⟩ := hf
  obtain ⟨hx, hy⟩ := hp
  have hW := mcuW_pos (subsamplingOf tt)
  have hH := mcuH_pos (subsamplingOf tt)
  have hx' : p.1 ≤ mcuW (subsamplingOf tt) * p.1 := Nat.le_mul_of_pos_left _ hW
  have hy' : p.2 ≤ mcuH (subsamplingOf tt) * p.2 := Nat.le_mul_of_pos_left _ hH
  have hbgr : (if bgr then 1#4 else 0#4 : BitVec 4).toNat < 2 ∧ (if bgr then 1#4 else 0#4 : BitVec 4).getLsbD 0 = bgr := by
    cases bgr <;> decide
  have hlayout : (decide (tt = 1#2) || decide (tt = 2#2)) = true := by simpa using htt
  rw [doUpscc, lowHalf_packHalves hw, highHalf_packHalves hw hh, lowHalf_packHalves (by omega),
    highHalf_packHalves (by omega) (by omega), hbgr.2, run_check_bind, if_pos (decide_eq_true hbgr.1), run_check_bind,
    if_pos hlayout, run_checkMcu_bind, if_neg (by omega),
    if_neg (by rw [Nat.mul_comm p.1, Nat.mul_comm p.2]; omega), run_bind_ok s (run_checkExtent s _ _ hout), run_update]

end Sys2Proof.Machine
end

section
/-! The restart intervals of a scan: the marker behind each, and its check (44 R546; 45 R605, R610, R615). -/

namespace Sys2Proof.Machine

/-! ### From one interval to the next (45 R605, R610) -/

/-- The bytes behind a restart interval: the marker of the next and its data, or EOI and whatever follows. -/
def scanTail (more : List Byte) : Nat → List (List (Fin 3 × Block)) → List Byte
  | _, [] => [0xFF#8, 0xD9#8] ++ more
  | m, ys :: rest =>
    [0xFF#8, BitVec.ofNat 8 (0xD0 + m % 8)] ++ (entropyBytes (scanBits (fun _ => 0) ys) ++ scanTail more (m + 1) rest)

theorem intervalBytes_append_eoi (more : List Byte) (m : Nat) (xs : List (Fin 3 × Block))
    (rest : List (List (Fin 3 × Block))) :
    intervalBytes m (xs :: rest) ++ ([0xFF#8, 0xD9#8] ++ more)
      = entropyBytes (scanBits (fun _ => 0) xs) ++ scanTail more m rest := by
  induction rest generalizing m xs with
  | nil => rfl
  | cons ys rest ih => rw [intervalBytes, List.append_assoc, List.append_assoc, ih, scanTail]

/-- The code of RSTm (45 R610). -/
theorem rstCode_eq (m : Nat) : (BitVec.ofNat 8 (0xD0 + m % 8)).toNat = 0xD0 + (BitVec.ofNat 3 m).toNat := by
  simp only [BitVec.toNat_ofNat]
  omega

theorem rstCode_ne (m : Nat) : BitVec.ofNat 8 (0xD0 + m % 8) ≠ 0x00#8 ∧ BitVec.ofNat 8 (0xD0 + m % 8) ≠ 0xFF#8 := by
  constructor <;>
  · intro h
    have := congrArg BitVec.toNat h
    simp only [BitVec.toNat_ofNat] at this
    omega

theorem startsWithMarker_scanTail (more : List Byte) (m : Nat) (rest : List (List (Fin 3 × Block))) :
    StartsWithMarker (scanTail more m rest) := by
  cases rest with
  | nil => exact ⟨_, _, rfl, by decide⟩
  | cons ys rest => exact ⟨_, _, rfl, (rstCode_ne m).1⟩

section Interval
variable {src : Nat} {lim : Word} {tail more : List Byte} {s : State}

theorem getPred_clearPreds (s : State) : getPred (clearPreds s) = fun _ => 0 := by
  funext c
  simp [getPred, clearPreds]

/-- Where entropy-coded data begins at a byte boundary, its blocks are ahead (43 R463, R465). -/
theorem blocksAhead_start {xs : List (Fin 3 × Block)} (hok : ReaderOk s) (hcnt : s.br.cnt = 0#4) (hmark : s.br.mark = false)
    (hstart : src ≤ s.br.ptr.toNat) (hlim : s.br.lim = lim) (hpred : getPred s = fun _ => 0)
    (hsmall : ∀ x ∈ xs, SmallBlock x.2) (htail : StartsWithMarker tail)
    (hinput : inputBytes s = entropyBytes (scanBits (fun _ => 0) xs) ++ tail) : BlocksAhead src lim tail xs s := by
  refine ⟨⟨hok, hstart, hlim, _, fun hm => ?_, hinput⟩, fun c => ?_, hsmall,
    List.replicate ((8 - (scanBits (fun _ => 0) xs).length % 8) % 8) true, ?_, ?_⟩
  · exact absurd (hmark.symm.trans hm) (by decide)
  · simp [hpred]
  · rw [List.length_replicate]
    omega
  · obtain ⟨c, rest, rfl, hc⟩ := htail
    have hwhole := wholeBytes_leftBits (scanBits (fun _ => 0) xs
      ++ List.replicate ((8 - (scanBits (fun _ => 0) xs).length % 8) % 8) true)
    have hleft : leftBits (scanBits (fun _ => 0) xs
        ++ List.replicate ((8 - (scanBits (fun _ => 0) xs).length % 8) % 8) true) = [] := by
      rw [← List.length_eq_zero_iff, leftBits_length, List.length_append, List.length_replicate]
      omega
    rw [hleft, List.append_nil] at hwhole
    rw [readerBits, hcnt, hmark, hinput, entropyBytes, if_neg (by decide), unstuffedBits_stuffed, unstuffedBits_marker hc,
      List.append_nil, hwhole, hpred]
    rfl

/-- Where no block is left, the marker behind the data is next. -/
theorem BlocksAhead.inputBytes_eq (h : BlocksAhead src lim tail [] s) : inputBytes s = tail := by
  obtain ⟨⟨-, -, -, bs, hbs, hinput⟩, -, -, pad, hpad, hbits⟩ := h
  suffices hnil : bs = [] by rw [hinput, hnil]; rfl
  by_cases hmark : s.br.mark = true
  · exact hbs hmark
  · have hlen := congrArg List.length hbits
    rw [readerBits, if_neg hmark, hinput, unstuffedBits_stuffed, scanBits] at hlen
    simp only [List.length_append, List.length_flatMap, bitsMsb_length, List.map_const', List.sum_replicate, smul_eq_mul,
      List.length_nil] at hlen
    exact List.length_eq_zero_iff.1 (by omega)

/-- What the input starts with stands at BR_PTR. -/
theorem inputAt_of_inputBytes (hok : ReaderOk s) {as : List Byte} (h : inputBytes s = as ++ more) : InputAt as s := by
  have hlength : s.br.lim.toNat - s.br.ptr.toNat = (inputBytes s).length := (readBytes_length ..).symm
  rw [h, List.length_append] at hlength
  have hptr := hok.1
  refine ⟨hok, by omega, ?_⟩
  rw [inputBytes, hlength, readBytes_append] at h
  exact (List.append_inj h (readBytes_length ..)).1

/-- The bytes of the input, counted. -/
theorem inputBytes_length_add (hok : ReaderOk s) : s.br.ptr.toNat + (inputBytes s).length = s.br.lim.toNat := by
  have hptr := hok.1
  rw [inputBytes, readBytes_length]
  omega

theorem inputBytes_dropPadding (s : State) : inputBytes (dropPadding s) = inputBytes s :=
  inputBytes_congr (s := s) (t := dropPadding s) rfl rfl rfl rfl

/-- RSTCHK at the end of an interval: the next one is ahead, with predictors 0 (45 R610). -/
theorem run_doRstchk_scan {m : Nat} {ys : List (Fin 3 × Block)} (hstate : s.pstate = .inScan)
    (hrst : s.rstNext = BitVec.ofNat 3 m) (hsmall : ∀ x ∈ ys, SmallBlock x.2) (htail : StartsWithMarker tail)
    (h : BlocksAhead src lim
      ([0xFF#8, BitVec.ofNat 8 (0xD0 + m % 8)] ++ (entropyBytes (scanBits (fun _ => 0) ys) ++ tail)) [] s) :
    ∃ v, doRstchk s = .ok () v ∧ BlocksAhead src lim tail ys v ∧ SameScan s v ∧ v.mem = s.mem
      ∧ v.rstNext = BitVec.ofNat 3 (m + 1) := by
  have hinput := h.inputBytes_eq
  obtain ⟨⟨hok, hstart, hlim, -⟩, -⟩ := h
  have hdropped : ReaderOk (dropPadding s) := ⟨hok.1, hok.2.1, Nat.zero_le 8⟩
  have hinput' : inputBytes (dropPadding s) = _ := (inputBytes_dropPadding s).trans hinput
  have hmarker := inputAt_of_inputBytes hdropped hinput'
  have hnext := run_nextMarker hmarker.markerAt (rstCode_ne m).2
  have hroom := hmarker.room
  refine ⟨clearPreds { advanceReader 2 (dropPadding s) with rstNext := s.rstNext + 1#3 }, ?_, ?_, rfl, rfl, ?_⟩
  · rw [doRstchk, checkInScan, run_checkState_pass s (decide_eq_true hstate), run_onError, run_update_bind,
      run_bind_ok _ hnext, restartCase, run_checkState_pass, run_update]
    · rfl
    · rw [decide_eq_true_eq, rstCode_eq, ← hrst]
      rfl
  · have hroom' : s.br.ptr.toNat + 2 ≤ s.br.lim.toNat := hroom
    have hptr : (advanceReader 2 (dropPadding s)).br.ptr.toNat = s.br.ptr.toNat + 2 := pointer_add_ofNat_toNat hroom'
    refine blocksAhead_start ⟨hptr.trans_le hroom', hok.2.1, Nat.zero_le 8⟩ rfl rfl ?_ hlim (getPred_clearPreds _) hsmall
      htail ?_
    · exact Nat.le_trans (Nat.le_trans hstart (Nat.le_add_right ..)) hptr.ge
    · exact (inputBytes_drop (t := clearPreds { advanceReader 2 (dropPadding s) with rstNext := s.rstNext + 1#3 })
        hptr rfl hroom' rfl rfl).trans (congrArg (List.drop 2) hinput)
  · rw [BitVec.ofNat_add, ← hrst]
    rfl

/-- EOICHK behind the last interval (45 R615). -/
theorem run_doEoichk_scan (hstate : s.pstate = .inScan) (h : BlocksAhead src lim ([0xFF#8, 0xD9#8] ++ more) [] s) :
    doEoichk s = .ok () (setPstate .terminal (advanceReader 2 (dropPadding s))) := by
  have hinput := h.inputBytes_eq
  have hok := h.entropy.ok
  have hdropped : ReaderOk (dropPadding s) := ⟨hok.1, hok.2.1, Nat.zero_le 8⟩
  have hinput' : inputBytes (dropPadding s) = _ := (inputBytes_dropPadding s).trans hinput
  have hnext := run_nextMarker (inputAt_of_inputBytes hdropped hinput').markerAt (by decide)
  rw [doEoichk, checkInScan, run_checkState_pass s (decide_eq_true hstate), run_onError, run_update_bind,
    run_bind_ok _ (a := 0xD9#8) (t := advanceReader 2 (dropPadding s)) (by rw [run_replaceError, hnext]), endCase,
    run_check_bind, if_pos (by decide), run_update]

end Interval

end Sys2Proof.Machine
end

section
/-! Where a scan stands in its restart intervals, MCU by MCU (44 R546; 45 R605, R610; 47 R690). -/

namespace Sys2Proof.Machine

/-! ### The schedule of the restart markers (44 R546) -/

/-- With k MCUs of b blocks behind it in its interval, `xs` fills the interval, or ends the scan within it. -/
def OnSchedule (ri b k : Nat) (xs : List (Fin 3 × Block)) : List (List (Fin 3 × Block)) → Prop
  | [] => ri = 0 ∨ xs.length + k * b ≤ ri * b
  | ys :: rest => 0 < ri ∧ xs.length + k * b = ri * b ∧ scheduled ri b (ys :: rest)

section Schedule
variable {ri b k : Nat} {xs ys : List (Fin 3 × Block)} {rest : List (List (Fin 3 × Block))}

theorem onSchedule_of_scheduled (h : scheduled ri b (xs :: rest)) : OnSchedule ri b 0 xs rest := by
  cases rest with
  | nil => exact h.imp id fun hlen => by simpa using hlen.2
  | cons ys rest =>
    obtain ⟨hri, hlen, hrest⟩ := h
    exact ⟨hri, by simpa using hlen, hrest⟩

/-- The next MCU of the interval. -/
theorem OnSchedule.drop (h : OnSchedule ri b k xs rest) (hb : b ≤ xs.length) : OnSchedule ri b (k + 1) (xs.drop b) rest := by
  have hlen : (xs.drop b).length + (k + 1) * b = xs.length + k * b := by
    rw [List.length_drop, Nat.succ_mul]
    omega
  cases rest with
  | nil => rwa [OnSchedule, hlen]
  | cons ys rest => rwa [OnSchedule, hlen]

theorem OnSchedule.le (h : OnSchedule ri b k xs rest) : ri = 0 ∨ xs.length + k * b ≤ ri * b := by
  cases rest with
  | nil => exact h
  | cons ys rest => exact .inr h.2.1.le

/-- Behind the last MCU of a full interval another interval begins. -/
theorem OnSchedule.full (h : OnSchedule ri b ri xs rest) (hri : 0 < ri) : xs = [] := by
  have hle := h.le.resolve_left hri.ne'
  exact List.length_eq_zero_iff.1 (by omega)

/-- Before the end of the interval its next MCU is there. -/
theorem OnSchedule.next (h : OnSchedule ri b k xs rest) (hk : 0 < ri → k < ri) (hb : b ≤ (xs ++ rest.flatten).length) :
    b ≤ xs.length := by
  cases rest with
  | nil => simpa using hb
  | cons ys rest =>
    obtain ⟨hri, hlen, -⟩ := h
    have hmul : (k + 1) * b ≤ ri * b := Nat.mul_le_mul_right b (hk hri)
    rw [Nat.succ_mul] at hmul
    omega

/-- The last interval of a schedule has a block in it, unless there is only one. -/
theorem OnSchedule.rest_nil (h : OnSchedule ri b k xs rest) (hb : 0 < b) (hnil : rest.flatten = []) : rest = [] := by
  cases rest with
  | nil => rfl
  | cons ys rest =>
    obtain ⟨hri, -, hrest⟩ := h
    rw [List.flatten_cons, List.append_eq_nil_iff] at hnil
    obtain ⟨rfl, -⟩ := hnil
    cases rest with
    | nil => exact absurd hrest (by simp [scheduled, hri.ne'])
    | cons zs rest => exact absurd hrest.2.1 (by simpa using ⟨hri.ne', hb.ne'⟩)

end Schedule

/-! ### Where the scan stands (45 R605) -/

/-- The scan stands in an interval, k MCUs of it behind and the blocks `xs` ahead; behind it come RSTm and the intervals
`rest`. -/
structure IntervalAt (src : Nat) (lim : Word) (more : List Byte) (ri b k m : Nat) (xs : List (Fin 3 × Block))
    (rest : List (List (Fin 3 × Block))) (s : State) : Prop where
  schedule : OnSchedule ri b k xs rest
  next : s.rstNext = BitVec.ofNat 3 m
  ahead : BlocksAhead src lim (scanTail more m rest) xs s
  small : ∀ x ∈ rest.flatten, SmallBlock x.2

/-- The scan stands before MCU n with the blocks `ws` ahead; only before MCU 0 can no MCU of the interval be behind. -/
def ScanAt (src : Nat) (lim : Word) (more : List Byte) (ri b n : Nat) (ws : List (Fin 3 × Block)) (s : State) : Prop :=
  ∃ k m xs rest, ws = xs ++ rest.flatten ∧ n % ri = k % ri ∧ (k = 0 ↔ n = 0) ∧ IntervalAt src lim more ri b k m xs rest s

section Scan
variable {src : Nat} {lim : Word} {more : List Byte} {ri b n : Nat} {ws : List (Fin 3 × Block)} {s : State}

/-- A restart where one is due, else nothing: the blocks of MCU n are next (45 R605). -/
theorem run_restart (hb : 0 < b) (hstate : s.pstate = .inScan) (hdri : s.dri.toNat = ri) (hws : b ≤ ws.length)
    (h : ScanAt src lim more ri b n ws s) :
    ∃ u, (if restartDue s.dri n then doRstchk else pure ()) s = .ok () u ∧ SameScan s u ∧ u.mem = s.mem
      ∧ ∃ k m xs rest, ws = xs ++ rest.flatten ∧ n % ri = k % ri ∧ b ≤ xs.length
        ∧ IntervalAt src lim more ri b k m xs rest u := by
  obtain ⟨k, m, xs, rest, rfl, hmod, hzero, hint⟩ := h
  obtain ⟨hsched, hrst, hahead, hsmall⟩ := hint
  have hk : 0 < ri → k ≤ ri := fun hri =>
    Nat.le_of_mul_le_mul_right (Nat.le_trans (Nat.le_add_left ..) (hsched.le.resolve_left hri.ne')) hb
  by_cases hdue : restartDue s.dri n = true
  · rw [if_pos hdue]
    have ⟨hri, hn, hdiv⟩ := of_decide_eq_true hdue
    rw [hdri] at hri hdiv
    obtain rfl : k = ri := by
      refine (hk hri).antisymm (Nat.le_of_dvd ?_ (Nat.dvd_of_mod_eq_zero (hmod ▸ hdiv)))
      omega
    obtain rfl := hsched.full hri
    cases rest with
    | nil => exact absurd hws (by simpa using hb.ne')
    | cons ys rest =>
      obtain ⟨-, -, hrest⟩ := hsched
      rw [List.flatten_cons, List.forall_mem_append] at hsmall
      obtain ⟨u, hrun, hahead', hsame, hmem, hrst'⟩ :=
        run_doRstchk_scan hstate hrst hsmall.1 (startsWithMarker_scanTail more (m + 1) rest) hahead
      have hsched' := onSchedule_of_scheduled hrest
      exact ⟨u, hrun, hsame, hmem, 0, m + 1, ys, rest, rfl, hdiv.trans (Nat.zero_mod k).symm, hsched'.next id hws,
        hsched', hrst', hahead', hsmall.2⟩
  · rw [if_neg hdue]
    refine ⟨s, rfl, sameScan_refl s, rfl, k, m, xs, rest, rfl, hmod, hsched.next (fun hri => ?_) hws, hsched, hrst, hahead,
      hsmall⟩
    refine (hk hri).lt_of_ne fun hkri => hdue (decide_eq_true ?_)
    rw [hdri, hmod, hkri, Nat.mod_self]
    omega

/-- Behind the last MCU the scan stands before EOI (45 R615). -/
theorem ScanAt.blocksAhead_eoi (hb : 0 < b) (h : ScanAt src lim more ri b n [] s) :
    BlocksAhead src lim ([0xFF#8, 0xD9#8] ++ more) [] s := by
  obtain ⟨k, m, xs, rest, hnil, -, -, hsched, -, hahead, -⟩ := h
  obtain ⟨rfl, hrest⟩ := List.append_eq_nil_iff.1 hnil.symm
  rwa [hsched.rest_nil hb hrest] at hahead

end Scan

/-! ### The pixels of the MCU's blocks (46 R640, R641) -/

/-- A slot that a block is stored in, or that holds the same block before, holds the same afterwards. -/
theorem getBlk_storedBlocks_congr {q0 q1 : Vector Byte 64} (ps : List ((Slot × Fin 3) × (Fin 3 × Block))) {s t : State}
    {d : Slot} (h : getBlk s d = getBlk t d ∨ d ∈ ps.map (Prod.fst ∘ Prod.fst)) :
    getBlk (storedBlocks q0 q1 ps s) d = getBlk (storedBlocks q0 q1 ps t) d := by
  induction ps generalizing s t with
  | nil => exact h.resolve_right (List.not_mem_nil)
  | cons p ps ih =>
    refine ih ?_
    rw [List.map_cons, List.mem_cons] at h
    by_cases hd : d = p.1.1
    · exact .inl (by rw [hd, getBlk_setBlk_same, getBlk_setBlk_same])
    · rw [getBlk_setBlk_other hd, getBlk_setBlk_other hd]
      exact h.imp id fun h' => h'.resolve_left hd

/-- A pixel of an MCU depends on the slots of the MCU only. -/
theorem mcuPixel_congr {ss : Subsampling} (hss : ss ≠ .s400) {s t : State}
    (h : ∀ d ∈ (mcuBlocks ss).map Prod.fst, getBlk s d = getBlk t d) {q : Nat × Nat} (hq : InMcu ss q) :
    mcuPixel s ss q.1 q.2 = mcuPixel t ss q.1 q.2 := by
  have hluma : q.2 / 8 * lumaH ss + q.1 / 8 < lumaH ss * lumaV ss := by
    obtain ⟨hx, hy⟩ := hq
    revert hx hy
    cases ss <;> simp only [mcuW, mcuH, lumaH, lumaV] <;> omega
  obtain ⟨hcb, hcr⟩ := chroma_mem_mcuBlocks hss
  rw [mcuPixel, mcuPixel, slotSample, slotSample, slotSample, slotSample, slotSample, slotSample,
    h _ (List.mem_map_of_mem (luma_mem_mcuBlocks hluma)), h _ (List.mem_map_of_mem hcb), h _ (List.mem_map_of_mem hcr)]

/-- The pixels of an MCU's blocks do not depend on the state the blocks are stored in. -/
theorem mcuPixel_withMcu {ss : Subsampling} (hss : ss ≠ .s400) {q0 q1 : Vector Byte 64} {xs : List (Fin 3 × Block)}
    (hxs : xs.length = (mcuBlocks ss).length) (s t : State) {q : Nat × Nat} (hq : InMcu ss q) :
    mcuPixel (withMcu ss q0 q1 xs s) ss q.1 q.2 = mcuPixel (withMcu ss q0 q1 xs t) ss q.1 q.2 := by
  refine mcuPixel_congr hss (fun d hd => getBlk_storedBlocks_congr _ (.inr ?_)) hq
  rwa [← List.map_map, List.map_fst_zip hxs.ge]

end Sys2Proof.Machine
end

section
/-! The MCUs of a scan as DECODE reads and writes them: one MCU, and all of them in raster order (46 R650; 47 R690). -/

namespace Sys2Proof.Machine

/-! ### The blocks ahead, while pixels are written elsewhere (10 R72) -/

/-- What is ahead in the input stays ahead while LMEM changes outside of it. -/
theorem BlocksAhead.congr {src : Nat} {lim : Word} {tail : List Byte} {xs : List (Fin 3 × Block)} {s t : State}
    (h : BlocksAhead src lim tail xs s) (hbr : t.br = s.br) (hpred : t.pred = s.pred) (hbytes : t.memBytes = s.memBytes)
    (hread : ∀ a, src ≤ a → a < lim.toNat → readByte t a = readByte s a) : BlocksAhead src lim tail xs t := by
  obtain ⟨⟨hok, hstart, hlim, hinput⟩, hpreds, hsmall, hbits⟩ := h
  have hsame : inputBytes t = inputBytes s := by
    rw [inputBytes, inputBytes, hbr, hlim]
    exact readBytes_congr _ _ fun a h1 h2 => hread a (by omega) (by omega)
  have hgetPred : getPred t = getPred s := by
    funext c
    rw [getPred, getPred, hpred]
  refine ⟨⟨?_, hbr ▸ hstart, hbr ▸ hlim, by rwa [hbr, hsame]⟩, ?_, hsmall, ?_⟩
  · rwa [ReaderOk, hbr, hbytes]
  · rwa [SmallPreds, hgetPred]
  · rwa [hgetPred, readerBits, hsame, hbr]

/-! ### One MCU (47 R690) -/

/-- The pixels of the MCU at p are those of the blocks `xs`. -/
def McuShown (ss : Subsampling) (bgr : Bool) (out w : Nat) (q0 q1 : Vector Byte 64) (s0 : State) (xs : List (Fin 3 × Block))
    (p : Nat × Nat) (v : State) : Prop :=
  ∀ q, InMcu ss q → readBytes v (out + 3 * pixelIndex ss w p q) 3
    = pixelBytes bgr (mcuPixel (withMcu ss q0 q1 xs s0) ss q.1 q.2)

/-- What DECODE's loop works with: the scan's frame and tables, its restart interval, and room for the image. -/
structure ScanReady (tt : BitVec 2) (w h ri out : Nat) (q0 q1 : Vector Byte 64) (s : State) : Prop where
  setup : ScanSetup tt w h q0 q1 s
  dri : s.dri.toNat = ri
  room : out + 3 * w * h ≤ s.memBytes

section Mcu
variable {tt : BitVec 2} {w h ri src nx : Nat} {q0 q1 : Vector Byte 64} {lim dst : Word} {more : List Byte} {bgr : Bool}
  {s s0 : State}

theorem ScanReady.sameScan {out : Nat} {v : State} (hs : ScanReady tt w h ri out q0 q1 s) (hv : SameScan s v) :
    ScanReady tt w h ri out q0 q1 v := by
  obtain ⟨hsetup, hdri, hroom⟩ := hs
  refine ⟨hsetup.sameScan hv, ?_, ?_⟩ <;> rw [hv]
  · exact hdri
  · exact hroom

theorem run_decodeMcu (p : Nat × Nat) :
    decodeMcu tt bgr dst (packHalves w h) nx p s
      = ((if restartDue s.dri (p.2 * nx + p.1) then doRstchk else pure ()) >>= fun _ =>
        forEach (mcuBlocks (subsamplingOf tt)) decodeSlot >>= fun _ =>
        doUpscc tt (if bgr then 1#4 else 0#4) dst (packHalves w h) (packHalves p.1 p.2)) s := by
  rw [decodeMcu, run_get_bind]
  split <;> rfl

theorem FrameOk.ne_s400 (hf : FrameOk tt w h) : subsamplingOf tt ≠ .s400 := by
  rcases hf.layout with rfl | rfl <;> decide

theorem mcuBlocks_pos (ss : Subsampling) : 0 < (mcuBlocks ss).length := by cases ss <;> decide

/-- The blocks of MCU n, behind a restart marker where one is due, are taken from the input into its slots. -/
theorem run_mcuSlots {n b : Nat} {ws : List (Fin 3 × Block)} (hb : (mcuBlocks (subsamplingOf tt)).length = b)
    (hs : ScanReady tt w h ri dst.toNat q0 q1 s)
    (hcomp : (ws.take b).map Prod.fst = (mcuBlocks (subsamplingOf tt)).map Prod.snd)
    (hscan : ScanAt src lim more ri b n ws s) :
    ∃ u v, (if restartDue s.dri n then doRstchk else pure ()) s = .ok () u
      ∧ forEach (mcuBlocks (subsamplingOf tt)) decodeSlot u = .ok () v
      ∧ ScanAt src lim more ri b (n + 1) (ws.drop b) v ∧ SameScan s v ∧ v.mem = s.mem
      ∧ v.blk = (withMcu (subsamplingOf tt) q0 q1 (ws.take b) u).blk := by
  have hpos : 0 < b := hb ▸ mcuBlocks_pos _
  have hws : b ≤ ws.length := by
    have hlen := congrArg List.length hcomp
    rw [List.length_map, List.length_map, hb, List.length_take] at hlen
    omega
  obtain ⟨u, hrestart, hsame, hmem, k, m, xs, rest, rfl, hmod, hxs, hsched, hrst, hahead, hsmall⟩ :=
    run_restart hpos hs.setup.state hs.dri hws hscan
  rw [List.take_append_of_le_length hxs] at hcomp ⊢
  rw [List.drop_append_of_le_length hxs]
  rw [← List.take_append_drop b xs] at hahead
  obtain ⟨v, hslots, hahead', hsame', hmem', hrst', hblk⟩ :=
    run_decodeSlots (startsWithMarker_scanTail more m rest) hcomp (hs.sameScan hsame).setup hahead
  refine ⟨u, v, hrestart, hslots, ⟨k + 1, m, xs.drop b, rest, rfl, Nat.ModEq.add_right 1 hmod, by simp,
    hsched.drop hxs, hrst'.trans hrst, hahead', hsmall⟩, hsame.trans hsame', hmem'.trans hmem, hblk⟩

/-- A scan goes on where it stood when pixels were written outside of its input. -/
theorem ScanAt.writePixels {n b out : Nat} {ws : List (Fin 3 × Block)} {ss : Subsampling} {p : Nat × Nat}
    (hapart : lim.toNat ≤ out ∨ out + 3 * w * h ≤ src) (hscan : ScanAt src lim more ri b n ws s) (qs : List (Nat × Nat)) :
    ScanAt src lim more ri b n ws (writePixels s ss bgr out w h p.1 p.2 qs s) := by
  obtain ⟨k, m, xs, rest, hws, hmod, hzero, hsched, hrst, hahead, hsmall⟩ := hscan
  have heq := writePixels_eq (ss := ss) (bgr := bgr) (out := out) (w := w) (h := h) (p := p) s qs s
  refine ⟨k, m, xs, rest, hws, hmod, hzero, hsched, ?_, ?_, hsmall⟩
  · rw [heq]
    exact hrst
  · exact hahead.congr (by rw [heq]) (by rw [heq]) (by rw [heq]) fun a h1 h2 =>
      readByte_writePixels_outside s qs (by omega) s

/-- UPSCC shows the blocks that stand in the slots. -/
theorem mcuShown_writePixels {ss : Subsampling} {out : Nat} {p : Nat × Nat} {xs : List (Fin 3 × Block)} {u : State}
    (hss : ss ≠ .s400) (hxs : xs.length = (mcuBlocks ss).length) (hp : McuFits ss w h p)
    (hblk : s.blk = (withMcu ss q0 q1 xs u).blk) :
    McuShown ss bgr out w q0 q1 s0 xs p (writePixels s ss bgr out w h p.1 p.2 (mcuPixels ss) s) := by
  intro q hq
  rw [readBytes_writePixels_same hp (fun r hr => mem_mcuPixels.1 hr) (mem_mcuPixels.2 hq),
    mcuPixel_withMcu hss hxs s0 u hq,
    mcuPixel_congr hss (s := s) (t := withMcu ss q0 q1 xs u) (fun d _ => by rw [getBlk, getBlk, hblk]) hq]

/-- UPSCC leaves the other MCUs. -/
theorem McuShown.writePixels_other {ss : Subsampling} {out : Nat} {p p' : Nat × Nat} {xs : List (Fin 3 × Block)} {v : State}
    (h' : McuShown ss bgr out w q0 q1 s0 xs p' v) (hp : McuFits ss w h p) (hp' : McuFits ss w h p') (hne : p' ≠ p)
    (hmem : s.mem = v.mem) (hundef : s.undef = v.undef) :
    McuShown ss bgr out w q0 q1 s0 xs p' (writePixels s ss bgr out w h p.1 p.2 (mcuPixels ss) s) := by
  intro q hq
  rw [readBytes_writePixels_other hp (fun r hr => mem_mcuPixels.1 hr), readBytes_mem_congr hmem hundef, h' q hq]
  intro r hr heq
  have hr' := mem_mcuPixels.1 hr
  exact hne (pixelIndex_inj hr' hq (hp.column_lt hr') (hp'.column_lt hq) heq).1.symm

/-- An MCU of the scan: its blocks are taken from the input, its pixels written, and no other MCU's. -/
theorem run_decodeMcu_scan {p : Nat × Nat} {n b : Nat} {ws : List (Fin 3 × Block)} (hf : FrameOk tt w h)
    (hapart : lim.toNat ≤ dst.toNat ∨ dst.toNat + 3 * w * h ≤ src) (hb : (mcuBlocks (subsamplingOf tt)).length = b)
    (hs : ScanReady tt w h ri dst.toNat q0 q1 s) (hn : p.2 * nx + p.1 = n) (hp : McuFits (subsamplingOf tt) w h p)
    (hcomp : (ws.take b).map Prod.fst = (mcuBlocks (subsamplingOf tt)).map Prod.snd)
    (hscan : ScanAt src lim more ri b n ws s) :
    ∃ v, decodeMcu tt bgr dst (packHalves w h) nx p s = .ok () v ∧ ScanAt src lim more ri b (n + 1) (ws.drop b) v
      ∧ SameScan s v ∧ McuShown (subsamplingOf tt) bgr dst.toNat w q0 q1 s0 (ws.take b) p v
      ∧ ∀ p' xs, p' ≠ p → McuFits (subsamplingOf tt) w h p' → McuShown (subsamplingOf tt) bgr dst.toNat w q0 q1 s0 xs p' s →
        McuShown (subsamplingOf tt) bgr dst.toNat w q0 q1 s0 xs p' v := by
  obtain ⟨u, v, hrestart, hslots, hscan', hsame, hmem, hblk⟩ := run_mcuSlots hb hs hcomp hscan
  have hlen : (ws.take b).length = (mcuBlocks (subsamplingOf tt)).length := by simpa using congrArg List.length hcomp
  have hupscc := run_doUpscc_inside (bgr := bgr) hf hp (hs.sameScan hsame).room
  refine ⟨_, ?_, hscan'.writePixels hapart _, hsame.trans ?_, mcuShown_writePixels hf.ne_s400 hlen hp hblk,
    fun p' xs hne hp' h' => h'.writePixels_other hp hp' hne hmem ?_⟩
  · rw [run_decodeMcu, hn, run_bind_ok s hrestart, run_bind_ok u hslots, hupscc]
  · rw [SameScan, writePixels_eq]
  · rw [hsame]

end Mcu

end Sys2Proof.Machine
end

section
/-! DECODE of a complete frame: all MCUs in raster order, and the command from its checks to EOI (46 R650; 47 R690, R700). -/

namespace Sys2Proof.Machine

/-! ### The MCUs in raster order (47 R690) -/

/-- The grid is visited in the order of the MCU numbers. -/
theorem mcuGrid_numbers (nx ny : Nat) : (mcuGrid nx ny).map (fun p => p.2 * nx + p.1) = List.range' 0 (ny * nx) := by
  rw [← List.range_eq_range']
  induction ny with
  | zero => rw [Nat.zero_mul]; rfl
  | succ ny ih =>
    rw [Nat.succ_mul, List.range_add, ← ih]
    simp [mcuGrid, List.range_succ, Function.comp_def]

theorem mem_mcuGrid {nx ny : Nat} {p : Nat × Nat} : p ∈ mcuGrid nx ny ↔ p.1 < nx ∧ p.2 < ny := by
  obtain ⟨mx, my⟩ := p
  simp [mcuGrid, and_comm]

/-- The components of the blocks of MCU n. -/
theorem scanComponents_mcu {ss : Subsampling} {b n N : Nat} (hb : (mcuBlocks ss).length = b) (hn : n < N) :
    ((scanComponents ss N).drop (b * n)).take b = (mcuBlocks ss).map Prod.snd := by
  obtain ⟨k, rfl⟩ : ∃ k, N = n + (k + 1) := ⟨N - n - 1, by omega⟩
  rw [scanComponents, List.replicate_add, List.flatten_append, List.drop_left' (by simp [hb, Nat.mul_comm]),
    List.replicate_succ, List.flatten_cons, List.take_left' (by simp [hb])]

section Loop
variable {tt : BitVec 2} {w h ri src nx : Nat} {q0 q1 : Vector Byte 64} {lim dst : Word} {more : List Byte} {bgr : Bool}
  {s s0 : State}

/-- The MCUs from number n to the last, N - 1: each is shown, and the MCUs shown before stay so. -/
theorem run_decodeMcus {W : List (Fin 3 × Block)} {b n N : Nat} {ps : List (Nat × Nat)} (hf : FrameOk tt w h)
    (hapart : lim.toNat ≤ dst.toNat ∨ dst.toNat + 3 * w * h ≤ src) (hb : (mcuBlocks (subsamplingOf tt)).length = b)
    (hW : W.map Prod.fst = scanComponents (subsamplingOf tt) N) (hs : ScanReady tt w h ri dst.toNat q0 q1 s)
    (hps : ps.map (fun p => p.2 * nx + p.1) = List.range' n ps.length) (hN : n + ps.length = N)
    (hfits : ∀ p ∈ ps, McuFits (subsamplingOf tt) w h p) (hscan : ScanAt src lim more ri b n (W.drop (b * n)) s) :
    ∃ v, forEach ps (decodeMcu tt bgr dst (packHalves w h) nx) s = .ok () v ∧ ScanAt src lim more ri b N (W.drop (b * N)) v
      ∧ SameScan s v
      ∧ (∀ p ∈ ps, McuShown (subsamplingOf tt) bgr dst.toNat w q0 q1 s0 ((W.drop (b * (p.2 * nx + p.1))).take b) p v)
      ∧ ∀ p xs, p ∉ ps → McuFits (subsamplingOf tt) w h p → McuShown (subsamplingOf tt) bgr dst.toNat w q0 q1 s0 xs p s →
        McuShown (subsamplingOf tt) bgr dst.toNat w q0 q1 s0 xs p v := by
  induction ps generalizing n s with
  | nil =>
    obtain rfl : n = N := hN
    exact ⟨s, rfl, hscan, sameScan_refl s, fun p hp => (List.not_mem_nil hp).elim, fun _ _ _ _ h => h⟩
  | cons p ps ih =>
    rw [List.length_cons] at hN
    rw [List.map_cons, List.length_cons, List.range'_succ, List.cons.injEq] at hps
    obtain ⟨hn, hps⟩ := hps
    rw [List.forall_mem_cons] at hfits
    obtain ⟨hp, hfits⟩ := hfits
    have hcomp : ((W.drop (b * n)).take b).map Prod.fst = (mcuBlocks (subsamplingOf tt)).map Prod.snd := by
      rw [List.map_take, List.map_drop, hW, scanComponents_mcu hb (by omega)]
    obtain ⟨u, hrun, hscan', hsame, hshown, hkeep⟩ :=
      run_decodeMcu_scan (bgr := bgr) (s0 := s0) hf hapart hb hs hn hp hcomp hscan
    rw [List.drop_drop, ← Nat.mul_succ] at hscan'
    obtain ⟨v, hrun', hscan'', hsame', hshown', hkeep'⟩ := ih (hs.sameScan hsame) hps (by omega) hfits hscan'
    have hnotin : p ∉ ps := fun hmem => by
      have hnum := List.mem_map_of_mem (f := fun p : Nat × Nat => p.2 * nx + p.1) hmem
      rw [hps, List.mem_range'_1] at hnum
      omega
    refine ⟨v, by rw [run_forEach_cons, run_bind_ok s hrun, hrun'], hscan'', hsame.trans hsame',
      List.forall_mem_cons.2 ⟨?_, hshown'⟩, fun p' xs hp' hfit h' => ?_⟩
    · rw [hn]
      exact hkeep' p _ hnotin hp hshown
    · rw [List.mem_cons, not_or] at hp'
      exact hkeep' p' xs hp'.2 hfit (hkeep p' xs hp'.1 hfit h')

end Loop

/-! ### The header part (47 R690) -/

/-- The scan has been entered behind HDRW's header and a DRI segment; `bs` is what is left of the input. -/
structure ScanBegun (tt : BitVec 2) (w h ri : Nat) (q0 q1 : Vector Byte 64) (lim : Word) (bs : List Byte) (memBytes : Nat)
    (t : State) : Prop where
  setup : ScanSetup tt w h q0 q1 t
  dri : t.dri = BitVec.ofNat 16 ri
  next : t.rstNext = 0#3
  dims : t.res1 = packHalves w h
  ok : ReaderOk t
  lim : t.br.lim = lim
  cnt : t.br.cnt = 0#4
  mark : t.br.mark = false
  input : inputBytes t = bs
  memBytes : t.memBytes = memBytes

/-- The state with the reader on the extent [src, src + len). -/
def readerOn (src len : Word) (s : State) : State :=
  { s with br := { ptr := src, lim := src + len, cur := 0#8, cnt := 0#4, mark := false } }

section Header
variable {tt : BitVec 2} {w h ri : Nat} {q0 q1 : Vector Byte 64} {src len cap : Word} {expect : Bool} {bs : List Byte}
  {s : State}

/-- The bytes of SOI, DRI and the header. -/
def frameHead (tt : BitVec 2) (w h : Nat) (q0 q1 : Vector Byte 64) (ri : Nat) : List Byte :=
  soiDriBytes ri ++ (headerBytes (subsamplingOf tt) w h q0 q1).drop 2

theorem frameHead_length (hf : FrameOk tt w h) : (frameHead tt w h q0 q1 ri).length = (soiDriBytes ri).length + 587 := by
  rw [frameHead, List.length_append, headerTail_length hf.layout]

theorem scanBegun_scanEntered (hf : FrameOk tt w h) (hok : ReaderOk s)
    (hinput : inputBytes s = frameHead tt w h q0 q1 ri ++ bs) :
    ScanBegun tt w h ri q0 q1 s.br.lim bs s.memBytes (scanEntered tt w h q0 q1 (tablesReading ri s)) := by
  have hadd := inputBytes_length_add hok
  rw [hinput, List.length_append, frameHead_length hf] at hadd
  have hbr : (scanEntered tt w h q0 q1 (tablesReading ri s)).br
      = { s.br with ptr := s.br.ptr + BitVec.ofNat 32 ((soiDriBytes ri).length + 587), cnt := 0#4, mark := false } := by
    simp [scanEntered, tablesReading, BitVec.add_assoc, BitVec.ofNat_add]
  have hbytes : (scanEntered tt w h q0 q1 (tablesReading ri s)).memBytes = s.memBytes := by simp [scanEntered, tablesReading]
  have hmem : (scanEntered tt w h q0 q1 (tablesReading ri s)).mem = s.mem := by
    simp [scanEntered, tablesReading, installHts_writtenHts, installQts_writtenQts]
  have hundef : (scanEntered tt w h q0 q1 (tablesReading ri s)).undef = s.undef := by
    simp [scanEntered, tablesReading, installHts_writtenHts, installQts_writtenQts]
  generalize ht : scanEntered tt w h q0 q1 (tablesReading ri s) = t at hbr hbytes hmem hundef
  have hptr : t.br.ptr.toNat = s.br.ptr.toNat + ((soiDriBytes ri).length + 587) := by
    rw [hbr]
    exact pointer_add_ofNat_toNat (lim := s.br.lim) (by omega)
  obtain ⟨-, hlim, -⟩ := hok
  constructor
  case input =>
    rw [inputBytes_drop (s := s) hptr (by rw [hbr]) (by omega) hmem hundef, hinput,
      List.drop_left' (frameHead_length hf)]
  case ok =>
    rw [ReaderOk, hptr, hbytes, hbr]
    exact ⟨Nat.le_trans (by omega) hadd.le, hlim, Nat.zero_le 8⟩
  case setup => exact ht ▸ scanSetup_scanEntered
  case memBytes => exact hbytes
  case lim => rw [hbr]
  case cnt => rw [hbr]
  case mark => rw [hbr]
  case dri | next | dims =>
    rw [← ht]
    simp [scanEntered, tablesReading, installHts_writtenHts, installQts_writtenQts]

theorem run_doBrinit_readerOn (h : src.toNat + len.toNat ≤ s.memBytes) : doBrinit src len s = .ok () (readerOn src len s) :=
  run_doBrinit h

/-- STATUS and RES0 are no part of what the scan begins with. -/
theorem ScanBegun.report {lim : Word} {n : Nat} (ht : ScanBegun tt w h ri q0 q1 lim bs n s) (st : Status) (v : Word) :
    ScanBegun tt w h ri q0 q1 lim bs n { s with status := st, res0 := v } := by
  obtain ⟨⟨hstate, hdim, hinfo, ⟨hhuff, hv0, hv1⟩, hq0, hq1, hdc, hac⟩, hdri, hnext, hdims, hok, hlim, hcnt, hmark, hinput,
    hbytes⟩ := ht
  exact ⟨⟨hstate, hdim, hinfo, ⟨hhuff, hv0, hv1⟩, hq0, hq1, hdc, hac⟩, hdri, hnext, hdims, hok, hlim, hcnt, hmark,
    (inputBytes_congr (s := s) (t := { s with status := st, res0 := v }) rfl rfl rfl rfl).trans hinput, hbytes⟩

/-- The header part of DECODE enters the scan, where the frame has the size that is asked for and fits the buffer
(47 R690). -/
theorem run_decodeHeader_written (hf : FrameOk tt w h) (hq : ∀ i : Fin 64, q0[i] ≠ 0#8 ∧ q1[i] ≠ 0#8) (hri : ri < 65536)
    (hsrc : src.toNat + len.toNat ≤ s.memBytes) (hok : ReaderOk (readerOn src len s))
    (hinput : inputBytes (readerOn src len s) = frameHead tt w h q0 q1 ri ++ bs)
    (hexpect : expect = true → s.prevDim = packHalves w h) (hcap : 3 * w * h ≤ cap.toNat) :
    ∃ t, decodeHeader src len cap expect s = .ok () t
      ∧ ScanBegun tt w h ri q0 q1 (src + len) bs s.memBytes t := by
  have hinput' : inputBytes (readerOn src len (clearTables s)) = frameHead tt w h q0 q1 ri ++ bs :=
    (inputBytes_congr (s := readerOn src len s) (t := readerOn src len (clearTables s)) rfl rfl rfl rfl).trans hinput
  have hparse := run_doParsehdr_written hf hq hri (inputAt_of_inputBytes (s := readerOn src len (clearTables s)) hok hinput')
  have hbegun := scanBegun_scanEntered (s := readerOn src len (clearTables s)) hf hok hinput'
  have hprev : (scanEntered tt w h q0 q1 (tablesReading ri (readerOn src len (clearTables s)))).prevDim = s.prevDim := by
    simp [scanEntered, tablesReading, installHts_writtenHts, installQts_writtenQts, readerOn]
  generalize scanEntered tt w h q0 q1 (tablesReading ri (readerOn src len (clearTables s))) = t at hparse hbegun hprev
  have hbegun' : ScanBegun tt w h ri q0 q1 (src + len) bs s.memBytes (noteResized (setRes0 0#32 t)) :=
    noteResized_keeps (P := ScanBegun tt w h ri q0 q1 (src + len) bs s.memBytes) (fun st u hu => hu.report st u.res0)
      (hbegun.report t.status 0#32)
  refine ⟨_, ?_, hbegun'⟩
  rw [decodeHeader, run_update_bind, run_bind_ok _ (run_doBrinit_readerOn (s := clearTables s) hsrc), run_bind_ok _ hparse,
    run_update_bind, run_checkState_pass, run_update_bind, run_checkState, if_pos]
  · have hdim := hbegun'.setup.dim
    rw [hdim, lowHalf_packHalves hf.width_lt, highHalf_packHalves hf.width_lt hf.height_lt]
    exact decide_eq_true hcap
  · have hdim : (setRes0 0#32 t).frmDim = packHalves w h := hbegun.setup.dim
    have hprev' : (setRes0 0#32 t).prevDim = s.prevDim := hprev
    rw [hdim, hprev']
    cases expect with
    | false => rfl
    | true => simpa using (hexpect rfl).symm

end Header

/-! ### The scan and EOI (47 R690, R700) -/

section Scan
variable {tt : BitVec 2} {w h ri src n : Nat} {q0 q1 : Vector Byte 64} {lim dst : Word} {more : List Byte} {bgr : Bool}
  {xss : List (List (Fin 3 × Block))} {s : State}

theorem FrameOk.mcuW_eq (hf : FrameOk tt w h) : mcuW (subsamplingOf tt) = 16 := by
  rcases hf.layout with rfl | rfl <;> rfl

/-- A frame of whole MCUs has all the MCUs of its grid inside. -/
theorem FrameOk.mcuFits (hf : FrameOk tt w h) {p : Nat × Nat} (hx : p.1 < w / 16) (hy : p.2 < h / mcuH (subsamplingOf tt)) :
    McuFits (subsamplingOf tt) w h p := by
  have hx' := Nat.mul_le_of_le_div 16 (p.1 + 1) w hx
  have hy' := Nat.mul_le_of_le_div _ (p.2 + 1) h hy
  rw [Nat.succ_mul, Nat.mul_comm] at hx' hy'
  exact ⟨by rw [hf.mcuW_eq]; exact hx', hy'⟩

/-- The blocks of a complete scan, interval by interval: on schedule, those of every MCU, and small. -/
structure CompleteScan (tt : BitVec 2) (w h ri b : Nat) (xss : List (List (Fin 3 × Block))) : Prop where
  mcu : (mcuBlocks (subsamplingOf tt)).length = b
  interval : ri < 65536
  schedule : scheduled ri b xss
  components : xss.flatten.map Prod.fst = scanComponents (subsamplingOf tt) (w / 16 * (h / mcuH (subsamplingOf tt)))
  small : ∀ x ∈ xss.flatten, SmallBlock x.2

theorem CompleteScan.length_flatten {b : Nat} (hx : CompleteScan tt w h ri b xss) :
    xss.flatten.length = b * (w / 16 * (h / mcuH (subsamplingOf tt))) := by
  rw [← List.length_map (f := Prod.fst), hx.components]
  simp [scanComponents, hx.mcu, Nat.mul_comm]

/-- A scan that has begun stands before MCU 0. -/
theorem scanAt_zero {bs : List Byte} (hs : ScanBegun tt w h ri q0 q1 lim bs n s) {b : Nat}
    (hx : CompleteScan tt w h ri b xss) (hbs : bs = intervalBytes 0 xss ++ ([0xFF#8, 0xD9#8] ++ more))
    (hstart : src ≤ s.br.ptr.toNat) : ScanAt src lim more ri b 0 xss.flatten (clearPreds s) := by
  obtain ⟨-, -, hxss, -, hsmall⟩ := hx
  cases xss with
  | nil => exact hxss.elim
  | cons xs rest =>
    rw [List.flatten_cons, List.forall_mem_append] at hsmall
    refine ⟨0, 0, xs, rest, rfl, rfl, Iff.rfl, onSchedule_of_scheduled hxss, hs.next, ?_, hsmall.2⟩
    refine blocksAhead_start hs.ok hs.cnt hs.mark hstart hs.lim (getPred_clearPreds s) hsmall.1
      (startsWithMarker_scanTail more 0 rest) ?_
    rw [← intervalBytes_append_eoi, ← hbs, ← hs.input]
    exact inputBytes_congr rfl rfl rfl rfl

/-- The scan of DECODE: all its blocks are read and all its pixels written (47 R690). -/
theorem run_decodeScan_frame {bs : List Byte} {b : Nat} (hf : FrameOk tt w h) (hx : CompleteScan tt w h ri b xss)
    (hs : ScanBegun tt w h ri q0 q1 lim bs n s) (hbs : bs = intervalBytes 0 xss ++ ([0xFF#8, 0xD9#8] ++ more))
    (hstart : src ≤ s.br.ptr.toNat) (hapart : lim.toNat ≤ dst.toNat ∨ dst.toNat + 3 * w * h ≤ src)
    (hroom : dst.toNat + 3 * w * h ≤ n) (s0 : State) :
    ∃ v, decodeScan bgr dst s = .ok () v ∧ BlocksAhead src lim ([0xFF#8, 0xD9#8] ++ more) [] v ∧ SameScan s v
      ∧ ∀ mx my, mx < w / 16 → my < h / mcuH (subsamplingOf tt) →
        McuShown (subsamplingOf tt) bgr dst.toNat w q0 q1 s0 ((xss.flatten.drop (b * (my * (w / 16) + mx))).take b)
          (mx, my) v := by
  have hready : ScanReady tt w h ri dst.toNat q0 q1 (clearPreds s) := by
    refine ⟨hs.setup.sameScan rfl, ?_, ?_⟩
    · rw [clearPreds_dri, hs.dri, BitVec.toNat_ofNat, Nat.mod_eq_of_lt hx.interval]
    · rw [clearPreds_memBytes, hs.memBytes]
      exact hroom
  have hscan := scanAt_zero hs hx hbs hstart
  have hgrid := mcuGrid_length (w / 16) (h / mcuH (subsamplingOf tt))
  obtain ⟨v, hrun, hscan', hsame, hshown, -⟩ := run_decodeMcus (bgr := bgr) (s0 := s0) (n := 0)
    (ps := mcuGrid (w / 16) (h / mcuH (subsamplingOf tt))) hf hapart hx.mcu hx.components hready
    (by rw [mcuGrid_numbers, hgrid, Nat.mul_comm]) (by rw [hgrid, Nat.zero_add])
    (fun p hp => hf.mcuFits (mem_mcuGrid.1 hp).1 (mem_mcuGrid.1 hp).2) hscan
  rw [List.drop_eq_nil_of_le hx.length_flatten.le] at hscan'
  refine ⟨v, ?_, hscan'.blocksAhead_eoi (hx.mcu ▸ mcuBlocks_pos _), hsame,
    fun mx my hmx hmy => hshown (mx, my) (mem_mcuGrid.2 ⟨hmx, hmy⟩)⟩
  have hinfo : (clearPreds s).frmInfo.ss = tt := congrArg FrameInfo.ss hready.setup.info
  rw [decodeScan, run_update_bind, run_get_bind, hinfo, hready.setup.dim, lowHalf_packHalves hf.width_lt,
    highHalf_packHalves hf.width_lt hf.height_lt, hf.mcuW_eq]
  exact hrun

end Scan

/-! ### The command (47 R690, R700) -/

section Decode
variable {tt : BitVec 2} {w h ri : Nat} {q0 q1 : Vector Byte 64} {src len dst cap flags : Word}
  {xss : List (List (Fin 3 × Block))} {s : State}

theorem restartFrameBytes_eq : restartFrameBytes (subsamplingOf tt) w h q0 q1 ri xss
    = frameHead tt w h q0 q1 ri ++ (intervalBytes 0 xss ++ [0xFF#8, 0xD9#8]) := by
  simp [restartFrameBytes, frameHead, soiDriBytes, driBytes]

theorem inputBytes_readerOn (hs : ParamOk s) (hsrc : src.toNat + len.toNat ≤ s.memBytes) :
    inputBytes (readerOn src len s) = readBytes s src.toNat len.toNat := by
  rw [inputBytes, readBytes_mem_congr (s := s) (t := readerOn src len s) rfl rfl]
  change readBytes s src.toNat ((src + len).toNat - src.toNat) = _
  rw [extent_end_toNat hs hsrc, Nat.add_sub_cancel_left]

/-- The input DECODE sees where the frame stands in its buffer, whatever is behind the frame. -/
theorem inputBytes_frame {frame : List Byte} (hframe : restartFrameBytes (subsamplingOf tt) w h q0 q1 ri xss = frame)
    (hs : ParamOk s) (hsrc : src.toNat + len.toNat ≤ s.memBytes) (hlen : frame.length ≤ len.toNat)
    (hread : readBytes s src.toNat frame.length = frame) :
    ∃ more, inputBytes (readerOn src len (decodeStart s))
      = frameHead tt w h q0 q1 ri ++ (intervalBytes 0 xss ++ ([0xFF#8, 0xD9#8] ++ more)) := by
  refine ⟨readBytes s (src.toNat + frame.length) (len.toNat - frame.length), ?_⟩
  have hall : inputBytes (readerOn src len (decodeStart s)) = readBytes s src.toNat len.toNat :=
    (inputBytes_readerOn (s := decodeStart s) hs hsrc).trans (readBytes_mem_congr (s := s) (t := decodeStart s) rfl rfl _ _)
  rw [hall, ← Nat.add_sub_cancel' hlen, readBytes_append, hread, Nat.add_sub_cancel' hlen, ← hframe, restartFrameBytes_eq]
  simp only [List.append_assoc]

/-- The arguments of DECODE: buffers inside LMEM and apart, room for the image, and its size where one is asked for. -/
structure DecodeArgs (w h : Nat) (src len dst cap : Word) (expect : Bool) (s : State) : Prop where
  param : ParamOk s
  srcInside : src.toNat + len.toNat ≤ s.memBytes
  dstInside : dst.toNat + cap.toNat ≤ s.memBytes
  fits : 3 * w * h ≤ cap.toNat
  apart : src.toNat + len.toNat ≤ dst.toNat ∨ dst.toNat + cap.toNat ≤ src.toNat
  size : expect = true → s.prevDim = packHalves w h

/-- The end of DECODE behind the scan. -/
def decodeEnd (v : State) : State := decodeDone (setPstate .terminal (advanceReader 2 (dropPadding v)))

/-- What DECODE of a complete frame leaves (47 R690, R700). -/
structure FrameDecoded (tt : BitVec 2) (w h ri : Nat) (src : Word) (len : Nat) (t : State) : Prop where
  state : t.pstate = .terminal
  res0 : t.res0 = BitVec.ofNat 32 (3 * w * h)
  res1 : t.res1 = packHalves w h
  prevDim : t.prevDim = packHalves w h
  dri : t.dri = BitVec.ofNat 16 ri
  ptr : t.br.ptr = src + BitVec.ofNat 32 len

theorem frameDecoded_decodeEnd (hf : FrameOk tt w h) {lim : Word} {bs : List Byte} {n k : Nat} {t v : State}
    (ht : ScanBegun tt w h ri q0 q1 lim bs n t) (hsame : SameScan t v) (hptr : v.br.ptr.toNat + 2 = src.toNat + k)
    (hlim : src.toNat + k ≤ lim.toNat) : FrameDecoded tt w h ri src k (decodeEnd v) := by
  have hdim : v.frmDim = packHalves w h := by
    rw [hsame]
    exact ht.setup.dim
  have hres1 : v.res1 = packHalves w h := by
    rw [hsame]
    exact ht.dims
  have hdri : v.dri = BitVec.ofNat 16 ri := by
    rw [hsame]
    exact ht.dri
  have hend : (decodeEnd v).br.ptr = v.br.ptr + BitVec.ofNat 32 2 := by simp [decodeEnd]
  constructor
  case state | res1 | prevDim | dri => simp [decodeEnd, decodeDone, hdim, hres1, hdri]
  case res0 =>
    simp [decodeEnd, decodeDone, hdim, lowHalf_packHalves hf.width_lt, highHalf_packHalves hf.width_lt hf.height_lt]
  case ptr =>
    refine BitVec.eq_of_toNat_eq ?_
    rw [hend, pointer_add_ofNat_toNat (lim := lim) (by omega), pointer_add_ofNat_toNat hlim, hptr]

/-- DECODE of a complete frame. -/
theorem run_doDecode_frame {b : Nat} {frame : List Byte} (hf : FrameOk tt w h)
    (hq : ∀ i : Fin 64, q0[i] ≠ 0#8 ∧ q1[i] ≠ 0#8) (hx : CompleteScan tt w h ri b xss)
    (hframe : restartFrameBytes (subsamplingOf tt) w h q0 q1 ri xss = frame) (hlen : frame.length ≤ len.toNat)
    (hread : readBytes s src.toNat frame.length = frame) (hs : DecodeArgs w h src len dst cap (flags.getLsbD 0) s)
    (s0 : State) :
    ∃ t, doDecode src len dst cap flags s = .ok () t ∧ FrameDecoded tt w h ri src frame.length t
      ∧ ∀ mx my, mx < w / 16 → my < h / mcuH (subsamplingOf tt) →
        McuShown (subsamplingOf tt) (flags.getLsbD 1) dst.toNat w q0 q1 s0
          ((xss.flatten.drop (b * (my * (w / 16) + mx))).take b) (mx, my) t := by
  obtain ⟨hparam, hsrc, hdst, hcap, hapart, hexpect⟩ := hs
  have hend := extent_end_toNat hparam hsrc
  have hok : ReaderOk (readerOn src len (decodeStart s)) :=
    ⟨(Nat.le_add_right ..).trans hend.ge, hend.trans_le hsrc, Nat.zero_le 8⟩
  obtain ⟨more, hinput⟩ := inputBytes_frame hframe hparam hsrc hlen hread
  have hcount : src.toNat + (frameHead tt w h q0 q1 ri ++ (intervalBytes 0 xss ++ ([0xFF#8, 0xD9#8] ++ more))).length
      = (src + len).toNat := hinput ▸ inputBytes_length_add hok
  obtain ⟨t, hheader, hbegun⟩ := run_decodeHeader_written (s := decodeStart s) (expect := flags.getLsbD 0) hf hq hx.interval
    hsrc hok hinput hexpect hcap
  have hcount' := inputBytes_length_add hbegun.ok
  rw [hbegun.input, hbegun.lim] at hcount'
  rw [List.length_append] at hcount
  obtain ⟨v, hscan, hahead, hsame, hshown⟩ := run_decodeScan_frame (src := src.toNat) (dst := dst) (bgr := flags.getLsbD 1)
    hf hx hbegun rfl (by omega) (by rw [hend]; omega) ((Nat.add_le_add_left hcap _).trans hdst) s0
  have hstate : v.pstate = .inScan := by
    rw [hsame]
    exact hbegun.setup.state
  have hleft := inputBytes_length_add hahead.entropy.ok
  have hframe' := congrArg List.length (restartFrameBytes_eq.symm.trans hframe)
  rw [hahead.inputBytes_eq, hahead.entropy.lim] at hleft
  simp only [List.length_append, List.length_cons, List.length_nil] at hleft hcount hframe'
  refine ⟨decodeEnd v, ?_, frameDecoded_decodeEnd hf hbegun hsame (by omega) (by omega), fun mx my hmx hmy q hq' => ?_⟩
  · rw [doDecode, run_onError, run_update_bind, run_bind_ok _ (run_checkExtent (decodeStart s) _ _ hsrc),
      run_bind_ok _ (run_checkExtent (decodeStart s) _ _ hdst), run_bind_ok _ hheader, run_bind_ok _ hscan,
      run_bind_ok _ (run_doEoichk_scan hstate hahead), run_update, decodeEnd]
  · rw [← hshown mx my hmx hmy q hq']
    exact readBytes_mem_congr (by simp [decodeEnd]) (by simp [decodeEnd]) _ _

end Decode

/-- Settles O60: the header by PARSEHDR's rounds, the scan by its MCUs in raster order, one restart interval after the
other. -/
theorem decodeAcceptsACompleteFrame : Obligations.DecodeAcceptsACompleteFrame := by
  intro tt w h ri q0 q1 xss s hs htt hw0 hw hw16 hh0 hh ss b out hmcu hq hri hxss hcomp hsmall frame hlen hread hsrc hdst hcap
    hapart hexpect
  have hf : FrameOk tt w h := ⟨htt, hw0, hw, hw16, hh0, hh, hmcu⟩
  obtain ⟨t, hrun, ⟨hstate, hres0, hres1, hprev, hdri, hptr⟩, hshown⟩ := run_doDecode_frame hf hq
    ⟨rfl, hri, hxss, hcomp, hsmall⟩ rfl hlen hread ⟨hs, hsrc, hdst, hcap, hapart, hexpect⟩ s
  refine ⟨complete none t, runCommand_ok hrun, succeeded_complete_none t, hres0, hres1, hstate, hprev, hdri, hptr,
    fun mx my px py hmx hmy hpx hpy => ?_⟩
  have hpixel := hshown mx my hmx hmy (px, py) ⟨by rw [hf.mcuW_eq]; exact hpx, hpy⟩
  rw [pixelIndex, hf.mcuW_eq] at hpixel
  exact (readBytes_mem_congr (s := t) (t := complete none t) rfl rfl _ _).trans hpixel

end Sys2Proof.Machine
end
section
/-! What a step keeps of a parse: the frame SOF0 accepted with the tables of its scan, and FAILED (45 R570, R590, R595; 60
R776). -/

namespace Sys2Proof.Machine

/-! ### The commands that do not parse -/

/-- P survives every change the commands that do not parse make (40 to 44, 46, 48; 60 R756). -/
structure UnitClosed (P : State → Prop) : Prop where
  complete : ∀ e s, P s → P (complete e s)
  writer : WriterClosed P
  reader : ReaderClosed P
  tables : TablesClosed P
  blk : ∀ d b s, P s → P (setBlk d b s)
  pred : ∀ c v s, P s → P (setPred c v s)
  preds : ∀ s, P s → P (clearPreds s)
  res0 : ∀ v s, P s → P (setRes0 v s)
  res1 : ∀ v s, P s → P (setRes1 v s)
  bwInit : ∀ (a n : Word) s, P s → a.toNat + n.toNat ≤ s.memBytes →
    P { s with bw := { ptr := a, lim := a + n, acc := 0#8, cnt := 0#3 } }
  brInit : ∀ (a n : Word) s, P s → a.toNat + n.toNat ≤ s.memBytes →
    P { s with br := { ptr := a, lim := a + n, cur := 0#8, cnt := 0#4, mark := false } }
  align : ∀ s, P s → P (setCount 0#4 s)
  write : ∀ a v s, P s → a < s.memBytes → P (writeByte a v s)

/-- An instruction that reads markers: a command that parses, or a marker. -/
inductive Parses (s t : State) : Instr → Prop where
  | parsehdr (h : t = finish (doParsehdr s)) : Parses s t .parsehdr
  | rstchk (h : t = finish (doRstchk s)) : Parses s t .rstchk
  | eoichk (h : t = finish (doEoichk s)) : Parses s t .eoichk
  | decode (h : exec .decode s = .next t) : Parses s t .decode
  | marker {i : Instr} (c : Byte) (h : runMarker c s = .next t) : Parses s t i

section Units
variable {P : State → Prop} (hP : UnitClosed P)
include hP

theorem UnitClosed.encode (ss : BitVec 2) : EncodeClosed ss P where
  writer := hP.writer
  quant _ _ e s hs he := hP.tables.quant _ e s hs he
  blk _ _ := hP.blk _
  pred := hP.pred
  preds := hP.preds
  res0 := hP.res0
  res1 := hP.res1
  init := hP.bwInit

theorem UnitClosed.runCommand {x : Eng Unit} {s t : State} (hs : P s) (h : runCommand x s = .next t) (hx : Keeps P x) :
    P t := by
  rw [runCommand_next h]
  exact finish_keeps hx hP.complete hs

/-- P survives an instruction, unless it parses. -/
theorem UnitClosed.exec {i : Instr} {s t : State} (hs : P s) (h : exec i s = .next t) : P t ∨ Parses s t i := by
  have unit {x : Eng Unit} (h : Machine.runCommand x s = .next t) (hx : Keeps P x) : P t ∨ Parses s t i :=
    .inl (hP.runCommand hs h hx)
  cases i
  case nop => exact unit h (keeps_pure _)
  case predclr => exact unit h hP.preds
  case bwinit => exact unit h (keeps_doBwinit _ _ (hP.bwInit _ _))
  case bwflush => exact unit h (keeps_flush hP.writer)
  case close => exact unit h (keeps_doClose hP.writer)
  case brinit => exact unit h (keeps_doBrinit _ _ (hP.brInit _ _))
  case bralign => exact unit h fun u hu => hP.align u hu
  case fdct d src => exact unit h (keeps_doFdct _ _ (hP.blk d))
  case idct d src => exact unit h (keeps_doIdct _ _ (hP.blk d))
  case quant d src tt => exact unit h (keeps_doQuant _ _ _ (hP.blk d))
  case dequant d src tt => exact unit h (keeps_doDequant _ _ _ (hP.blk d))
  case zigzag d src => exact unit h (keeps_doZigzag _ _ (hP.blk d))
  case unzigzag d src => exact unit h (keeps_doUnzigzag _ _ (hP.blk d))
  case qbuild tt x => exact unit h (keeps_doQbuild _ _ _ (hP.tables.quant _) hP.res0)
  case qload tt => exact unit h (keeps_doQload _ _ (hP.tables.quant _))
  case henc src c tt => exact unit h (keeps_doHenc hP.writer _ _ _ fun k _ => hP.pred k)
  case hdec d c tt => exact unit h (keeps_doHdec hP.reader _ _ _ (hP.blk d) fun k _ => hP.pred k)
  case hload tt x => exact unit h (keeps_doHload _ _ _ (fun _ _ => hP.tables.huff _ _) hP.res0)
  case cconv tt x => exact unit h (keeps_doCconv _ _ _ _ _ fun q _ => hP.blk q.1)
  case upscc tt x => exact unit h (keeps_doUpscc _ _ _ _ _ fun a v s hs _ _ hm => hP.write a v s hs hm)
  case hdrw tt => exact unit h (keeps_doHdrw hP.writer _ _ hP.res0)
  case encode => exact unit h (keeps_doEncode _ _ _ _ _ _ (hP.encode _))
  case parsehdr => exact .inr (.parsehdr (runCommand_next h))
  case rstchk => exact .inr (.rstchk (runCommand_next h))
  case eoichk => exact .inr (.eoichk (runCommand_next h))
  case decode => exact .inr (.decode h)
  all_goals exact .inr (.marker _ h)

end Units

/-! ### FAILED (45 R570) -/

/-- Only a parse leaves FAILED. -/
theorem unitClosed_failed : UnitClosed (fun u => u.pstate = .failed) where
  complete _ _ hs := hs
  writer := ⟨fun _ _ hs _ _ => hs, fun _ hs _ => hs, fun _ _ hs _ => hs⟩
  reader := ⟨fun _ _ _ hs _ _ => hs, fun _ hs => hs, fun _ hs _ => hs⟩
  tables := ⟨fun _ _ _ hs _ => hs, fun _ _ _ _ _ hs _ _ => hs⟩
  blk _ _ _ hs := hs
  pred _ _ _ hs := hs
  preds _ hs := hs
  res0 _ _ hs := hs
  res1 _ _ hs := hs
  bwInit _ _ _ hs _ := hs
  brInit _ _ _ hs _ := hs
  align _ hs := hs
  write _ _ _ hs _ := hs

/-- Outside a scan a checkpoint's check raises ERR_COMMAND (45 R610, R615). -/
theorem run_checkInScan_fail {α : Type} {s : State} (h : s.pstate ≠ .inScan) (k : Unit → Eng α) :
    (checkInScan >>= k) s = .error .command s :=
  run_checkState_fail s (p := fun u => decide (u.pstate = .inScan)) (decide_eq_false h) _ k

theorem run_doRstchk_outside {s : State} (h : s.pstate ≠ .inScan) : doRstchk s = .error .command s :=
  run_checkInScan_fail h _

theorem run_doEoichk_outside {s : State} (h : s.pstate ≠ .inScan) : doEoichk s = .error .command s :=
  run_checkInScan_fail h _

/-- In FAILED every marker is an error that changes nothing (45 R570; log 10). -/
theorem markerEvent_failed {s : State} (h : s.pstate = .failed) (r : MarkerReader) (c : Byte) :
    ∃ e, markerEvent r c s = .error e s := by
  have hscan : s.pstate ≠ .inScan := by rw [h]; decide
  cases r
  case header => exact ⟨.unexpectedMarker, by rw [markerEvent, headerEvent, h]⟩
  case restart => exact ⟨.command, run_checkInScan_fail hscan _⟩
  case imageEnd => exact ⟨.command, run_checkInScan_fail hscan _⟩

/-- FAILED survives every instruction but a new parse. -/
theorem exec_failed {i : Instr} {s t : State} (hs : s.pstate = .failed) (h : exec i s = .next t) :
    t.pstate = .failed ∨ i = .parsehdr ∨ i = .decode := by
  have hscan : s.pstate ≠ .inScan := by rw [hs]; decide
  rcases unitClosed_failed.exec hs h with hkept | hparses
  · exact .inl hkept
  cases hparses with
  | parsehdr _ => exact .inr (.inl rfl)
  | rstchk hend =>
    rw [hend, run_doRstchk_outside hscan]
    exact .inl hs
  | eoichk hend =>
    rw [hend, run_doEoichk_outside hscan]
    exact .inl hs
  | decode _ => exact .inr (.inr rfl)
  | marker c hmarker =>
    left
    obtain ⟨r, rfl⟩ | rfl := runMarker_cases hmarker
    · obtain ⟨e, he⟩ := markerEvent_failed hs r c
      rw [he]
      exact endMarker_keeps (P := fun u => u.pstate = .failed) hs (fun _ _ hu => hu) fun _ _ => rfl
    · exact hs

/-- The engine leaves FAILED only by a new parse. -/
theorem engineMove_failed {s t : State} (hs : s.pstate = .failed) (h : engineMove s = .next t) (ht : t.pstate ≠ .failed) :
    s.status.busy = true ∧ (decodeCommand s.cmdL = .ok .parsehdr ∨ decodeCommand s.cmdL = .ok .decode) := by
  unfold engineMove at h
  split at h
  · next hbusy =>
    refine ⟨hbusy, ?_⟩
    split at h
    · next i hi =>
      rcases exec_failed hs h with hf | rfl | rfl
      · exact absurd hf ht
      · exact .inl hi
      · exact .inr hi
    · cases h
      exact absurd hs ht
  · cases h
    exact absurd hs ht

theorem csrAccess_eq_next {o : Nat} {w : AccessWidth} {k : Host.Outcome State Fault Refusal} {t : State}
    (h : csrAccess o w k = .next t) : w = .word ∧ k = .next t := by
  unfold csrAccess at h
  split at h
  · cases h
  · next hform =>
    split at h
    · cases h
    · exact ⟨by simpa using (not_or.mp hform).1, h⟩

theorem lmemAccess_eq_next {s t : State} {a n : Nat} {k : Host.Outcome State Fault Refusal}
    (h : lmemAccess s a n k = .next t) : k = .next t := by
  unfold lmemAccess at h
  split_ifs at h
  exact h

/-- A CSR write is the soft reset, or writes none of the parser's state (10 R61, 70 R802). -/
theorem hostWriteCsr_pstate {o : Nat} {w : Word} {s t : State} (h : hostWriteCsr o w s = .next t) :
    t.pstate = s.pstate ∨ (o = 0x004 ∧ w.getLsbD 1 = true) := by
  unfold hostWriteCsr at h
  split at h
  · next ho =>
    cases h
    unfold writeCtrl
    split
    · next hw => exact .inr ⟨ho, hw⟩
    · exact .inl rfl
  left
  split at h
  · cases h
    rfl
  split at h
  · cases h
    rw [issue_eq]
    rfl
  split at h
  · split at h <;> cases h
    rw [writeLiveCsr_eq]
    rfl
  · cases h
    rfl

/-- A move of the host is the soft reset, or leaves the parser's state. -/
theorem hostMove_pstate {a : HostAccess} {s t : State} (h : hostMove a s = .next t) :
    t.pstate = s.pstate ∨ ∃ w, a = .writeCsr 0x004 .word w ∧ w.getLsbD 1 = true := by
  cases a with
  | readCsr o w =>
    obtain ⟨-, hread⟩ := csrAccess_eq_next h
    cases hread
    obtain ⟨v, d, hr⟩ := hostReadCsr_state o s
    rw [hr]
    exact .inl rfl
  | writeCsr o w d =>
    obtain ⟨rfl, hwrite⟩ := csrAccess_eq_next h
    rcases hostWriteCsr_pstate hwrite with hp | ⟨rfl, hd⟩
    · exact .inl hp
    · exact .inr ⟨d, rfl, hd⟩
  | readMem a w =>
    cases lmemAccess_eq_next h
    obtain ⟨k, hk⟩ := hostBytes_state a (widthBytes w) s
    left
    simp only [hostReadMem, hk]
  | writeMem a w d =>
    have hwrite := lmemAccess_eq_next h
    split at hwrite <;> cases hwrite
    rw [writeBytes_eq]
    exact .inl rfl

/-- Settles O22: FAILED survives every instruction but the two, and every host move but the soft reset. -/
theorem failedIsLeftOnlyByNewParse : Obligations.FailedIsLeftOnlyByNewParse := by
  intro s t hs h ht
  unfold step at h
  split at h
  · next hagenda =>
    obtain ⟨hbusy, hi⟩ := engineMove_failed hs h ht
    exact .inl ⟨hbusy, .inl hagenda, hi⟩
  · next rest hagenda =>
    obtain ⟨hbusy, hi⟩ := engineMove_failed (s := { s with agenda := rest }) hs h ht
    exact .inl ⟨hbusy, .inr ⟨rest, hagenda⟩, hi⟩
  · next a rest hagenda =>
    rcases hostMove_pstate h with hp | ⟨w, rfl, hw⟩
    · exact absurd (hp.trans hs) ht
    · exact .inr ⟨w, rest, hagenda, hw⟩

end Sys2Proof.Machine
end
section
/-! The header parse by what it keeps: SOF0 accepts a frame the parser can decode, SOS a scan whose tables are installed (45 R583
to R600). -/

namespace Sys2Proof.Machine

/-! ### What survives a header parse (45 R590, R595, R600) -/

/-- A frame SOF0 can accept (45 R590). -/
structure AcceptedFrame (w h : Nat) (ss : BitVec 2) : Prop where
  layout : ss = 1#2 ∨ ss = 2#2
  width_pos : w ≠ 0
  height_pos : h ≠ 0
  width_lt : w < 65536
  height_lt : h < 65536
  width_mcu : w % 16 = 0
  height_mcu : h % mcuH (subsamplingOf ss) = 0

/-- The Huffman tables SOS names, and the quantization tables of the frame, are installed (45 R595). -/
structure AcceptedScan (td ta : Vector (BitVec 1) 3) (s : State) : Prop where
  huff : ∀ c : Fin 3, htValid s 0#1 td[c] = true ∧ htValid s 1#1 ta[c] = true
  quant : frameTablesValid s = true

/-- The state behind an accepted SOS segment of length `len` (45 R595, R600). -/
def scanReached (len : Nat) (td ta : Vector (BitVec 1) 3) (s : State) : State :=
  let t := advanceReader len (acceptScan td ta s)
  setRes0 t.br.ptr (setPstate .inScan t)

/-- P survives every change of a header parse before the scan, which is entered in Q (45 R583 to R600). -/
structure ParseClosed (P Q : State → Prop) : Prop where
  bytes : BytesClosed P
  tables : TablesClosed P
  dri : ∀ v s, P s → P { s with dri := v }
  soi : ∀ s, P s → P (setPstate .readingTables s)
  frame : ∀ w h ss tq s, P s → AcceptedFrame w h ss → P (setPstate .sof0Seen (acceptFrame w h ss tq s))
  scan : ∀ len td ta s, P s → s.pstate = .sof0Seen → AcceptedScan td ta s → Q (scanReached len td ta s)

section Parse
variable {P Q : State → Prop} (hP : ParseClosed P Q)
include hP

/-- SOF0: the frame is accepted, or an error is raised and nothing changes (45 R590). -/
theorem ParseClosed.sof0 : Keeps P (do
    parseSof0
    update (setPstate .sof0Seen)) := by
  intro s hs
  rcases parseSof0_cases s with ⟨len, w, h, ss, tq, hrun, hlen, h1, h2, h3, h4, h5, h6, h7⟩ | ⟨e, hrun⟩
  · rw [run_bind_ok s hrun]
    exact hP.bytes.advance len _ (hP.frame w h ss tq s hs ⟨h1, h2, h3, h4, h5, h6, h7⟩) hlen
  · rw [run_bind_error s hrun]
    exact hs

/-- SOS: the scan is reached, or an error is raised and nothing changes (45 R595). -/
theorem ParseClosed.sos {s : State} (hs : P s) (hstate : s.pstate = .sof0Seen) :
    Ends s (do
      parseSos
      update fun s => setRes0 s.br.ptr (setPstate .inScan s)
      pure true) (fun reached t => reached = true ∧ Q t) (fun _ t => P t) := by
  unfold Ends
  rcases parseSos_cases s with ⟨len, td, ta, hrun, -, hhuff, hquant⟩ | ⟨e, hrun⟩
  · rw [run_bind_ok s hrun]
    exact ⟨rfl, hP.scan len td ta s hs hstate ⟨hhuff, hquant⟩⟩
  · rw [run_bind_error s hrun]
    exact hs

/-- A marker's case: P survives it unless it reaches the scan, in Q. -/
theorem ParseClosed.headerCase (c : Byte) {s : State} (hs : P s) :
    Ends s (headerCase c) (fun reached t => if reached then Q t else P t) (fun _ t => P t) := by
  have goesOn {x : Eng Unit} (hx : Keeps P x) : Ends s (do
      x
      pure false) (fun reached t => if reached then Q t else P t) (fun _ t => P t) :=
    ends_bind.2 (ends_mono (hx.ends_keeps hs) (fun _ _ h => h) fun _ _ h => h)
  unfold Machine.headerCase
  split
  · exact goesOn (keeps_skipSegment hP.bytes)
  split
  · exact goesOn (keeps_parseDqt hP.bytes hP.tables.quant)
  split
  · exact goesOn (keeps_parseDht hP.bytes hP.tables.huff)
  split
  · exact goesOn (keeps_parseDri hP.bytes hP.dri)
  split
  · have hkeeps := keeps_bind (keeps_checkState (fun s => decide (s.pstate ≠ .sof0Seen)) .unexpectedMarker) fun _ => hP.sof0
    have hends := goesOn hkeeps
    simpa only [bind_assoc] using hends
  split
  · exact hs
  split
  · rw [ends_bind, ends_checkState]
    split
    · next hstate =>
      refine ends_mono (hP.sos hs (of_decide_eq_true hstate)) ?_ fun _ _ h => h
      rintro _ t ⟨rfl, ht⟩
      exact ht
    · exact hs
  · exact hs

/-- The loop of PARSEHDR ends in the scan, in Q, or raises an error in P (45 R600). -/
theorem ParseClosed.headerLoop (fuel : Nat) {s : State} (hs : P s) :
    Ends s (headerLoop fuel) (fun _ t => Q t) (fun _ t => P t) := by
  induction fuel generalizing s with
  | zero => exact hs
  | succ fuel ih =>
    rw [Machine.headerLoop, ends_bind]
    refine ends_mono ((keeps_nextMarker hP.bytes).ends_keeps hs) (fun c t ht => ?_) fun _ _ h => h
    rw [ends_bind]
    refine ends_mono (hP.headerCase c ht) (fun reached u hu => ?_) fun _ _ h => h
    cases reached with
    | true => exact hu
    | false => exact ih hu

/-- PARSEHDR ends in the scan, in Q, or raises an error in P, FAILED (45 R570, R600). -/
theorem ParseClosed.doParsehdr {s : State} (hs : P (parseStart s)) :
    Ends s doParsehdr (fun _ t => Q t) (fun _ t => ∃ u, P u ∧ t = setPstate .failed u) := by
  rw [Machine.doParsehdr, ends_onError, ends_bind, ends_update, ends_bind]
  refine ends_mono ((keeps_expectSoiMarker hP.bytes hP.soi).ends_keeps hs) (fun _ t ht => ?_) fun _ t ht => ⟨t, ht, rfl⟩
  rw [ends_get_bind]
  exact ends_mono (hP.headerLoop _ ht) (fun _ _ h => h) fun _ t ht => ⟨t, ht, rfl⟩

end Parse

end Sys2Proof.Machine
end
section
/-! From SOF0 on the frame is one the parser accepts, and in a scan its tables are installed (45 R570, R590, R595). -/

namespace Sys2Proof.Machine

/-! ### The tables stay installed (41 R358, 43 R474) -/

theorem qtValid_installQt {x t : BitVec 2} {e : Vector Byte 64} {s : State} (h : qtValid s x = true) :
    qtValid (installQt t e s) x = true := by
  unfold qtValid at h ⊢
  by_cases ht : t.toNat = x.toNat <;> simp [ht, h]

theorem htValid_installHt {tc th x y : BitVec 1} {e : HuffTable} {s : State} (h : htValid s x y = true) :
    htValid (installHt tc th e s) x y = true := by
  unfold htValid at h ⊢
  by_cases ht : (htIndex tc th).val = (htIndex x y).val <;> simp_all

theorem scanOk_installQt (t : BitVec 2) (e : Vector Byte 64) (s : State) (hs : ScanOk s) : ScanOk (installQt t e s) :=
  ⟨hs.1, fun hscan c =>
    have ⟨hq, hd, ha⟩ := hs.2 hscan c
    ⟨qtValid_installQt hq, hd, ha⟩⟩

theorem scanOk_installHt (tc th : BitVec 1) (e : HuffTable) (s : State) (hs : ScanOk s) : ScanOk (installHt tc th e s) :=
  ⟨hs.1, fun hscan c =>
    have ⟨hq, hd, ha⟩ := hs.2 hscan c
    ⟨hq, htValid_installHt hd, htValid_installHt ha⟩⟩

/-- Outside SOF0_SEEN, IN_SCAN and TERMINAL nothing is asked of the frame. -/
theorem scanOk_of_pstate {s : State} (h : s.pstate ≠ .sof0Seen ∧ s.pstate ≠ .inScan ∧ s.pstate ≠ .terminal) : ScanOk s := by
  obtain ⟨hsof, hscan, hterm⟩ := h
  exact ⟨fun hp => absurd hp (by simp [hsof, hscan, hterm]), fun hp => absurd hp hscan⟩

theorem scanOk_failed (s : State) : ScanOk (setPstate .failed s) := scanOk_of_pstate (by simp)

theorem unitClosed_scanOk : UnitClosed ScanOk where
  complete _ _ hs := hs
  writer := ⟨fun _ _ hs _ _ => hs, fun _ hs _ => hs, fun _ _ hs _ => hs⟩
  reader := ⟨fun _ _ _ hs _ _ => hs, fun _ hs => hs, fun _ hs _ => hs⟩
  tables := ⟨fun t e s hs _ => scanOk_installQt t e s hs, fun tc th _ _ s hs _ _ => scanOk_installHt tc th _ s hs⟩
  blk _ _ _ hs := hs
  pred _ _ _ hs := hs
  preds _ hs := hs
  res0 _ _ hs := hs
  res1 _ _ hs := hs
  bwInit _ _ _ hs _ := hs
  brInit _ _ _ hs _ := hs
  align _ hs := hs
  write _ _ _ hs _ := hs

theorem bytesClosed_scanOk : BytesClosed ScanOk := ⟨fun _ _ hs _ => hs, fun _ hs => hs⟩

/-! ### The header parse (45 R590, R595) -/

/-- The frame SOF0 accepts is aligned. -/
theorem frameAligned_acceptFrame {w h : Nat} {ss : BitVec 2} (hf : AcceptedFrame w h ss) (tq : Vector (BitVec 2) 3)
    (s : State) : frameAligned (acceptFrame w h ss tq s) := by
  have hmcu : mcuW (subsamplingOf ss) = 16 := by rcases hf.layout with rfl | rfl <;> rfl
  rw [frameAligned, acceptFrame_frmDim, lowHalf_packHalves hf.width_lt, highHalf_packHalves hf.width_lt hf.height_lt]
  exact ⟨hf.layout, hf.width_pos, hf.height_pos, hmcu ▸ hf.width_mcu, hf.height_mcu⟩

/-- The tables SOS accepts are installed. -/
theorem scanTablesInstalled_acceptScan {td ta : Vector (BitVec 1) 3} {s : State} (h : AcceptedScan td ta s) :
    scanTablesInstalled (acceptScan td ta s) := by
  have hquant := h.quant
  simp only [frameTablesValid, Bool.and_eq_true] at hquant
  obtain ⟨⟨h0, h1⟩, h2⟩ := hquant
  intro c
  refine ⟨?_, h.huff c⟩
  match c with
  | 0 => exact h0
  | 1 => exact h1
  | 2 => exact h2

theorem parseClosed_scanOk : ParseClosed ScanOk ScanOk where
  bytes := bytesClosed_scanOk
  tables := unitClosed_scanOk.tables
  dri _ _ hs := hs
  soi _ _ := scanOk_of_pstate (by simp)
  frame _ _ _ tq s _ hf := ⟨fun _ => frameAligned_acceptFrame hf tq s, fun h => absurd h (by simp)⟩
  scan _ _ _ _ hs hstate h :=
    have htables := scanTablesInstalled_acceptScan h
    ⟨fun _ => hs.1 (.inl hstate), fun _ => htables⟩

theorem keeps_headerCase_scanOk (c : Byte) : Keeps ScanOk (headerCase c) := by
  intro s hs
  have hends := parseClosed_scanOk.headerCase c hs
  unfold Ends at hends
  cases hrun : headerCase c s with
  | error e t =>
    rw [hrun] at hends
    exact hends
  | ok reached t =>
    rw [hrun] at hends
    simpa using hends

/-- PARSEHDR needs no accepted frame to begin with. -/
theorem scanOk_doParsehdr (s : State) : ScanOk (stateAfter (doParsehdr s)) := by
  have hends := parseClosed_scanOk.doParsehdr (s := s) (scanOk_of_pstate (by simp))
  unfold Ends at hends
  cases hrun : doParsehdr s with
  | ok _ t =>
    rw [hrun] at hends
    exact hends
  | error e t =>
    rw [hrun] at hends
    obtain ⟨u, -, rfl⟩ := hends
    exact scanOk_failed u

/-! ### The checkpoints (45 R610, R615) -/

/-- The frame is an accepted one, in whatever state; in a scan its tables are installed. -/
def ScanAccepted (s : State) : Prop := frameAligned s ∧ (s.pstate = .inScan → scanTablesInstalled s)

theorem ScanAccepted.scanOk {s : State} (hs : ScanAccepted s) : ScanOk s := ⟨fun _ => hs.1, hs.2⟩

theorem ScanOk.accepted {s : State} (hs : ScanOk s) (hscan : s.pstate = .inScan) : ScanAccepted s :=
  ⟨hs.1 (.inr (.inl hscan)), hs.2⟩

theorem bytesClosed_scanAccepted : BytesClosed ScanAccepted := ⟨fun _ _ hs _ => hs, fun _ hs => hs⟩

/-- A checkpoint ends the scan, or leaves it as it was. -/
theorem keeps_endCase_scanAccepted (c : Byte) : Keeps ScanAccepted (endCase c) :=
  keeps_bind (keeps_check _ _) fun _ _ hs => ⟨hs.1, fun h => absurd h (by simp)⟩

theorem keeps_doRstchk_scanOk : Keeps ScanOk doRstchk :=
  keeps_bind (keeps_checkState _ _) fun _ => keeps_onError
    (keeps_bind (fun _ hs => hs) fun _ => keeps_bind (keeps_nextMarker bytesClosed_scanOk) fun c =>
      keeps_restartCase c fun _ _ hs => hs) fun s _ => scanOk_failed s

theorem keeps_doEoichk_scanAccepted : Keeps ScanAccepted doEoichk :=
  keeps_bind (keeps_checkState _ _) fun _ => keeps_onError
    (keeps_bind (fun _ hs => hs) fun _ => keeps_bind (keeps_replaceError (keeps_nextMarker bytesClosed_scanAccepted)) fun c =>
      keeps_endCase_scanAccepted c) fun _ hs => ⟨hs.1, fun h => absurd h (by simp)⟩

theorem keeps_doEoichk_scanOk : Keeps ScanOk doEoichk := by
  intro s hs
  by_cases hscan : s.pstate = .inScan
  · exact (keeps_doEoichk_scanAccepted s (hs.accepted hscan)).scanOk
  · rw [run_doEoichk_outside hscan]
    exact hs

/-! ### A single marker (log 2) -/

theorem keeps_headerEvent_scanOk (c : Byte) : Keeps ScanOk (headerEvent c) := by
  intro s hs
  unfold headerEvent
  split
  · split
    · exact scanOk_of_pstate (by simp)
    · exact hs
  · exact keeps_headerCase_scanOk c s hs
  · exact keeps_headerCase_scanOk c s hs
  · exact hs
  · exact hs
  · exact hs

theorem keeps_endEvent_scanOk (c : Byte) : Keeps ScanOk (endEvent c) := by
  intro s hs
  by_cases hscan : s.pstate = .inScan
  · rw [endEvent, run_checkInScan_bind hscan]
    exact (keeps_bind (keeps_endCase_scanAccepted c) (fun _ => keeps_pure true) s (hs.accepted hscan)).scanOk
  · rw [endEvent, run_checkInScan_fail hscan]
    exact hs

theorem runMarker_scanOk {c : Byte} {s t : State} (hs : ScanOk s) (h : runMarker c s = .next t) : ScanOk t := by
  obtain ⟨r, rfl⟩ | rfl := runMarker_cases h
  · exact endMarker_keeps
      (keeps_markerEvent (keeps_headerEvent_scanOk c) (keeps_restartEvent c fun _ _ hs => hs) (keeps_endEvent_scanOk c) r s hs)
      (fun _ _ hs => hs) fun u _ => scanOk_failed u
  · exact hs

end Sys2Proof.Machine
end
section
/-! How DECODE ends: the errors of its header parse, of its checks on the size and of its scan, and its success (47 R690, R694,
R695). -/

namespace Sys2Proof.Machine

/-! ### The pieces of DECODE do not raise ERR_SIZE_MISMATCH (47 R695)

Only DECODE's own check on the size does. -/

/-- `x` never raises ERR_SIZE_MISMATCH. -/
def SparesMismatch {α : Type} (x : Eng α) : Prop := ∀ s t, x s ≠ .error .sizeMismatch t

section Spares
variable {α β : Type}

@[simp] theorem mismatch_pure (a : α) : SparesMismatch (pure a : Eng α) := fun _ _ h => nomatch h

@[simp] theorem mismatch_get : SparesMismatch (get : Eng State) := fun _ _ h => nomatch h

@[simp] theorem mismatch_update (f : State → State) : SparesMismatch (update f) := fun _ _ h => nomatch h

@[simp] theorem mismatch_takeBit : SparesMismatch takeBit := fun _ _ h => nomatch h

@[simp] theorem mismatch_raise {e : ErrCode} (he : e ≠ .sizeMismatch) : SparesMismatch (raise e : Eng α) := by
  intro s t h
  cases h
  exact he rfl

@[simp] theorem mismatch_checkState {p : State → Bool} {e : ErrCode} (he : e ≠ .sizeMismatch) :
    SparesMismatch (checkState p e) := by
  intro s t h
  rw [run_checkState] at h
  split at h <;> cases h
  exact he rfl

@[simp] theorem mismatch_check {ok : Bool} {e : ErrCode} (he : e ≠ .sizeMismatch) : SparesMismatch (check ok e) :=
  mismatch_checkState (p := fun _ => ok) he

@[simp] theorem mismatch_memRead (a : Nat) : SparesMismatch (memRead a) := by
  intro s t h
  rcases memRead_cases a s with hr | hr <;> rw [hr] at h <;> cases h

theorem mismatch_bind {x : Eng β} {f : β → Eng α} (hx : SparesMismatch x) (hf : ∀ b, SparesMismatch (f b)) :
    SparesMismatch (x >>= f) := by
  intro s t h
  rw [run_bind] at h
  cases hr : x s with
  | ok b u =>
    rw [hr] at h
    exact hf b u t h
  | error e u =>
    rw [hr] at h
    cases h
    exact hx s _ hr

theorem mismatch_ite {q : Prop} [Decidable q] {x y : Eng α} (hx : SparesMismatch x) (hy : SparesMismatch y) :
    SparesMismatch (if q then x else y) := by
  split
  · exact hx
  · exact hy

theorem mismatch_onError {g : State → State} {x : Eng α} (hx : SparesMismatch x) : SparesMismatch (onError g x) := by
  intro s t h
  rw [run_onError] at h
  cases hr : x s with
  | ok a u =>
    rw [hr] at h
    cases h
  | error e u =>
    rw [hr] at h
    cases h
    exact hx s u hr

theorem mismatch_replaceError {e : ErrCode} (he : e ≠ .sizeMismatch) (x : Eng α) : SparesMismatch (replaceError e x) := by
  intro s t h
  rw [run_replaceError] at h
  split at h <;> cases h
  exact he rfl

theorem mismatch_forEach {as : List α} {f : α → Eng Unit} (h : ∀ a, SparesMismatch (f a)) : SparesMismatch (forEach as f) := by
  induction as with
  | nil => exact mismatch_pure _
  | cons a as ih => exact mismatch_bind (h a) fun _ => ih

/-! #### The header parse and the checkpoints (45) -/

@[simp] theorem mismatch_memReads (a n : Nat) : SparesMismatch (memReads a n) := by
  induction n generalizing a with
  | zero => exact mismatch_pure _
  | succ n ih => exact mismatch_bind (mismatch_memRead a) fun _ => mismatch_bind (ih _) fun _ => mismatch_pure _

@[simp] theorem mismatch_memRead16 (a : Nat) : SparesMismatch (memRead16 a) :=
  mismatch_bind (mismatch_memRead _) fun _ => mismatch_bind (mismatch_memRead _) fun _ => mismatch_pure _

@[simp] theorem mismatch_nextByte {e : ErrCode} (he : e ≠ .sizeMismatch) : SparesMismatch (nextByte e) :=
  mismatch_bind (mismatch_checkState he) fun _ => mismatch_bind mismatch_get fun _ =>
    mismatch_bind (mismatch_memRead _) fun _ => mismatch_bind (mismatch_update _) fun _ => mismatch_pure _

@[simp] theorem mismatch_codeAfterFill (n : Nat) : SparesMismatch (codeAfterFill n) := by
  induction n with
  | zero => exact mismatch_raise (by decide)
  | succ n ih => exact mismatch_bind (mismatch_nextByte (by decide)) fun _ => mismatch_ite ih (mismatch_pure _)

@[simp] theorem mismatch_nextMarker : SparesMismatch nextMarker :=
  mismatch_bind (mismatch_nextByte (by decide)) fun _ => mismatch_bind (mismatch_check (by decide)) fun _ =>
    mismatch_bind mismatch_get fun _ => mismatch_codeAfterFill _

@[simp] theorem mismatch_segLen : SparesMismatch segLen :=
  mismatch_bind (mismatch_checkState (by decide)) fun _ => mismatch_bind mismatch_get fun _ =>
    mismatch_bind (mismatch_memRead16 _) fun _ => mismatch_bind (mismatch_check (by decide)) fun _ => mismatch_pure _

@[simp] theorem mismatch_checkEntries (bs : List Byte) : SparesMismatch (checkEntries bs) := mismatch_check (by decide)

@[simp] theorem mismatch_checkTable (bits : List Byte) : SparesMismatch (checkTable bits) := mismatch_check (by decide)

@[simp] theorem mismatch_dqtTables (stop fuel p : Nat) : SparesMismatch (dqtTables stop fuel p) := by
  induction fuel generalizing p with
  | zero => exact mismatch_pure _
  | succ n ih =>
    refine mismatch_ite (mismatch_pure _) ?_
    repeat' refine mismatch_bind ?_ fun _ => ?_
    all_goals simp [ih]

@[simp] theorem mismatch_dhtTables (stop fuel p : Nat) : SparesMismatch (dhtTables stop fuel p) := by
  induction fuel generalizing p with
  | zero => exact mismatch_pure _
  | succ n ih =>
    refine mismatch_ite (mismatch_pure _) ?_
    repeat' refine mismatch_bind ?_ fun _ => ?_
    all_goals simp [ih]

@[simp] theorem mismatch_scanComponent (a i : Nat) : SparesMismatch (scanComponent a i) := by
  unfold scanComponent
  repeat' refine mismatch_bind ?_ fun _ => ?_
  all_goals simp

@[simp] theorem mismatch_headerCase (c : Byte) : SparesMismatch (headerCase c) := by
  unfold headerCase skipSegment parseDqt parseDht parseDri parseSof0 parseSos
  repeat' refine mismatch_ite ?_ ?_
  all_goals repeat' refine mismatch_bind ?_ fun _ => ?_
  all_goals simp

theorem mismatch_headerLoop (fuel : Nat) : SparesMismatch (headerLoop fuel) := by
  induction fuel with
  | zero => exact mismatch_raise (by decide)
  | succ n ih =>
    exact mismatch_bind mismatch_nextMarker fun c => mismatch_bind (mismatch_headerCase c) fun _ =>
      mismatch_ite (mismatch_pure _) ih

@[simp] theorem mismatch_expectSoiMarker : SparesMismatch expectSoiMarker := by
  unfold expectSoiMarker
  repeat' refine mismatch_bind ?_ fun _ => ?_
  all_goals simp

theorem mismatch_doParsehdr : SparesMismatch doParsehdr :=
  mismatch_onError (mismatch_bind (mismatch_update _) fun _ => mismatch_bind mismatch_expectSoiMarker fun _ =>
    mismatch_bind mismatch_get fun _ => mismatch_headerLoop _)

theorem mismatch_doRstchk : SparesMismatch doRstchk :=
  mismatch_bind (mismatch_checkState (by decide)) fun _ => mismatch_onError (mismatch_bind (mismatch_update _) fun _ =>
    mismatch_bind mismatch_nextMarker fun _ => mismatch_bind (mismatch_checkState (by decide)) fun _ => mismatch_update _)

theorem mismatch_doEoichk : SparesMismatch doEoichk :=
  mismatch_bind (mismatch_checkState (by decide)) fun _ => mismatch_onError (mismatch_bind (mismatch_update _) fun _ =>
    mismatch_bind (mismatch_replaceError (by decide) _) fun _ => mismatch_bind (mismatch_check (by decide)) fun _ =>
      mismatch_update _)

/-! #### The scan (43 R490; 46 R650; 47 R690) -/

@[simp] theorem mismatch_fill : SparesMismatch fill := by
  unfold fill
  refine mismatch_bind ?_ fun _ => mismatch_bind ?_ fun _ => mismatch_bind ?_ fun _ => mismatch_bind ?_ fun _ =>
    mismatch_ite ?_ (mismatch_bind ?_ fun _ => mismatch_bind ?_ fun _ => mismatch_ite ?_ (mismatch_bind ?_ fun _ => ?_))
  all_goals simp

@[simp] theorem mismatch_getBit : SparesMismatch getBit :=
  mismatch_bind mismatch_get fun _ => mismatch_ite (mismatch_bind mismatch_fill fun _ => mismatch_takeBit) mismatch_takeBit

@[simp] theorem mismatch_getBits (n : Nat) : SparesMismatch (getBits n) := by
  refine mismatch_bind ?_ fun _ => mismatch_pure _
  induction n with
  | zero => exact mismatch_pure _
  | succ n ih => exact mismatch_bind mismatch_getBit fun _ => mismatch_bind ih fun _ => mismatch_pure _

@[simp] theorem mismatch_decodeSym (t : HuffTable) : SparesMismatch (decodeSym t) := by
  rw [decodeSym]
  generalize 0 = code
  induction levels t generalizing code with
  | nil => exact mismatch_raise (by decide)
  | cons l ls ih =>
    refine mismatch_bind mismatch_getBit fun b => ?_
    split
    · exact mismatch_pure _
    · exact ih _

@[simp] theorem mismatch_decodeDc (t : HuffTable) (c : Fin 3) : SparesMismatch (decodeDc t c) :=
  mismatch_bind (mismatch_decodeSym t) fun _ => mismatch_bind (mismatch_check (by decide)) fun _ =>
    mismatch_bind (mismatch_getBits _) fun _ => mismatch_bind mismatch_get fun _ => mismatch_pure _

@[simp] theorem mismatch_decodeAc (t : HuffTable) (fuel k : Nat) (z : Block) : SparesMismatch (decodeAc t fuel k z) := by
  induction fuel generalizing k z with
  | zero => exact mismatch_pure _
  | succ n ih =>
    refine mismatch_ite (mismatch_pure _) (mismatch_bind (mismatch_decodeSym t) fun rs => ?_)
    refine mismatch_ite (mismatch_ite (mismatch_bind ?_ fun _ => ih _ _) (mismatch_ite (mismatch_pure _) ?_))
      (mismatch_bind ?_ fun _ => mismatch_bind ?_ fun _ => mismatch_bind (mismatch_getBits _) fun _ => ih _ _)
    all_goals simp

theorem mismatch_doHdec (d : Slot) (c t : BitVec 2) : SparesMismatch (doHdec d c t) := by
  unfold doHdec
  split
  · exact mismatch_raise (by decide)
  · exact mismatch_bind (mismatch_checkState (by decide)) fun _ => mismatch_bind mismatch_get fun _ =>
      mismatch_bind (mismatch_decodeDc _ _) fun _ => mismatch_bind (mismatch_decodeAc _ _ _ _) fun _ =>
      mismatch_bind (mismatch_update _) fun _ => mismatch_update _

theorem mismatch_decodeSlot (p : Slot × Fin 3) : SparesMismatch (decodeSlot p) :=
  mismatch_bind mismatch_get fun _ => mismatch_bind (mismatch_doHdec _ _ _) fun _ => mismatch_bind (mismatch_update _) fun _ =>
    mismatch_bind (mismatch_bind (mismatch_checkState (by decide)) fun _ => mismatch_update _) fun _ => mismatch_update _

theorem mismatch_doUpscc (t : BitVec 2) (x : BitVec 4) (out dims pos : Word) : SparesMismatch (doUpscc t x out dims pos) := by
  unfold doUpscc checkMcu checkExtent
  repeat' refine mismatch_bind ?_ fun _ => ?_
  all_goals simp

theorem mismatch_decodeMcu (ss : BitVec 2) (bgr : Bool) (dst dims : Word) (nx : Nat) (p : Nat × Nat) :
    SparesMismatch (decodeMcu ss bgr dst dims nx p) := by
  have hblocks : SparesMismatch (do
      forEach (mcuBlocks (subsamplingOf ss)) decodeSlot
      doUpscc ss (if bgr then 1#4 else 0#4) dst dims (packHalves p.1 p.2)) :=
    mismatch_bind (mismatch_forEach mismatch_decodeSlot) fun _ => mismatch_doUpscc _ _ _ _ _
  exact mismatch_bind mismatch_get fun _ => mismatch_ite (mismatch_bind mismatch_doRstchk fun _ => hblocks) hblocks

theorem mismatch_decodeScan (bgr : Bool) (dst : Word) : SparesMismatch (decodeScan bgr dst) :=
  mismatch_bind (mismatch_update _) fun _ => mismatch_bind mismatch_get fun _ =>
    mismatch_forEach fun _ => mismatch_decodeMcu _ _ _ _ _ _

end Spares

/-! ### What the scan part leaves alone (47 R690) -/

/-- `u` has the frame, the results, STATUS and PREV_DIM of `w`. -/
def ScanKept (w u : State) : Prop :=
  u.frmDim = w.frmDim ∧ u.frmInfo = w.frmInfo ∧ u.res0 = w.res0 ∧ u.res1 = w.res1 ∧ u.prevDim = w.prevDim
    ∧ u.status = w.status

theorem readerClosed_scanKept (w : State) : ReaderClosed (ScanKept w) :=
  ⟨fun _ _ _ hu _ _ => hu, fun _ hu => hu, fun _ hu _ => hu⟩

theorem bytesClosed_scanKept (w : State) : BytesClosed (ScanKept w) := ⟨fun _ _ hu _ => hu, fun _ hu => hu⟩

section Scan
variable (w : State)

theorem keeps_decodeSlot_scanKept (p : Slot × Fin 3) : Keeps (ScanKept w) (decodeSlot p) :=
  keeps_bind keeps_get fun _ => keeps_bind (keeps_doHdec (readerClosed_scanKept w) _ _ _ (fun _ _ hu => hu)
      fun _ _ _ _ hu => hu) fun _ =>
    keeps_bind (keeps_doUnzigzag _ _ fun _ _ hu => hu) fun _ => keeps_bind (keeps_doDequant _ _ _ fun _ _ hu => hu) fun _ =>
    keeps_doIdct _ _ fun _ _ hu => hu

theorem keeps_doRstchk_scanKept : Keeps (ScanKept w) doRstchk :=
  keeps_doRstchk (bytesClosed_scanKept w) (fun _ _ hu => hu) fun _ _ hu => hu

theorem keeps_decodeMcu_scanKept (ss : BitVec 2) (bgr : Bool) (dst dims : Word) (nx : Nat) (p : Nat × Nat) :
    Keeps (ScanKept w) (decodeMcu ss bgr dst dims nx p) := by
  have hblocks : Keeps (ScanKept w) (do
      forEach (mcuBlocks (subsamplingOf ss)) decodeSlot
      doUpscc ss (if bgr then 1#4 else 0#4) dst dims (packHalves p.1 p.2)) :=
    keeps_bind (keeps_forEach fun q _ => keeps_decodeSlot_scanKept w q) fun _ =>
      keeps_doUpscc _ _ _ _ _ fun _ _ _ hu _ _ _ => hu
  exact keeps_bind keeps_get fun _ => keeps_ite (keeps_bind (keeps_doRstchk_scanKept w) fun _ => hblocks) hblocks

theorem keeps_decodeScan_scanKept (bgr : Bool) (dst : Word) : Keeps (ScanKept w) (decodeScan bgr dst) :=
  keeps_bind (fun _ hu => hu) fun _ => keeps_bind keeps_get fun _ =>
    keeps_forEach fun _ _ => keeps_decodeMcu_scanKept w _ _ _ _ _ _

theorem keeps_doEoichk_scanKept : Keeps (ScanKept w) doEoichk :=
  keeps_doEoichk (bytesClosed_scanKept w) fun _ _ hu => hu

/-- EOICHK without error ends the image (45 R615). -/
theorem doEoichk_terminal {s t : State} (h : doEoichk s = .ok () t) : t.pstate = .terminal := by
  obtain ⟨_, u, -, hbody⟩ := ok_of_bind s h
  rw [run_onError] at hbody
  split at hbody <;> cases hbody
  next hrun =>
  obtain ⟨_, _, -, hrun⟩ := ok_of_bind _ hrun
  obtain ⟨_, _, -, hrun⟩ := ok_of_bind _ hrun
  obtain ⟨_, _, -, hrun⟩ := ok_of_bind _ hrun
  cases hrun
  rfl

/-- DECODE from the scan on (47 R690). -/
def decodeFrame (bgr : Bool) (dst : Word) : Eng Unit := do
  decodeScan bgr dst
  doEoichk
  update decodeDone

/-- DECODE from the scan on ends behind EOI, or with an error other than ERR_SIZE_MISMATCH. -/
theorem ends_decodeFrame (bgr : Bool) (dst : Word) :
    Ends w (decodeFrame bgr dst) (fun _ t => ∃ u, ScanKept w u ∧ u.pstate = .terminal ∧ t = decodeDone u)
      (fun e t => ScanKept w t ∧ e ≠ .sizeMismatch) := by
  have hw : ScanKept w w := ⟨rfl, rfl, rfl, rfl, rfl, rfl⟩
  unfold Ends decodeFrame
  have hscan := keeps_decodeScan_scanKept w bgr dst w hw
  cases hr : decodeScan bgr dst w with
  | error e u =>
    rw [hr] at hscan
    rw [run_bind_error w hr]
    exact ⟨hscan, fun he => mismatch_decodeScan bgr dst w u (he ▸ hr)⟩
  | ok _ u =>
    rw [hr] at hscan
    rw [run_bind_ok w hr]
    have heoi := keeps_doEoichk_scanKept w u hscan
    cases hr2 : doEoichk u with
    | error e v =>
      rw [hr2] at heoi
      rw [run_bind_error u hr2]
      exact ⟨heoi, fun he => mismatch_doEoichk u v (he ▸ hr2)⟩
    | ok _ v =>
      rw [hr2] at heoi
      rw [run_bind_ok u hr2]
      exact ⟨v, heoi, doEoichk_terminal hr2, rfl⟩

end Scan

/-! ### The outcomes of DECODE (47 R690, R694, R695) -/

/-- What DECODE does behind its header parse. -/
def decodeBehindHeader (dst cap : Word) (expect bgr : Bool) : Eng Unit := do
  update (setRes0 0#32)
  checkState (fun s => !expect || decide (s.frmDim = s.prevDim)) .sizeMismatch
  update noteResized
  checkState (fun s => decide (3 * lowHalf s.frmDim * highHalf s.frmDim ≤ cap.toNat)) .bounds
  decodeFrame bgr dst

/-- The state the header parse of DECODE starts in. -/
def headerStart (src len : Word) (s : State) : State := readerOn src len (clearTables (decodeStart s))

section Outcome
variable {src len dst cap flags : Word} {s t : State}

/-- A buffer that is not inside LMEM: ERR_BOUNDS, nothing read (47 R690). -/
theorem run_doDecode_outside (h : s.memBytes < src.toNat + len.toNat ∨ s.memBytes < dst.toNat + cap.toNat) :
    doDecode src len dst cap flags s = .error .bounds (setPstate .failed (decodeStart s)) := by
  rw [doDecode, run_onError, run_update_bind]
  by_cases hsrc : s.memBytes < src.toNat + len.toNat
  · rw [run_bind_error _ (run_checkExtent_outside (decodeStart s) _ _ hsrc)]
  · rw [run_bind_ok _ (run_checkExtent (decodeStart s) _ _ (Nat.not_lt.mp hsrc)),
      run_bind_error _ (run_checkExtent_outside (decodeStart s) _ _ (h.resolve_left hsrc))]

/-- With its buffers inside LMEM DECODE is PARSEHDR and what follows it. -/
theorem run_doDecode_inside (hsrc : src.toNat + len.toNat ≤ s.memBytes) (hdst : dst.toNat + cap.toNat ≤ s.memBytes) :
    doDecode src len dst cap flags s
      = onError (setPstate .failed) (doParsehdr >>= fun _ => decodeBehindHeader dst cap (flags.getLsbD 0) (flags.getLsbD 1))
          (headerStart src len s) := by
  rw [doDecode, run_onError, run_update_bind, run_bind_ok _ (run_checkExtent (decodeStart s) _ _ hsrc),
    run_bind_ok _ (run_checkExtent (decodeStart s) _ _ hdst), decodeHeader, bind_assoc, run_update_bind, bind_assoc,
    run_bind_ok _ (run_doBrinit_readerOn (s := clearTables (decodeStart s)) hsrc), run_onError]
  simp only [bind_assoc, decodeBehindHeader, decodeFrame]
  rfl

/-- The state behind the header parse that left `v`, once the size of the frame has been accepted (47 R690, R694). -/
def sizeNoted (v : State) : State := noteResized (setRes0 0#32 v)

/-- The size is one DECODE was asked for (47 R695). -/
def SizeExpected (expect : Bool) (v : State) : Prop := expect = true → v.frmDim = v.prevDim

theorem sizeExpected_iff {expect : Bool} {v : State} :
    (!expect || decide (v.frmDim = v.prevDim)) = true ↔ SizeExpected expect v := by
  cases expect <;> simp [SizeExpected]

/-- How DECODE ends in `t`, with both buffers inside LMEM, its header parse starting in `p`. -/
inductive DecodeEnds (cap : Word) (expect : Bool) (p t : State) : Prop where
  | header {e : ErrCode} {v : State} (hparse : doParsehdr p = .error e v) (ht : t = complete (some e) (setPstate .failed v))
  | size {v : State} (hparse : doParsehdr p = .ok () v) (hexpect : expect = true) (hsize : v.frmDim ≠ v.prevDim)
      (ht : t = complete (some .sizeMismatch) (setPstate .failed (setRes0 0#32 v)))
  | capacity {v : State} (hparse : doParsehdr p = .ok () v) (hsize : SizeExpected expect v)
      (hcap : cap.toNat < 3 * lowHalf v.frmDim * highHalf v.frmDim)
      (ht : t = complete (some .bounds) (setPstate .failed (sizeNoted v)))
  | scan {v u : State} {e : ErrCode} (hparse : doParsehdr p = .ok () v) (hsize : SizeExpected expect v)
      (hcap : 3 * lowHalf v.frmDim * highHalf v.frmDim ≤ cap.toNat) (hkept : ScanKept (sizeNoted v) u)
      (he : e ≠ .sizeMismatch) (ht : t = complete (some e) (setPstate .failed u))
  | done {v u : State} (hparse : doParsehdr p = .ok () v) (hsize : SizeExpected expect v)
      (hcap : 3 * lowHalf v.frmDim * highHalf v.frmDim ≤ cap.toNat) (hkept : ScanKept (sizeNoted v) u)
      (hstate : u.pstate = .terminal) (ht : t = complete none (decodeDone u))

theorem sizeNoted_eq (v : State) :
    sizeNoted v = { v with
      res0 := 0#32
      status := { v.status with resized := v.status.resized || decide (v.frmDim ≠ v.prevDim) } } := by
  rw [sizeNoted, noteResized]
  by_cases h : v.frmDim = v.prevDim <;> simp [setRes0, h]

@[simp] theorem sizeNoted_res0 (v : State) : (sizeNoted v).res0 = 0#32 := by rw [sizeNoted_eq]

@[simp] theorem sizeNoted_res1 (v : State) : (sizeNoted v).res1 = v.res1 := by rw [sizeNoted_eq]

@[simp] theorem sizeNoted_prevDim (v : State) : (sizeNoted v).prevDim = v.prevDim := by rw [sizeNoted_eq]

@[simp] theorem sizeNoted_frmDim (v : State) : (sizeNoted v).frmDim = v.frmDim := by rw [sizeNoted_eq]

/-- Every way DECODE ends, with both buffers inside LMEM. -/
theorem decodeEnds (hsrc : src.toNat + len.toNat ≤ s.memBytes) (hdst : dst.toNat + cap.toNat ≤ s.memBytes) :
    DecodeEnds cap (flags.getLsbD 0) (headerStart src len s) (finish (doDecode src len dst cap flags s)) := by
  rw [run_doDecode_inside hsrc hdst, finish_onError]
  cases hparse : doParsehdr (headerStart src len s) with
  | error e v =>
    rw [run_bind_error _ hparse]
    exact .header hparse rfl
  | ok _ v =>
    rw [run_bind_ok _ hparse, decodeBehindHeader, run_update_bind, run_checkState_bind]
    split
    case isFalse hsize =>
      simp only [Bool.not_eq_true, Bool.or_eq_false_iff, Bool.not_eq_false', decide_eq_false_iff_not] at hsize
      exact .size hparse hsize.1 hsize.2 rfl
    case isTrue hsize =>
      have hexpected : SizeExpected (flags.getLsbD 0) v := sizeExpected_iff.1 hsize
      rw [run_update_bind, ← sizeNoted, run_checkState_bind, sizeNoted_frmDim]
      split
      case isFalse hcap => exact .capacity hparse hexpected (by simpa using hcap) rfl
      case isTrue hcap =>
        have hcap := of_decide_eq_true hcap
        have hends := ends_decodeFrame (sizeNoted v) (flags.getLsbD 1) dst
        unfold Ends at hends
        cases hr : decodeFrame (flags.getLsbD 1) dst (sizeNoted v) with
        | error e u =>
          rw [hr] at hends
          exact .scan hparse hexpected hcap hends.1 hends.2 rfl
        | ok _ w =>
          rw [hr] at hends
          obtain ⟨u, hkept, hstate, rfl⟩ := hends
          exact .done hparse hexpected hcap hkept hstate rfl

end Outcome

end Sys2Proof.Machine
end
section
/-! The frame a parse accepts is kept by every step, and what DECODE reports (45 R570, R590, R595; 47 R690, R694, R695, R699). -/

namespace Sys2Proof.Machine

/-! ### The frame behind a DECODE (47 R690) -/

/-- Before the scan: the frame is accepted from SOF0 on, its size then in RES1, and RES0 is still 0 (45 R590, R600). -/
def HeaderReport (s : State) : Prop := ScanOk s ∧ s.res0 = 0#32 ∧ (s.pstate = .sof0Seen → s.res1 = s.frmDim)

/-- In the scan: an accepted frame, its size in RES1. -/
def ScanReport (s : State) : Prop := frameAligned s ∧ s.res1 = s.frmDim

theorem parseClosed_headerReport : ParseClosed HeaderReport ScanReport where
  bytes := ⟨fun _ _ hs _ => hs, fun _ hs => hs⟩
  tables :=
    ⟨fun t e s hs he => ⟨unitClosed_scanOk.tables.quant t e s hs.1 he, hs.2⟩,
      fun tc th bits vals s hs hl hv => ⟨unitClosed_scanOk.tables.huff tc th bits vals s hs.1 hl hv, hs.2⟩⟩
  dri _ _ hs := hs
  soi _ hs := ⟨scanOk_of_pstate (by simp), hs.2.1, fun h => absurd h (by simp)⟩
  frame w h ss tq s hs hf := ⟨parseClosed_scanOk.frame w h ss tq s hs.1 hf, hs.2.1, fun _ => rfl⟩
  scan _ _ _ _ hs hstate _ := ⟨hs.1.1 (.inl hstate), hs.2.2 hstate⟩

/-- From whatever state PARSEHDR begins. -/
theorem ends_doParsehdr_report (s : State) :
    Ends s doParsehdr (fun _ t => ScanReport t) (fun _ t => ∃ u, HeaderReport u ∧ t = setPstate .failed u) :=
  parseClosed_headerReport.doParsehdr ⟨scanOk_of_pstate (by simp), rfl, fun h => absurd h (by simp)⟩

theorem scanReport_of_ok {p v : State} (h : doParsehdr p = .ok () v) : ScanReport v := by
  have hends := ends_doParsehdr_report p
  unfold Ends at hends
  rwa [h] at hends

theorem res0_of_error {p v : State} {e : ErrCode} (h : doParsehdr p = .error e v) : v.res0 = 0#32 := by
  have hends := ends_doParsehdr_report p
  unfold Ends at hends
  rw [h] at hends
  obtain ⟨u, ⟨-, hres0, -⟩, rfl⟩ := hends
  exact hres0

theorem ScanKept.frameAligned {w u : State} (h : ScanKept w u) (hw : frameAligned w) : frameAligned u := by
  obtain ⟨hdim, hinfo, -⟩ := h
  rw [Machine.frameAligned, hdim, hinfo]
  exact hw

theorem exec_decode (s : State) :
    exec .decode s = runCommand (doDecode s.argL[0] s.argL[1] s.argL[2] s.argL[3] s.argL[4]) s := rfl

/-- DECODE ends FAILED, or behind EOI with an accepted frame. -/
theorem decodeEnds_scanOk {cap : Word} {expect : Bool} {p t : State} (h : DecodeEnds cap expect p t) : ScanOk t := by
  cases h with
  | header _ ht | size _ _ _ ht | capacity _ _ _ ht | scan _ _ _ _ _ ht => exact ht ▸ scanOk_failed _
  | @done v u hparse _ _ hkept hstate ht =>
    have hframe : frameAligned u := hkept.frameAligned (by rw [sizeNoted_eq]; exact (scanReport_of_ok hparse).1)
    have hterm : (decodeDone u).pstate = .terminal := hstate
    rw [ht]
    exact ⟨fun _ => hframe, fun hscan => absurd (hterm.symm.trans hscan) (by decide)⟩

theorem exec_decode_scanOk {s t : State} (h : exec .decode s = .next t) : ScanOk t := by
  rw [exec_decode] at h
  rw [runCommand_next h]
  by_cases hin : s.argL[0].toNat + s.argL[1].toNat ≤ s.memBytes ∧ s.argL[2].toNat + s.argL[3].toNat ≤ s.memBytes
  · exact decodeEnds_scanOk (decodeEnds hin.1 hin.2)
  · rw [run_doDecode_outside (by omega)]
    exact scanOk_failed _

/-! ### Every step (45 R590, R595) -/

theorem exec_scanOk {i : Instr} {s t : State} (hs : ScanOk s) (h : exec i s = .next t) : ScanOk t := by
  rcases unitClosed_scanOk.exec hs h with hkept | hparses
  · exact hkept
  cases hparses with
  | parsehdr hend =>
    have hok := scanOk_doParsehdr s
    rw [hend]
    cases hr : doParsehdr s <;> (rw [hr] at hok; exact hok)
  | rstchk hend => exact hend ▸ finish_keeps keeps_doRstchk_scanOk (fun _ _ hu => hu) hs
  | eoichk hend => exact hend ▸ finish_keeps keeps_doEoichk_scanOk (fun _ _ hu => hu) hs
  | decode hend => exact exec_decode_scanOk hend
  | marker c hend => exact runMarker_scanOk hs hend

theorem engineMove_scanOk {s t : State} (hs : ScanOk s) (h : engineMove s = .next t) : ScanOk t := by
  unfold engineMove at h
  split at h
  · split at h
    · exact exec_scanOk hs h
    · cases h
      exact hs
  · cases h
    exact hs

theorem hostClosed_scanOk : HostClosed ScanOk :=
  hostClosed_of_frame (fun _ _ hs => hs) fun _ _ s _ => scanOk_of_pstate (s := resetRegisters _) (by simp [resetRegisters])

/-- Settles O20: SOF0 and SOS accept only what the invariant asks for, DECODE ends FAILED or behind EOI, and nothing else writes
the frame. -/
theorem stepKeepsAcceptedFrame : Obligations.StepKeepsAcceptedFrame := by
  intro s t hs h
  unfold step at h
  split at h
  · exact engineMove_scanOk hs h
  · exact engineMove_scanOk (hostClosed_scanOk.agenda _ _ hs) h
  · exact hostMove_keeps hostClosed_scanOk (hostClosed_scanOk.agenda _ _ hs) h

end Sys2Proof.Machine
end
section
/-! What DECODE reports of its outcome (47 R690, R694, R695, R699). -/

namespace Sys2Proof.Machine

/-! ### What a header parse leaves alone (45 R600) -/

/-- `u` has PREV_DIM, STATUS and the bytes of `s`. -/
def HeaderKept (s u : State) : Prop :=
  u.prevDim = s.prevDim ∧ u.status = s.status ∧ u.mem = s.mem ∧ u.undef = s.undef

theorem headerClosed_headerKept (s : State) : HeaderClosed (HeaderKept s) where
  bytes := ⟨fun _ _ hu _ => hu, fun _ hu => hu⟩
  tables := ⟨fun _ _ _ hu _ => hu, fun _ _ _ _ _ hu _ _ => hu⟩
  start _ hu := hu
  pstate _ _ hu := hu
  dri _ _ hu := hu
  frame _ _ _ _ _ hu := hu
  scan _ _ _ hu := hu
  res0 _ _ hu := hu

/-- The header parse of DECODE begins and ends with PREV_DIM, STATUS and the bytes of DECODE's start. -/
theorem headerKept_doParsehdr (src len : Word) (s : State) :
    HeaderKept s (stateAfter (doParsehdr (headerStart src len s))) :=
  keeps_doParsehdr (headerClosed_headerKept s) _ ⟨rfl, rfl, rfl, rfl⟩

/-! ### The report, clause by clause (47 R690 to R699) -/

/-- What DECODE reports in `t`, with its capacity `cap` and the wish for a size `expect`. -/
structure DecodeReport (cap : Word) (expect : Bool) (s t : State) : Prop where
  failure : t.status.err = true → t.res0 = 0#32 ∧ t.pstate = .failed ∧ t.prevDim = s.prevDim
  success : t.status.err = false →
    t.pstate = .terminal ∧ t.prevDim = t.frmDim ∧ t.frmDim ≠ 0#32
      ∧ t.res0 = BitVec.ofNat 32 (3 * lowHalf t.frmDim * highHalf t.frmDim)
      ∧ 3 * lowHalf t.frmDim * highHalf t.frmDim ≤ cap.toNat
      ∧ (t.status.resized = true ↔ s.status.resized = true ∨ t.frmDim ≠ s.prevDim)
      ∧ (expect = true → t.frmDim = s.prevDim)
  mismatch : t.status.errCode = 3#8 →
    expect = true ∧ t.frmDim ≠ s.prevDim ∧ t.status.resized = s.status.resized ∧ ∀ a, readByte t a = readByte s a

/-- What DECODE reports of the header parse that ended in `u`. -/
structure HeaderReported (cap : Word) (expect : Bool) (s u t : State) : Prop where
  failure : u.status.err = true →
    t.status.errCode = u.status.errCode ∧ t.res1 = u.res1 ∧ t.status.resized = s.status.resized
  success : u.status.err = false → t.frmDim = u.frmDim ∧ t.res1 = u.frmDim
    ∧ (expect = true ∧ u.frmDim ≠ s.prevDim → t.status.errCode = 3#8)
    ∧ (expect = false ∨ u.frmDim = s.prevDim →
      (t.status.resized = true ↔ s.status.resized = true ∨ u.frmDim ≠ s.prevDim)
      ∧ (cap.toNat < 3 * lowHalf u.frmDim * highHalf u.frmDim → t.status.errCode = 17#8))

/-- Only ERR_SIZE_MISMATCH has the number 3 (60 R750). -/
theorem errNumber_eq_three_iff {e : ErrCode} : errNumber e = 3#8 ↔ e = .sizeMismatch := by
  cases e <;> decide

theorem frmDim_ne_zero {s : State} (h : frameAligned s) : s.frmDim ≠ 0#32 := by
  obtain ⟨-, hw, -⟩ := h
  intro h0
  rw [h0] at hw
  exact hw rfl

/-- STATUS of `sizeNoted`: RESIZED is set if the size is new. -/
theorem resized_sizeNoted (v : State) :
    (sizeNoted v).status.resized = true ↔ v.status.resized = true ∨ v.frmDim ≠ v.prevDim := by
  rw [sizeNoted_eq]
  simp

section Clauses
variable {cap : Word} {expect : Bool} {s t u v : State} {e : ErrCode}

/-- DECODE ends with an error other than ERR_SIZE_MISMATCH, RES0 and PREV_DIM as the error clause says. -/
theorem decodeReport_failed (he : e ≠ .sizeMismatch) (hres0 : u.res0 = 0#32) (hprev : u.prevDim = s.prevDim) :
    DecodeReport cap expect s (complete (some e) (setPstate .failed u)) where
  failure _ := ⟨hres0, rfl, hprev⟩
  success h := absurd h (by decide : ¬ true = false)
  mismatch h := absurd (errNumber_eq_three_iff.1 h) he

theorem decodeReport_size (hkept : HeaderKept s v) (hexpect : expect = true) (hsize : v.frmDim ≠ v.prevDim) :
    DecodeReport cap expect s (complete (some .sizeMismatch) (setPstate .failed (setRes0 0#32 v))) where
  failure _ := ⟨rfl, rfl, hkept.1⟩
  success h := absurd h (by decide : ¬ true = false)
  mismatch _ := by
    obtain ⟨hprev, hstatus, hmem, hundef⟩ := hkept
    have hresized : v.status.resized = s.status.resized := congrArg Status.resized hstatus
    exact ⟨hexpect, hprev ▸ hsize, hresized, readByte_congr hmem hundef⟩

theorem decodeReport_done (hkept : HeaderKept s v) (hsize : SizeExpected expect v)
    (hcap : 3 * lowHalf v.frmDim * highHalf v.frmDim ≤ cap.toNat) (hframe : frameAligned v)
    (hscan : ScanKept (sizeNoted v) u) (hstate : u.pstate = .terminal) :
    DecodeReport cap expect s (complete none (decodeDone u)) where
  failure h := absurd h (by decide : ¬ false = true)
  success _ := by
    obtain ⟨hprev, hstatus, -⟩ := hkept
    obtain ⟨hdim, -, -, -, -, hstatus'⟩ := hscan
    have hdim' : (complete none (decodeDone u)).frmDim = v.frmDim := hdim.trans (sizeNoted_frmDim v)
    have hresized : u.status.resized = (sizeNoted v).status.resized := congrArg Status.resized hstatus'
    refine ⟨hstate, rfl, hdim' ▸ frmDim_ne_zero hframe, rfl, hdim' ▸ hcap, ?_, fun h => hdim'.trans ((hsize h).trans hprev)⟩
    change u.status.resized = true ↔ _
    rw [hresized, hdim', resized_sizeNoted, hstatus, hprev]
  mismatch h := absurd h (by decide : ¬ 0#8 = 3#8)

/-- An error of the header parse is DECODE's. -/
theorem headerReported_error (hkept : HeaderKept s v) :
    HeaderReported cap expect s (complete (some e) v) (complete (some e) (setPstate .failed v)) where
  failure _ := by
    have hresized : v.status.resized = s.status.resized := congrArg Status.resized hkept.2.1
    exact ⟨rfl, rfl, hresized⟩
  success h := absurd h (by decide : ¬ true = false)

theorem headerReported_size (hkept : HeaderKept s v) (hreport : ScanReport v) (hexpect : expect = true)
    (hsize : v.frmDim ≠ v.prevDim) :
    HeaderReported cap expect s (complete none v) (complete (some .sizeMismatch) (setPstate .failed (setRes0 0#32 v))) where
  failure h := absurd h (by decide : ¬ false = true)
  success _ := by
    rw [hkept.1] at hsize
    refine ⟨rfl, hreport.2, fun _ => rfl, fun h => absurd h ?_⟩
    simp only [hexpect, Bool.true_eq_false, false_or]
    exact hsize

/-- Behind an accepted size: the frame's size, RESIZED, and whether it fits. -/
theorem headerReported_noted (hkept : HeaderKept s v) (hreport : ScanReport v) (hsize : SizeExpected expect v)
    (hdim : t.frmDim = v.frmDim) (hres1 : t.res1 = v.res1) (hresized : t.status.resized = (sizeNoted v).status.resized)
    (hcap : cap.toNat < 3 * lowHalf v.frmDim * highHalf v.frmDim → t.status.errCode = 17#8) :
    HeaderReported cap expect s (complete none v) t where
  failure h := absurd h (by decide : ¬ false = true)
  success _ := by
    obtain ⟨hprev, hstatus, -⟩ := hkept
    refine ⟨hdim, hres1.trans hreport.2, fun h => absurd ((hsize h.1).trans hprev) h.2, fun _ => ⟨?_, hcap⟩⟩
    rw [hresized, resized_sizeNoted, hstatus, hprev]
    rfl

end Clauses

/-- However DECODE ends with both buffers inside LMEM, it reports it, and its header parse. -/
theorem decodeEnds_reports {src len cap : Word} {expect : Bool} {s t : State}
    (h : DecodeEnds cap expect (headerStart src len s) t) :
    DecodeReport cap expect s t ∧ HeaderReported cap expect s (finish (doParsehdr (headerStart src len s))) t := by
  have hkept := headerKept_doParsehdr src len s
  cases h with
  | @header e v hparse ht =>
    rw [hparse] at hkept ⊢
    exact ht ▸ ⟨decodeReport_failed (fun he => mismatch_doParsehdr _ v (he ▸ hparse)) (res0_of_error hparse) hkept.1,
      headerReported_error hkept⟩
  | @size v hparse hexpect hsize ht =>
    have hreport := scanReport_of_ok hparse
    rw [hparse] at hkept ⊢
    exact ht ▸ ⟨decodeReport_size hkept hexpect hsize, headerReported_size hkept hreport hexpect hsize⟩
  | @capacity v hparse hsize hcap ht =>
    have hreport := scanReport_of_ok hparse
    rw [hparse] at hkept ⊢
    exact ht ▸ ⟨decodeReport_failed (by decide) (sizeNoted_res0 v) ((sizeNoted_prevDim v).trans hkept.1),
      headerReported_noted hkept hreport hsize (sizeNoted_frmDim v) (sizeNoted_res1 v) rfl fun _ => rfl⟩
  | @scan v u e hparse hsize hcap hscan he ht =>
    have hreport := scanReport_of_ok hparse
    rw [hparse] at hkept ⊢
    obtain ⟨hdim, -, hres0, hres1, hprev, hstatus⟩ := hscan
    have hresized : u.status.resized = (sizeNoted v).status.resized := congrArg Status.resized hstatus
    exact ht ▸ ⟨decodeReport_failed he (hres0.trans (sizeNoted_res0 v)) ((hprev.trans (sizeNoted_prevDim v)).trans hkept.1),
      headerReported_noted hkept hreport hsize (hdim.trans (sizeNoted_frmDim v)) (hres1.trans (sizeNoted_res1 v)) hresized
        fun h => absurd h (Nat.not_lt.2 hcap)⟩
  | @done v u hparse hsize hcap hscan hstate ht =>
    have hreport := scanReport_of_ok hparse
    rw [hparse] at hkept ⊢
    obtain ⟨hdim, -, -, hres1, -, hstatus⟩ := id hscan
    have hresized : u.status.resized = (sizeNoted v).status.resized := congrArg Status.resized hstatus
    exact ht ▸ ⟨decodeReport_done hkept hsize hcap hreport.1 hscan hstate,
      headerReported_noted hkept hreport hsize (hdim.trans (sizeNoted_frmDim v)) (hres1.trans (sizeNoted_res1 v)) hresized
        fun h => absurd h (Nat.not_lt.2 hcap)⟩

/-- Settles O59: a buffer outside LMEM, or one of the outcomes of `decodeEnds`. -/
theorem decodeReportsItsOutcome : Obligations.DecodeReportsItsOutcome := by
  intro s t h
  rw [exec_decode] at h
  obtain rfl := runCommand_next h
  by_cases hin : s.argL[0].toNat + s.argL[1].toNat ≤ s.memBytes ∧ s.argL[2].toNat + s.argL[3].toNat ≤ s.memBytes
  · obtain ⟨hsrc, hdst⟩ := hin
    obtain ⟨⟨hfail, hdone, hmismatch⟩, hheader, hheader'⟩ := decodeEnds_reports (decodeEnds (flags := s.argL[4]) hsrc hdst)
    refine ⟨hfail, hdone, hmismatch, fun hout => by omega, fun _ _ u hu => ?_⟩
    obtain rfl := runCommand_next hu
    exact ⟨hheader, hheader'⟩
  · have hout : s.memBytes < s.argL[0].toNat + s.argL[1].toNat ∨ s.memBytes < s.argL[2].toNat + s.argL[3].toNat := by omega
    rw [run_doDecode_outside hout]
    obtain ⟨hfail, hdone, hmismatch⟩ : DecodeReport s.argL[3] (s.argL[4].getLsbD 0) s
        (complete (some .bounds) (setPstate .failed (decodeStart s))) := decodeReport_failed (by decide) rfl rfl
    exact ⟨hfail, hdone, hmismatch, fun _ => rfl, fun hsrc hdst => by omega⟩

end Sys2Proof.Machine
end
section
/-! The frame of the 38 markers (30 R241; 45 R570, R583 to R615). -/

namespace Sys2Proof.Machine

/-! ### Which instructions a code byte can give -/

/-- A code byte gives a marker, never a command (30 R241). -/
theorem encode_of_decodeMarkerCode {c : Byte} {i : Instr} (h : decodeMarkerCode c = .ok i) : ∃ w, encode i = .marker w := by
  unfold decodeMarkerCode at h
  split at h
  case h_27 =>
    iterate 12
      obtain ⟨-, h⟩ | h := ok_of_ite h
      · cases h
        exact ⟨_, rfl⟩
    cases h
  all_goals
    cases h
    exact ⟨_, rfl⟩

/-! ### What a marker's case may change -/

/-- A code that begins no segment and is no RSTn: SOI and EOI, which write STATE alone, and the codes accepted nowhere (30
R241). -/
def isNoSegment (c : Byte) : Bool := (isNonBaseline c || isUnlisted c) && !decide (0xD0 ≤ c.toNat ∧ c.toNat ≤ 0xD7)

/-- No segment that is skipped has an RSTn's code (30 R241). -/
theorem not_rst_of_isSkipped : ∀ c : Byte, isSkipped c = true → ¬(0xD0 ≤ c.toNat ∧ c.toNat ≤ 0xD7) := by decide

theorem isSkipped_appn : ∀ n : BitVec 4, isSkipped (0b1110#4 ++ n) = true := by decide

/-- The header parse rejects every RSTn. -/
theorem rejected_rstn : ∀ n : BitVec 3, (isNonBaseline (0b11010#5 ++ n) || isUnlisted (0b11010#5 ++ n)) = true := by decide

section Cases
variable {P : State → Prop} {c : Byte}

/-- A code the header parse rejects changes nothing. -/
theorem keeps_headerCase_rejected (h : (isNonBaseline c || isUnlisted c) = true) : Keeps P (headerCase c) := by
  intro s hs
  rcases Bool.or_eq_true_iff.1 h with h | h
  · rw [headerCase_nonBaseline h]
    exact hs
  · rw [headerCase_unlisted h]
    exact hs

/-- A code that is none of the eight RSTn changes nothing at a restart check. -/
theorem keeps_restartEvent_of_not_rst (h : ¬(0xD0 ≤ c.toNat ∧ c.toNat ≤ 0xD7)) : Keeps P (restartEvent c) :=
  keeps_restartEvent_other fun n hn => h (by have := n.isLt; omega)

end Cases

section Frames
variable {s t : State} {p : Part} {c : Byte}

/-- The frame of those markers: an error where the parse reads tables or checks a restart. -/
theorem part_same_noSegment (h : runMarker c s = .next t) (hc : isNoSegment c = true) (hp : p ≠ .pstate) : p.same s t := by
  simp only [isNoSegment, Bool.and_eq_true, Bool.not_eq_true', decide_eq_false_iff_not] at hc
  exact part_same_runMarker h hp (keeps_headerCase_rejected hc.1) (keeps_restartEvent_of_not_rst hc.2)

/-- The frame of a segment's marker: its case in the header parse. -/
theorem part_same_segment (h : runMarker c s = .next t) (hc : ¬(0xD0 ≤ c.toNat ∧ c.toNat ≤ 0xD7)) (hp : p ≠ .pstate)
    (hcase : Keeps (fun u => p.same s u) (headerCase c)) : p.same s t :=
  part_same_runMarker h hp hcase (keeps_restartEvent_of_not_rst hc)

/-- The frame of APPn and COM (45 R585). -/
theorem part_same_skipped (h : runMarker c s = .next t) (hc : isSkipped c = true) (hr : p ≠ .reader) (hp : p ≠ .pstate) :
    p.same s t := by
  refine part_same_segment h (not_rst_of_isSkipped c hc) hp ?_
  rw [headerCase, if_pos hc]
  exact keeps_bind (keeps_skipSegment (bytesClosed_part hr)) fun _ => keeps_pure _

/-- The frame of DQT: whatever tables it installs (45 R583). -/
theorem part_same_dqt (h : exec .dqt s = .next t) (hr : p ≠ .reader) (hp : p ≠ .pstate)
    (hq : ∀ k < 4, p.isQuantTable k = false) : p.same s t :=
  part_same_segment h (by decide) hp (keeps_bind (keeps_parseDqt (bytesClosed_part hr)
    fun k e _ hu _ => part_same_installQt e hu (hq _ k.isLt)) fun _ => keeps_pure _)

/-- The frame of DHT: whatever tables it installs (45 R584). -/
theorem part_same_dht (h : exec .dht s = .next t) (hr : p ≠ .reader) (hp : p ≠ .pstate)
    (hh : ∀ k < 4, p.isHuffTable k = false) : p.same s t :=
  part_same_segment h (by decide) hp (keeps_bind (keeps_parseDht (bytesClosed_part hr)
    fun tc th _ _ _ hu _ _ => part_same_installHt _ hu (hh _ (htIndex tc th).isLt)) fun _ => keeps_pure _)

/-- The frame of DRI (45 R586). -/
theorem part_same_dri (h : exec .dri s = .next t) (hr : p ≠ .reader) (hp : p ≠ .pstate) (hd : p ≠ .dri) : p.same s t :=
  part_same_segment h (by decide) hp (keeps_bind (keeps_parseDri (bytesClosed_part hr)
    fun v _ hu => part_same_setDri v hu hd) fun _ => keeps_pure _)

/-- The frame of SOF0 (45 R590). -/
theorem part_same_sof0 (h : exec .sof0 s = .next t) (hr : p ≠ .reader) (hp : p ≠ .pstate) (hdim : p ≠ .frmDim)
    (hinfo : p ≠ .frmInfo) (hres1 : p ≠ .res1) : p.same s t :=
  part_same_segment h (by decide) hp (keeps_bind (keeps_checkState _ _) fun _ => keeps_bind
    (keeps_parseSof0 (bytesClosed_part hr) fun w h ss tq _ hu => part_same_acceptFrame w h ss tq hu hdim hinfo hres1) fun _ =>
    keeps_bind (fun _ hu => part_same_setPstate _ hu hp) fun _ => keeps_pure _)

/-- The frame of SOS (45 R595). -/
theorem part_same_sos (h : exec .sos s = .next t) (hr : p ≠ .reader) (hp : p ≠ .pstate) (hinfo : p ≠ .frmInfo)
    (hnext : p ≠ .rstNext) (hres0 : p ≠ .res0) : p.same s t :=
  part_same_segment h (by decide) hp (keeps_bind (keeps_checkState _ _) fun _ => keeps_bind
    (keeps_parseSos (bytesClosed_part hr) fun td ta _ hu => part_same_acceptScan td ta hu hinfo hr hnext) fun _ =>
    keeps_bind (fun _ hu => part_same_setRes0 _ (part_same_setPstate _ hu hp) hres0) fun _ => keeps_pure _)

/-- The frame of RSTn (45 R610). -/
theorem part_same_rstn {n : BitVec 3} (h : exec (.rstn n) s = .next t) (hp : p ≠ .pstate) (hnext : p ≠ .rstNext)
    (hpred : p.isAnyPred = false) : p.same s t :=
  part_same_runMarker h hp (keeps_headerCase_rejected (rejected_rstn n))
    (keeps_restartEvent _ fun v _ hu => part_same_clearPreds (part_same_setRstNext v hu hnext) hpred)

end Frames

/-- Settles O24: for each marker, the closure lemma of its case applied to `Part.same`, the listed parts left out. -/
theorem markersChangeOnlyListedParts : Obligations.MarkersChangeOnlyListedParts := by
  intro c i s t p hc h hp
  obtain ⟨w, hw⟩ := encode_of_decodeMarkerCode hc
  cases i <;> simp only [mayChange, Bool.or_eq_false_iff, decide_eq_false_iff_not] at hp
  case dqt =>
    obtain ⟨⟨⟨⟨⟨hr, hs⟩, h0⟩, h1⟩, h2⟩, h3⟩ := hp
    exact part_same_dqt h hr hs fun k hk => by interval_cases k <;> assumption
  case dht =>
    obtain ⟨⟨⟨⟨⟨hr, hs⟩, h0⟩, h1⟩, h2⟩, h3⟩ := hp
    exact part_same_dht h hr hs fun k hk => by interval_cases k <;> assumption
  case dri =>
    obtain ⟨⟨hr, hs⟩, hd⟩ := hp
    exact part_same_dri h hr hs hd
  case sof0 =>
    obtain ⟨⟨⟨⟨hr, hs⟩, hdim⟩, hinfo⟩, hres1⟩ := hp
    exact part_same_sof0 h hr hs hdim hinfo hres1
  case sos =>
    obtain ⟨⟨⟨⟨hr, hs⟩, hinfo⟩, hnext⟩, hres0⟩ := hp
    exact part_same_sos h hr hs hinfo hnext hres0
  case rstn n =>
    obtain ⟨⟨hs, hnext⟩, hpred⟩ := hp
    exact part_same_rstn h hs hnext hpred
  case appn n => exact part_same_skipped h (isSkipped_appn n) hp.1 hp.2
  case com => exact part_same_skipped h (by decide) hp.1 hp.2
  case jpgnF0 n | jpgnF8 n | jpgnFC n | res02 n | res04 n | res08 n | res10 n | res20 n | res40 n | res80 n =>
    refine part_same_noSegment h ?_ hp
    clear h hc hw
    revert n
    decide
  case soi | eoi | sof1 | sof2 | sof3 | sof5 | sof6 | sof7 | jpg | sof9 | sof10 | sof11 | dac | sof13 | sof14 | sof15 | dnl
    | dhp | exp | tem => exact part_same_noSegment h (by decide) hp
  all_goals cases hw

end Sys2Proof.Machine
end
section
/-! The segments of a header: those that are skipped, DRI, and a segment that is cut short (45 R582, R585, R586). -/

namespace Sys2Proof.Machine

section Segments
variable {s : State} {len : Nat}

/-! ### APPn, COM and DRI (45 R585, R586) -/

theorem headerCase_skipped {c : Byte} (hc : isSkipped c = true) (hs : ReaderOk s) (hseg : segmentAt s len) :
    headerCase c s = .ok false (advanceReader len s) := by
  rw [headerCase, if_pos hc, skipSegment, bind_assoc, run_bind_ok s (run_segLen hs hseg)]
  rfl

/-- A 16-bit field as the bit string of its two bytes. -/
theorem ofNat_be16 (a b : Byte) : BitVec.ofNat 16 (a.toNat * 256 + b.toNat) = (a ++ b : Half) := by
  apply BitVec.eq_of_toNat_eq
  have ha := a.isLt
  have hb := b.isLt
  rw [BitVec.toNat_append, BitVec.toNat_ofNat, ← Nat.shiftLeft_add_eq_or_of_lt hb, Nat.shiftLeft_eq]
  omega

/-- DRI of length 4: the restart interval is the 16-bit field behind the length. -/
theorem headerCase_dri (hs : ReaderOk s) (hseg : segmentAt s 4) :
    headerCase 0xDD#8 s = .ok false (advanceReader 4 { s with
      dri := readByte s (s.br.ptr.toNat + 2) ++ readByte s (s.br.ptr.toNat + 3) }) := by
  have hlim := hs.2.1
  obtain ⟨-, -, -, hfits⟩ := id hseg
  have hparse : parseDri s = .ok () (advanceReader 4 { s with
      dri := readByte s (s.br.ptr.toNat + 2) ++ readByte s (s.br.ptr.toNat + 3) }) := by
    rw [parseDri, run_bind_ok s (run_segLen hs hseg), run_check_bind, if_pos (by decide), run_get_bind,
      run_bind_ok s (run_memRead16 s _ (by omega)), run_update, ofNat_be16]
  exact run_bind_ok s hparse

theorem headerCase_dri_badLength (hs : ReaderOk s) (hseg : segmentAt s len) (hlen : len ≠ 4) :
    headerCase 0xDD#8 s = .error .badTable s := by
  have hparse : parseDri s = .error .badTable s := by
    rw [parseDri, run_bind_ok s (run_segLen hs hseg), run_check_bind, if_neg (by simpa using hlen)]
  exact run_bind_error s hparse

end Segments

/-- Settles O52: each marker's case, the parse going on behind the segment or ending in its error. -/
theorem appnComAndDriSegments : Obligations.AppnComAndDriSegments := by
  intro s len hheader hs hseg
  refine ⟨fun n => ?_, ?_, ?_, fun hlen => ?_⟩
  · exact exec_marker_goesOn hheader rfl (headerCase_skipped (isSkipped_appn n) hs hseg)
  · exact exec_marker_goesOn hheader rfl (headerCase_skipped (by decide) hs hseg)
  · rintro rfl
    exact exec_marker_goesOn hheader rfl (headerCase_dri hs hseg)
  · exact exec_marker_fails hheader rfl (headerCase_dri_badLength hs hseg hlen)

/-! ### A segment that is cut short (45 R582) -/

/-- SEGLEN of a segment that does not stand whole in the input. -/
theorem run_segLen_truncated {s : State} (hs : ReaderOk s) (h : ∀ len, ¬segmentAt s len) : segLen s = .error .badTable s := by
  obtain ⟨-, hlim, -⟩ := hs
  by_cases hfield : s.br.ptr.toNat + 2 ≤ s.br.lim.toNat
  · have hlen : ¬(2 ≤ segmentLength s ∧ s.br.ptr.toNat + segmentLength s ≤ s.br.lim.toNat) := fun hin =>
      h (segmentLength s) ⟨hfield, rfl, hin⟩
    have hread : memRead16 s.br.ptr.toNat s = .ok (segmentLength s) s := run_memRead16 s _ (by omega)
    rw [segLen, run_checkState_pass s (decide_eq_true hfield), run_get_bind, run_bind_ok s hread, run_check_bind,
      if_neg (by simpa using hlen)]
  · rw [segLen, run_checkState_fail s (decide_eq_false hfield)]

/-- Settles O53: each segment's case begins with SEGLEN, behind SOF0's and SOS's check of the place. -/
theorem truncatedSegmentsAreMalformed : Obligations.TruncatedSegmentsAreMalformed := by
  intro s hheader hs hcut i hi
  have hseg := run_segLen_truncated hs hcut
  have reject {c : Byte} (henc : encode i = .marker (0xFF#8 ++ c)) (hcase : headerCase c s = .error .badTable s) :=
    exec_marker_fails hheader henc hcase
  have hskip {c : Byte} (hc : isSkipped c = true) : headerCase c s = .error .badTable s := by
    rw [headerCase, if_pos hc]
    exact run_bind_error s (run_bind_error s hseg)
  rcases hi with rfl | rfl | rfl | rfl | ⟨n, rfl⟩ | ⟨rfl, hstate⟩ | ⟨rfl, hstate⟩
  · exact reject rfl (run_bind_error s (run_bind_error s hseg))
  · exact reject rfl (run_bind_error s (run_bind_error s hseg))
  · exact reject rfl (run_bind_error s (run_bind_error s hseg))
  · exact reject rfl (hskip (by decide))
  · exact reject rfl (hskip (isSkipped_appn n))
  · refine reject rfl ((run_checkState_pass s (p := fun u => decide (u.pstate ≠ .sof0Seen)) ?_ _ _).trans
      (run_bind_error s (run_bind_error s hseg)))
    rw [hstate]
    rfl
  · refine reject rfl ((run_checkState_pass s (p := fun u => decide (u.pstate = .sof0Seen)) ?_ _ _).trans
      (run_bind_error s (run_bind_error s hseg)))
    rw [hstate]
    rfl

end Sys2Proof.Machine
end
section
/-! SOF0 and SOS: their checks in order (45 R590, R595). -/

namespace Sys2Proof.Machine

/-! ### A check against a verdict -/

/-- A check that decides as the next case of a verdict does: where the case holds it raises the verdict's error, else what
follows the check has to agree with the rest of the verdict. -/
theorem run_check_verdict {α V : Type} {f : V → EStateM.Result ErrCode State α} {s : State} {ok : Bool} {e : ErrCode}
    {k : Unit → Eng α} {q : Prop} [Decidable q] {v y : V} (hok : ok = true ↔ ¬q) (hf : .error e s = f v)
    (hrest : ¬q → k () s = f y) : (check ok e >>= k) s = f (if q then v else y) := by
  rw [run_check_bind]
  by_cases hq : q
  · rw [if_neg (by simpa [hok] using hq), if_pos hq, hf]
  · rw [if_pos (hok.2 hq), if_neg hq, hrest hq]

/-- The same for a check on the state. -/
theorem run_checkState_verdict {α V : Type} {f : V → EStateM.Result ErrCode State α} {s : State} {p : State → Bool}
    {e : ErrCode} {k : Unit → Eng α} {q : Prop} [Decidable q] {v y : V} (hok : p s = true ↔ ¬q) (hf : .error e s = f v)
    (hrest : ¬q → k () s = f y) : (checkState p e >>= k) s = f (if q then v else y) :=
  run_check_verdict hok hf hrest

section Content
variable {s : State} {len : Nat}

/-- Byte i of the content of a segment stands at BR_PTR + 2 + i. -/
theorem segmentContent_getD {i : Nat} (hi : i + 2 < len) :
    (segmentContent s len).getD i 0#8 = readByte s (s.br.ptr.toNat + 2 + i) :=
  readBytes_getD s (by omega)

variable (hs : ReaderOk s) (hseg : segmentAt s len)
include hs hseg

theorem memRead_content {i : Nat} (hi : i + 2 < len) :
    memRead (s.br.ptr.toNat + 2 + i) s = .ok ((segmentContent s len).getD i 0#8) s := by
  obtain ⟨-, -, -, hfits⟩ := hseg
  have hlim := hs.2.1
  rw [segmentContent_getD hi, run_memRead s (by omega)]

theorem memRead16_content {i : Nat} (hi : i + 3 < len) :
    memRead16 (s.br.ptr.toNat + 2 + i) s
      = .ok (((segmentContent s len).getD i 0#8).toNat * 256 + ((segmentContent s len).getD (i + 1) 0#8).toNat) s := by
  rw [memRead16, run_bind_ok s (memRead_content hs hseg (by omega)), Nat.add_assoc,
    run_bind_ok s (memRead_content hs hseg (i := i + 1) (by omega))]
  rfl

/-- The last n bytes of the content. -/
theorem memReads_content {i n : Nat} (hi : i + n + 2 = len) :
    memReads (s.br.ptr.toNat + 2 + i) n s = .ok ((segmentContent s len).drop i) s := by
  obtain ⟨-, -, -, hfits⟩ := hseg
  have hlim := hs.2.1
  rw [run_memReads s _ _ (by omega), segmentContent, show len - 2 = i + n by omega, readBytes_append,
    List.drop_left' (readBytes_length ..)]

end Content

theorem getD_drop (c : List Byte) (i j : Nat) : (c.drop i).getD j 0#8 = c.getD (i + j) 0#8 := by
  simp only [List.getD_eq_getElem?_getD, List.getElem?_drop]

/-! ### SOF0 (45 R590) -/

/-- What SOF0 does on a verdict: its error with nothing changed, or the frame accepted. -/
def sof0End (len : Nat) (s : State) : Except ErrCode (Nat × Nat × BitVec 2 × Vector (BitVec 2) 3) →
    EStateM.Result ErrCode State Unit
  | .error e => .error e s
  | .ok (w, h, ss, tq) => .ok () (advanceReader len (acceptFrame w h ss tq s))

theorem run_parseSof0 {s : State} {len : Nat} (hs : ReaderOk s) (hseg : segmentAt s len) :
    parseSof0 s = sof0End len s (sof0Verdict len (segmentContent s len)) := by
  rw [parseSof0, run_bind_ok s (run_segLen hs hseg)]
  simp only [sof0Verdict]
  refine run_check_verdict (by simp) rfl fun hlen => ?_
  rw [run_get_bind, run_bind_ok s (memRead_content hs hseg (i := 0) (by omega)),
    run_bind_ok s (memRead16_content hs hseg (i := 1) (by omega)),
    run_bind_ok s (memRead16_content hs hseg (i := 3) (by omega)),
    run_bind_ok s (memRead_content hs hseg (i := 5) (by omega))]
  refine run_check_verdict (by simp) rfl fun _ => ?_
  refine run_check_verdict (by simp only [Bool.and_eq_true, decide_eq_true_eq, not_or, ne_eq]) rfl fun _ => ?_
  refine run_check_verdict (by simp) rfl fun hmost => ?_
  refine run_check_verdict (by simp) rfl fun hleast => ?_
  refine run_check_verdict (by simp) rfl fun hexact => ?_
  rw [run_bind_ok s (memReads_content hs hseg (i := 6) (n := 9) (by omega))]
  simp only [getD_drop, Nat.reduceAdd]
  refine run_check_verdict (by simp; tauto) rfl fun _ => ?_
  refine run_check_verdict (by simp; tauto) rfl fun _ => ?_
  refine run_check_verdict (by simp; omega) rfl fun _ => ?_
  split
  · exact run_check_verdict (by simp [subsamplingOf, mcuH, lumaV]) rfl fun _ => rfl
  · exact run_check_verdict (by simp [subsamplingOf, mcuH, lumaV]) rfl fun _ => rfl

/-- Settles O54: SOF0's case in the header parse by `run_parseSof0`. -/
theorem sof0ChecksInOrder : Obligations.Sof0ChecksInOrder := by
  intro s len hreader hstate hs hseg
  have hcase : headerCase 0xC0#8 s = (do
      parseSof0
      update (setPstate .sof0Seen)
      pure false : Eng Bool) s :=
    run_checkState_pass s (p := fun u => decide (u.pstate ≠ .sof0Seen)) (by rw [hstate]; rfl) _ _
  have hparse := run_parseSof0 hs hseg
  cases hverdict : sof0Verdict len (segmentContent s len) with
  | error e =>
    rw [hverdict] at hparse
    exact exec_marker_fails ⟨hreader, .inl hstate⟩ rfl (hcase.trans (run_bind_error s hparse))
  | ok frame =>
    rw [hverdict] at hparse
    exact exec_marker_goesOn ⟨hreader, .inl hstate⟩ rfl (hcase.trans (run_bind_ok s hparse))

/-! ### SOS (45 R595) -/

/-- What SOS does with scan component i on what it finds wrong with it. -/
def scanEntryEnd (t : Byte) (s : State) : Option ErrCode → EStateM.Result ErrCode State (BitVec 1 × BitVec 1)
  | some e => .error e s
  | none => .ok (t.extractLsb' 4 1, t.extractLsb' 0 1) s

theorem run_scanComponent_verdict {s : State} {len i : Nat} (hs : ReaderOk s) (hseg : segmentAt s len) (hi : 2 * i + 4 < len) :
    scanComponent (s.br.ptr.toNat + 2) i s = scanEntryEnd ((segmentContent s len).getD (2 + 2 * i) 0#8) s
      (scanEntryError s i ((segmentContent s len).getD (1 + 2 * i) 0#8) ((segmentContent s len).getD (2 + 2 * i) 0#8)) := by
  rw [scanComponent, Nat.add_assoc _ 1, run_bind_ok s (memRead_content hs hseg (i := 1 + 2 * i) (by omega)),
    Nat.add_assoc _ 2 (2 * i), run_bind_ok s (memRead_content hs hseg (i := 2 + 2 * i) (by omega)), scanEntryError]
  refine run_check_verdict (by simp) rfl fun _ => ?_
  refine run_check_verdict (by simp) rfl fun _ => ?_
  exact run_checkState_verdict (by simp) rfl fun _ => rfl

/-- A marker whose case reaches the scan completes the header parse. -/
theorem exec_marker_completes {s t : State} {i : Instr} {c : Byte} (hs : readingHeader s)
    (hi : encode i = .marker (0xFF#8 ++ c)) (h : headerCase c s = .ok true t) : exec i s = .next (complete none t) := by
  obtain ⟨hreader, hread⟩ := hs
  rw [exec_marker hi, runMarker_eq hreader]
  simp only [markerEvent, headerEvent_readsTables hread, h, endMarker]

/-- The Huffman selectors of the scan components, as SOS finds them in its content. -/
def sosSelectors (c : List Byte) (k : Nat) : Vector (BitVec 1) 3 :=
  #v[(c.getD 2 0#8).extractLsb' k 1, (c.getD 4 0#8).extractLsb' k 1, (c.getD 6 0#8).extractLsb' k 1]

/-- What SOS does on what it finds wrong: the error with nothing changed, or the scan accepted. -/
def sosEnd (len : Nat) (s : State) : Option ErrCode → EStateM.Result ErrCode State Unit
  | some e => .error e s
  | none => .ok () (advanceReader len
      (acceptScan (sosSelectors (segmentContent s len) 4) (sosSelectors (segmentContent s len) 0) s))

theorem run_parseSos {s : State} {len : Nat} (hs : ReaderOk s) (hseg : segmentAt s len) :
    parseSos s = sosEnd len s (sosError s len (segmentContent s len)) := by
  rw [parseSos, run_bind_ok s (run_segLen hs hseg)]
  simp only [sosError]
  refine run_check_verdict (by simp) rfl fun hlen => ?_
  rw [run_get_bind, run_bind_ok s (memRead_content hs hseg (i := 0) (by omega))]
  refine run_check_verdict (by simp) rfl fun hns => ?_
  rw [not_not] at hns
  refine run_check_verdict (by rw [hns]; simp) rfl fun hexact => ?_
  have hentry (i : Nat) (hi : i ≤ 2) := run_scanComponent_verdict (i := i) hs hseg (by omega)
  have h0 := hentry 0 (by decide)
  have h1 := hentry 1 (by decide)
  have h2 := hentry 2 (by decide)
  simp only [Nat.mul_zero, Nat.mul_one, Nat.reduceMul, Nat.reduceAdd] at h0 h1 h2
  cases hr0 : scanEntryError s 0 ((segmentContent s len).getD 1 0#8) ((segmentContent s len).getD 2 0#8) with
  | some e =>
    rw [hr0] at h0
    exact run_bind_error s h0
  | none =>
  rw [hr0] at h0
  rw [run_bind_ok s h0]
  cases hr1 : scanEntryError s 1 ((segmentContent s len).getD 3 0#8) ((segmentContent s len).getD 4 0#8) with
  | some e =>
    rw [hr1] at h1
    exact run_bind_error s h1
  | none =>
  rw [hr1] at h1
  rw [run_bind_ok s h1]
  cases hr2 : scanEntryError s 2 ((segmentContent s len).getD 5 0#8) ((segmentContent s len).getD 6 0#8) with
  | some e =>
    rw [hr2] at h2
    exact run_bind_error s h2
  | none =>
  rw [hr2] at h2
  rw [run_bind_ok s h2, run_bind_ok s (memReads_content hs hseg (i := 7) (n := 3) (by omega))]
  simp only [getD_drop, Nat.reduceAdd]
  refine run_check_verdict (by simp; tauto) rfl fun _ => ?_
  exact run_checkState_verdict (by simp [frameTablesValid]; tauto) rfl fun _ => rfl

/-- Settles O55: SOS's case in the header parse by `run_parseSos`. -/
theorem sosChecksInOrder : Obligations.SosChecksInOrder := by
  intro s len hreader hstate hs hseg
  have hcase : headerCase 0xDA#8 s = (do
      parseSos
      update fun u => setRes0 u.br.ptr (setPstate .inScan u)
      pure true : Eng Bool) s :=
    run_checkState_pass s (p := fun u => decide (u.pstate = .sof0Seen)) (by rw [hstate]; rfl) _ _
  have hparse := run_parseSos hs hseg
  cases herror : sosError s len (segmentContent s len) with
  | some e =>
    rw [herror] at hparse
    exact exec_marker_fails ⟨hreader, .inr hstate⟩ rfl (hcase.trans (run_bind_error s hparse))
  | none =>
    rw [herror] at hparse
    exact exec_marker_completes ⟨hreader, .inr hstate⟩ rfl (hcase.trans (run_bind_ok s hparse))

end Sys2Proof.Machine
end
section
/-! SOI at the start of a parse, and the markers of the checkpoints behind fill bytes (45 R570, R581, R600, R610, R615). -/

namespace Sys2Proof.Machine

/-! ### SOI (45 R600) -/

/-- An input that does not start with FF D8. -/
theorem run_expectSoiMarker_absent {s : State} (hs : ReaderOk s)
    (h : s.br.lim.toNat < s.br.ptr.toNat + 2 ∨ readBytes s s.br.ptr.toNat 2 ≠ [0xFF#8, 0xD8#8]) :
    expectSoiMarker s = .error .noSoi s := by
  obtain ⟨-, hlim, -⟩ := hs
  by_cases hroom : s.br.ptr.toNat + 2 ≤ s.br.lim.toNat
  · have hbytes : ¬(readByte s s.br.ptr.toNat = 0xFF#8 ∧ readByte s (s.br.ptr.toNat + 1) = 0xD8#8) := by
      rintro ⟨h0, h1⟩
      exact h.resolve_left (by omega) (by rw [readBytes, readBytes, readBytes, h0, h1])
    rw [expectSoiMarker, run_checkState_pass s (decide_eq_true hroom), run_get_bind,
      run_bind_ok s (run_memRead s (by omega)), run_check_bind]
    split
    case isFalse => rfl
    case isTrue h0 =>
      rw [run_bind_ok s (run_memRead s (by omega)), run_check_bind, if_neg]
      exact fun h1 => hbytes ⟨of_decide_eq_true h0, of_decide_eq_true h1⟩
  · rw [expectSoiMarker, run_checkState_fail s (decide_eq_false hroom)]

/-- Settles O47: SOI is asked for behind the start of the parse, which leaves the input as it is. -/
theorem parsehdrNeedsSoi : Obligations.ParsehdrNeedsSoi := by
  intro s hs h
  have hstart : ReaderOk (parseStart s) := ⟨hs.1, hs.2.1, Nat.zero_le 8⟩
  have habsent : expectSoiMarker (parseStart s) = .error .noSoi (parseStart s) := by
    refine run_expectSoiMarker_absent hstart (h.imp id fun hne => ?_)
    rwa [readBytes_mem_congr (s := s) (t := parseStart s) rfl rfl]
  refine runCommand_error (t := setPstate .failed (parseStart s)) ?_
  rw [doParsehdr, run_onError, run_update_bind, run_bind_error _ habsent]

/-! ### NEXTMARKER behind fill bytes (45 R581) -/

section NextMarker
variable {s : State} {n fuel : Nat} {c : Byte}

theorem InputAt.nextByte {b : Byte} {bs : List Byte} (h : InputAt (b :: bs) s) (e : ErrCode) :
    nextByte e s = .ok b (advanceReader 1 s) := by
  have hroom := h.room
  rw [List.length_cons] at hroom
  rw [run_nextByte e (by omega) h.ok.2.1, show readByte s s.br.ptr.toNat = b from h.byte 0 (by simp)]

theorem InputAt.advance_byte {b : Byte} {bs : List Byte} (h : InputAt (b :: bs) s) : InputAt bs (advanceReader 1 s) :=
  InputAt.advance (as := [b]) h rfl

/-- The code byte behind n fill bytes. -/
theorem run_codeAfterFill (h : InputAt (List.replicate n 0xFF#8 ++ [c]) s) (hc : c ≠ 0xFF#8) (hfuel : n < fuel) :
    codeAfterFill fuel s = .ok c (advanceReader (n + 1) s) := by
  obtain ⟨fuel, rfl⟩ : ∃ k, fuel = k + 1 := ⟨fuel - 1, by omega⟩
  induction n generalizing s fuel with
  | zero =>
    rw [codeAfterFill, run_bind_ok s (h.nextByte .noEoi), if_neg hc]
    rfl
  | succ n ih =>
    obtain ⟨fuel, rfl⟩ : ∃ k, fuel = k + 1 := ⟨fuel - 1, by omega⟩
    rw [List.replicate_succ, List.cons_append] at h
    rw [codeAfterFill, run_bind_ok s (h.nextByte .noEoi), if_pos rfl, ih h.advance_byte fuel (by omega),
      advanceReader_advanceReader, Nat.add_comm 1]

theorem advanceReader_zero (s : State) : advanceReader 0 s = s := by simp [advanceReader]

/-- At the end of the input there is no byte (45 R580). -/
theorem run_nextByte_end (h : s.br.ptr = s.br.lim) (e : ErrCode) : nextByte e s = .error e s := by
  have hout : ¬s.br.ptr.toNat < s.br.lim.toNat := by rw [h]; exact Nat.lt_irrefl _
  rw [nextByte, run_checkState_fail s (decide_eq_false hout)]

/-- The rest of the input, all of it, is n fill bytes. -/
structure OnlyFill (n : Nat) (s : State) : Prop where
  input : InputAt (List.replicate n 0xFF#8) s
  last : s.br.ptr.toNat + n = s.br.lim.toNat

theorem OnlyFill.atEnd (h : OnlyFill 0 s) : s.br.ptr = s.br.lim := BitVec.eq_of_toNat_eq h.last

theorem OnlyFill.nextByte (h : OnlyFill (n + 1) s) (e : ErrCode) : nextByte e s = .ok 0xFF#8 (advanceReader 1 s) :=
  InputAt.nextByte (bs := List.replicate n 0xFF#8) h.input e

theorem OnlyFill.advance (h : OnlyFill (n + 1) s) : OnlyFill n (advanceReader 1 s) where
  input := InputAt.advance_byte (b := 0xFF#8) h.input
  last := by
    have hlast := h.last
    have hptr : (advanceReader 1 s).br.ptr.toNat = s.br.ptr.toNat + 1 :=
      pointer_add_ofNat_toNat (lim := s.br.lim) (by omega)
    rw [hptr, Nat.add_assoc, Nat.add_comm 1]
    exact hlast

/-- Behind nothing but fill bytes there is no code byte. -/
theorem OnlyFill.codeAfterFill (h : OnlyFill n s) (fuel : Nat) :
    ∃ k, codeAfterFill fuel s = .error .noEoi (advanceReader k s) := by
  induction fuel generalizing s n with
  | zero => exact ⟨0, by rw [advanceReader_zero]; rfl⟩
  | succ fuel ih =>
    cases n with
    | zero => exact ⟨0, by rw [Machine.codeAfterFill, run_bind_error s (run_nextByte_end h.atEnd _), advanceReader_zero]⟩
    | succ n =>
      obtain ⟨k, hk⟩ := ih h.advance
      exact ⟨1 + k, by
        rw [Machine.codeAfterFill, run_bind_ok s (h.nextByte _), if_pos rfl, hk, advanceReader_advanceReader]⟩

/-- NEXTMARKER takes a marker with its fill bytes. -/
theorem run_nextMarker_fill (h : InputAt (markerBytes n c) s) (hc : c ≠ 0xFF#8) :
    nextMarker s = .ok c (advanceReader (n + 2) s) := by
  rw [markerBytes, List.replicate_succ, List.cons_append] at h
  have hrest := h.advance_byte
  have hroom := hrest.room
  rw [List.length_append, List.length_replicate, List.length_singleton] at hroom
  rw [nextMarker, run_bind_ok s (h.nextByte .noEoi), run_check_bind, if_pos (by decide), run_get_bind,
    run_codeAfterFill hrest hc (by rw [bytesLeft]; omega), advanceReader_advanceReader, show 1 + (n + 1) = n + 2 by omega]

/-- A byte that is no FF is no marker. -/
theorem run_nextMarker_noMarker (hs : ReaderOk s) (hroom : s.br.ptr.toNat < s.br.lim.toNat)
    (hb : readByte s s.br.ptr.toNat ≠ 0xFF#8) : nextMarker s = .error .unexpectedMarker (advanceReader 1 s) := by
  rw [nextMarker, run_bind_ok s (run_nextByte .noEoi hroom hs.2.1), run_check_bind, if_neg (by simpa using hb)]

/-- An input of fill bytes only, or of nothing, has no marker. -/
theorem OnlyFill.nextMarker (h : OnlyFill n s) : ∃ k, nextMarker s = .error .noEoi (advanceReader k s) := by
  cases n with
  | zero => exact ⟨0, by rw [Machine.nextMarker, run_bind_error s (run_nextByte_end h.atEnd _), advanceReader_zero]⟩
  | succ n =>
    obtain ⟨k, hk⟩ := h.advance.codeAfterFill (bytesLeft (advanceReader 1 s))
    exact ⟨1 + k, by
      rw [Machine.nextMarker, run_bind_ok s (h.nextByte _), run_check_bind, if_pos (by decide), run_get_bind, hk,
        advanceReader_advanceReader]⟩

theorem onlyFill_of_readBytes (hs : ReaderOk s)
    (h : readBytes s s.br.ptr.toNat (bytesLeft s) = List.replicate (bytesLeft s) 0xFF#8) : OnlyFill (bytesLeft s) s := by
  have hlast : s.br.ptr.toNat + bytesLeft s = s.br.lim.toNat := Nat.add_sub_cancel' hs.1
  exact ⟨⟨hs, by rw [List.length_replicate, hlast], by rw [List.length_replicate]; exact h⟩, hlast⟩

end NextMarker

/-! ### The checkpoints by what NEXTMARKER finds (45 R610, R615) -/

/-- The code byte a restart check expects (45 R610). -/
theorem rstCode_iff (c : Byte) (m : BitVec 3) : c.toNat = 0xD0 + m.toNat ↔ c = 0xD0#8 + m.setWidth 8 := by
  have hm := m.isLt
  have hsum : (0xD0#8 + m.setWidth 8).toNat = 0xD0 + m.toNat := by
    rw [BitVec.toNat_add, BitVec.toNat_setWidth, BitVec.toNat_ofNat]
    omega
  rw [← BitVec.toNat_inj, hsum]

/-- It is not FF. -/
theorem rstCode_ne_ff (m : BitVec 3) : 0xD0#8 + m.setWidth 8 ≠ 0xFF#8 := by
  revert m
  decide

section Checkpoint
variable {s u : State} {c : Byte} {e : ErrCode} (hscan : s.pstate = .inScan)
include hscan

/-- The marker of a restart check is fetched. -/
theorem run_doRstchk_code (h : nextMarker (dropPadding s) = .ok c u) (hc : c = 0xD0#8 + u.rstNext.setWidth 8) :
    doRstchk s = .ok () (clearPreds { u with rstNext := u.rstNext + 1#3 }) := by
  rw [doRstchk, run_checkInScan_bind hscan, run_onError, run_update_bind, run_bind_ok _ h, restartCase,
    run_checkState_pass u (decide_eq_true ((rstCode_iff c _).2 hc)), run_update]

theorem run_doRstchk_otherCode (h : nextMarker (dropPadding s) = .ok c u) (hc : c ≠ 0xD0#8 + u.rstNext.setWidth 8) :
    doRstchk s = .error .unexpectedMarker (setPstate .failed u) := by
  rw [doRstchk, run_checkInScan_bind hscan, run_onError, run_update_bind, run_bind_ok _ h, restartCase,
    run_checkState_fail u (decide_eq_false ((rstCode_iff c _).not.2 hc))]

theorem run_doRstchk_noCode (h : nextMarker (dropPadding s) = .error e u) :
    doRstchk s = .error e (setPstate .failed u) := by
  rw [doRstchk, run_checkInScan_bind hscan, run_onError, run_update_bind, run_bind_error _ h]

theorem run_doEoichk_code (h : nextMarker (dropPadding s) = .ok c u) (hc : c = 0xD9#8) :
    doEoichk s = .ok () (setPstate .terminal u) := by
  rw [doEoichk, run_checkInScan_bind hscan, run_onError, run_update_bind,
    run_bind_ok _ (a := c) (t := u) (by rw [run_replaceError, h]), endCase, run_check_bind, if_pos (decide_eq_true hc),
    run_update]

theorem run_doEoichk_otherCode (h : nextMarker (dropPadding s) = .ok c u) (hc : c ≠ 0xD9#8) :
    doEoichk s = .error .noEoi (setPstate .failed u) := by
  rw [doEoichk, run_checkInScan_bind hscan, run_onError, run_update_bind,
    run_bind_ok _ (a := c) (t := u) (by rw [run_replaceError, h]), endCase, run_check_bind, if_neg (by simpa using hc)]

theorem run_doEoichk_noCode (h : nextMarker (dropPadding s) = .error e u) :
    doEoichk s = .error .noEoi (setPstate .failed u) := by
  rw [doEoichk, run_checkInScan_bind hscan, run_onError, run_update_bind,
    run_bind_error _ (e := .noEoi) (t := u) (by rw [run_replaceError, h])]

end Checkpoint

/-- The error of a checkpoint, FAILED, the predictors as before. -/
theorem runCommand_failed {x : Eng Unit} {s u : State} {e : ErrCode} (h : x s = .error e (setPstate .failed u))
    (hpred : u.pred = s.pred) :
    ∃ t, runCommand x s = .next t ∧ t.status.errCode = errNumber e ∧ t.pstate = .failed ∧ t.pred = s.pred :=
  ⟨_, runCommand_error h, rfl, rfl, hpred⟩

theorem exec_rstchk (s : State) : exec .rstchk s = runCommand doRstchk s := rfl

theorem exec_eoichk (s : State) : exec .eoichk s = runCommand doEoichk s := rfl

/-- Where NEXTMARKER fails RSTCHK ends with its error, EOICHK with ERR_NO_EOI. -/
theorem checkpoints_noCode {s u : State} {e : ErrCode} (hscan : s.pstate = .inScan)
    (h : nextMarker (dropPadding s) = .error e u) (hpred : u.pred = s.pred) :
    (∃ t, exec .rstchk s = .next t ∧ t.status.errCode = errNumber e ∧ t.pstate = .failed ∧ t.pred = s.pred)
      ∧ ∃ t, exec .eoichk s = .next t ∧ t.status.errCode = 12#8 ∧ t.pstate = .failed := by
  refine ⟨runCommand_failed (run_doRstchk_noCode hscan h) hpred, ?_⟩
  obtain ⟨t, ht, hcode, hstate, -⟩ := runCommand_failed (run_doEoichk_noCode hscan h) hpred
  exact ⟨t, ht, hcode, hstate⟩

/-- A marker with its fill bytes at BR_PTR is what the checks fetch behind the dropped padding bits. -/
theorem nextMarker_dropPadding {s : State} {fill : Nat} {c : Byte} (hs : ReaderOk s)
    (hroom : s.br.ptr.toNat + fill + 2 ≤ s.br.lim.toNat) (hc : c ≠ 0xFF#8)
    (hread : readBytes s s.br.ptr.toNat (fill + 2) = markerBytes fill c) :
    nextMarker (dropPadding s) = .ok c (advanceReader (fill + 2) (dropPadding s)) := by
  have hlength : (markerBytes fill c).length = fill + 2 := by simp [markerBytes]
  have hin : InputAt (markerBytes fill c) s := ⟨hs, by rw [hlength]; omega, by rw [hlength]; exact hread⟩
  exact run_nextMarker_fill (hin.congr rfl rfl (Nat.zero_le 8) rfl rfl rfl) hc

/-- Settles O48: what NEXTMARKER finds behind the dropped padding bits, and what the two checks do with it. -/
theorem restartAndEndChecks : Obligations.RestartAndEndChecks := by
  refine fun s => ⟨fun hout => ⟨runCommand_error (run_doRstchk_outside hout), runCommand_error (run_doEoichk_outside hout)⟩,
    fun hscan hs => ⟨fun fill hroom => ⟨fun hread => ?_, fun hread => ?_, fun c hff hread => ⟨fun hc => ?_, fun hc => ?_⟩⟩,
      fun hroom hb => ?_, fun hfill => ?_⟩⟩
  · have hnext := nextMarker_dropPadding hs hroom (rstCode_ne_ff s.rstNext) hread
    exact runCommand_ok (run_doRstchk_code hscan hnext rfl)
  · have hnext := nextMarker_dropPadding hs hroom (by decide) hread
    exact runCommand_ok (run_doEoichk_code hscan hnext rfl)
  · have hnext := nextMarker_dropPadding hs hroom hff hread
    exact runCommand_failed (run_doRstchk_otherCode hscan hnext hc) rfl
  · have hnext := nextMarker_dropPadding hs hroom hff hread
    obtain ⟨t, ht, hcode, hstate, -⟩ := runCommand_failed (run_doEoichk_otherCode hscan hnext hc) rfl
    exact ⟨t, ht, hcode, hstate⟩
  · have hdropped : ReaderOk (dropPadding s) := ⟨hs.1, hs.2.1, Nat.zero_le 8⟩
    have hnext := run_nextMarker_noMarker hdropped hroom hb
    exact checkpoints_noCode hscan hnext rfl
  · have hdropped : ReaderOk (dropPadding s) := ⟨hs.1, hs.2.1, Nat.zero_le 8⟩
    have honly : OnlyFill (bytesLeft s) (dropPadding s) := onlyFill_of_readBytes hdropped
      ((readBytes_mem_congr (s := s) (t := dropPadding s) rfl rfl _ _).trans hfill)
    obtain ⟨k, hnext⟩ := honly.nextMarker
    exact checkpoints_noCode hscan hnext rfl

end Sys2Proof.Machine
end

section
/-! UPSCC as a command: its checks in their order, and an MCU that may stand across the edge of the image (46 R640 to R655; 60
R760). -/

namespace Sys2Proof.Machine

/-! ### The pixels of an MCU inside the image (46 R650, R655) -/

section WriteClipped
variable {s0 : State} {ss : Subsampling} {bgr : Bool} {out w h : Nat} {p : Nat × Nat}

/-- The pixel q of the MCU at p lies in the image; the others are padding (46 R655). -/
def InImage (ss : Subsampling) (w h : Nat) (p q : Nat × Nat) : Prop :=
  mcuW ss * p.1 + q.1 < w ∧ mcuH ss * p.2 + q.2 < h

theorem writePixel_inImage {q : Nat × Nat} (hq : InImage ss w h p q) (s : State) :
    writePixel s0 ss bgr out w h p.1 p.2 q.1 q.2 s
      = writeBytes (out + 3 * pixelIndex ss w p q) (pixelBytes bgr (mcuPixel s0 ss q.1 q.2)) s :=
  if_pos hq

theorem writePixel_padding {q : Nat × Nat} (hq : ¬ InImage ss w h p q) (s : State) :
    writePixel s0 ss bgr out w h p.1 p.2 q.1 q.2 s = s :=
  if_neg hq

/-- A byte of no written pixel stays. -/
theorem readByte_writePixels_apart {qs : List (Nat × Nat)} {a : Nat}
    (ha : ∀ q ∈ qs, InImage ss w h p q → a < out + 3 * pixelIndex ss w p q ∨ out + 3 * pixelIndex ss w p q + 3 ≤ a)
    (s : State) : readByte (writePixels s0 ss bgr out w h p.1 p.2 qs s) a = readByte s a := by
  induction qs generalizing s with
  | nil => rfl
  | cons q qs ih =>
    rw [List.forall_mem_cons] at ha
    obtain ⟨hq, hqs⟩ := ha
    rw [writePixels, ih hqs]
    by_cases hin : InImage ss w h p q
    · rw [writePixel_inImage hin, readByte_writeBytes_outside s (by rw [pixelBytes_length]; exact hq hin)]
    · rw [writePixel_padding hin]

/-- The pixels of an MCU stand apart, so each of them that lies in the image is read back. -/
theorem readBytes_writePixels_inImage {qs : List (Nat × Nat)} (hqs : ∀ r ∈ qs, InMcu ss r) {q : Nat × Nat} (hq : q ∈ qs)
    (hin : InImage ss w h p q) (s : State) :
    readBytes (writePixels s0 ss bgr out w h p.1 p.2 qs s) (out + 3 * pixelIndex ss w p q) 3
      = pixelBytes bgr (mcuPixel s0 ss q.1 q.2) := by
  induction qs generalizing s with
  | nil => cases hq
  | cons r qs ih =>
    rw [List.forall_mem_cons] at hqs
    rw [writePixels]
    by_cases hmem : q ∈ qs
    · exact ih hqs.2 hmem _
    · obtain rfl : q = r := (List.mem_cons.1 hq).resolve_right hmem
      refine (readBytes_congr 3 _ fun a h1 h2 => readByte_writePixels_apart (fun r hr hrin => ?_) _).trans ?_
      · have hne : pixelIndex ss w p r ≠ pixelIndex ss w p q := fun he =>
          hmem ((pixelIndex_inj (hqs.2 r hr) hqs.1 hrin.1 hin.1 he).2 ▸ hr)
        omega
      · rw [writePixel_inImage hin, readBytes_writeBytes_pixel (pixelBytes_length ..), if_pos rfl]

end WriteClipped

/-! ### The command (46 R650; 60 R760) -/

theorem exec_upscc (t : BitVec 2) (x : BitVec 4) (s : State) :
    exec (.upscc t x) s = runCommand (doUpscc t x s.argL[0] s.argL[1] s.argL[2]) s := rfl

/-- UPSCC with legal fields: the checks in their order, then the pixels of the MCU (46 R650, 60 R760). -/
theorem run_doUpscc {t : BitVec 2} {x : BitVec 4} (hx : x.toNat < 2) (ht : t = 1#2 ∨ t = 2#2) (out dims pos : Word)
    (s : State) :
    doUpscc t x out dims pos s =
      if lowHalf dims = 0 ∨ highHalf dims = 0 then .error .dimensions s
      else if lowHalf dims ≤ lowHalf pos * mcuW (subsamplingOf t)
          ∨ highHalf dims ≤ highHalf pos * mcuH (subsamplingOf t) then .error .command s
      else if s.memBytes < out.toNat + 3 * lowHalf dims * highHalf dims then .error .bounds s
      else .ok () (writePixels s (subsamplingOf t) (x.getLsbD 0) out.toNat (lowHalf dims) (highHalf dims) (lowHalf pos)
        (highHalf pos) (mcuPixels (subsamplingOf t)) s) := by
  have hlayout : (decide (t = 1#2) || decide (t = 2#2)) = true := by simpa using ht
  rw [doUpscc, run_check_bind, if_pos (decide_eq_true hx), run_check_bind, if_pos hlayout, run_checkMcu_bind]
  congr 2
  by_cases hsize : s.memBytes < out.toNat + 3 * lowHalf dims * highHalf dims
  · rw [if_pos hsize, run_bind_error s (run_checkExtent_outside s _ _ hsize)]
  · rw [if_neg hsize, run_bind_ok s (run_checkExtent s _ _ (by omega)), run_update]

/-- Settles O44: `run_doUpscc` branch by branch, and the pixels of the MCU byte by byte. -/
theorem upsccWritesTheMcuPixels : Obligations.UpsccWritesTheMcuPixels := by
  intro tt x s ss out w h mx my pixel
  constructor
  · intro hillegal
    apply exec_illegalField
    rcases hillegal with hx | rfl | rfl
    · rw [Instr.wf, decide_eq_false (Nat.not_lt.2 hx), Bool.and_false]
    · rfl
    · rfl
  intro hx ht
  have hrun : doUpscc tt x s.argL[0] s.argL[1] s.argL[2] s =
      if w = 0 ∨ h = 0 then .error .dimensions s
      else if w ≤ mx * mcuW ss ∨ h ≤ my * mcuH ss then .error .command s
      else if s.memBytes < out + 3 * w * h then .error .bounds s
      else .ok () (writePixels s ss (x.getLsbD 0) out w h mx my (mcuPixels ss) s) := run_doUpscc hx ht _ _ _ s
  rw [exec_upscc, runCommand, hrun]
  refine ⟨fun h0 => ?_, fun ⟨hw, hh, hout⟩ => ?_, fun ⟨hcol, hrow, hsize⟩ => ?_, fun ⟨hcol, hrow, hsize⟩ => ?_⟩
  · rw [if_pos h0, finish]
  · rw [if_neg (by omega), if_pos hout, finish]
  · rw [if_neg (by omega), if_neg (by omega), if_pos hsize, finish]
  · rw [if_neg (by omega), if_neg (by omega), if_neg (by omega), finish]
    refine ⟨_, rfl, succeeded_complete_none _, fun px py hpx hpy hxw hyh => ?_, fun a ha => ?_⟩
    · rw [readBytes_mem_congr (complete_mem ..) (complete_undef ..)]
      exact readBytes_writePixels_inImage (p := (mx, my)) (q := (px, py)) (fun _ => mem_mcuPixels.1)
        (mem_mcuPixels.2 ⟨hpx, hpy⟩) ⟨hxw, hyh⟩ s
    · rw [readByte_congr (complete_mem ..) (complete_undef ..)]
      exact readByte_writePixels_apart (p := (mx, my))
        (fun q hq hin => ha q.1 q.2 (mem_mcuPixels.1 hq).1 (mem_mcuPixels.1 hq).2 hin.1 hin.2) s

end Sys2Proof.Machine
end

section
/-! The system commands, the issue and the completion of a command, and the interrupt level (10 R59, R61, R62; 48 R720, R721; 60
R750 to R757, R770, R786). -/

namespace Sys2Proof.Machine

/-! ### NOP and PREDCLR (48 R720, R721) -/

/-- Settles O27: the body of each command ends well, in the same state and in that of the cleared predictors. -/
theorem nopAndPredclrComplete : Obligations.NopAndPredclrComplete := fun s =>
  ⟨runCommand_ok (run_pure s ()), runCommand_ok (run_update s clearPreds)⟩

/-! ### Writes to CTRL, STATUS and CMD (10 R59, R61, R62; 60 R757, R786) -/

theorem step_writeCtrl (w : Word) (s : State) (rest : List Move) :
    step { s with agenda := .host (.writeCsr 0x004 .word w) :: rest } = .next (writeCtrl w { s with agenda := rest }) :=
  step_writeCsr (by decide) (by decide) w s rest

theorem step_writeStatus (w : Word) (s : State) (rest : List Move) :
    step { s with agenda := .host (.writeCsr 0x008 .word w) :: rest }
      = .next { s with agenda := rest, status := statusClear w s.status } :=
  step_writeCsr (by decide) (by decide) w s rest

theorem step_writeCmd (w : Word) (s : State) (rest : List Move) :
    step { s with agenda := .host (.writeCsr 0x00C .word w) :: rest } = .next (issue w { s with agenda := rest }) :=
  step_writeCsr (by decide) (by decide) w s rest

theorem issue_of_busy {s : State} (h : s.status.busy = true) (w : Word) : issue w s = { s with status.ovr := true } :=
  if_pos h

theorem issue_of_idle {s : State} (h : s.status.busy = false) (w : Word) :
    issue w s = { s with cmdL := w, argL := s.arg, status := statusIssue s.status } :=
  if_neg (Bool.eq_false_iff.mp h)

/-- Settles O8: the write is `issue`, dropped while BUSY and accepted while idle. -/
theorem cmdWriteIssuesOrSetsOvr : Obligations.CmdWriteIssuesOrSetsOvr := by
  intro s rest w
  constructor
  · intro hbusy
    rw [step_writeCmd, issue_of_busy (s := { s with agenda := rest }) hbusy]
  · intro hidle
    rw [step_writeCmd, issue_of_idle (s := { s with agenda := rest }) hidle, statusIssue]

/-! ### STATUS at completion (60 R750, R756) -/

/-- No error has the number 0 (60 R750). -/
theorem errNumber_ne_zero (e : ErrCode) : errNumber e ≠ 0#8 := by
  cases e <;> decide

/-- ERR is set exactly with a code (60 R756). -/
theorem statusComplete_err_iff (e : Option ErrCode) (st : Status) :
    (statusComplete e st).err = true ↔ (statusComplete e st).errCode ≠ 0#8 :=
  match e with
  | none => by simp [statusComplete, completionCode]
  | some e => iff_of_true rfl (errNumber_ne_zero e)

/-- A completion has a code that 60 R750 lists. -/
theorem completionCode_listed (e : Option ErrCode) :
    (completionCode e).toNat ∈ [0, 1, 2, 3, 4, 5, 6, 7, 8, 9, 10, 11, 12, 13, 16, 17, 18] := by
  cases e with
  | none => decide
  | some e => cases e <;> decide

/-- DONE is set at completion, so the level is IE (60 R756, R770). -/
@[simp] theorem irq_complete (e : Option ErrCode) (s : State) : irq (complete e s) = s.ie := Bool.and_true _

/-! ### Every command completes (60 R755, R756) -/

/-- A command, unlike a marker, is a body and its completion. -/
theorem exec_command {i : Instr} {v : Word} (h : encode i = .command v) (s : State) :
    ∃ x : Eng Unit, exec i s = runCommand x s := by
  cases i
  case nop | predclr | bwinit | bwflush | close | brinit | bralign | fdct | idct | quant | dequant | zigzag | unzigzag
      | qbuild | qload | henc | hdec | hload | cconv | upscc | hdrw | parsehdr | rstchk | eoichk | encode | decode =>
    exact ⟨_, rfl⟩
  all_goals cases h

/-- A command's step ends in its completion, with or without error (60 R755, R756). -/
theorem exec_completes {w : Word} {i : Instr} (h : decodeCommand w = .ok i) (s : State) :
    ∃ e u, exec i s = .next (complete e u) := by
  obtain ⟨v, hv⟩ := encode_of_decodeCommand h
  obtain ⟨x, hx⟩ := exec_command hv s
  obtain ⟨e, he⟩ := finish_eq_complete (x s)
  exact ⟨e, _, by rw [hx, runCommand, he]⟩

/-- A part that is no slot is no slot of an MCU. -/
theorem isMcuSlot_eq_false {p : Part} (h : ∀ d, p.isSlot d = false) (ss : Subsampling) : p.isMcuSlot ss = false := by
  simp [Part.isMcuSlot, h]

/-- Only DECODE writes RESIZED (47 R694). -/
theorem mayChange_resized {i : Instr} (h : i ≠ .decode) (s : State) : mayChange s i .resized = false := by
  cases i
  case decode => exact absurd rfl h
  case cconv | encode => exact isMcuSlot_eq_false (fun _ => rfl) _
  all_goals rfl

/-- No instruction writes the control part. -/
theorem mayChange_control (i : Instr) (s : State) : mayChange s i .control = false := by
  cases i
  case cconv | encode => exact isMcuSlot_eq_false (fun _ => rfl) _
  all_goals rfl

/-- Settles O9: the command's step is a completion; what it leaves of STATUS is its frame. -/
theorem everyCommandCompletes : Obligations.EveryCommandCompletes := by
  intro w i s hi
  obtain ⟨e, u, hexec⟩ := exec_completes hi s
  exact ⟨complete e u, hexec, rfl, rfl, statusComplete_err_iff e u.status, completionCode_listed e,
    fun hdecode => commandsChangeOnlyListedParts w i s _ .resized hi hexec (mayChange_resized hdecode s), irq_complete e u⟩

/-! ### The interrupt level (60 R770) -/

theorem irq_of_done_clear {s : State} (h : s.status.done = false) : irq s = false := by
  rw [irq, h, Bool.and_false]

theorem irq_of_ie_clear {s : State} (h : s.ie = false) : irq s = false := by
  rw [irq, h, Bool.false_and]

/-- A write of 1 to STATUS.DONE clears it (10 R62). -/
theorem statusClear_done {m : Word} (h : m.getLsbD 1 = true) (st : Status) : (statusClear m st).done = false := by
  simp only [statusClear, h, Bool.not_true, Bool.and_false]

/-- A write to CTRL with bit 0 clear leaves IE clear, be it a soft reset or not (10 R61, 70 R802). -/
theorem writeCtrl_ie {m : Word} (h : m.getLsbD 0 = false) (s : State) : (writeCtrl m s).ie = false := by
  unfold writeCtrl
  split
  · obtain ⟨mem, undef, hreset⟩ := softReset_cases s
    rw [hreset]
    rfl
  · exact h

/-- While BUSY the engine's move is a completion, of a command or of an illegal word, and IE stays (30 R201; 60 R756). -/
theorem engineMove_completes {s : State} (hbusy : s.status.busy = true) :
    ∃ e u, engineMove s = .next (complete e u) ∧ u.ie = s.ie := by
  cases hdec : decodeCommand s.cmdL with
  | ok i =>
    obtain ⟨e, u, hexec⟩ := exec_completes hdec s
    obtain ⟨hie, -⟩ : Part.control.same s (complete e u) :=
      commandsChangeOnlyListedParts s.cmdL i s _ .control hdec hexec (mayChange_control i s)
    exact ⟨e, u, (engineMove_busy hbusy hdec).trans hexec, hie⟩
  | error _ => exact ⟨some .command, s, by simp only [engineMove, if_pos hbusy, hdec], rfl⟩

/-- Settles O10: each of the host's three writes clears DONE or IE, and the engine's step while BUSY is a completion. -/
theorem irqIsIeAndDone : Obligations.IrqIsIeAndDone := by
  refine ⟨fun s => Bool.and_eq_true_iff, rfl, fun s t rest w hdone h => ?_, fun s t rest w hidle h => ?_,
    fun s t rest w hie h => ?_, fun s t hagenda hbusy hie h => ?_⟩
  · rw [step_writeStatus] at h
    cases h
    exact irq_of_done_clear (statusClear_done hdone s.status)
  · rw [step_writeCmd, issue_of_idle (s := { s with agenda := rest }) hidle] at h
    cases h
    exact irq_of_done_clear rfl
  · rw [step_writeCtrl] at h
    cases h
    exact irq_of_ie_clear (writeCtrl_ie hie _)
  · obtain ⟨e, u, hmove, hu⟩ := engineMove_completes hbusy
    have hstep : step s = .next (complete e u) := by simp only [step, hagenda, hmove]
    rw [hstep] at h
    cases h
    rw [irq_complete, hu, hie]

end Sys2Proof.Machine
end
